-- ==== Sys2Proof/Word.lean ====
section
/-! DEFINITION. The two word widths of the hardware (00_scope.md R5, R6): XLEN = 8 and PCLEN = 16. -/

namespace Sys2Proof

/-- A byte: the width of A, X, Y, SP and every memory byte (00_scope.md R5 XLEN). -/
abbrev Byte := BitVec 8

/-- A word: the width of PC and of every address (00_scope.md R5 PCLEN). -/
abbrev Word := BitVec 16

end Sys2Proof
end

