-- ==== Sys2Proof/Config.lean ====
section
/-! DEFINITION. A bus access, and the free values of the model: what devices and other external agents answer or do between ticks
(00_scope.md R11, 92_eei_decisions.md D19, D32). Each is an opaque constant without a body, so that a claim holds
whatever they are. The parameters of 00_scope.md R5 are fields of State (Machine/State.lean). -/

namespace Sys2Proof

/-- One bus access (20_memory.md R71, R76), with what it is to the region that takes it. -/
inductive BusAccess where
  /-- A read answered by RAM, read-only storage or a paged ROM. -/
  | read (addr : Word) (value : Byte)
  /-- A write taken by RAM. -/
  | write (addr : Word) (value : Byte)
  /-- `readRegister(register)` of a device, and the byte it answered (20_memory.md R66). -/
  | readRegister (device register : Nat) (addr : Word) (value : Byte)
  /-- `writeRegister(register, value)`, the event recorded for a device (20_memory.md R66). -/
  | writeRegister (device register : Nat) (addr : Word) (value : Byte)
  deriving DecidableEq, Repr

/-- A bus access without the region that takes it: whether it is a write, its address and its byte (00_scope.md R8). -/
def BusAccess.line : BusAccess → Bool × Word × Byte
  | .read a v => (false, a, v)
  | .write a v => (true, a, v)
  | .readRegister _ _ a v => (false, a, v)
  | .writeRegister _ _ a v => (true, a, v)

/-- Whether a bus access is a write, and its address. -/
def BusAccess.place (access : BusAccess) : Bool × Word := (access.line.1, access.line.2.1)

/-- FREE VALUE: the byte device `device` answers when its register `register` is read in tick `tick`, after the
accesses `history` (20_memory.md R66; DESIGN CHOICE, safe, log 7). -/
opaque Config.deviceRead (device register tick : Nat) (history : List BusAccess) : Byte

/-- FREE VALUE: the level of source `source`'s IRQ line after tick `tick` (60_exceptions.md R401; safe, log 8). -/
opaque Config.irqLevel (source tick : Nat) (history : List BusAccess) : Bool

/-- FREE VALUE: the level of source `source`'s NMI line after tick `tick` (60_exceptions.md R401; safe, log 8). -/
opaque Config.nmiLevel (source tick : Nat) (history : List BusAccess) : Bool

/-- FREE VALUE: what the external agent selects for paged-ROM region `slot` after tick `tick` (20_memory.md R65;
safe, log 9). -/
opaque Config.bankSelect (slot tick : Nat) (history : List BusAccess) : Nat

end Sys2Proof
end

