-- ==== Sys2Proof/Syntax.lean ====
section
/-! DEFINITION. The syntax of the instruction set: mnemonics, addressing modes, instruction classes and the one
inductive `Instr`, with one constructor for each of the 152 rows of spec/opcode_table.json (30_encoding.md R100 to R104). -/

namespace Sys2Proof

/-- The 57 mnemonics of 30_encoding.md R104: the 56 of the documented NMOS 6502 and HLT (R106). -/
inductive Mnemonic where
  | lda | ldx | ldy | sta | stx | sty | tax | tay | txa | tya | tsx | txs
  | adc | sbc | and | ora | eor | cmp | cpx | cpy | bit | inc | dec | inx
  | iny | dex | dey | asl | lsr | rol | ror | jmp | jsr | rts | bcc | bcs
  | beq | bne | bmi | bpl | bvc | bvs | pha | pla | php | plp | clc | sec
  | cli | sei | cld | sed | clv | nop | brk | rti | hlt
  deriving DecidableEq, Repr

/-- The thirteen addressing modes of 30_encoding.md R101. -/
inductive Mode where
  | imp | acc | imm | zp | zpx | zpy | rel | abs | abx | aby | ind | izx | izy
  deriving DecidableEq, Repr

/-- The seven instruction classes of 30_encoding.md R112. -/
inductive InstrClass where
  | read | write | readModifyWrite | jump | branch | stack | implied
  deriving DecidableEq, Repr

/-- The number of operand bytes a mode has; with the opcode byte it fixes the length (30_encoding.md R100, R101). -/
def Mode.operandBytes : Mode → Nat
  | .imp => 0 | .acc => 0
  | .imm => 1 | .zp => 1 | .zpx => 1 | .zpy => 1 | .rel => 1 | .izx => 1 | .izy => 1
  | .abs => 2 | .abx => 2 | .aby => 2 | .ind => 2

/-- An instruction, as (mnemonic, addressing mode, operand). The operand of a branch is the raw displacement byte
(30_encoding.md R103); a one-byte operand is a `Byte`, a two-byte operand the `Word` of R102. -/
inductive Instr where
  /-- LDA IMM, opcode 0xA9 (R230). -/
  | ldaImm (v : Byte)
  /-- LDA ZP, opcode 0xA5 (R230). -/
  | ldaZp (z : Byte)
  /-- LDA ZPX, opcode 0xB5 (R230). -/
  | ldaZpx (z : Byte)
  /-- LDA ABS, opcode 0xAD (R230). -/
  | ldaAbs (w : Word)
  /-- LDA ABX, opcode 0xBD (R230). -/
  | ldaAbx (w : Word)
  /-- LDA ABY, opcode 0xB9 (R230). -/
  | ldaAby (w : Word)
  /-- LDA IZX, opcode 0xA1 (R230). -/
  | ldaIzx (z : Byte)
  /-- LDA IZY, opcode 0xB1 (R230). -/
  | ldaIzy (z : Byte)
  /-- LDX IMM, opcode 0xA2 (R231). -/
  | ldxImm (v : Byte)
  /-- LDX ZP, opcode 0xA6 (R231). -/
  | ldxZp (z : Byte)
  /-- LDX ZPY, opcode 0xB6 (R231). -/
  | ldxZpy (z : Byte)
  /-- LDX ABS, opcode 0xAE (R231). -/
  | ldxAbs (w : Word)
  /-- LDX ABY, opcode 0xBE (R231). -/
  | ldxAby (w : Word)
  /-- LDY IMM, opcode 0xA0 (R232). -/
  | ldyImm (v : Byte)
  /-- LDY ZP, opcode 0xA4 (R232). -/
  | ldyZp (z : Byte)
  /-- LDY ZPX, opcode 0xB4 (R232). -/
  | ldyZpx (z : Byte)
  /-- LDY ABS, opcode 0xAC (R232). -/
  | ldyAbs (w : Word)
  /-- LDY ABX, opcode 0xBC (R232). -/
  | ldyAbx (w : Word)
  /-- STA ZP, opcode 0x85 (R233). -/
  | staZp (z : Byte)
  /-- STA ZPX, opcode 0x95 (R233). -/
  | staZpx (z : Byte)
  /-- STA ABS, opcode 0x8D (R233). -/
  | staAbs (w : Word)
  /-- STA ABX, opcode 0x9D (R233). -/
  | staAbx (w : Word)
  /-- STA ABY, opcode 0x99 (R233). -/
  | staAby (w : Word)
  /-- STA IZX, opcode 0x81 (R233). -/
  | staIzx (z : Byte)
  /-- STA IZY, opcode 0x91 (R233). -/
  | staIzy (z : Byte)
  /-- STX ZP, opcode 0x86 (R234). -/
  | stxZp (z : Byte)
  /-- STX ZPY, opcode 0x96 (R234). -/
  | stxZpy (z : Byte)
  /-- STX ABS, opcode 0x8E (R234). -/
  | stxAbs (w : Word)
  /-- STY ZP, opcode 0x84 (R235). -/
  | styZp (z : Byte)
  /-- STY ZPX, opcode 0x94 (R235). -/
  | styZpx (z : Byte)
  /-- STY ABS, opcode 0x8C (R235). -/
  | styAbs (w : Word)
  /-- TAX IMP, opcode 0xAA (R236). -/
  | tax
  /-- TAY IMP, opcode 0xA8 (R237). -/
  | tay
  /-- TXA IMP, opcode 0x8A (R238). -/
  | txa
  /-- TYA IMP, opcode 0x98 (R239). -/
  | tya
  /-- TSX IMP, opcode 0xBA (R240). -/
  | tsx
  /-- TXS IMP, opcode 0x9A (R241). -/
  | txs
  /-- ADC IMM, opcode 0x69 (R262). -/
  | adcImm (v : Byte)
  /-- ADC ZP, opcode 0x65 (R262). -/
  | adcZp (z : Byte)
  /-- ADC ZPX, opcode 0x75 (R262). -/
  | adcZpx (z : Byte)
  /-- ADC ABS, opcode 0x6D (R262). -/
  | adcAbs (w : Word)
  /-- ADC ABX, opcode 0x7D (R262). -/
  | adcAbx (w : Word)
  /-- ADC ABY, opcode 0x79 (R262). -/
  | adcAby (w : Word)
  /-- ADC IZX, opcode 0x61 (R262). -/
  | adcIzx (z : Byte)
  /-- ADC IZY, opcode 0x71 (R262). -/
  | adcIzy (z : Byte)
  /-- SBC IMM, opcode 0xE9 (R263). -/
  | sbcImm (v : Byte)
  /-- SBC ZP, opcode 0xE5 (R263). -/
  | sbcZp (z : Byte)
  /-- SBC ZPX, opcode 0xF5 (R263). -/
  | sbcZpx (z : Byte)
  /-- SBC ABS, opcode 0xED (R263). -/
  | sbcAbs (w : Word)
  /-- SBC ABX, opcode 0xFD (R263). -/
  | sbcAbx (w : Word)
  /-- SBC ABY, opcode 0xF9 (R263). -/
  | sbcAby (w : Word)
  /-- SBC IZX, opcode 0xE1 (R263). -/
  | sbcIzx (z : Byte)
  /-- SBC IZY, opcode 0xF1 (R263). -/
  | sbcIzy (z : Byte)
  /-- AND IMM, opcode 0x29 (R264). -/
  | andImm (v : Byte)
  /-- AND ZP, opcode 0x25 (R264). -/
  | andZp (z : Byte)
  /-- AND ZPX, opcode 0x35 (R264). -/
  | andZpx (z : Byte)
  /-- AND ABS, opcode 0x2D (R264). -/
  | andAbs (w : Word)
  /-- AND ABX, opcode 0x3D (R264). -/
  | andAbx (w : Word)
  /-- AND ABY, opcode 0x39 (R264). -/
  | andAby (w : Word)
  /-- AND IZX, opcode 0x21 (R264). -/
  | andIzx (z : Byte)
  /-- AND IZY, opcode 0x31 (R264). -/
  | andIzy (z : Byte)
  /-- ORA IMM, opcode 0x09 (R265). -/
  | oraImm (v : Byte)
  /-- ORA ZP, opcode 0x05 (R265). -/
  | oraZp (z : Byte)
  /-- ORA ZPX, opcode 0x15 (R265). -/
  | oraZpx (z : Byte)
  /-- ORA ABS, opcode 0x0D (R265). -/
  | oraAbs (w : Word)
  /-- ORA ABX, opcode 0x1D (R265). -/
  | oraAbx (w : Word)
  /-- ORA ABY, opcode 0x19 (R265). -/
  | oraAby (w : Word)
  /-- ORA IZX, opcode 0x01 (R265). -/
  | oraIzx (z : Byte)
  /-- ORA IZY, opcode 0x11 (R265). -/
  | oraIzy (z : Byte)
  /-- EOR IMM, opcode 0x49 (R266). -/
  | eorImm (v : Byte)
  /-- EOR ZP, opcode 0x45 (R266). -/
  | eorZp (z : Byte)
  /-- EOR ZPX, opcode 0x55 (R266). -/
  | eorZpx (z : Byte)
  /-- EOR ABS, opcode 0x4D (R266). -/
  | eorAbs (w : Word)
  /-- EOR ABX, opcode 0x5D (R266). -/
  | eorAbx (w : Word)
  /-- EOR ABY, opcode 0x59 (R266). -/
  | eorAby (w : Word)
  /-- EOR IZX, opcode 0x41 (R266). -/
  | eorIzx (z : Byte)
  /-- EOR IZY, opcode 0x51 (R266). -/
  | eorIzy (z : Byte)
  /-- CMP IMM, opcode 0xC9 (R268). -/
  | cmpImm (v : Byte)
  /-- CMP ZP, opcode 0xC5 (R268). -/
  | cmpZp (z : Byte)
  /-- CMP ZPX, opcode 0xD5 (R268). -/
  | cmpZpx (z : Byte)
  /-- CMP ABS, opcode 0xCD (R268). -/
  | cmpAbs (w : Word)
  /-- CMP ABX, opcode 0xDD (R268). -/
  | cmpAbx (w : Word)
  /-- CMP ABY, opcode 0xD9 (R268). -/
  | cmpAby (w : Word)
  /-- CMP IZX, opcode 0xC1 (R268). -/
  | cmpIzx (z : Byte)
  /-- CMP IZY, opcode 0xD1 (R268). -/
  | cmpIzy (z : Byte)
  /-- CPX IMM, opcode 0xE0 (R269). -/
  | cpxImm (v : Byte)
  /-- CPX ZP, opcode 0xE4 (R269). -/
  | cpxZp (z : Byte)
  /-- CPX ABS, opcode 0xEC (R269). -/
  | cpxAbs (w : Word)
  /-- CPY IMM, opcode 0xC0 (R270). -/
  | cpyImm (v : Byte)
  /-- CPY ZP, opcode 0xC4 (R270). -/
  | cpyZp (z : Byte)
  /-- CPY ABS, opcode 0xCC (R270). -/
  | cpyAbs (w : Word)
  /-- BIT ZP, opcode 0x24 (R271). -/
  | bitZp (z : Byte)
  /-- BIT ABS, opcode 0x2C (R271). -/
  | bitAbs (w : Word)
  /-- INC ZP, opcode 0xE6 (R272). -/
  | incZp (z : Byte)
  /-- INC ZPX, opcode 0xF6 (R272). -/
  | incZpx (z : Byte)
  /-- INC ABS, opcode 0xEE (R272). -/
  | incAbs (w : Word)
  /-- INC ABX, opcode 0xFE (R272). -/
  | incAbx (w : Word)
  /-- DEC ZP, opcode 0xC6 (R273). -/
  | decZp (z : Byte)
  /-- DEC ZPX, opcode 0xD6 (R273). -/
  | decZpx (z : Byte)
  /-- DEC ABS, opcode 0xCE (R273). -/
  | decAbs (w : Word)
  /-- DEC ABX, opcode 0xDE (R273). -/
  | decAbx (w : Word)
  /-- INX IMP, opcode 0xE8 (R274). -/
  | inx
  /-- INY IMP, opcode 0xC8 (R275). -/
  | iny
  /-- DEX IMP, opcode 0xCA (R276). -/
  | dex
  /-- DEY IMP, opcode 0x88 (R277). -/
  | dey
  /-- ASL ACC, opcode 0x0A (R301). -/
  | aslAcc
  /-- ASL ZP, opcode 0x06 (R301). -/
  | aslZp (z : Byte)
  /-- ASL ZPX, opcode 0x16 (R301). -/
  | aslZpx (z : Byte)
  /-- ASL ABS, opcode 0x0E (R301). -/
  | aslAbs (w : Word)
  /-- ASL ABX, opcode 0x1E (R301). -/
  | aslAbx (w : Word)
  /-- LSR ACC, opcode 0x4A (R302). -/
  | lsrAcc
  /-- LSR ZP, opcode 0x46 (R302). -/
  | lsrZp (z : Byte)
  /-- LSR ZPX, opcode 0x56 (R302). -/
  | lsrZpx (z : Byte)
  /-- LSR ABS, opcode 0x4E (R302). -/
  | lsrAbs (w : Word)
  /-- LSR ABX, opcode 0x5E (R302). -/
  | lsrAbx (w : Word)
  /-- ROL ACC, opcode 0x2A (R303). -/
  | rolAcc
  /-- ROL ZP, opcode 0x26 (R303). -/
  | rolZp (z : Byte)
  /-- ROL ZPX, opcode 0x36 (R303). -/
  | rolZpx (z : Byte)
  /-- ROL ABS, opcode 0x2E (R303). -/
  | rolAbs (w : Word)
  /-- ROL ABX, opcode 0x3E (R303). -/
  | rolAbx (w : Word)
  /-- ROR ACC, opcode 0x6A (R304). -/
  | rorAcc
  /-- ROR ZP, opcode 0x66 (R304). -/
  | rorZp (z : Byte)
  /-- ROR ZPX, opcode 0x76 (R304). -/
  | rorZpx (z : Byte)
  /-- ROR ABS, opcode 0x6E (R304). -/
  | rorAbs (w : Word)
  /-- ROR ABX, opcode 0x7E (R304). -/
  | rorAbx (w : Word)
  /-- JMP ABS, opcode 0x4C (R320). -/
  | jmpAbs (w : Word)
  /-- JMP IND, opcode 0x6C (R321). -/
  | jmpInd (w : Word)
  /-- JSR ABS, opcode 0x20 (R322). -/
  | jsr (w : Word)
  /-- RTS IMP, opcode 0x60 (R323). -/
  | rts
  /-- BCC REL, opcode 0x90 (R325). -/
  | bcc (d : Byte)
  /-- BCS REL, opcode 0xB0 (R326). -/
  | bcs (d : Byte)
  /-- BEQ REL, opcode 0xF0 (R327). -/
  | beq (d : Byte)
  /-- BNE REL, opcode 0xD0 (R328). -/
  | bne (d : Byte)
  /-- BMI REL, opcode 0x30 (R329). -/
  | bmi (d : Byte)
  /-- BPL REL, opcode 0x10 (R330). -/
  | bpl (d : Byte)
  /-- BVC REL, opcode 0x50 (R331). -/
  | bvc (d : Byte)
  /-- BVS REL, opcode 0x70 (R332). -/
  | bvs (d : Byte)
  /-- PHA IMP, opcode 0x48 (R350). -/
  | pha
  /-- PLA IMP, opcode 0x68 (R351). -/
  | pla
  /-- PHP IMP, opcode 0x08 (R352). -/
  | php
  /-- PLP IMP, opcode 0x28 (R353). -/
  | plp
  /-- CLC IMP, opcode 0x18 (R354). -/
  | clc
  /-- SEC IMP, opcode 0x38 (R355). -/
  | sec
  /-- CLI IMP, opcode 0x58 (R356). -/
  | cli
  /-- SEI IMP, opcode 0x78 (R357). -/
  | sei
  /-- CLD IMP, opcode 0xD8 (R358). -/
  | cld
  /-- SED IMP, opcode 0xF8 (R359). -/
  | sed
  /-- CLV IMP, opcode 0xB8 (R360). -/
  | clv
  /-- NOP IMP, opcode 0xEA (R361). -/
  | nop
  /-- BRK IMP, opcode 0x00 (R362). -/
  | brk
  /-- RTI IMP, opcode 0x40 (R364). -/
  | rti
  /-- HLT IMP, opcode 0x02 (R365). -/
  | hlt
  deriving DecidableEq, Repr

end Sys2Proof
end

