-- ==== Sys2Proof/Decode.lean ====
section
/-! DEFINITION. The InstructionSet of 30_encoding.md: the opcode map (R104), its registration contract (R103), the
decoder, total on any bytes and rejecting by name (R105), and the encoder written from the same map (R100, R102). -/

namespace Sys2Proof

/-- `hi(w) = w[15:8]` (00_scope.md R6). -/
def hiByte (w : Word) : Byte := w.extractLsb' 8 8

/-- `lo(w) = w[7:0]` (00_scope.md R6). -/
def loByte (w : Word) : Byte := w.extractLsb' 0 8

/-- `word(h, l) = h * 256 + l` (00_scope.md R6). -/
def mkWord (h l : Byte) : Word := h ++ l

/-- `zext_16` of a byte (00_scope.md R6). -/
def zextWord (b : Byte) : Word := b.setWidth 16

/-- The class of each mnemonic: the class column of 30_encoding.md R104 (R112, D20). -/
def Mnemonic.instrClass : Mnemonic → InstrClass
  | .lda => .read
  | .ldx => .read
  | .ldy => .read
  | .sta => .write
  | .stx => .write
  | .sty => .write
  | .tax => .implied
  | .tay => .implied
  | .txa => .implied
  | .tya => .implied
  | .tsx => .implied
  | .txs => .implied
  | .adc => .read
  | .sbc => .read
  | .and => .read
  | .ora => .read
  | .eor => .read
  | .cmp => .read
  | .cpx => .read
  | .cpy => .read
  | .bit => .read
  | .inc => .readModifyWrite
  | .dec => .readModifyWrite
  | .inx => .implied
  | .iny => .implied
  | .dex => .implied
  | .dey => .implied
  | .asl => .readModifyWrite
  | .lsr => .readModifyWrite
  | .rol => .readModifyWrite
  | .ror => .readModifyWrite
  | .jmp => .jump
  | .jsr => .jump
  | .rts => .stack
  | .bcc => .branch
  | .bcs => .branch
  | .beq => .branch
  | .bne => .branch
  | .bmi => .branch
  | .bpl => .branch
  | .bvc => .branch
  | .bvs => .branch
  | .pha => .stack
  | .pla => .stack
  | .php => .stack
  | .plp => .stack
  | .clc => .implied
  | .sec => .implied
  | .cli => .implied
  | .sei => .implied
  | .cld => .implied
  | .sed => .implied
  | .clv => .implied
  | .nop => .implied
  | .brk => .stack
  | .rti => .stack
  | .hlt => .implied

/-- One entry of the InstructionSet: `register(instruction, addressingMode, opcode)` (30_encoding.md R103). -/
structure OpcodeRow where
  opcode   : Byte
  mnemonic : Mnemonic
  mode     : Mode
  deriving DecidableEq, Repr

/-- Row 0x of the opcode map, 30_encoding.md R104. -/
def opcodeRow0 : List OpcodeRow :=
  [⟨0x00, .brk, .imp⟩, ⟨0x01, .ora, .izx⟩, ⟨0x05, .ora, .zp⟩, ⟨0x06, .asl, .zp⟩,
   ⟨0x08, .php, .imp⟩, ⟨0x09, .ora, .imm⟩, ⟨0x0A, .asl, .acc⟩, ⟨0x0D, .ora, .abs⟩,
   ⟨0x0E, .asl, .abs⟩]

/-- Row 1x of the opcode map, 30_encoding.md R104. -/
def opcodeRow1 : List OpcodeRow :=
  [⟨0x10, .bpl, .rel⟩, ⟨0x11, .ora, .izy⟩, ⟨0x15, .ora, .zpx⟩, ⟨0x16, .asl, .zpx⟩,
   ⟨0x18, .clc, .imp⟩, ⟨0x19, .ora, .aby⟩, ⟨0x1D, .ora, .abx⟩, ⟨0x1E, .asl, .abx⟩]

/-- Row 2x of the opcode map, 30_encoding.md R104. -/
def opcodeRow2 : List OpcodeRow :=
  [⟨0x20, .jsr, .abs⟩, ⟨0x21, .and, .izx⟩, ⟨0x24, .bit, .zp⟩, ⟨0x25, .and, .zp⟩,
   ⟨0x26, .rol, .zp⟩, ⟨0x28, .plp, .imp⟩, ⟨0x29, .and, .imm⟩, ⟨0x2A, .rol, .acc⟩,
   ⟨0x2C, .bit, .abs⟩, ⟨0x2D, .and, .abs⟩, ⟨0x2E, .rol, .abs⟩]

/-- Row 3x of the opcode map, 30_encoding.md R104. -/
def opcodeRow3 : List OpcodeRow :=
  [⟨0x30, .bmi, .rel⟩, ⟨0x31, .and, .izy⟩, ⟨0x35, .and, .zpx⟩, ⟨0x36, .rol, .zpx⟩,
   ⟨0x38, .sec, .imp⟩, ⟨0x39, .and, .aby⟩, ⟨0x3D, .and, .abx⟩, ⟨0x3E, .rol, .abx⟩]

/-- Row 4x of the opcode map, 30_encoding.md R104. -/
def opcodeRow4 : List OpcodeRow :=
  [⟨0x40, .rti, .imp⟩, ⟨0x41, .eor, .izx⟩, ⟨0x45, .eor, .zp⟩, ⟨0x46, .lsr, .zp⟩,
   ⟨0x48, .pha, .imp⟩, ⟨0x49, .eor, .imm⟩, ⟨0x4A, .lsr, .acc⟩, ⟨0x4C, .jmp, .abs⟩,
   ⟨0x4D, .eor, .abs⟩, ⟨0x4E, .lsr, .abs⟩]

/-- Row 5x of the opcode map, 30_encoding.md R104. -/
def opcodeRow5 : List OpcodeRow :=
  [⟨0x50, .bvc, .rel⟩, ⟨0x51, .eor, .izy⟩, ⟨0x55, .eor, .zpx⟩, ⟨0x56, .lsr, .zpx⟩,
   ⟨0x58, .cli, .imp⟩, ⟨0x59, .eor, .aby⟩, ⟨0x5D, .eor, .abx⟩, ⟨0x5E, .lsr, .abx⟩]

/-- Row 6x of the opcode map, 30_encoding.md R104. -/
def opcodeRow6 : List OpcodeRow :=
  [⟨0x60, .rts, .imp⟩, ⟨0x61, .adc, .izx⟩, ⟨0x65, .adc, .zp⟩, ⟨0x66, .ror, .zp⟩,
   ⟨0x68, .pla, .imp⟩, ⟨0x69, .adc, .imm⟩, ⟨0x6A, .ror, .acc⟩, ⟨0x6C, .jmp, .ind⟩,
   ⟨0x6D, .adc, .abs⟩, ⟨0x6E, .ror, .abs⟩]

/-- Row 7x of the opcode map, 30_encoding.md R104. -/
def opcodeRow7 : List OpcodeRow :=
  [⟨0x70, .bvs, .rel⟩, ⟨0x71, .adc, .izy⟩, ⟨0x75, .adc, .zpx⟩, ⟨0x76, .ror, .zpx⟩,
   ⟨0x78, .sei, .imp⟩, ⟨0x79, .adc, .aby⟩, ⟨0x7D, .adc, .abx⟩, ⟨0x7E, .ror, .abx⟩]

/-- Row 8x of the opcode map, 30_encoding.md R104. -/
def opcodeRow8 : List OpcodeRow :=
  [⟨0x81, .sta, .izx⟩, ⟨0x84, .sty, .zp⟩, ⟨0x85, .sta, .zp⟩, ⟨0x86, .stx, .zp⟩,
   ⟨0x88, .dey, .imp⟩, ⟨0x8A, .txa, .imp⟩, ⟨0x8C, .sty, .abs⟩, ⟨0x8D, .sta, .abs⟩,
   ⟨0x8E, .stx, .abs⟩]

/-- Row 9x of the opcode map, 30_encoding.md R104. -/
def opcodeRow9 : List OpcodeRow :=
  [⟨0x90, .bcc, .rel⟩, ⟨0x91, .sta, .izy⟩, ⟨0x94, .sty, .zpx⟩, ⟨0x95, .sta, .zpx⟩,
   ⟨0x96, .stx, .zpy⟩, ⟨0x98, .tya, .imp⟩, ⟨0x99, .sta, .aby⟩, ⟨0x9A, .txs, .imp⟩,
   ⟨0x9D, .sta, .abx⟩]

/-- Row Ax of the opcode map, 30_encoding.md R104. -/
def opcodeRowA : List OpcodeRow :=
  [⟨0xA0, .ldy, .imm⟩, ⟨0xA1, .lda, .izx⟩, ⟨0xA2, .ldx, .imm⟩, ⟨0xA4, .ldy, .zp⟩,
   ⟨0xA5, .lda, .zp⟩, ⟨0xA6, .ldx, .zp⟩, ⟨0xA8, .tay, .imp⟩, ⟨0xA9, .lda, .imm⟩,
   ⟨0xAA, .tax, .imp⟩, ⟨0xAC, .ldy, .abs⟩, ⟨0xAD, .lda, .abs⟩, ⟨0xAE, .ldx, .abs⟩]

/-- Row Bx of the opcode map, 30_encoding.md R104. -/
def opcodeRowB : List OpcodeRow :=
  [⟨0xB0, .bcs, .rel⟩, ⟨0xB1, .lda, .izy⟩, ⟨0xB4, .ldy, .zpx⟩, ⟨0xB5, .lda, .zpx⟩,
   ⟨0xB6, .ldx, .zpy⟩, ⟨0xB8, .clv, .imp⟩, ⟨0xB9, .lda, .aby⟩, ⟨0xBA, .tsx, .imp⟩,
   ⟨0xBC, .ldy, .abx⟩, ⟨0xBD, .lda, .abx⟩, ⟨0xBE, .ldx, .aby⟩]

/-- Row Cx of the opcode map, 30_encoding.md R104. -/
def opcodeRowC : List OpcodeRow :=
  [⟨0xC0, .cpy, .imm⟩, ⟨0xC1, .cmp, .izx⟩, ⟨0xC4, .cpy, .zp⟩, ⟨0xC5, .cmp, .zp⟩,
   ⟨0xC6, .dec, .zp⟩, ⟨0xC8, .iny, .imp⟩, ⟨0xC9, .cmp, .imm⟩, ⟨0xCA, .dex, .imp⟩,
   ⟨0xCC, .cpy, .abs⟩, ⟨0xCD, .cmp, .abs⟩, ⟨0xCE, .dec, .abs⟩]

/-- Row Dx of the opcode map, 30_encoding.md R104. -/
def opcodeRowD : List OpcodeRow :=
  [⟨0xD0, .bne, .rel⟩, ⟨0xD1, .cmp, .izy⟩, ⟨0xD5, .cmp, .zpx⟩, ⟨0xD6, .dec, .zpx⟩,
   ⟨0xD8, .cld, .imp⟩, ⟨0xD9, .cmp, .aby⟩, ⟨0xDD, .cmp, .abx⟩, ⟨0xDE, .dec, .abx⟩]

/-- Row Ex of the opcode map, 30_encoding.md R104. -/
def opcodeRowE : List OpcodeRow :=
  [⟨0xE0, .cpx, .imm⟩, ⟨0xE1, .sbc, .izx⟩, ⟨0xE4, .cpx, .zp⟩, ⟨0xE5, .sbc, .zp⟩,
   ⟨0xE6, .inc, .zp⟩, ⟨0xE8, .inx, .imp⟩, ⟨0xE9, .sbc, .imm⟩, ⟨0xEA, .nop, .imp⟩,
   ⟨0xEC, .cpx, .abs⟩, ⟨0xED, .sbc, .abs⟩, ⟨0xEE, .inc, .abs⟩]

/-- Row Fx of the opcode map, 30_encoding.md R104. -/
def opcodeRowF : List OpcodeRow :=
  [⟨0xF0, .beq, .rel⟩, ⟨0xF1, .sbc, .izy⟩, ⟨0xF5, .sbc, .zpx⟩, ⟨0xF6, .inc, .zpx⟩,
   ⟨0xF8, .sed, .imp⟩, ⟨0xF9, .sbc, .aby⟩, ⟨0xFD, .sbc, .abx⟩, ⟨0xFE, .inc, .abx⟩]

/-- The 151 assigned opcodes of 30_encoding.md R104. -/
def opcodeMap : List OpcodeRow :=
  opcodeRow0 ++ opcodeRow1 ++ opcodeRow2 ++ opcodeRow3 ++ opcodeRow4 ++ opcodeRow5 ++ opcodeRow6 ++ opcodeRow7 ++
  opcodeRow8 ++ opcodeRow9 ++ opcodeRowA ++ opcodeRowB ++ opcodeRowC ++ opcodeRowD ++ opcodeRowE ++ opcodeRowF

/-- The 152 registered entries of a machine whose HLT_OPCODE is `hlt` (30_encoding.md R104, R106). -/
def instructionSet (hlt : Byte) : List OpcodeRow := opcodeMap ++ [⟨hlt, .hlt, .imp⟩]

/-- The faults of the InstructionSet, none of which the guest can raise (60_exceptions.md R415, 90_conflicts.md C7). -/
inductive TableFault where
  /-- F_TABLE_DUPLICATE: `register` met a key or an opcode already registered. Start-up only; safe. -/
  | duplicate (mnemonic : Mnemonic) (mode : Mode) (opcode : Byte)
  /-- F_ENCODE_UNSUPPORTED: `encode` was asked for a pair the table lacks. Host tooling only; safe. -/
  | encodeUnsupported (mnemonic : Mnemonic) (mode : Mode)
  /-- F_ENCODE_RANGE: `encode` met an operand outside the mode's operand width. Host tooling only; safe. -/
  | encodeRange (operand : Nat)
  deriving DecidableEq, Repr

/-- `register`: "fails fatally on a duplicate key or duplicate opcode" (30_encoding.md R103). -/
def registerRow (table : List OpcodeRow) (r : OpcodeRow) : Except TableFault (List OpcodeRow) :=
  if table.any (fun q => q.opcode == r.opcode || (q.mnemonic == r.mnemonic && q.mode == r.mode)) then
    .error (.duplicate r.mnemonic r.mode r.opcode)
  else .ok (table ++ [r])

/-- Start-up: every entry is registered once, in order (30_encoding.md R103, 70_reset_and_hazards.md R450). -/
def registerAll : List OpcodeRow → List OpcodeRow → Except TableFault (List OpcodeRow)
  | table, [] => .ok table
  | table, r :: rs => match registerRow table r with
    | .ok table' => registerAll table' rs
    | .error e => .error e

/-- The table's `decode(opcode)`: the pair, or none for an unassigned byte (30_encoding.md R103, R105). -/
def decodeOpcode (hlt b : Byte) : Option (Mnemonic × Mode) :=
  ((instructionSet hlt).find? (fun r => r.opcode == b)).map (fun r => (r.mnemonic, r.mode))

/-- The opcode registered for a pair (30_encoding.md R103). -/
def opcodeOf (hlt : Byte) (mn : Mnemonic) (mode : Mode) : Option Byte :=
  ((instructionSet hlt).find? (fun r => r.mnemonic == mn && r.mode == mode)).map (fun r => r.opcode)

/-- `isAddressModeSupported` (30_encoding.md R103). -/
def isAddressModeSupported (mn : Mnemonic) (mode : Mode) : Bool := (opcodeOf 0 mn mode).isSome

/-- `getSupportedAddressModes` (30_encoding.md R103). -/
def getSupportedAddressModes (mn : Mnemonic) : List Mode :=
  ((instructionSet 0).filter (fun r => r.mnemonic == mn)).map (fun r => r.mode)

/-- The mnemonic of an instruction. -/
def Instr.mnemonic : Instr → Mnemonic
  | .ldaImm _ => .lda
  | .ldaZp _ => .lda
  | .ldaZpx _ => .lda
  | .ldaAbs _ => .lda
  | .ldaAbx _ => .lda
  | .ldaAby _ => .lda
  | .ldaIzx _ => .lda
  | .ldaIzy _ => .lda
  | .ldxImm _ => .ldx
  | .ldxZp _ => .ldx
  | .ldxZpy _ => .ldx
  | .ldxAbs _ => .ldx
  | .ldxAby _ => .ldx
  | .ldyImm _ => .ldy
  | .ldyZp _ => .ldy
  | .ldyZpx _ => .ldy
  | .ldyAbs _ => .ldy
  | .ldyAbx _ => .ldy
  | .staZp _ => .sta
  | .staZpx _ => .sta
  | .staAbs _ => .sta
  | .staAbx _ => .sta
  | .staAby _ => .sta
  | .staIzx _ => .sta
  | .staIzy _ => .sta
  | .stxZp _ => .stx
  | .stxZpy _ => .stx
  | .stxAbs _ => .stx
  | .styZp _ => .sty
  | .styZpx _ => .sty
  | .styAbs _ => .sty
  | .tax => .tax
  | .tay => .tay
  | .txa => .txa
  | .tya => .tya
  | .tsx => .tsx
  | .txs => .txs
  | .adcImm _ => .adc
  | .adcZp _ => .adc
  | .adcZpx _ => .adc
  | .adcAbs _ => .adc
  | .adcAbx _ => .adc
  | .adcAby _ => .adc
  | .adcIzx _ => .adc
  | .adcIzy _ => .adc
  | .sbcImm _ => .sbc
  | .sbcZp _ => .sbc
  | .sbcZpx _ => .sbc
  | .sbcAbs _ => .sbc
  | .sbcAbx _ => .sbc
  | .sbcAby _ => .sbc
  | .sbcIzx _ => .sbc
  | .sbcIzy _ => .sbc
  | .andImm _ => .and
  | .andZp _ => .and
  | .andZpx _ => .and
  | .andAbs _ => .and
  | .andAbx _ => .and
  | .andAby _ => .and
  | .andIzx _ => .and
  | .andIzy _ => .and
  | .oraImm _ => .ora
  | .oraZp _ => .ora
  | .oraZpx _ => .ora
  | .oraAbs _ => .ora
  | .oraAbx _ => .ora
  | .oraAby _ => .ora
  | .oraIzx _ => .ora
  | .oraIzy _ => .ora
  | .eorImm _ => .eor
  | .eorZp _ => .eor
  | .eorZpx _ => .eor
  | .eorAbs _ => .eor
  | .eorAbx _ => .eor
  | .eorAby _ => .eor
  | .eorIzx _ => .eor
  | .eorIzy _ => .eor
  | .cmpImm _ => .cmp
  | .cmpZp _ => .cmp
  | .cmpZpx _ => .cmp
  | .cmpAbs _ => .cmp
  | .cmpAbx _ => .cmp
  | .cmpAby _ => .cmp
  | .cmpIzx _ => .cmp
  | .cmpIzy _ => .cmp
  | .cpxImm _ => .cpx
  | .cpxZp _ => .cpx
  | .cpxAbs _ => .cpx
  | .cpyImm _ => .cpy
  | .cpyZp _ => .cpy
  | .cpyAbs _ => .cpy
  | .bitZp _ => .bit
  | .bitAbs _ => .bit
  | .incZp _ => .inc
  | .incZpx _ => .inc
  | .incAbs _ => .inc
  | .incAbx _ => .inc
  | .decZp _ => .dec
  | .decZpx _ => .dec
  | .decAbs _ => .dec
  | .decAbx _ => .dec
  | .inx => .inx
  | .iny => .iny
  | .dex => .dex
  | .dey => .dey
  | .aslAcc => .asl
  | .aslZp _ => .asl
  | .aslZpx _ => .asl
  | .aslAbs _ => .asl
  | .aslAbx _ => .asl
  | .lsrAcc => .lsr
  | .lsrZp _ => .lsr
  | .lsrZpx _ => .lsr
  | .lsrAbs _ => .lsr
  | .lsrAbx _ => .lsr
  | .rolAcc => .rol
  | .rolZp _ => .rol
  | .rolZpx _ => .rol
  | .rolAbs _ => .rol
  | .rolAbx _ => .rol
  | .rorAcc => .ror
  | .rorZp _ => .ror
  | .rorZpx _ => .ror
  | .rorAbs _ => .ror
  | .rorAbx _ => .ror
  | .jmpAbs _ => .jmp
  | .jmpInd _ => .jmp
  | .jsr _ => .jsr
  | .rts => .rts
  | .bcc _ => .bcc
  | .bcs _ => .bcs
  | .beq _ => .beq
  | .bne _ => .bne
  | .bmi _ => .bmi
  | .bpl _ => .bpl
  | .bvc _ => .bvc
  | .bvs _ => .bvs
  | .pha => .pha
  | .pla => .pla
  | .php => .php
  | .plp => .plp
  | .clc => .clc
  | .sec => .sec
  | .cli => .cli
  | .sei => .sei
  | .cld => .cld
  | .sed => .sed
  | .clv => .clv
  | .nop => .nop
  | .brk => .brk
  | .rti => .rti
  | .hlt => .hlt

/-- The addressing mode of an instruction. -/
def Instr.mode : Instr → Mode
  | .ldaImm _ => .imm
  | .ldaZp _ => .zp
  | .ldaZpx _ => .zpx
  | .ldaAbs _ => .abs
  | .ldaAbx _ => .abx
  | .ldaAby _ => .aby
  | .ldaIzx _ => .izx
  | .ldaIzy _ => .izy
  | .ldxImm _ => .imm
  | .ldxZp _ => .zp
  | .ldxZpy _ => .zpy
  | .ldxAbs _ => .abs
  | .ldxAby _ => .aby
  | .ldyImm _ => .imm
  | .ldyZp _ => .zp
  | .ldyZpx _ => .zpx
  | .ldyAbs _ => .abs
  | .ldyAbx _ => .abx
  | .staZp _ => .zp
  | .staZpx _ => .zpx
  | .staAbs _ => .abs
  | .staAbx _ => .abx
  | .staAby _ => .aby
  | .staIzx _ => .izx
  | .staIzy _ => .izy
  | .stxZp _ => .zp
  | .stxZpy _ => .zpy
  | .stxAbs _ => .abs
  | .styZp _ => .zp
  | .styZpx _ => .zpx
  | .styAbs _ => .abs
  | .tax => .imp
  | .tay => .imp
  | .txa => .imp
  | .tya => .imp
  | .tsx => .imp
  | .txs => .imp
  | .adcImm _ => .imm
  | .adcZp _ => .zp
  | .adcZpx _ => .zpx
  | .adcAbs _ => .abs
  | .adcAbx _ => .abx
  | .adcAby _ => .aby
  | .adcIzx _ => .izx
  | .adcIzy _ => .izy
  | .sbcImm _ => .imm
  | .sbcZp _ => .zp
  | .sbcZpx _ => .zpx
  | .sbcAbs _ => .abs
  | .sbcAbx _ => .abx
  | .sbcAby _ => .aby
  | .sbcIzx _ => .izx
  | .sbcIzy _ => .izy
  | .andImm _ => .imm
  | .andZp _ => .zp
  | .andZpx _ => .zpx
  | .andAbs _ => .abs
  | .andAbx _ => .abx
  | .andAby _ => .aby
  | .andIzx _ => .izx
  | .andIzy _ => .izy
  | .oraImm _ => .imm
  | .oraZp _ => .zp
  | .oraZpx _ => .zpx
  | .oraAbs _ => .abs
  | .oraAbx _ => .abx
  | .oraAby _ => .aby
  | .oraIzx _ => .izx
  | .oraIzy _ => .izy
  | .eorImm _ => .imm
  | .eorZp _ => .zp
  | .eorZpx _ => .zpx
  | .eorAbs _ => .abs
  | .eorAbx _ => .abx
  | .eorAby _ => .aby
  | .eorIzx _ => .izx
  | .eorIzy _ => .izy
  | .cmpImm _ => .imm
  | .cmpZp _ => .zp
  | .cmpZpx _ => .zpx
  | .cmpAbs _ => .abs
  | .cmpAbx _ => .abx
  | .cmpAby _ => .aby
  | .cmpIzx _ => .izx
  | .cmpIzy _ => .izy
  | .cpxImm _ => .imm
  | .cpxZp _ => .zp
  | .cpxAbs _ => .abs
  | .cpyImm _ => .imm
  | .cpyZp _ => .zp
  | .cpyAbs _ => .abs
  | .bitZp _ => .zp
  | .bitAbs _ => .abs
  | .incZp _ => .zp
  | .incZpx _ => .zpx
  | .incAbs _ => .abs
  | .incAbx _ => .abx
  | .decZp _ => .zp
  | .decZpx _ => .zpx
  | .decAbs _ => .abs
  | .decAbx _ => .abx
  | .inx => .imp
  | .iny => .imp
  | .dex => .imp
  | .dey => .imp
  | .aslAcc => .acc
  | .aslZp _ => .zp
  | .aslZpx _ => .zpx
  | .aslAbs _ => .abs
  | .aslAbx _ => .abx
  | .lsrAcc => .acc
  | .lsrZp _ => .zp
  | .lsrZpx _ => .zpx
  | .lsrAbs _ => .abs
  | .lsrAbx _ => .abx
  | .rolAcc => .acc
  | .rolZp _ => .zp
  | .rolZpx _ => .zpx
  | .rolAbs _ => .abs
  | .rolAbx _ => .abx
  | .rorAcc => .acc
  | .rorZp _ => .zp
  | .rorZpx _ => .zpx
  | .rorAbs _ => .abs
  | .rorAbx _ => .abx
  | .jmpAbs _ => .abs
  | .jmpInd _ => .ind
  | .jsr _ => .abs
  | .rts => .imp
  | .bcc _ => .rel
  | .bcs _ => .rel
  | .beq _ => .rel
  | .bne _ => .rel
  | .bmi _ => .rel
  | .bpl _ => .rel
  | .bvc _ => .rel
  | .bvs _ => .rel
  | .pha => .imp
  | .pla => .imp
  | .php => .imp
  | .plp => .imp
  | .clc => .imp
  | .sec => .imp
  | .cli => .imp
  | .sei => .imp
  | .cld => .imp
  | .sed => .imp
  | .clv => .imp
  | .nop => .imp
  | .brk => .imp
  | .rti => .imp
  | .hlt => .imp

/-- The operand `opnd` of 30_encoding.md R102 as a 16-bit number (0 where the mode has no operand). -/
def Instr.operand : Instr → Word
  | .ldaImm v => zextWord v
  | .ldaZp z => zextWord z
  | .ldaZpx z => zextWord z
  | .ldaAbs w => w
  | .ldaAbx w => w
  | .ldaAby w => w
  | .ldaIzx z => zextWord z
  | .ldaIzy z => zextWord z
  | .ldxImm v => zextWord v
  | .ldxZp z => zextWord z
  | .ldxZpy z => zextWord z
  | .ldxAbs w => w
  | .ldxAby w => w
  | .ldyImm v => zextWord v
  | .ldyZp z => zextWord z
  | .ldyZpx z => zextWord z
  | .ldyAbs w => w
  | .ldyAbx w => w
  | .staZp z => zextWord z
  | .staZpx z => zextWord z
  | .staAbs w => w
  | .staAbx w => w
  | .staAby w => w
  | .staIzx z => zextWord z
  | .staIzy z => zextWord z
  | .stxZp z => zextWord z
  | .stxZpy z => zextWord z
  | .stxAbs w => w
  | .styZp z => zextWord z
  | .styZpx z => zextWord z
  | .styAbs w => w
  | .tax => 0
  | .tay => 0
  | .txa => 0
  | .tya => 0
  | .tsx => 0
  | .txs => 0
  | .adcImm v => zextWord v
  | .adcZp z => zextWord z
  | .adcZpx z => zextWord z
  | .adcAbs w => w
  | .adcAbx w => w
  | .adcAby w => w
  | .adcIzx z => zextWord z
  | .adcIzy z => zextWord z
  | .sbcImm v => zextWord v
  | .sbcZp z => zextWord z
  | .sbcZpx z => zextWord z
  | .sbcAbs w => w
  | .sbcAbx w => w
  | .sbcAby w => w
  | .sbcIzx z => zextWord z
  | .sbcIzy z => zextWord z
  | .andImm v => zextWord v
  | .andZp z => zextWord z
  | .andZpx z => zextWord z
  | .andAbs w => w
  | .andAbx w => w
  | .andAby w => w
  | .andIzx z => zextWord z
  | .andIzy z => zextWord z
  | .oraImm v => zextWord v
  | .oraZp z => zextWord z
  | .oraZpx z => zextWord z
  | .oraAbs w => w
  | .oraAbx w => w
  | .oraAby w => w
  | .oraIzx z => zextWord z
  | .oraIzy z => zextWord z
  | .eorImm v => zextWord v
  | .eorZp z => zextWord z
  | .eorZpx z => zextWord z
  | .eorAbs w => w
  | .eorAbx w => w
  | .eorAby w => w
  | .eorIzx z => zextWord z
  | .eorIzy z => zextWord z
  | .cmpImm v => zextWord v
  | .cmpZp z => zextWord z
  | .cmpZpx z => zextWord z
  | .cmpAbs w => w
  | .cmpAbx w => w
  | .cmpAby w => w
  | .cmpIzx z => zextWord z
  | .cmpIzy z => zextWord z
  | .cpxImm v => zextWord v
  | .cpxZp z => zextWord z
  | .cpxAbs w => w
  | .cpyImm v => zextWord v
  | .cpyZp z => zextWord z
  | .cpyAbs w => w
  | .bitZp z => zextWord z
  | .bitAbs w => w
  | .incZp z => zextWord z
  | .incZpx z => zextWord z
  | .incAbs w => w
  | .incAbx w => w
  | .decZp z => zextWord z
  | .decZpx z => zextWord z
  | .decAbs w => w
  | .decAbx w => w
  | .inx => 0
  | .iny => 0
  | .dex => 0
  | .dey => 0
  | .aslAcc => 0
  | .aslZp z => zextWord z
  | .aslZpx z => zextWord z
  | .aslAbs w => w
  | .aslAbx w => w
  | .lsrAcc => 0
  | .lsrZp z => zextWord z
  | .lsrZpx z => zextWord z
  | .lsrAbs w => w
  | .lsrAbx w => w
  | .rolAcc => 0
  | .rolZp z => zextWord z
  | .rolZpx z => zextWord z
  | .rolAbs w => w
  | .rolAbx w => w
  | .rorAcc => 0
  | .rorZp z => zextWord z
  | .rorZpx z => zextWord z
  | .rorAbs w => w
  | .rorAbx w => w
  | .jmpAbs w => w
  | .jmpInd w => w
  | .jsr w => w
  | .rts => 0
  | .bcc d => zextWord d
  | .bcs d => zextWord d
  | .beq d => zextWord d
  | .bne d => zextWord d
  | .bmi d => zextWord d
  | .bpl d => zextWord d
  | .bvc d => zextWord d
  | .bvs d => zextWord d
  | .pha => 0
  | .pla => 0
  | .php => 0
  | .plp => 0
  | .clc => 0
  | .sec => 0
  | .cli => 0
  | .sei => 0
  | .cld => 0
  | .sed => 0
  | .clv => 0
  | .nop => 0
  | .brk => 0
  | .rti => 0
  | .hlt => 0

/-- The instruction of a pair and an operand, none for a pair 30_encoding.md R104 has no opcode for. -/
def Instr.build (mn : Mnemonic) (mode : Mode) (opnd : Word) : Option Instr :=
  match mn, mode with
  | .lda, .imm => some (.ldaImm (loByte opnd))
  | .lda, .zp => some (.ldaZp (loByte opnd))
  | .lda, .zpx => some (.ldaZpx (loByte opnd))
  | .lda, .abs => some (.ldaAbs opnd)
  | .lda, .abx => some (.ldaAbx opnd)
  | .lda, .aby => some (.ldaAby opnd)
  | .lda, .izx => some (.ldaIzx (loByte opnd))
  | .lda, .izy => some (.ldaIzy (loByte opnd))
  | .ldx, .imm => some (.ldxImm (loByte opnd))
  | .ldx, .zp => some (.ldxZp (loByte opnd))
  | .ldx, .zpy => some (.ldxZpy (loByte opnd))
  | .ldx, .abs => some (.ldxAbs opnd)
  | .ldx, .aby => some (.ldxAby opnd)
  | .ldy, .imm => some (.ldyImm (loByte opnd))
  | .ldy, .zp => some (.ldyZp (loByte opnd))
  | .ldy, .zpx => some (.ldyZpx (loByte opnd))
  | .ldy, .abs => some (.ldyAbs opnd)
  | .ldy, .abx => some (.ldyAbx opnd)
  | .sta, .zp => some (.staZp (loByte opnd))
  | .sta, .zpx => some (.staZpx (loByte opnd))
  | .sta, .abs => some (.staAbs opnd)
  | .sta, .abx => some (.staAbx opnd)
  | .sta, .aby => some (.staAby opnd)
  | .sta, .izx => some (.staIzx (loByte opnd))
  | .sta, .izy => some (.staIzy (loByte opnd))
  | .stx, .zp => some (.stxZp (loByte opnd))
  | .stx, .zpy => some (.stxZpy (loByte opnd))
  | .stx, .abs => some (.stxAbs opnd)
  | .sty, .zp => some (.styZp (loByte opnd))
  | .sty, .zpx => some (.styZpx (loByte opnd))
  | .sty, .abs => some (.styAbs opnd)
  | .tax, .imp => some .tax
  | .tay, .imp => some .tay
  | .txa, .imp => some .txa
  | .tya, .imp => some .tya
  | .tsx, .imp => some .tsx
  | .txs, .imp => some .txs
  | .adc, .imm => some (.adcImm (loByte opnd))
  | .adc, .zp => some (.adcZp (loByte opnd))
  | .adc, .zpx => some (.adcZpx (loByte opnd))
  | .adc, .abs => some (.adcAbs opnd)
  | .adc, .abx => some (.adcAbx opnd)
  | .adc, .aby => some (.adcAby opnd)
  | .adc, .izx => some (.adcIzx (loByte opnd))
  | .adc, .izy => some (.adcIzy (loByte opnd))
  | .sbc, .imm => some (.sbcImm (loByte opnd))
  | .sbc, .zp => some (.sbcZp (loByte opnd))
  | .sbc, .zpx => some (.sbcZpx (loByte opnd))
  | .sbc, .abs => some (.sbcAbs opnd)
  | .sbc, .abx => some (.sbcAbx opnd)
  | .sbc, .aby => some (.sbcAby opnd)
  | .sbc, .izx => some (.sbcIzx (loByte opnd))
  | .sbc, .izy => some (.sbcIzy (loByte opnd))
  | .and, .imm => some (.andImm (loByte opnd))
  | .and, .zp => some (.andZp (loByte opnd))
  | .and, .zpx => some (.andZpx (loByte opnd))
  | .and, .abs => some (.andAbs opnd)
  | .and, .abx => some (.andAbx opnd)
  | .and, .aby => some (.andAby opnd)
  | .and, .izx => some (.andIzx (loByte opnd))
  | .and, .izy => some (.andIzy (loByte opnd))
  | .ora, .imm => some (.oraImm (loByte opnd))
  | .ora, .zp => some (.oraZp (loByte opnd))
  | .ora, .zpx => some (.oraZpx (loByte opnd))
  | .ora, .abs => some (.oraAbs opnd)
  | .ora, .abx => some (.oraAbx opnd)
  | .ora, .aby => some (.oraAby opnd)
  | .ora, .izx => some (.oraIzx (loByte opnd))
  | .ora, .izy => some (.oraIzy (loByte opnd))
  | .eor, .imm => some (.eorImm (loByte opnd))
  | .eor, .zp => some (.eorZp (loByte opnd))
  | .eor, .zpx => some (.eorZpx (loByte opnd))
  | .eor, .abs => some (.eorAbs opnd)
  | .eor, .abx => some (.eorAbx opnd)
  | .eor, .aby => some (.eorAby opnd)
  | .eor, .izx => some (.eorIzx (loByte opnd))
  | .eor, .izy => some (.eorIzy (loByte opnd))
  | .cmp, .imm => some (.cmpImm (loByte opnd))
  | .cmp, .zp => some (.cmpZp (loByte opnd))
  | .cmp, .zpx => some (.cmpZpx (loByte opnd))
  | .cmp, .abs => some (.cmpAbs opnd)
  | .cmp, .abx => some (.cmpAbx opnd)
  | .cmp, .aby => some (.cmpAby opnd)
  | .cmp, .izx => some (.cmpIzx (loByte opnd))
  | .cmp, .izy => some (.cmpIzy (loByte opnd))
  | .cpx, .imm => some (.cpxImm (loByte opnd))
  | .cpx, .zp => some (.cpxZp (loByte opnd))
  | .cpx, .abs => some (.cpxAbs opnd)
  | .cpy, .imm => some (.cpyImm (loByte opnd))
  | .cpy, .zp => some (.cpyZp (loByte opnd))
  | .cpy, .abs => some (.cpyAbs opnd)
  | .bit, .zp => some (.bitZp (loByte opnd))
  | .bit, .abs => some (.bitAbs opnd)
  | .inc, .zp => some (.incZp (loByte opnd))
  | .inc, .zpx => some (.incZpx (loByte opnd))
  | .inc, .abs => some (.incAbs opnd)
  | .inc, .abx => some (.incAbx opnd)
  | .dec, .zp => some (.decZp (loByte opnd))
  | .dec, .zpx => some (.decZpx (loByte opnd))
  | .dec, .abs => some (.decAbs opnd)
  | .dec, .abx => some (.decAbx opnd)
  | .inx, .imp => some .inx
  | .iny, .imp => some .iny
  | .dex, .imp => some .dex
  | .dey, .imp => some .dey
  | .asl, .acc => some .aslAcc
  | .asl, .zp => some (.aslZp (loByte opnd))
  | .asl, .zpx => some (.aslZpx (loByte opnd))
  | .asl, .abs => some (.aslAbs opnd)
  | .asl, .abx => some (.aslAbx opnd)
  | .lsr, .acc => some .lsrAcc
  | .lsr, .zp => some (.lsrZp (loByte opnd))
  | .lsr, .zpx => some (.lsrZpx (loByte opnd))
  | .lsr, .abs => some (.lsrAbs opnd)
  | .lsr, .abx => some (.lsrAbx opnd)
  | .rol, .acc => some .rolAcc
  | .rol, .zp => some (.rolZp (loByte opnd))
  | .rol, .zpx => some (.rolZpx (loByte opnd))
  | .rol, .abs => some (.rolAbs opnd)
  | .rol, .abx => some (.rolAbx opnd)
  | .ror, .acc => some .rorAcc
  | .ror, .zp => some (.rorZp (loByte opnd))
  | .ror, .zpx => some (.rorZpx (loByte opnd))
  | .ror, .abs => some (.rorAbs opnd)
  | .ror, .abx => some (.rorAbx opnd)
  | .jmp, .abs => some (.jmpAbs opnd)
  | .jmp, .ind => some (.jmpInd opnd)
  | .jsr, .abs => some (.jsr opnd)
  | .rts, .imp => some .rts
  | .bcc, .rel => some (.bcc (loByte opnd))
  | .bcs, .rel => some (.bcs (loByte opnd))
  | .beq, .rel => some (.beq (loByte opnd))
  | .bne, .rel => some (.bne (loByte opnd))
  | .bmi, .rel => some (.bmi (loByte opnd))
  | .bpl, .rel => some (.bpl (loByte opnd))
  | .bvc, .rel => some (.bvc (loByte opnd))
  | .bvs, .rel => some (.bvs (loByte opnd))
  | .pha, .imp => some .pha
  | .pla, .imp => some .pla
  | .php, .imp => some .php
  | .plp, .imp => some .plp
  | .clc, .imp => some .clc
  | .sec, .imp => some .sec
  | .cli, .imp => some .cli
  | .sei, .imp => some .sei
  | .cld, .imp => some .cld
  | .sed, .imp => some .sed
  | .clv, .imp => some .clv
  | .nop, .imp => some .nop
  | .brk, .imp => some .brk
  | .rti, .imp => some .rti
  | .hlt, .imp => some .hlt
  | _, _ => none

/-- Why bytes are not an instruction. -/
inductive DecodeError where
  /-- There is no opcode byte. -/
  | empty
  /-- The opcode byte has no table entry (30_encoding.md R105). -/
  | unassignedOpcode (opcode : Byte)
  /-- The operand bytes of the mode are missing. -/
  | truncated (opcode : Byte)
  /-- The pair has no instruction (30_encoding.md R112); no entry of the table is such a pair. -/
  | notImplemented (mnemonic : Mnemonic) (mode : Mode)
  deriving DecidableEq, Repr

/-- Operand assembly, little-endian (30_encoding.md R102): `n` operand bytes, as a 16-bit number, and the rest. -/
def takeOperand : Nat → List Byte → Option (Word × List Byte)
  | 0, rest => some (0, rest)
  | 1, b :: rest => some (zextWord b, rest)
  | 2, l :: h :: rest => some (mkWord h l, rest)
  | _, _ => none

/-- The decoder (30_encoding.md R100 to R107): the opcode byte alone selects the pair and so the length. -/
def decode (hlt : Byte) : List Byte → Except DecodeError (Instr × List Byte)
  | [] => .error .empty
  | b :: rest => match decodeOpcode hlt b with
    | none => .error (.unassignedOpcode b)
    | some (mn, mode) => match takeOperand mode.operandBytes rest with
      | none => .error (.truncated b)
      | some (opnd, rest') => match Instr.build mn mode opnd with
        | some i => .ok (i, rest')
        | none => .error (.notImplemented mn mode)

/-- The operand bytes of `n`-byte operand `opnd`, low byte first (30_encoding.md R100, R102). -/
def operandBytesOf : Nat → Word → List Byte
  | 0, _ => []
  | 1, opnd => [loByte opnd]
  | _, opnd => [loByte opnd, hiByte opnd]

/-- The byte sequence of an instruction: its opcode, then its operand bytes (30_encoding.md R100, R103). -/
def encode (hlt : Byte) (i : Instr) : List Byte :=
  ((opcodeOf hlt i.mnemonic i.mode).getD 0) :: operandBytesOf i.mode.operandBytes i.operand

/-- The table's `encode(instruction, mode, operand)` with its two failures (30_encoding.md R103). Where the pair is
unsupported and the operand is out of range as well, R103, 60_exceptions.md R415 and 90_conflicts.md C7 give no order; the
pair is tested first (DESIGN CHOICE, log 36). -/
def encodeAsm (hlt : Byte) (i : AsmInstr) : Except TableFault (List Byte) :=
  match opcodeOf hlt i.mnemonic i.mode with
  | none => .error (.encodeUnsupported i.mnemonic i.mode)
  | some op =>
    if i.operandInRange then .ok (op :: operandBytesOf i.mode.operandBytes (BitVec.ofNat 16 i.operand))
    else .error (.encodeRange i.operand)

/-- The default of HLT_OPCODE (00_scope.md R5, 30_encoding.md R106). -/
def defaultHltOpcode : Byte := 0x02

/-- The decoder on an instruction whose bits are `w`, byte k being bits 8k+7..8k; every bit above `nbits` is 0. -/
def decodeTableWord (nbits w : Nat) : Option Instr :=
  let v := w % 2 ^ nbits
  match decode defaultHltOpcode [BitVec.ofNat 8 v, BitVec.ofNat 8 (v / 256), BitVec.ofNat 8 (v / 65536)] with
  | .ok (i, _) => some i
  | .error _ => none

end Sys2Proof
end

