-- ==== Sys2Proof/Machine/State.lean ====
section
/-! DEFINITION. The state of the machine as plain data (10_state.md), the reasons a step can stop, the outcome of the
machine's inner operations, and the state after reset (10_state.md R42). -/

namespace Sys2Proof.Machine

/-! ### Registers and flags -/

/-- The seven stored flags of P (10_state.md R26). Bit 5 of the packed byte is not stored (R27). -/
structure Flags where
  n : Bool
  v : Bool
  b : Bool
  d : Bool
  i : Bool
  z : Bool
  c : Bool
  deriving DecidableEq, Repr

/-- The temporaries of the instruction in flight (10_state.md R31). The address with the carry into the high byte not
yet applied (`ea_nofix`, 41_addressing_modes.md R187) is `word(hi, lo(ea))`. -/
structure Temps where
  lo      : Byte
  hi      : Byte
  ptr     : Byte
  ea      : Word
  val     : Byte
  crossed : Bool
  deriving DecidableEq, Repr

/-- The temporaries between instructions, where they have no meaning (10_state.md R31; log 15). -/
def Temps.clear : Temps := ⟨0, 0, 0, 0, 0, false⟩

/-! ### Operations named by micro-operations -/

/-- The index register an addressing mode adds (41_addressing_modes.md R180 e). -/
inductive Index where
  | x | y
  deriving DecidableEq, Repr

/-- The operations of class READ (30_encoding.md R112). -/
inductive ReadOp where
  | lda | ldx | ldy | adc | sbc | and | ora | eor | cmp | cpx | cpy | bit
  deriving DecidableEq, Repr

/-- The register a store writes (41_addressing_modes.md R180 c). -/
inductive StoreReg where
  | a | x | y
  deriving DecidableEq, Repr

/-- The operations of class READ_MODIFY_WRITE (30_encoding.md R112). -/
inductive RmwOp where
  | asl | lsr | rol | ror | inc | dec
  deriving DecidableEq, Repr

/-- The operations of class IMPLIED, but for HLT (30_encoding.md R112). -/
inductive ImpliedOp where
  | tax | tay | txa | tya | tsx | txs | inx | iny | dex | dey
  | clc | sec | cli | sei | cld | sed | clv | nop
  deriving DecidableEq, Repr

/-- The branch-taken predicates (45_control_flow.md R324). -/
inductive Cond where
  | cc | cs | eq | ne | mi | pl | vc | vs
  deriving DecidableEq, Repr

/-- The three vectors (60_exceptions.md R409). -/
inductive VectorId where
  | nmi | reset | irq
  deriving DecidableEq, Repr

/-! ### Micro-operations -/

/-- One micro-operation: one bus cycle's worth of work, as the sequences of 41_addressing_modes.md, 45_control_flow.md,
46_stack_flags_system.md and 60_exceptions.md R408 write it, one constructor per kind of line. -/
inductive MicroOp where
  /-- `R PC (discard)`; the register or flag operation (41 R181). -/
  | implied (op : ImpliedOp)
  /-- `R PC (discard); A <- f(A)` (41 R182). -/
  | accumulator (op : RmwOp)
  /-- `R PC -> val; PC+1; op(val)` (41 R183). -/
  | immediate (op : ReadOp)
  /-- `R PC -> lo; PC+1`. -/
  | operandLo
  /-- `R PC -> lo; PC+1`, the effective address being `00:lo` (41 R184). -/
  | operandZp
  /-- `R PC -> hi; PC+1`, the effective address being `word(hi, lo)` (41 R186). -/
  | operandHi
  /-- `R PC -> hi; PC+1; sum <- lo + idx` (41 R187). -/
  | operandHiIndexed (i : Index)
  /-- `R 00:lo (discard); ea <- (lo + idx) & 0xFF` (41 R185). -/
  | zpIndex (i : Index)
  /-- `R 00:zp (discard); ptr <- (zp + X) & 0xFF` (41 R188). -/
  | pointerIndex
  /-- `R PC -> zp; PC+1`, the pointer being at `zp` (41 R189). -/
  | operandPointer
  /-- `R 00:ptr -> lo` (41 R188, R189). -/
  | pointerLo
  /-- `R 00:((ptr + 1) & 0xFF) -> hi` (41 R188). -/
  | pointerHi
  /-- `R 00:((ptr + 1) & 0xFF) -> hi; sum <- lo + Y` (41 R189). -/
  | pointerHiIndexed
  /-- `R ea -> val; op(val)`. -/
  | readEa (op : ReadOp)
  /-- `R ea_nofix -> val; if not crossed: op(val), end`, else one more cycle (41 R187, R189). -/
  | readUnfixed (op : ReadOp)
  /-- `R ea_nofix (discard)` (41 R187, R189). -/
  | discardUnfixed
  /-- `W ea <- reg`. -/
  | writeEa (r : StoreReg)
  /-- `R ea -> val` of a read-modify-write (41 R184). -/
  | rmwRead
  /-- `W ea <- val`, the redundant write (41 R184). -/
  | rmwWriteOld
  /-- `W ea <- f(val); flags` (41 R184). -/
  | rmwWriteNew (op : RmwOp)
  /-- `R PC -> off; PC+1`, then the predicate (41 R190). -/
  | branchOperand (c : Cond)
  /-- `R PC (discard); if not crossed: PC <- target` (41 R190). -/
  | branchTaken
  /-- `R word(hi(PC), lo(target)) (discard); PC <- target` (41 R190). -/
  | branchFix
  /-- `R PC -> hi; PC <- word(hi, lo)` (41 R192, R193). -/
  | jumpHi
  /-- `R word(hi, lo) -> tlo` (41 R191). -/
  | jumpIndirectLo
  /-- `R word(hi, (lo + 1) & 0xFF) -> thi; PC <- word(thi, tlo)` (41 R191). -/
  | jumpIndirectHi
  /-- `R PC (discard)`. -/
  | discardPc
  /-- `R PC (discard); PC <- PC + 1` (46 R362). -/
  | skipByte
  /-- `R 0x0100 + SP (discard)` (41 R193). -/
  | discardStack
  /-- `R 0x0100 + SP (discard); SP <- SP + 1` (46 R351). -/
  | pullStart
  /-- `R 0x0100 + SP -> lo; SP <- SP + 1` (45 R323). -/
  | pullLo
  /-- `R 0x0100 + SP -> hi` (45 R323). -/
  | pullHi
  /-- `PC <- word(hi, lo); R PC (discard); PC + 1` (45 R323). -/
  | returnIncrement
  /-- `push(hi(PC))`. -/
  | pushPcHi
  /-- `push(lo(PC))`. -/
  | pushPcLo
  /-- `push(A)` (46 R350). -/
  | pushA
  /-- `push(pack(P) | 0x10)` (46 R352). -/
  | pushP
  /-- `R 0x0100 + SP -> A; setNZ(A)` (46 R351). -/
  | pullA
  /-- `R 0x0100 + SP -> b; P but B from b` (46 R353). -/
  | pullP
  /-- `push(pack(P)); P.I <- 1`, with bit 4 set when `soft` (46 R362, 60 R408). -/
  | pushStatus (soft : Bool)
  /-- `R VEC -> lo; PC <- word(hi(PC), lo)` (46 R362, 60 R408). -/
  | vectorLo (v : VectorId)
  /-- `R VEC + 1 -> hi; PC <- word(hi, lo(PC))`; `inISR <- 1` unless `soft` (46 R362, 60 R408). -/
  | vectorHi (v : VectorId) (soft : Bool)
  /-- `R 0x0100 + SP -> b; unpack(b); P.B <- 0; SP <- SP + 1` (46 R364). -/
  | pullStatus
  /-- `R 0x0100 + SP -> hi; PC <- word(hi, lo); inISR <- 0` (46 R364). -/
  | pullHiReturn
  deriving DecidableEq, Repr

/-! ### Memory map, inputs and parameters -/

/-- The region kinds of 20_memory.md R62. -/
inductive RegionKind where
  /-- Flat random-access region (R63). -/
  | ram
  /-- Read-only region (R64). -/
  | rom
  /-- Paged ROM with its bank images; `slot` is its place in `State.bankSel` (R65). -/
  | paged (slot : Nat) (banks : List (List Byte))
  /-- The window of device `device`, which has `registers` registers, a power of two (R66). -/
  | device (device registers : Nat)
  deriving DecidableEq, Repr

/-- One region of CompoundMemory: "(start address, length, read-only flag, byte storage)" (20_memory.md R62). -/
structure Region where
  start  : Nat
  length : Nat
  kind   : RegionKind
  deriving DecidableEq, Repr

/-- One interrupt source, by the present level of its two lines (60_exceptions.md R401). -/
structure Source where
  irq : Bool
  nmi : Bool
  deriving DecidableEq, Repr

/-- SP_BOUNDS (00_scope.md R5, 90_conflicts.md C1). -/
inductive SpBounds where
  | fatal | wrap
  deriving DecidableEq, Repr

/-- DECIMAL_MODE (00_scope.md R5, 43_arithmetic_logic.md R261). -/
inductive DecimalMode where
  | refuse | binary | nmosBcd
  deriving DecidableEq, Repr

/-- The parameters of 00_scope.md R5 that are neither fixed widths nor addresses nor part of another field. -/
structure Params where
  hltOpcode     : Byte
  spBounds      : SpBounds
  decimalMode   : DecimalMode
  intEntryDummy : Nat
  maxCycles     : Option Nat
  deriving DecidableEq, Repr

/-- The defaults of 00_scope.md R5 (log 4). -/
def Params.default : Params := ⟨defaultHltOpcode, .fatal, .refuse, 0, none⟩

/-! ### Why a step stops -/

/-- The direction of an access, with the value of a write (60_exceptions.md R415). -/
inductive Access where
  | read
  | write (value : Byte)
  deriving DecidableEq, Repr

/-- Which bound of the stack page was left (60_exceptions.md R415). -/
inductive StackBound where
  | overflow | underflow
  deriving DecidableEq, Repr

/-- The fatal faults of 60_exceptions.md R415. Each is the source's own stop of the run, so each is safe. -/
inductive Fault where
  /-- F_UNASSIGNED_OPCODE: the fetched byte has no table entry. Raised by the fetch (30_encoding.md R105); safe. -/
  | unassignedOpcode (opcode : Byte) (addr : Word)
  /-- F_NO_REGION: no region claims the address. Raised by any access (20_memory.md R68); safe. -/
  | noRegion (addr : Word) (access : Access)
  /-- F_READONLY_WRITE: a write to a read-only or paged-ROM region (20_memory.md R64, R65); safe. -/
  | readOnlyWrite (addr : Word) (value : Byte)
  /-- F_STACK_BOUNDS: a push with SP = 0x00 or a pull with SP = 0xFF under SP_BOUNDS = fatal
  (40_execution_engine.md R157, R158); safe. -/
  | stackBounds (bound : StackBound)
  /-- F_QUEUE_OVERFLOW: an enqueue into a queue of 16 (40_execution_engine.md R148). Raised only where INT_ENTRY_DUMMY
  exceeds 11, or in a state no run reaches; safe. -/
  | queueOverflow
  /-- F_NOT_IMPLEMENTED: a decoded pair has no sequence (30_encoding.md R112). No decoded pair is one; safe. -/
  | notImplemented (mnemonic : Mnemonic) (mode : Mode)
  /-- F_TABLE_DUPLICATE, F_ENCODE_UNSUPPORTED, F_ENCODE_RANGE: start-up and host tooling (60_exceptions.md R415);
  raised by power-on only; safe. -/
  | table (fault : TableFault)
  deriving DecidableEq, Repr

/-- Why a step has no successor although no fatal fault is raised. -/
inductive Refusal where
  /-- An instruction without a meaning; raised by no arm of `exec`; safe. -/
  | notModelled (mnemonic : String)
  /-- `refuse(decimal_mode)`: ADC or SBC with D = 1 under DECIMAL_MODE = refuse (43_arithmetic_logic.md R261); safe. -/
  | decimalMode
  /-- A host setter used while the queue is non-empty (70_reset_and_hazards.md R467); safe. -/
  | hostMidInstruction
  /-- A paged-ROM region whose selected bank or byte does not exist: launch data that is not well-formed
  (20_memory.md R65, log 25); safe. -/
  | noBank
  deriving DecidableEq, Repr

/-! ### The state -/

/-- The whole state of the machine (10_state.md). -/
structure State where
  /-- Accumulator (R20). -/
  a : Byte
  /-- Index register X (R21). -/
  x : Byte
  /-- Index register Y (R22). -/
  y : Byte
  /-- Program counter (R24). -/
  pc : Word
  /-- Stack pointer (R25). -/
  sp : Byte
  /-- Status flags (R26). -/
  p : Flags
  /-- Micro-operation queue Q, oldest first (R30). -/
  queue : List MicroOp
  /-- Temporaries (R31). -/
  tmp : Temps
  /-- In-ISR marker (R32). -/
  inISR : Bool
  /-- Cycle counter (R33). -/
  cycles : Nat
  /-- A halt was requested (R34). -/
  haltRequested : Bool
  /-- The CPU stopped for good (R34). -/
  halted : Bool
  /-- The recorded fatal fault (R35). -/
  fault : Option Fault
  /-- The quiescent hook is armed (R36). -/
  hookArmed : Bool
  /-- Bytes of the RAM and read-only regions (R37), in canonical form. -/
  mem : List Host.Cell
  /-- Selected bank of each paged-ROM region (R37). -/
  bankSel : List Nat
  /-- REGIONS (R37, 20_memory.md R67). -/
  regions : List Region
  /-- SOURCES with the present levels of their lines (R38, 60_exceptions.md R401). -/
  sources : List Source
  /-- Every bus access made, newest first, the events recorded for devices among them (40_execution_engine.md R156,
  20_memory.md R66; the model's own field, log 10). -/
  bus : List BusAccess
  /-- Parameters (00_scope.md R5). -/
  params : Params
  deriving DecidableEq, Repr

/-- The outcome of an inner operation. A fault or a refusal carries the state in which it arose
(40_execution_engine.md R153). -/
inductive Res (α : Type) where
  | ok (value : α) (s : State)
  | fault (f : Fault) (s : State)
  | refuse (r : Refusal) (s : State)
  deriving Repr

/-- The one region of the reset state: RAM over the whole address space (DESIGN CHOICE, unsafe, log 3). -/
def Region.wholeRam : Region := ⟨0, 65536, .ram⟩

/-- The flags at reset: I = 1 (10_state.md R42), the rest 0 (DESIGN CHOICE, unsafe, log 1). -/
def Flags.reset : Flags := ⟨false, false, false, false, true, false, false⟩

/-- The machine right after power-on (10_state.md R42, 70_reset_and_hazards.md R450): PC from the reset vector, which
the reset memory holds as zeros; I = 1; queue empty, not halted, no fault. The values the spec leaves open are those
of logs 1 to 4; the two reads of the vector are on the bus record. -/
def State.reset : State where
  a := 0
  x := 0
  y := 0
  pc := 0
  sp := 0xFF
  p := Flags.reset
  queue := []
  tmp := Temps.clear
  inISR := false
  cycles := 0
  haltRequested := false
  halted := false
  fault := none
  hookArmed := false
  mem := []
  bankSel := []
  regions := [Region.wholeRam]
  sources := []
  bus := [.read 0xFFFD 0, .read 0xFFFC 0]
  params := Params.default

end Sys2Proof.Machine
end

