-- ==== Sys2Proof/Machine/Flags.lean ====
section
/-! DEFINITION. The status byte and every flag computation: packing (10_state.md R27), `setNZ` (00_scope.md R7), binary
and decimal addition and subtraction (43_arithmetic_logic.md R260, R261), compare (R267), bit test (R271), and the four
shifts (44_shift_rotate.md R300). Sums are exact numbers, narrowed where the spec narrows. -/

namespace Sys2Proof.Machine

/-- A flag at bit `k` of a byte. -/
def flagBit (f : Bool) (k : Nat) : Byte := if f then 1#8 <<< k else 0#8

/-- `pack(P)`: bit 5 is always 1 (10_state.md R27, D3, D4). -/
def pack (p : Flags) : Byte :=
  flagBit p.n 7 ||| flagBit p.v 6 ||| flagBit true 5 ||| flagBit p.b 4 |||
  flagBit p.d 3 ||| flagBit p.i 2 ||| flagBit p.z 1 ||| flagBit p.c 0

/-- `unpack(b)`: ignores bit 5 (10_state.md R27). -/
def unpack (b : Byte) : Flags where
  n := b.getLsbD 7
  v := b.getLsbD 6
  b := b.getLsbD 4
  d := b.getLsbD 3
  i := b.getLsbD 2
  z := b.getLsbD 1
  c := b.getLsbD 0

/-- The byte PHP and BRK push: `pack(P) | 0x10` (46_stack_flags_system.md R352, R362). -/
def packBreak (p : Flags) : Byte := pack p ||| 0x10#8

/-- The flags PLP leaves: all but B from the byte (46_stack_flags_system.md R353). -/
def pulledFlags (b : Byte) (p : Flags) : Flags := { unpack b with b := p.b }

/-- The flags RTI leaves: from the byte, B cleared (46_stack_flags_system.md R364). -/
def returnedFlags (b : Byte) : Flags := { unpack b with b := false }

/-- `setNZ(v)` (00_scope.md R7). -/
def setNZ (v : Byte) (p : Flags) : Flags := { p with n := v.msb, z := v == 0#8 }

/-- `sext_8(v)` (00_scope.md R6). -/
def sext8 (v : Byte) : Int := if v.toNat < 128 then (v.toNat : Int) else (v.toNat : Int) - 256

/-- `adc_binary(a, b, c)`: result, carry out, overflow (43_arithmetic_logic.md R260). -/
def adcBinary (a b : Byte) (c : Bool) : Byte × Bool × Bool :=
  let sum := a.toNat + b.toNat + c.toNat
  let result := BitVec.ofNat 8 sum
  (result, decide (sum > 255), a.msb == b.msb && result.msb != a.msb)

/-- ADC with D = 0, or with D ignored (43_arithmetic_logic.md R262): the new A and flags. -/
def adcBinaryFlags (a b : Byte) (p : Flags) : Byte × Flags :=
  let r := adcBinary a b p.c
  (r.1, setNZ r.1 { p with c := r.2.1, v := r.2.2 })

/-- SBC with D = 0, or with D ignored: ADC of the complement (43_arithmetic_logic.md R263). -/
def sbcBinaryFlags (a b : Byte) (p : Flags) : Byte × Flags := adcBinaryFlags a (~~~b) p

/-- `adc_decimal(a, b, c)` of the NMOS 6502 (43_arithmetic_logic.md R261). -/
def adcDecimalFlags (a b : Byte) (p : Flags) : Byte × Flags :=
  let c := p.c.toNat
  let al0 := a.toNat % 16 + b.toNat % 16 + c
  let al := if al0 ≥ 10 then (al0 + 6) % 16 + 16 else al0
  let ah := a &&& 0xF0#8
  let bh := b &&& 0xF0#8
  let s := ah.toNat + bh.toNat + al
  let ss := sext8 ah + sext8 bh + (al : Int)
  let s' := if s ≥ 0xA0 then s + 0x60 else s
  (BitVec.ofNat 8 s',
   { p with
      z := (a.toNat + b.toNat + c) % 256 == 0
      n := (BitVec.ofNat 8 s).msb
      v := decide (ss < -128 ∨ ss > 127)
      c := decide (s' ≥ 0x100) })

/-- `sbc_decimal(a, b, c)` of the NMOS 6502: all four flags as in binary SBC (43_arithmetic_logic.md R261). -/
def sbcDecimalFlags (a b : Byte) (p : Flags) : Byte × Flags :=
  let al0 : Int := (a.toNat % 16 : Nat) - (b.toNat % 16 : Nat) + (p.c.toNat : Int) - 1
  let al : Int := if al0 < 0 then (al0 - 6) % 16 - 16 else al0
  let s : Int := ((a &&& 0xF0#8).toNat : Int) - ((b &&& 0xF0#8).toNat : Int) + al
  let s' : Int := if s < 0 then s - 0x60 else s
  (BitVec.ofInt 8 s', (sbcBinaryFlags a b p).2)

/-- `compare(r, m)` (43_arithmetic_logic.md R267). -/
def compareFlags (r m : Byte) (p : Flags) : Flags :=
  { p with c := decide (m.toNat ≤ r.toNat), z := r == m, n := (r - m).msb }

/-- The flags of BIT: N and V copied from the operand, Z from the AND (43_arithmetic_logic.md R271). -/
def bitFlags (a m : Byte) (p : Flags) : Flags :=
  { p with z := (a &&& m) == 0#8, n := m.getLsbD 7, v := m.getLsbD 6 }

/-- `asl(v)`: the new byte and the carry-out (44_shift_rotate.md R300). -/
def aslByte (v : Byte) : Byte × Bool := (v <<< 1, v.getLsbD 7)

/-- `lsr(v)` (44_shift_rotate.md R300). -/
def lsrByte (v : Byte) : Byte × Bool := (v >>> 1, v.getLsbD 0)

/-- `rol(v, c)` (44_shift_rotate.md R300). -/
def rolByte (v : Byte) (c : Bool) : Byte × Bool := ((v <<< 1) ||| flagBit c 0, v.getLsbD 7)

/-- `ror(v, c)` (44_shift_rotate.md R300). -/
def rorByte (v : Byte) (c : Bool) : Byte × Bool := ((v >>> 1) ||| flagBit c 7, v.getLsbD 0)

/-- `P.C <- co; setNZ(r)` after a shift (44_shift_rotate.md R300). -/
def shiftFlags (r : Byte × Bool) (p : Flags) : Byte × Flags := (r.1, setNZ r.1 { p with c := r.2 })

end Sys2Proof.Machine
end

