-- ==== Sys2Proof/Machine/Layout.lean ====
section
/-! DEFINITION. The addresses the core fixes (20_memory.md R77): the three vectors and the stack page, kept under names
(00_scope.md R5; PRESUMED by the spec from general knowledge, D6, D7, log 18). -/

namespace Sys2Proof.Machine

/-- VEC_NMI, VEC_RESET or VEC_IRQ: the address of the vector's low byte (20_memory.md R77, 60_exceptions.md R409). -/
def vectorNmi : Word := 0xFFFA

/-- VEC_RESET (60_exceptions.md R409). -/
def vectorReset : Word := 0xFFFC

/-- VEC_IRQ, of IRQ and BRK (60_exceptions.md R409). -/
def vectorIrq : Word := 0xFFFE

/-- STACK_PAGE, the high byte of every stack address (10_state.md R25). -/
def stackPage : Byte := 0x01

/-- QUEUE_CAPACITY (00_scope.md R5, 40_execution_engine.md R148). -/
def queueCapacity : Nat := 16

end Sys2Proof.Machine
end

