-- ==== Sys2Proof/Machine/Ops.lean ====
section
/-! DEFINITION. The named operations over memory, the dispatcher, the bus and the stack (20_memory.md,
40_execution_engine.md R144, R145, R157, R158), the end of a tick, taking an exception (46_stack_flags_system.md R362,
60_exceptions.md R408) and returning from one (46_stack_flags_system.md R364). -/

namespace Sys2Proof.Machine

/-! ### Sequencing -/

/-- One operation after another; a fault or a refusal ends the sequence (41_addressing_modes.md R180 g). -/
def Res.bind {α β : Type} (r : Res α) (k : α → State → Res β) : Res β :=
  match r with
  | .ok a s => k a s
  | .fault f s => .fault f s
  | .refuse e s => .refuse e s

/-- What a meaning answers: the state of a fault or a refusal is not part of it (40_execution_engine.md R153: such a
state is never final). -/
def Res.outcome (r : Res Unit) : Host.Outcome State Fault Refusal :=
  match r with
  | .ok _ s => .next s
  | .fault f _ => .fault f
  | .refuse e _ => .refused e

/-! ### Byte storage in canonical form -/

/-- What an unlisted byte of storage reads as (DESIGN CHOICE, unsafe, log 2). -/
def Memory.unlisted : Byte := 0

/-- The byte at an address. -/
def Memory.read : List Host.Cell → Nat → Byte
  | [], _ => Memory.unlisted
  | (k, v) :: m, a => if k = a then v else Memory.read m a

/-- The storage with `v` at `a`, in canonical form again: writing the unlisted value removes the entry. -/
def Memory.write : List Host.Cell → Nat → Byte → List Host.Cell
  | [], a, v => if v = Memory.unlisted then [] else [(a, v)]
  | (k, w) :: m, a, v =>
    if a < k then (if v = Memory.unlisted then (k, w) :: m else (a, v) :: (k, w) :: m)
    else if a = k then (if v = Memory.unlisted then m else (a, v) :: m)
    else (k, w) :: Memory.write m a v

/-- Every address listed is at least `lo`, addresses rise strictly and stay below 65536, and no listed byte is the
unlisted one. -/
def Memory.wfFrom : Nat → List Host.Cell → Bool
  | _, [] => true
  | lo, (k, v) :: m => decide (lo ≤ k) && decide (k < 65536) && v != Memory.unlisted && Memory.wfFrom (k + 1) m

/-- The canonical form of storage. -/
def Memory.wf (m : List Host.Cell) : Bool := Memory.wfFrom 0 m

/-! ### Regions and the dispatcher -/

/-- `hasAddress(a) = (start <= a) and (a < start + length)` (20_memory.md R62). -/
def Region.hasAddress (r : Region) (a : Word) : Bool := decide (r.start ≤ a.toNat) && decide (a.toNat < r.start + r.length)

/-- The region that takes an access: the first in list order that claims the address (20_memory.md R67, R69). -/
def claimant (regions : List Region) (a : Word) : Option Region := regions.find? (fun r => r.hasAddress a)

/-- `CompoundMemory.hasAddress(a)` (20_memory.md R67). -/
def compoundHasAddress (regions : List Region) (a : Word) : Bool := (claimant regions a).isSome

/-- `index = (a - base) & (NREG(d) - 1)` (20_memory.md R66, D18). -/
def deviceIndex (start registers : Nat) (a : Word) : Nat := (a.toNat - start) &&& (registers - 1)

/-- Byte `a - start` of the selected image of a paged ROM (20_memory.md R65). -/
def bankByte (bankSel : List Nat) (slot : Nat) (banks : List (List Byte)) (start : Nat) (a : Word) : Option Byte :=
  ((bankSel[slot]?).bind (fun k => banks[k]?)).bind (fun image => image[a.toNat - start]?)

/-- An access put on the bus record (40_execution_engine.md R156; log 10). -/
def State.record (s : State) (access : BusAccess) : State := { s with bus := access :: s.bus }

/-- A read answered with `v`. -/
def answerRead (a : Word) (v : Byte) (s : State) : Res Byte := .ok v (s.record (.read a v))

/-- A read of a device window: `readRegister(register)`, whose answer is free (20_memory.md R66, D32; log 7). -/
def readDevice (device register : Nat) (a : Word) (s : State) : Res Byte :=
  let v := Config.deviceRead device register s.cycles s.bus
  .ok v (s.record (.readRegister device register a v))

/-- A write to a device window: the event `writeRegister(register, v)` recorded for the device (20_memory.md R66; log
10). -/
def writeDevice (device register : Nat) (a : Word) (v : Byte) (s : State) : Res Unit :=
  .ok () (s.record (.writeRegister device register a v))

/-- `MemRead(a, 1)`, one dispatched byte read (20_memory.md R63 to R68, R71). -/
def busRead (a : Word) (s : State) : Res Byte :=
  match claimant s.regions a with
  | none => .fault (.noRegion a .read) s
  | some r =>
    match r.kind with
    | .ram => answerRead a (Memory.read s.mem a.toNat) s
    | .rom => answerRead a (Memory.read s.mem a.toNat) s
    | .paged slot banks =>
      match bankByte s.bankSel slot banks r.start a with
      | some v => answerRead a v s
      | none => .refuse .noBank s
    | .device device registers => readDevice device (deviceIndex r.start registers a) a s

/-- `MemWrite(a, 1, v)`, one dispatched byte write (20_memory.md R63 to R68, R71). -/
def busWrite (a : Word) (v : Byte) (s : State) : Res Unit :=
  match claimant s.regions a with
  | none => .fault (.noRegion a (.write v)) s
  | some r =>
    match r.kind with
    | .ram => .ok () ({ s with mem := Memory.write s.mem a.toNat v }.record (.write a v))
    | .rom => .fault (.readOnlyWrite a v) s
    | .paged _ _ => .fault (.readOnlyWrite a v) s
    | .device device registers => writeDevice device (deviceIndex r.start registers a) a v s

/-- `MemRead(a, 2)`: two byte reads, low address first (20_memory.md R73, D17). -/
def readWord (a : Word) (s : State) : Res Word :=
  (busRead a s).bind fun l s =>
  (busRead (a + 1) s).bind fun h s =>
  .ok (mkWord h l) s

/-- `MemWrite(a, 2, w)`: two byte writes, low address first (20_memory.md R73, D17). -/
def writeWord (a w : Word) (s : State) : Res Unit :=
  (busWrite a (loByte w) s).bind fun _ s =>
  busWrite (a + 1) (hiByte w) s

/-! ### The end of a tick -/

/-- The number of bank images of paged region `slot`. -/
def bankCount : List Region → Nat → Nat
  | [], _ => 0
  | r :: rs, slot => match r.kind with
    | .paged slot' banks => if slot' = slot then banks.length else bankCount rs slot
    | _ => bankCount rs slot

/-- The selected banks after the peripherals' turn: a free choice among each region's images (20_memory.md R65, D19). -/
def nextBankSel (s : State) : List Nat :=
  s.bankSel.mapIdx (fun slot _ => Config.bankSelect slot s.cycles s.bus % bankCount s.regions slot)

/-- The levels of the lines after the peripherals' turn (60_exceptions.md R401). -/
def nextSources (s : State) : List Source :=
  s.sources.mapIdx (fun k _ => ⟨Config.irqLevel k s.cycles s.bus, Config.nmiLevel k s.cycles s.bus⟩)

/-- The peripherals tick after the CPU (40_execution_engine.md R154, 70_reset_and_hazards.md R468): what they can change
of the core's inputs is free. -/
def peripherals (s : State) : State := { s with bankSel := nextBankSel s, sources := nextSources s }

/-- The cycle limit is configured and reached (40_execution_engine.md R145). -/
def limitReached (limit : Option Nat) (cycles : Nat) : Bool :=
  match limit with
  | none => false
  | some n => decide (n ≤ cycles)

/-- Step 3 of the tick but for the halt (40_execution_engine.md R141, R145), then the peripherals' turn. -/
def countCycle (s : State) : State :=
  peripherals { s with
    cycles := s.cycles + 1
    haltRequested := s.haltRequested || limitReached s.params.maxCycles (s.cycles + 1) }

/-- The end of a tick that leaves the queue empty: a requested halt takes effect (40_execution_engine.md R145) and the
temporaries lose their meaning (10_state.md R31; log 15). -/
def settle (s : State) : State := { s with halted := s.halted || s.haltRequested, tmp := Temps.clear }

/-- One tick in which more of the instruction follows. -/
def cycle {α : Type} (r : Res α) : Res α := r.bind fun v s => .ok v (countCycle s)

/-- The last tick of an instruction or of a service sequence. -/
def lastCycle {α : Type} (r : Res α) : Res Unit := r.bind fun _ s => .ok () (settle (countCycle s))

/-! ### Fetch and stack primitives -/

/-- `R PC -> v; PC <- PC + 1` (40_execution_engine.md R144, R155). -/
def fetchByte (s : State) : Res Byte :=
  (busRead s.pc s).bind fun v s => .ok v { s with pc := s.pc + 1 }

/-- `0x0100 + SP` (40_execution_engine.md R159). -/
def stackAddr (sp : Byte) : Word := mkWord stackPage sp

/-- The decrement of `push`, with its bounds check (40_execution_engine.md R157). -/
def decSp (s : State) : Res Unit :=
  if s.sp = 0x00#8 then
    match s.params.spBounds with
    | .fatal => .fault (.stackBounds .overflow) s
    | .wrap => .ok () { s with sp := 0xFF#8 }
  else .ok () { s with sp := s.sp - 1 }

/-- The increment of `pull`, with its bounds check (40_execution_engine.md R158). -/
def incSp (s : State) : Res Unit :=
  if s.sp = 0xFF#8 then
    match s.params.spBounds with
    | .fatal => .fault (.stackBounds .underflow) s
    | .wrap => .ok () { s with sp := 0x00#8 }
  else .ok () { s with sp := s.sp + 1 }

/-- `push(v)`: write, then decrement (40_execution_engine.md R157). -/
def push (v : Byte) (s : State) : Res Unit :=
  (busWrite (stackAddr s.sp) v s).bind fun _ s => decSp s

/-- `R 0x0100 + SP` without a change of SP. -/
def stackRead (s : State) : Res Byte := busRead (stackAddr s.sp) s

/-- `R 0x0100 + SP -> v; SP <- SP + 1` (40_execution_engine.md R158, 90_conflicts.md C6). -/
def stackReadInc (s : State) : Res Byte :=
  (stackRead s).bind fun v s => (incSp s).bind fun _ s => .ok v s

/-! ### Taking an exception and returning from one -/

/-- The address of a vector's low byte (60_exceptions.md R409). -/
def VectorId.addr : VectorId → Word
  | .nmi => vectorNmi
  | .reset => vectorReset
  | .irq => vectorIrq

/-- The status byte an entry pushes: bit 4 set by BRK (`soft`), as stored otherwise (10_state.md R27, D5). -/
def entryStatus (soft : Bool) (p : Flags) : Byte := if soft then packBreak p else pack p

/-- `push(status); P.I <- 1` (46_stack_flags_system.md R362, 60_exceptions.md R408). -/
def pushStatusByte (soft : Bool) (s : State) : Res Unit :=
  (push (entryStatus soft s.p) s).bind fun _ s => .ok () { s with p := { s.p with i := true } }

/-- `R VEC -> lo; PC <- word(hi(PC), lo)` (60_exceptions.md R408). -/
def loadVectorLo (v : VectorId) (s : State) : Res Unit :=
  (busRead v.addr s).bind fun l s => .ok () { s with pc := mkWord (hiByte s.pc) l }

/-- `R VEC + 1 -> hi; PC <- word(hi, lo(PC))`, and `inISR <- 1` for a hardware interrupt (60_exceptions.md R408;
BRK does not set it, D12). -/
def loadVectorHi (v : VectorId) (soft : Bool) (s : State) : Res Unit :=
  (busRead (v.addr + 1) s).bind fun h s =>
    .ok () { s with pc := mkWord h (loByte s.pc), inISR := s.inISR || !soft }

/-- Taking an exception, in its five ticks: push PCH, PCL and the status, set I, load PC from the vector, and for a
hardware interrupt mark in-ISR (46_stack_flags_system.md R362 `M2` to `M6`, 60_exceptions.md R408 `S1` to `S5`). -/
def takeException (v : VectorId) (soft : Bool) (s : State) : Res Unit :=
  (cycle (push (hiByte s.pc) s)).bind fun _ s =>
  (cycle (push (loByte s.pc) s)).bind fun _ s =>
  (cycle (pushStatusByte soft s)).bind fun _ s =>
  (cycle (loadVectorLo v s)).bind fun _ s =>
  lastCycle (loadVectorHi v soft s)

/-- `R 0x0100 + SP -> b; unpack(b); P.B <- 0; SP <- SP + 1` (46_stack_flags_system.md R364). -/
def pullStatusByte (s : State) : Res Unit :=
  (stackRead s).bind fun b s => incSp { s with p := returnedFlags b }

/-- `R 0x0100 + SP -> hi; PC <- word(hi, lo); inISR <- 0` (46_stack_flags_system.md R364). -/
def pullReturnHi (lo : Byte) (s : State) : Res Unit :=
  (stackRead s).bind fun h s => .ok () { s with pc := mkWord h lo, inISR := false }

/-- Returning from an exception, in its four ticks `M2` to `M5` (46_stack_flags_system.md R364). -/
def returnFromException (s : State) : Res Unit :=
  (cycle (stackReadInc s)).bind fun _ s =>
  (cycle (pullStatusByte s)).bind fun _ s =>
  (cycle (stackReadInc s)).bind fun lo s =>
  lastCycle (pullReturnHi lo s)

end Sys2Proof.Machine
end

