-- ==== Sys2Proof/Machine/Operands.lean ====
section
/-! DEFINITION. The operation of every mnemonic (files 42 to 46 of spec/) and every operand form: the effective-address
logic and the bus sequence of each (mode, class) pair of 41_addressing_modes.md, as one instruction from boundary to
boundary (40_execution_engine.md R156). The operand comes from the decoded instruction; the fetch of its bytes is still
made, byte by byte, on the bus (log 17). -/

namespace Sys2Proof.Machine

/-! ### Operations -/

/-- The index register (41_addressing_modes.md R180 e). -/
def Index.value (i : Index) (s : State) : Byte :=
  match i with
  | .x => s.x
  | .y => s.y

/-- The register a store writes to memory (41_addressing_modes.md R180 c). -/
def StoreReg.value (r : StoreReg) (s : State) : Byte :=
  match r with
  | .a => s.a
  | .x => s.x
  | .y => s.y

/-- The branch-taken predicates (45_control_flow.md R325 to R332). -/
def Cond.holds (c : Cond) (p : Flags) : Bool :=
  match c with
  | .cc => !p.c
  | .cs => p.c
  | .eq => p.z
  | .ne => !p.z
  | .mi => p.n
  | .pl => !p.n
  | .vc => !p.v
  | .vs => p.v

/-- A load into A, with N and Z from the value. -/
def State.setA (s : State) (v : Byte) : State := { s with a := v, p := setNZ v s.p }

/-- A load into X, with N and Z from the value. -/
def State.setX (s : State) (v : Byte) : State := { s with x := v, p := setNZ v s.p }

/-- A load into Y, with N and Z from the value. -/
def State.setY (s : State) (v : Byte) : State := { s with y := v, p := setNZ v s.p }

/-- A new A together with new flags. -/
def State.setAFlags (s : State) (r : Byte × Flags) : State := { s with a := r.1, p := r.2 }

/-- ADC or SBC by its binary and its decimal function, as D and DECIMAL_MODE say (43_arithmetic_logic.md R261). -/
def arithmetic (binary decimal : Byte → Byte → Flags → Byte × Flags) (v : Byte) (s : State) : Res Unit :=
  if s.p.d then
    match s.params.decimalMode with
    | .refuse => .refuse .decimalMode s
    | .binary => .ok () (s.setAFlags (binary s.a v s.p))
    | .nmosBcd => .ok () (s.setAFlags (decimal s.a v s.p))
  else .ok () (s.setAFlags (binary s.a v s.p))

/-- `op(val)` of class READ (R230 to R232, R262 to R271). -/
def ReadOp.apply (op : ReadOp) (v : Byte) (s : State) : Res Unit :=
  match op with
  | .lda => .ok () (s.setA v)
  | .ldx => .ok () (s.setX v)
  | .ldy => .ok () (s.setY v)
  | .adc => arithmetic adcBinaryFlags adcDecimalFlags v s
  | .sbc => arithmetic sbcBinaryFlags sbcDecimalFlags v s
  | .and => .ok () (s.setA (s.a &&& v))
  | .ora => .ok () (s.setA (s.a ||| v))
  | .eor => .ok () (s.setA (s.a ^^^ v))
  | .cmp => .ok () { s with p := compareFlags s.a v s.p }
  | .cpx => .ok () { s with p := compareFlags s.x v s.p }
  | .cpy => .ok () { s with p := compareFlags s.y v s.p }
  | .bit => .ok () { s with p := bitFlags s.a v s.p }

/-- `f(val)` of class READ_MODIFY_WRITE with its flags (R272, R273, R300 to R304). -/
def RmwOp.apply (op : RmwOp) (v : Byte) (p : Flags) : Byte × Flags :=
  match op with
  | .asl => shiftFlags (aslByte v) p
  | .lsr => shiftFlags (lsrByte v) p
  | .rol => shiftFlags (rolByte v p.c) p
  | .ror => shiftFlags (rorByte v p.c) p
  | .inc => (v + 1, setNZ (v + 1) p)
  | .dec => (v - 1, setNZ (v - 1) p)

/-- The register or flag operation of class IMPLIED (R236 to R241, R274 to R277, R354 to R361). -/
def ImpliedOp.apply (op : ImpliedOp) (s : State) : State :=
  match op with
  | .tax => s.setX s.a
  | .tay => s.setY s.a
  | .txa => s.setA s.x
  | .tya => s.setA s.y
  | .tsx => s.setX s.sp
  | .txs => { s with sp := s.x }
  | .inx => s.setX (s.x + 1)
  | .iny => s.setY (s.y + 1)
  | .dex => s.setX (s.x - 1)
  | .dey => s.setY (s.y - 1)
  | .clc => { s with p := { s.p with c := false } }
  | .sec => { s with p := { s.p with c := true } }
  | .cli => { s with p := { s.p with i := false } }
  | .sei => { s with p := { s.p with i := true } }
  | .cld => { s with p := { s.p with d := false } }
  | .sed => { s with p := { s.p with d := true } }
  | .clv => { s with p := { s.p with v := false } }
  | .nop => s

/-! ### Effective addresses -/

/-- `00:lo` (41_addressing_modes.md R184). -/
def zpAddr (z : Byte) : Word := mkWord 0 z

/-- `ea = (base + idx) mod 65536` (41_addressing_modes.md R187). -/
def indexedAddr (base : Word) (idx : Byte) : Word := base + zextWord idx

/-- `ea_nofix = word(hi, (lo + idx) & 0xFF)` (41_addressing_modes.md R187). -/
def unfixedAddr (base : Word) (idx : Byte) : Word := mkWord (hiByte base) (loByte base + idx)

/-- `crossed = (lo + idx > 0xFF)` (41_addressing_modes.md R187, R195). -/
def pageCrossed (base : Word) (idx : Byte) : Bool := decide ((loByte base).toNat + idx.toNat > 0xFF)

/-- `target = (base + sext_8(off)) mod 65536` (41_addressing_modes.md R190). -/
def branchTarget (base : Word) (off : Byte) : Word := base + off.signExtend 16

/-- The second pointer address of an indirect JMP, `word(hi, (lo + 1) & 0xFF)` (41_addressing_modes.md R191). -/
def indirectHiAddr (ptr : Word) : Word := mkWord (hiByte ptr) (loByte ptr + 1)

/-! ### Ticks shared by the sequences -/

/-- `T1` and the operand fetches: `n` ticks `R PC; PC <- PC + 1`. -/
def fetchCycles : Nat → State → Res Unit
  | 0, s => .ok () s
  | n + 1, s => (cycle (fetchByte s)).bind fun _ s => fetchCycles n s

/-- A read whose value goes to the operation. -/
def readInto (op : ReadOp) (ea : Word) (s : State) : Res Unit := (busRead ea s).bind fun v s => op.apply v s

/-- The two bytes of the pointer at `00:ptr`, low byte first, the second at `00:((ptr + 1) & 0xFF)`
(41_addressing_modes.md R188, R189, R196). -/
def readPointer (ptr : Byte) (s : State) : Res Word :=
  (cycle (busRead (zpAddr ptr) s)).bind fun l s =>
  (cycle (busRead (zpAddr (ptr + 1)) s)).bind fun h s =>
  .ok (mkWord h l) s

/-! ### Effective addresses with their ticks

Each form runs the ticks from `T1` up to the point where the effective address is known and answers it. -/

/-- ZP, every class (41_addressing_modes.md R184). -/
def eaZp (z : Byte) (s : State) : Res Word :=
  (fetchCycles 2 s).bind fun _ s => .ok (zpAddr z) s

/-- ZPX and ZPY, every class: the discarded read at the unindexed address, then the index modulo 256
(41_addressing_modes.md R185, R196). -/
def eaZpIdx (i : Index) (z : Byte) (s : State) : Res Word :=
  (fetchCycles 2 s).bind fun _ s =>
  (cycle (busRead (zpAddr z) s)).bind fun _ s => .ok (zpAddr (z + i.value s)) s

/-- ABS, every class (41_addressing_modes.md R186). -/
def eaAbs (w : Word) (s : State) : Res Word :=
  (fetchCycles 3 s).bind fun _ s => .ok w s

/-- IZX, every class: X is added to the pointer's address, Y is not used (41_addressing_modes.md R188). -/
def eaIzx (z : Byte) (s : State) : Res Word :=
  (fetchCycles 2 s).bind fun _ s =>
  (cycle (busRead (zpAddr z) s)).bind fun _ s => readPointer (z + s.x) s

/-- The base of IZY, before Y is added (41_addressing_modes.md R189). -/
def baseIzy (z : Byte) (s : State) : Res Word :=
  (fetchCycles 2 s).bind fun _ s => readPointer z s

/-- ABX and ABY in classes WRITE and READ_MODIFY_WRITE: the read at `ea_nofix` is always made
(41_addressing_modes.md R187). -/
def eaAbsIdx (i : Index) (w : Word) (s : State) : Res Word :=
  (fetchCycles 3 s).bind fun _ s =>
  (cycle (busRead (unfixedAddr w (i.value s)) s)).bind fun _ s => .ok (indexedAddr w (i.value s)) s

/-- IZY in class WRITE: the read at `ea_nofix` is always made (41_addressing_modes.md R189). -/
def eaIzy (z : Byte) (s : State) : Res Word :=
  (baseIzy z s).bind fun base s =>
  (cycle (busRead (unfixedAddr base s.y) s)).bind fun _ s => .ok (indexedAddr base s.y) s

/-- The effective address of a store or a read-modify-write by mode, with its ticks; none for a mode without one. -/
def storeEa (mode : Mode) (opnd : Word) (s : State) : Option (Res Word) :=
  match mode with
  | .zp => some (eaZp (loByte opnd) s)
  | .zpx => some (eaZpIdx .x (loByte opnd) s)
  | .zpy => some (eaZpIdx .y (loByte opnd) s)
  | .abs => some (eaAbs opnd s)
  | .abx => some (eaAbsIdx .x opnd s)
  | .aby => some (eaAbsIdx .y opnd s)
  | .izx => some (eaIzx (loByte opnd) s)
  | .izy => some (eaIzy (loByte opnd) s)
  | .imp => none
  | .acc => none
  | .imm => none
  | .rel => none
  | .ind => none

/-! ### How a sequence ends, by class (40_execution_engine.md R149) -/

/-- Class READ: the last tick hands the byte at `ea` to the operation. -/
def readAt (op : ReadOp) (ea : Word) (s : State) : Res Unit := lastCycle (readInto op ea s)

/-- Class READ at an indexed address: one read, or two when the page is crossed (41_addressing_modes.md R187, R189). -/
def readIndexed (op : ReadOp) (base : Word) (idx : Byte) (s : State) : Res Unit :=
  if pageCrossed base idx then
    (cycle (busRead (unfixedAddr base idx) s)).bind fun _ s => readAt op (indexedAddr base idx) s
  else readAt op (unfixedAddr base idx) s

/-- Class WRITE: the last tick writes the register to `ea`. -/
def writeAt (r : StoreReg) (ea : Word) (s : State) : Res Unit := lastCycle (busWrite ea (r.value s) s)

/-- `W ea <- f(val); flags` (41_addressing_modes.md R184). -/
def rmwWrite (op : RmwOp) (ea : Word) (v : Byte) (s : State) : Res Unit :=
  (busWrite ea (op.apply v s.p).1 s).bind fun _ s => .ok () { s with p := (op.apply v s.p).2 }

/-- Class READ_MODIFY_WRITE on memory: read, write the old value, write the new one (41_addressing_modes.md R184). -/
def rmwAt (op : RmwOp) (ea : Word) (s : State) : Res Unit :=
  (cycle (busRead ea s)).bind fun v s =>
  (cycle (busWrite ea v s)).bind fun _ s =>
  lastCycle (rmwWrite op ea v s)

/-! ### Class READ, by mode -/

/-- IMM (41_addressing_modes.md R183). -/
def readImm (op : ReadOp) (v : Byte) (s : State) : Res Unit :=
  (fetchCycles 1 s).bind fun _ s =>
  lastCycle ((fetchByte s).bind fun _ s => op.apply v s)

/-- ZP (41_addressing_modes.md R184). -/
def readZp (op : ReadOp) (z : Byte) (s : State) : Res Unit := (eaZp z s).bind fun ea s => readAt op ea s

/-- ZPX and ZPY (41_addressing_modes.md R185). -/
def readZpIdx (op : ReadOp) (i : Index) (z : Byte) (s : State) : Res Unit :=
  (eaZpIdx i z s).bind fun ea s => readAt op ea s

/-- ABS (41_addressing_modes.md R186). -/
def readAbs (op : ReadOp) (w : Word) (s : State) : Res Unit := (eaAbs w s).bind fun ea s => readAt op ea s

/-- ABX and ABY (41_addressing_modes.md R187). -/
def readAbsIdx (op : ReadOp) (i : Index) (w : Word) (s : State) : Res Unit :=
  (fetchCycles 3 s).bind fun _ s => readIndexed op w (i.value s) s

/-- IZX (41_addressing_modes.md R188). -/
def readIzx (op : ReadOp) (z : Byte) (s : State) : Res Unit := (eaIzx z s).bind fun ea s => readAt op ea s

/-- IZY (41_addressing_modes.md R189). -/
def readIzy (op : ReadOp) (z : Byte) (s : State) : Res Unit :=
  (baseIzy z s).bind fun base s => readIndexed op base s.y s

/-! ### Class WRITE, by mode -/

/-- ZP (41_addressing_modes.md R184). -/
def writeZp (r : StoreReg) (z : Byte) (s : State) : Res Unit := (eaZp z s).bind fun ea s => writeAt r ea s

/-- ZPX and ZPY (41_addressing_modes.md R185). -/
def writeZpIdx (r : StoreReg) (i : Index) (z : Byte) (s : State) : Res Unit :=
  (eaZpIdx i z s).bind fun ea s => writeAt r ea s

/-- ABS (41_addressing_modes.md R186). -/
def writeAbs (r : StoreReg) (w : Word) (s : State) : Res Unit := (eaAbs w s).bind fun ea s => writeAt r ea s

/-- ABX and ABY (41_addressing_modes.md R187). -/
def writeAbsIdx (r : StoreReg) (i : Index) (w : Word) (s : State) : Res Unit :=
  (eaAbsIdx i w s).bind fun ea s => writeAt r ea s

/-- IZX (41_addressing_modes.md R188). -/
def writeIzx (r : StoreReg) (z : Byte) (s : State) : Res Unit := (eaIzx z s).bind fun ea s => writeAt r ea s

/-- IZY (41_addressing_modes.md R189). -/
def writeIzy (r : StoreReg) (z : Byte) (s : State) : Res Unit := (eaIzy z s).bind fun ea s => writeAt r ea s

/-! ### Class READ_MODIFY_WRITE, by mode -/

/-- ACC: no memory is written (41_addressing_modes.md R182). -/
def rmwAcc (op : RmwOp) (s : State) : Res Unit :=
  (fetchCycles 1 s).bind fun _ s =>
  lastCycle ((busRead s.pc s).bind fun _ s => .ok () (s.setAFlags (op.apply s.a s.p)))

/-- ZP (41_addressing_modes.md R184). -/
def rmwZp (op : RmwOp) (z : Byte) (s : State) : Res Unit := (eaZp z s).bind fun ea s => rmwAt op ea s

/-- ZPX (41_addressing_modes.md R185). -/
def rmwZpx (op : RmwOp) (z : Byte) (s : State) : Res Unit := (eaZpIdx .x z s).bind fun ea s => rmwAt op ea s

/-- ABS (41_addressing_modes.md R186). -/
def rmwAbs (op : RmwOp) (w : Word) (s : State) : Res Unit := (eaAbs w s).bind fun ea s => rmwAt op ea s

/-- ABX (41_addressing_modes.md R187). -/
def rmwAbx (op : RmwOp) (w : Word) (s : State) : Res Unit := (eaAbsIdx .x w s).bind fun ea s => rmwAt op ea s

/-! ### Classes IMPLIED and BRANCH -/

/-- IMP of class IMPLIED (41_addressing_modes.md R181). -/
def implied (op : ImpliedOp) (s : State) : Res Unit :=
  (fetchCycles 1 s).bind fun _ s =>
  lastCycle ((busRead s.pc s).bind fun _ s => .ok () (op.apply s))

/-- The end of a branch: a discarded read at `a`, then `PC <- target`. -/
def branchLand (a target : Word) (s : State) : Res Unit :=
  (busRead a s).bind fun _ s => .ok () { s with pc := target }

/-- REL: 2 ticks not taken, 3 taken, 4 taken across a page (41_addressing_modes.md R190). -/
def branchRel (c : Cond) (d : Byte) (s : State) : Res Unit :=
  (fetchCycles 1 s).bind fun _ s =>
  if c.holds s.p then
    (cycle (fetchByte s)).bind fun _ s =>
    let target := branchTarget s.pc d
    if hiByte target = hiByte s.pc then lastCycle (branchLand s.pc target s)
    else
      (cycle (busRead s.pc s)).bind fun _ s =>
      lastCycle (branchLand (mkWord (hiByte s.pc) (loByte target)) target s)
  else lastCycle (fetchByte s)

/-- `T1` and the discarded read at PC of the stack instructions (45_control_flow.md R323, 46_stack_flags_system.md). -/
def stackHead (s : State) : Res Unit :=
  (fetchCycles 1 s).bind fun _ s =>
  (cycle (busRead s.pc s)).bind fun _ s => .ok () s

end Sys2Proof.Machine
end

