-- ==== Sys2Proof/Machine/Arith.lean ====
section
/-! DEFINITION. The meanings of the arithmetic, logic, compare, increment and decrement (43_arithmetic_logic.md), one definition per row of the opcode
table, each the whole instruction from boundary to boundary (40_execution_engine.md R156). -/

namespace Sys2Proof.Machine

/-- ADC immediate, opcode 0x69 (R262). -/
def execAdcImm (v : Byte) (s : State) : Host.Outcome State Fault Refusal :=
  (readImm .adc v s).outcome

/-- ADC zero-page, opcode 0x65 (R262). -/
def execAdcZp (z : Byte) (s : State) : Host.Outcome State Fault Refusal :=
  (readZp .adc z s).outcome

/-- ADC zero-page,X, opcode 0x75 (R262). -/
def execAdcZpx (z : Byte) (s : State) : Host.Outcome State Fault Refusal :=
  (readZpIdx .adc .x z s).outcome

/-- ADC absolute, opcode 0x6D (R262). -/
def execAdcAbs (w : Word) (s : State) : Host.Outcome State Fault Refusal :=
  (readAbs .adc w s).outcome

/-- ADC absolute,X, opcode 0x7D (R262). -/
def execAdcAbx (w : Word) (s : State) : Host.Outcome State Fault Refusal :=
  (readAbsIdx .adc .x w s).outcome

/-- ADC absolute,Y, opcode 0x79 (R262). -/
def execAdcAby (w : Word) (s : State) : Host.Outcome State Fault Refusal :=
  (readAbsIdx .adc .y w s).outcome

/-- ADC (zero-page,X), opcode 0x61 (R262). -/
def execAdcIzx (z : Byte) (s : State) : Host.Outcome State Fault Refusal :=
  (readIzx .adc z s).outcome

/-- ADC (zero-page),Y, opcode 0x71 (R262). -/
def execAdcIzy (z : Byte) (s : State) : Host.Outcome State Fault Refusal :=
  (readIzy .adc z s).outcome

/-- SBC immediate, opcode 0xE9 (R263). -/
def execSbcImm (v : Byte) (s : State) : Host.Outcome State Fault Refusal :=
  (readImm .sbc v s).outcome

/-- SBC zero-page, opcode 0xE5 (R263). -/
def execSbcZp (z : Byte) (s : State) : Host.Outcome State Fault Refusal :=
  (readZp .sbc z s).outcome

/-- SBC zero-page,X, opcode 0xF5 (R263). -/
def execSbcZpx (z : Byte) (s : State) : Host.Outcome State Fault Refusal :=
  (readZpIdx .sbc .x z s).outcome

/-- SBC absolute, opcode 0xED (R263). -/
def execSbcAbs (w : Word) (s : State) : Host.Outcome State Fault Refusal :=
  (readAbs .sbc w s).outcome

/-- SBC absolute,X, opcode 0xFD (R263). -/
def execSbcAbx (w : Word) (s : State) : Host.Outcome State Fault Refusal :=
  (readAbsIdx .sbc .x w s).outcome

/-- SBC absolute,Y, opcode 0xF9 (R263). -/
def execSbcAby (w : Word) (s : State) : Host.Outcome State Fault Refusal :=
  (readAbsIdx .sbc .y w s).outcome

/-- SBC (zero-page,X), opcode 0xE1 (R263). -/
def execSbcIzx (z : Byte) (s : State) : Host.Outcome State Fault Refusal :=
  (readIzx .sbc z s).outcome

/-- SBC (zero-page),Y, opcode 0xF1 (R263). -/
def execSbcIzy (z : Byte) (s : State) : Host.Outcome State Fault Refusal :=
  (readIzy .sbc z s).outcome

/-- AND immediate, opcode 0x29 (R264). -/
def execAndImm (v : Byte) (s : State) : Host.Outcome State Fault Refusal :=
  (readImm .and v s).outcome

/-- AND zero-page, opcode 0x25 (R264). -/
def execAndZp (z : Byte) (s : State) : Host.Outcome State Fault Refusal :=
  (readZp .and z s).outcome

/-- AND zero-page,X, opcode 0x35 (R264). -/
def execAndZpx (z : Byte) (s : State) : Host.Outcome State Fault Refusal :=
  (readZpIdx .and .x z s).outcome

/-- AND absolute, opcode 0x2D (R264). -/
def execAndAbs (w : Word) (s : State) : Host.Outcome State Fault Refusal :=
  (readAbs .and w s).outcome

/-- AND absolute,X, opcode 0x3D (R264). -/
def execAndAbx (w : Word) (s : State) : Host.Outcome State Fault Refusal :=
  (readAbsIdx .and .x w s).outcome

/-- AND absolute,Y, opcode 0x39 (R264). -/
def execAndAby (w : Word) (s : State) : Host.Outcome State Fault Refusal :=
  (readAbsIdx .and .y w s).outcome

/-- AND (zero-page,X), opcode 0x21 (R264). -/
def execAndIzx (z : Byte) (s : State) : Host.Outcome State Fault Refusal :=
  (readIzx .and z s).outcome

/-- AND (zero-page),Y, opcode 0x31 (R264). -/
def execAndIzy (z : Byte) (s : State) : Host.Outcome State Fault Refusal :=
  (readIzy .and z s).outcome

/-- ORA immediate, opcode 0x09 (R265). -/
def execOraImm (v : Byte) (s : State) : Host.Outcome State Fault Refusal :=
  (readImm .ora v s).outcome

/-- ORA zero-page, opcode 0x05 (R265). -/
def execOraZp (z : Byte) (s : State) : Host.Outcome State Fault Refusal :=
  (readZp .ora z s).outcome

/-- ORA zero-page,X, opcode 0x15 (R265). -/
def execOraZpx (z : Byte) (s : State) : Host.Outcome State Fault Refusal :=
  (readZpIdx .ora .x z s).outcome

/-- ORA absolute, opcode 0x0D (R265). -/
def execOraAbs (w : Word) (s : State) : Host.Outcome State Fault Refusal :=
  (readAbs .ora w s).outcome

/-- ORA absolute,X, opcode 0x1D (R265). -/
def execOraAbx (w : Word) (s : State) : Host.Outcome State Fault Refusal :=
  (readAbsIdx .ora .x w s).outcome

/-- ORA absolute,Y, opcode 0x19 (R265). -/
def execOraAby (w : Word) (s : State) : Host.Outcome State Fault Refusal :=
  (readAbsIdx .ora .y w s).outcome

/-- ORA (zero-page,X), opcode 0x01 (R265). -/
def execOraIzx (z : Byte) (s : State) : Host.Outcome State Fault Refusal :=
  (readIzx .ora z s).outcome

/-- ORA (zero-page),Y, opcode 0x11 (R265). -/
def execOraIzy (z : Byte) (s : State) : Host.Outcome State Fault Refusal :=
  (readIzy .ora z s).outcome

/-- EOR immediate, opcode 0x49 (R266). -/
def execEorImm (v : Byte) (s : State) : Host.Outcome State Fault Refusal :=
  (readImm .eor v s).outcome

/-- EOR zero-page, opcode 0x45 (R266). -/
def execEorZp (z : Byte) (s : State) : Host.Outcome State Fault Refusal :=
  (readZp .eor z s).outcome

/-- EOR zero-page,X, opcode 0x55 (R266). -/
def execEorZpx (z : Byte) (s : State) : Host.Outcome State Fault Refusal :=
  (readZpIdx .eor .x z s).outcome

/-- EOR absolute, opcode 0x4D (R266). -/
def execEorAbs (w : Word) (s : State) : Host.Outcome State Fault Refusal :=
  (readAbs .eor w s).outcome

/-- EOR absolute,X, opcode 0x5D (R266). -/
def execEorAbx (w : Word) (s : State) : Host.Outcome State Fault Refusal :=
  (readAbsIdx .eor .x w s).outcome

/-- EOR absolute,Y, opcode 0x59 (R266). -/
def execEorAby (w : Word) (s : State) : Host.Outcome State Fault Refusal :=
  (readAbsIdx .eor .y w s).outcome

/-- EOR (zero-page,X), opcode 0x41 (R266). -/
def execEorIzx (z : Byte) (s : State) : Host.Outcome State Fault Refusal :=
  (readIzx .eor z s).outcome

/-- EOR (zero-page),Y, opcode 0x51 (R266). -/
def execEorIzy (z : Byte) (s : State) : Host.Outcome State Fault Refusal :=
  (readIzy .eor z s).outcome

/-- CMP immediate, opcode 0xC9 (R268). -/
def execCmpImm (v : Byte) (s : State) : Host.Outcome State Fault Refusal :=
  (readImm .cmp v s).outcome

/-- CMP zero-page, opcode 0xC5 (R268). -/
def execCmpZp (z : Byte) (s : State) : Host.Outcome State Fault Refusal :=
  (readZp .cmp z s).outcome

/-- CMP zero-page,X, opcode 0xD5 (R268). -/
def execCmpZpx (z : Byte) (s : State) : Host.Outcome State Fault Refusal :=
  (readZpIdx .cmp .x z s).outcome

/-- CMP absolute, opcode 0xCD (R268). -/
def execCmpAbs (w : Word) (s : State) : Host.Outcome State Fault Refusal :=
  (readAbs .cmp w s).outcome

/-- CMP absolute,X, opcode 0xDD (R268). -/
def execCmpAbx (w : Word) (s : State) : Host.Outcome State Fault Refusal :=
  (readAbsIdx .cmp .x w s).outcome

/-- CMP absolute,Y, opcode 0xD9 (R268). -/
def execCmpAby (w : Word) (s : State) : Host.Outcome State Fault Refusal :=
  (readAbsIdx .cmp .y w s).outcome

/-- CMP (zero-page,X), opcode 0xC1 (R268). -/
def execCmpIzx (z : Byte) (s : State) : Host.Outcome State Fault Refusal :=
  (readIzx .cmp z s).outcome

/-- CMP (zero-page),Y, opcode 0xD1 (R268). -/
def execCmpIzy (z : Byte) (s : State) : Host.Outcome State Fault Refusal :=
  (readIzy .cmp z s).outcome

/-- CPX immediate, opcode 0xE0 (R269). -/
def execCpxImm (v : Byte) (s : State) : Host.Outcome State Fault Refusal :=
  (readImm .cpx v s).outcome

/-- CPX zero-page, opcode 0xE4 (R269). -/
def execCpxZp (z : Byte) (s : State) : Host.Outcome State Fault Refusal :=
  (readZp .cpx z s).outcome

/-- CPX absolute, opcode 0xEC (R269). -/
def execCpxAbs (w : Word) (s : State) : Host.Outcome State Fault Refusal :=
  (readAbs .cpx w s).outcome

/-- CPY immediate, opcode 0xC0 (R270). -/
def execCpyImm (v : Byte) (s : State) : Host.Outcome State Fault Refusal :=
  (readImm .cpy v s).outcome

/-- CPY zero-page, opcode 0xC4 (R270). -/
def execCpyZp (z : Byte) (s : State) : Host.Outcome State Fault Refusal :=
  (readZp .cpy z s).outcome

/-- CPY absolute, opcode 0xCC (R270). -/
def execCpyAbs (w : Word) (s : State) : Host.Outcome State Fault Refusal :=
  (readAbs .cpy w s).outcome

/-- BIT zero-page, opcode 0x24 (R271). -/
def execBitZp (z : Byte) (s : State) : Host.Outcome State Fault Refusal :=
  (readZp .bit z s).outcome

/-- BIT absolute, opcode 0x2C (R271). -/
def execBitAbs (w : Word) (s : State) : Host.Outcome State Fault Refusal :=
  (readAbs .bit w s).outcome

/-- INC zero-page, opcode 0xE6 (R272). -/
def execIncZp (z : Byte) (s : State) : Host.Outcome State Fault Refusal :=
  (rmwZp .inc z s).outcome

/-- INC zero-page,X, opcode 0xF6 (R272). -/
def execIncZpx (z : Byte) (s : State) : Host.Outcome State Fault Refusal :=
  (rmwZpx .inc z s).outcome

/-- INC absolute, opcode 0xEE (R272). -/
def execIncAbs (w : Word) (s : State) : Host.Outcome State Fault Refusal :=
  (rmwAbs .inc w s).outcome

/-- INC absolute,X, opcode 0xFE (R272). -/
def execIncAbx (w : Word) (s : State) : Host.Outcome State Fault Refusal :=
  (rmwAbx .inc w s).outcome

/-- DEC zero-page, opcode 0xC6 (R273). -/
def execDecZp (z : Byte) (s : State) : Host.Outcome State Fault Refusal :=
  (rmwZp .dec z s).outcome

/-- DEC zero-page,X, opcode 0xD6 (R273). -/
def execDecZpx (z : Byte) (s : State) : Host.Outcome State Fault Refusal :=
  (rmwZpx .dec z s).outcome

/-- DEC absolute, opcode 0xCE (R273). -/
def execDecAbs (w : Word) (s : State) : Host.Outcome State Fault Refusal :=
  (rmwAbs .dec w s).outcome

/-- DEC absolute,X, opcode 0xDE (R273). -/
def execDecAbx (w : Word) (s : State) : Host.Outcome State Fault Refusal :=
  (rmwAbx .dec w s).outcome

/-- INX, opcode 0xE8 (R274). -/
def execInx (s : State) : Host.Outcome State Fault Refusal :=
  (implied .inx s).outcome

/-- INY, opcode 0xC8 (R275). -/
def execIny (s : State) : Host.Outcome State Fault Refusal :=
  (implied .iny s).outcome

/-- DEX, opcode 0xCA (R276). -/
def execDex (s : State) : Host.Outcome State Fault Refusal :=
  (implied .dex s).outcome

/-- DEY, opcode 0x88 (R277). -/
def execDey (s : State) : Host.Outcome State Fault Refusal :=
  (implied .dey s).outcome

end Sys2Proof.Machine
end

