-- ==== Sys2Proof/Machine/Control.lean ====
section
/-! DEFINITION. The meanings of the jumps, subroutine call and return, conditional branches (45_control_flow.md), one definition per row of the opcode
table, each the whole instruction from boundary to boundary (40_execution_engine.md R156). -/

namespace Sys2Proof.Machine

/-- JMP absolute, opcode 0x4C (R320): `pc <- opnd`, 3 ticks. -/
def execJmpAbs (w : Word) (s : State) : Host.Outcome State Fault Refusal :=
  ((fetchCycles 2 s).bind fun _ s =>
    lastCycle ((busRead s.pc s).bind fun _ s => .ok () { s with pc := w })).outcome

/-- JMP indirect, opcode 0x6C (R321): the high byte of the target is read without carry into the pointer page, 5 ticks. -/
def execJmpInd (w : Word) (s : State) : Host.Outcome State Fault Refusal :=
  ((fetchCycles 3 s).bind fun _ s =>
    (cycle (busRead w s)).bind fun tlo s =>
    lastCycle ((busRead (indirectHiAddr w) s).bind fun thi s => .ok () { s with pc := mkWord thi tlo })).outcome

/-- JSR absolute, opcode 0x20 (R322): pushes the address of its own last byte; the high byte of the target is the byte read in the last tick, after the
pushes (41_addressing_modes.md R193; log 16), 6 ticks. -/
def execJsr (w : Word) (s : State) : Host.Outcome State Fault Refusal :=
  ((fetchCycles 2 s).bind fun _ s =>
    (cycle (stackRead s)).bind fun _ s =>
    (cycle (push (hiByte s.pc) s)).bind fun _ s =>
    (cycle (push (loByte s.pc) s)).bind fun _ s =>
    lastCycle ((busRead s.pc s).bind fun hi s => .ok () { s with pc := mkWord hi (loByte w) })).outcome

/-- RTS, opcode 0x60 (R323): pulls PC and adds one, 6 ticks. -/
def execRts (s : State) : Host.Outcome State Fault Refusal :=
  ((stackHead s).bind fun _ s =>
    (cycle (stackReadInc s)).bind fun _ s =>
    (cycle (stackReadInc s)).bind fun lo s =>
    (cycle (stackRead s)).bind fun hi s =>
    lastCycle ((busRead (mkWord hi lo) s).bind fun _ s => .ok () { s with pc := mkWord hi lo + 1 })).outcome

/-- BCC, opcode 0x90 (R325). -/
def execBcc (d : Byte) (s : State) : Host.Outcome State Fault Refusal :=
  (branchRel .cc d s).outcome

/-- BCS, opcode 0xB0 (R326). -/
def execBcs (d : Byte) (s : State) : Host.Outcome State Fault Refusal :=
  (branchRel .cs d s).outcome

/-- BEQ, opcode 0xF0 (R327). -/
def execBeq (d : Byte) (s : State) : Host.Outcome State Fault Refusal :=
  (branchRel .eq d s).outcome

/-- BNE, opcode 0xD0 (R328). -/
def execBne (d : Byte) (s : State) : Host.Outcome State Fault Refusal :=
  (branchRel .ne d s).outcome

/-- BMI, opcode 0x30 (R329). -/
def execBmi (d : Byte) (s : State) : Host.Outcome State Fault Refusal :=
  (branchRel .mi d s).outcome

/-- BPL, opcode 0x10 (R330). -/
def execBpl (d : Byte) (s : State) : Host.Outcome State Fault Refusal :=
  (branchRel .pl d s).outcome

/-- BVC, opcode 0x50 (R331). -/
def execBvc (d : Byte) (s : State) : Host.Outcome State Fault Refusal :=
  (branchRel .vc d s).outcome

/-- BVS, opcode 0x70 (R332). -/
def execBvs (d : Byte) (s : State) : Host.Outcome State Fault Refusal :=
  (branchRel .vs d s).outcome

end Sys2Proof.Machine
end

