-- ==== Sys2Proof/Machine/LoadStore.lean ====
section
/-! DEFINITION. The meanings of the loads, stores and register transfers (42_load_store_transfer.md), one definition per row of the opcode
table, each the whole instruction from boundary to boundary (40_execution_engine.md R156). -/

namespace Sys2Proof.Machine

/-- LDA immediate, opcode 0xA9 (R230). -/
def execLdaImm (v : Byte) (s : State) : Host.Outcome State Fault Refusal :=
  (readImm .lda v s).outcome

/-- LDA zero-page, opcode 0xA5 (R230). -/
def execLdaZp (z : Byte) (s : State) : Host.Outcome State Fault Refusal :=
  (readZp .lda z s).outcome

/-- LDA zero-page,X, opcode 0xB5 (R230). -/
def execLdaZpx (z : Byte) (s : State) : Host.Outcome State Fault Refusal :=
  (readZpIdx .lda .x z s).outcome

/-- LDA absolute, opcode 0xAD (R230). -/
def execLdaAbs (w : Word) (s : State) : Host.Outcome State Fault Refusal :=
  (readAbs .lda w s).outcome

/-- LDA absolute,X, opcode 0xBD (R230). -/
def execLdaAbx (w : Word) (s : State) : Host.Outcome State Fault Refusal :=
  (readAbsIdx .lda .x w s).outcome

/-- LDA absolute,Y, opcode 0xB9 (R230). -/
def execLdaAby (w : Word) (s : State) : Host.Outcome State Fault Refusal :=
  (readAbsIdx .lda .y w s).outcome

/-- LDA (zero-page,X), opcode 0xA1 (R230). -/
def execLdaIzx (z : Byte) (s : State) : Host.Outcome State Fault Refusal :=
  (readIzx .lda z s).outcome

/-- LDA (zero-page),Y, opcode 0xB1 (R230). -/
def execLdaIzy (z : Byte) (s : State) : Host.Outcome State Fault Refusal :=
  (readIzy .lda z s).outcome

/-- LDX immediate, opcode 0xA2 (R231). -/
def execLdxImm (v : Byte) (s : State) : Host.Outcome State Fault Refusal :=
  (readImm .ldx v s).outcome

/-- LDX zero-page, opcode 0xA6 (R231). -/
def execLdxZp (z : Byte) (s : State) : Host.Outcome State Fault Refusal :=
  (readZp .ldx z s).outcome

/-- LDX zero-page,Y, opcode 0xB6 (R231). -/
def execLdxZpy (z : Byte) (s : State) : Host.Outcome State Fault Refusal :=
  (readZpIdx .ldx .y z s).outcome

/-- LDX absolute, opcode 0xAE (R231). -/
def execLdxAbs (w : Word) (s : State) : Host.Outcome State Fault Refusal :=
  (readAbs .ldx w s).outcome

/-- LDX absolute,Y, opcode 0xBE (R231). -/
def execLdxAby (w : Word) (s : State) : Host.Outcome State Fault Refusal :=
  (readAbsIdx .ldx .y w s).outcome

/-- LDY immediate, opcode 0xA0 (R232). -/
def execLdyImm (v : Byte) (s : State) : Host.Outcome State Fault Refusal :=
  (readImm .ldy v s).outcome

/-- LDY zero-page, opcode 0xA4 (R232). -/
def execLdyZp (z : Byte) (s : State) : Host.Outcome State Fault Refusal :=
  (readZp .ldy z s).outcome

/-- LDY zero-page,X, opcode 0xB4 (R232). -/
def execLdyZpx (z : Byte) (s : State) : Host.Outcome State Fault Refusal :=
  (readZpIdx .ldy .x z s).outcome

/-- LDY absolute, opcode 0xAC (R232). -/
def execLdyAbs (w : Word) (s : State) : Host.Outcome State Fault Refusal :=
  (readAbs .ldy w s).outcome

/-- LDY absolute,X, opcode 0xBC (R232). -/
def execLdyAbx (w : Word) (s : State) : Host.Outcome State Fault Refusal :=
  (readAbsIdx .ldy .x w s).outcome

/-- STA zero-page, opcode 0x85 (R233). -/
def execStaZp (z : Byte) (s : State) : Host.Outcome State Fault Refusal :=
  (writeZp .a z s).outcome

/-- STA zero-page,X, opcode 0x95 (R233). -/
def execStaZpx (z : Byte) (s : State) : Host.Outcome State Fault Refusal :=
  (writeZpIdx .a .x z s).outcome

/-- STA absolute, opcode 0x8D (R233). -/
def execStaAbs (w : Word) (s : State) : Host.Outcome State Fault Refusal :=
  (writeAbs .a w s).outcome

/-- STA absolute,X, opcode 0x9D (R233). -/
def execStaAbx (w : Word) (s : State) : Host.Outcome State Fault Refusal :=
  (writeAbsIdx .a .x w s).outcome

/-- STA absolute,Y, opcode 0x99 (R233). -/
def execStaAby (w : Word) (s : State) : Host.Outcome State Fault Refusal :=
  (writeAbsIdx .a .y w s).outcome

/-- STA (zero-page,X), opcode 0x81 (R233). -/
def execStaIzx (z : Byte) (s : State) : Host.Outcome State Fault Refusal :=
  (writeIzx .a z s).outcome

/-- STA (zero-page),Y, opcode 0x91 (R233). -/
def execStaIzy (z : Byte) (s : State) : Host.Outcome State Fault Refusal :=
  (writeIzy .a z s).outcome

/-- STX zero-page, opcode 0x86 (R234). -/
def execStxZp (z : Byte) (s : State) : Host.Outcome State Fault Refusal :=
  (writeZp .x z s).outcome

/-- STX zero-page,Y, opcode 0x96 (R234). -/
def execStxZpy (z : Byte) (s : State) : Host.Outcome State Fault Refusal :=
  (writeZpIdx .x .y z s).outcome

/-- STX absolute, opcode 0x8E (R234). -/
def execStxAbs (w : Word) (s : State) : Host.Outcome State Fault Refusal :=
  (writeAbs .x w s).outcome

/-- STY zero-page, opcode 0x84 (R235). -/
def execStyZp (z : Byte) (s : State) : Host.Outcome State Fault Refusal :=
  (writeZp .y z s).outcome

/-- STY zero-page,X, opcode 0x94 (R235). -/
def execStyZpx (z : Byte) (s : State) : Host.Outcome State Fault Refusal :=
  (writeZpIdx .y .x z s).outcome

/-- STY absolute, opcode 0x8C (R235). -/
def execStyAbs (w : Word) (s : State) : Host.Outcome State Fault Refusal :=
  (writeAbs .y w s).outcome

/-- TAX, opcode 0xAA (R236). -/
def execTax (s : State) : Host.Outcome State Fault Refusal :=
  (implied .tax s).outcome

/-- TAY, opcode 0xA8 (R237). -/
def execTay (s : State) : Host.Outcome State Fault Refusal :=
  (implied .tay s).outcome

/-- TXA, opcode 0x8A (R238). -/
def execTxa (s : State) : Host.Outcome State Fault Refusal :=
  (implied .txa s).outcome

/-- TYA, opcode 0x98 (R239). -/
def execTya (s : State) : Host.Outcome State Fault Refusal :=
  (implied .tya s).outcome

/-- TSX, opcode 0xBA (R240). -/
def execTsx (s : State) : Host.Outcome State Fault Refusal :=
  (implied .tsx s).outcome

/-- TXS, opcode 0x9A (R241). -/
def execTxs (s : State) : Host.Outcome State Fault Refusal :=
  (implied .txs s).outcome

end Sys2Proof.Machine
end

