-- ==== Sys2Proof/Machine/Shift.lean ====
section
/-! DEFINITION. The meanings of the shifts and rotates (44_shift_rotate.md), one definition per row of the opcode
table, each the whole instruction from boundary to boundary (40_execution_engine.md R156). -/

namespace Sys2Proof.Machine

/-- ASL accumulator, opcode 0x0A (R301). -/
def execAslAcc (s : State) : Host.Outcome State Fault Refusal :=
  (rmwAcc .asl s).outcome

/-- ASL zero-page, opcode 0x06 (R301). -/
def execAslZp (z : Byte) (s : State) : Host.Outcome State Fault Refusal :=
  (rmwZp .asl z s).outcome

/-- ASL zero-page,X, opcode 0x16 (R301). -/
def execAslZpx (z : Byte) (s : State) : Host.Outcome State Fault Refusal :=
  (rmwZpx .asl z s).outcome

/-- ASL absolute, opcode 0x0E (R301). -/
def execAslAbs (w : Word) (s : State) : Host.Outcome State Fault Refusal :=
  (rmwAbs .asl w s).outcome

/-- ASL absolute,X, opcode 0x1E (R301). -/
def execAslAbx (w : Word) (s : State) : Host.Outcome State Fault Refusal :=
  (rmwAbx .asl w s).outcome

/-- LSR accumulator, opcode 0x4A (R302). -/
def execLsrAcc (s : State) : Host.Outcome State Fault Refusal :=
  (rmwAcc .lsr s).outcome

/-- LSR zero-page, opcode 0x46 (R302). -/
def execLsrZp (z : Byte) (s : State) : Host.Outcome State Fault Refusal :=
  (rmwZp .lsr z s).outcome

/-- LSR zero-page,X, opcode 0x56 (R302). -/
def execLsrZpx (z : Byte) (s : State) : Host.Outcome State Fault Refusal :=
  (rmwZpx .lsr z s).outcome

/-- LSR absolute, opcode 0x4E (R302). -/
def execLsrAbs (w : Word) (s : State) : Host.Outcome State Fault Refusal :=
  (rmwAbs .lsr w s).outcome

/-- LSR absolute,X, opcode 0x5E (R302). -/
def execLsrAbx (w : Word) (s : State) : Host.Outcome State Fault Refusal :=
  (rmwAbx .lsr w s).outcome

/-- ROL accumulator, opcode 0x2A (R303). -/
def execRolAcc (s : State) : Host.Outcome State Fault Refusal :=
  (rmwAcc .rol s).outcome

/-- ROL zero-page, opcode 0x26 (R303). -/
def execRolZp (z : Byte) (s : State) : Host.Outcome State Fault Refusal :=
  (rmwZp .rol z s).outcome

/-- ROL zero-page,X, opcode 0x36 (R303). -/
def execRolZpx (z : Byte) (s : State) : Host.Outcome State Fault Refusal :=
  (rmwZpx .rol z s).outcome

/-- ROL absolute, opcode 0x2E (R303). -/
def execRolAbs (w : Word) (s : State) : Host.Outcome State Fault Refusal :=
  (rmwAbs .rol w s).outcome

/-- ROL absolute,X, opcode 0x3E (R303). -/
def execRolAbx (w : Word) (s : State) : Host.Outcome State Fault Refusal :=
  (rmwAbx .rol w s).outcome

/-- ROR accumulator, opcode 0x6A (R304). -/
def execRorAcc (s : State) : Host.Outcome State Fault Refusal :=
  (rmwAcc .ror s).outcome

/-- ROR zero-page, opcode 0x66 (R304). -/
def execRorZp (z : Byte) (s : State) : Host.Outcome State Fault Refusal :=
  (rmwZp .ror z s).outcome

/-- ROR zero-page,X, opcode 0x76 (R304). -/
def execRorZpx (z : Byte) (s : State) : Host.Outcome State Fault Refusal :=
  (rmwZpx .ror z s).outcome

/-- ROR absolute, opcode 0x6E (R304). -/
def execRorAbs (w : Word) (s : State) : Host.Outcome State Fault Refusal :=
  (rmwAbs .ror w s).outcome

/-- ROR absolute,X, opcode 0x7E (R304). -/
def execRorAbx (w : Word) (s : State) : Host.Outcome State Fault Refusal :=
  (rmwAbx .ror w s).outcome

end Sys2Proof.Machine
end

