-- ==== Sys2Proof/Machine/System.lean ====
section
/-! DEFINITION. The meanings of the stack, flag and system instructions (46_stack_flags_system.md), one definition per row of the opcode
table, each the whole instruction from boundary to boundary (40_execution_engine.md R156). -/

namespace Sys2Proof.Machine

/-- PHA, opcode 0x48 (R350): 3 ticks. -/
def execPha (s : State) : Host.Outcome State Fault Refusal :=
  ((stackHead s).bind fun _ s => lastCycle (push s.a s)).outcome

/-- PLA, opcode 0x68 (R351): 4 ticks. -/
def execPla (s : State) : Host.Outcome State Fault Refusal :=
  ((stackHead s).bind fun _ s =>
    (cycle (stackReadInc s)).bind fun _ s =>
    lastCycle ((stackRead s).bind fun v s => .ok () (s.setA v))).outcome

/-- PHP, opcode 0x08 (R352): the byte pushed has bits 4 and 5 set, 3 ticks. -/
def execPhp (s : State) : Host.Outcome State Fault Refusal :=
  ((stackHead s).bind fun _ s => lastCycle (push (packBreak s.p) s)).outcome

/-- PLP, opcode 0x28 (R353): bits 4 and 5 of the byte are ignored, 4 ticks. -/
def execPlp (s : State) : Host.Outcome State Fault Refusal :=
  ((stackHead s).bind fun _ s =>
    (cycle (stackReadInc s)).bind fun _ s =>
    lastCycle ((stackRead s).bind fun b s => .ok () { s with p := pulledFlags b s.p })).outcome

/-- CLC, opcode 0x18 (R354). -/
def execClc (s : State) : Host.Outcome State Fault Refusal :=
  (implied .clc s).outcome

/-- SEC, opcode 0x38 (R355). -/
def execSec (s : State) : Host.Outcome State Fault Refusal :=
  (implied .sec s).outcome

/-- CLI, opcode 0x58 (R356). -/
def execCli (s : State) : Host.Outcome State Fault Refusal :=
  (implied .cli s).outcome

/-- SEI, opcode 0x78 (R357). -/
def execSei (s : State) : Host.Outcome State Fault Refusal :=
  (implied .sei s).outcome

/-- CLD, opcode 0xD8 (R358). -/
def execCld (s : State) : Host.Outcome State Fault Refusal :=
  (implied .cld s).outcome

/-- SED, opcode 0xF8 (R359). -/
def execSed (s : State) : Host.Outcome State Fault Refusal :=
  (implied .sed s).outcome

/-- CLV, opcode 0xB8 (R360). -/
def execClv (s : State) : Host.Outcome State Fault Refusal :=
  (implied .clv s).outcome

/-- NOP, opcode 0xEA (R361). -/
def execNop (s : State) : Host.Outcome State Fault Refusal :=
  (implied .nop s).outcome

/-- BRK, opcode 0x00 (R362): the byte after the opcode is read and skipped, then the exception is taken through VEC_IRQ, 7 ticks. -/
def execBrk (s : State) : Host.Outcome State Fault Refusal :=
  ((fetchCycles 2 s).bind fun _ s => takeException .irq true s).outcome

/-- RTI, opcode 0x40 (R364): 6 ticks. -/
def execRti (s : State) : Host.Outcome State Fault Refusal :=
  ((stackHead s).bind fun _ s => returnFromException s).outcome

/-- HLT, opcode 0x02 (R365): stops the CPU at the end of its only tick; PC is its address plus one. -/
def execHlt (s : State) : Host.Outcome State Fault Refusal :=
  (lastCycle ((fetchByte s).bind fun _ s => .ok () { s with halted := true })).outcome

end Sys2Proof.Machine
end

