-- ==== Sys2Proof/Machine/Interrupt.lean ====
section
/-! DEFINITION. The interrupt aggregator, the sampling of its lines at a boundary, and the hardware-interrupt service
sequence (60_exceptions.md R400 to R410). -/

namespace Sys2Proof.Machine

/-- `IRQ()`: the OR over all sources (60_exceptions.md R402). -/
def irqAsserted (sources : List Source) : Bool := sources.any (fun d => d.irq)

/-- `NMI()`: the OR over all sources (60_exceptions.md R402). -/
def nmiAsserted (sources : List Source) : Bool := sources.any (fun d => d.nmi)

/-- The interrupt taken at a boundary, if any: none while `inISR` (60_exceptions.md R407), NMI first and whatever I is
(R404, R406), IRQ only with I clear (R405). -/
def interruptTaken (s : State) : Option VectorId :=
  if s.inISR then none
  else if nmiAsserted s.sources then some .nmi
  else if irqAsserted s.sources && !s.p.i then some .irq
  else none

/-- The INT_ENTRY_DUMMY ticks, each `R PC (discard)` (60_exceptions.md R408). -/
def dummyCycles : Nat → State → Res Unit
  | 0, s => .ok () s
  | n + 1, s => (cycle (busRead s.pc s)).bind fun _ s => dummyCycles n s

/-- A service sequence of `INT_ENTRY_DUMMY + 5` micro-operations fits the queue (40_execution_engine.md R148). -/
def serviceFits (s : State) : Bool := decide (s.params.intEntryDummy + 5 ≤ queueCapacity)

/-- The whole interrupt entry, `S0` to `S5`: the boundary tick makes no bus access and leaves PC alone
(40_execution_engine.md R143), then the exception is taken (60_exceptions.md R408). -/
def serviceInterrupt (v : VectorId) (s : State) : Res Unit :=
  if serviceFits s then
    (cycle (.ok () s)).bind fun _ s =>
    (dummyCycles s.params.intEntryDummy s).bind fun _ s =>
    takeException v false s
  else .fault .queueOverflow s

end Sys2Proof.Machine
end

