-- ==== Sys2Proof/Machine/Tick.lean ====
section
/-! DEFINITION. The tick view: one call of `tick()` (40_execution_engine.md R140 to R153), the micro-operation sequences
of every (mode, class) pair and of the instructions with a sequence of their own (41_addressing_modes.md R181 to R194),
and what one micro-operation does. -/

namespace Sys2Proof.Machine

/-! ### Sequences -/

/-- What the queued part of an instruction does, by mnemonic: the operation of its class (30_encoding.md R112), or the
instruction itself where it has a sequence of its own (41_addressing_modes.md R194). -/
inductive Operation where
  | read (op : ReadOp)
  | write (r : StoreReg)
  | rmw (op : RmwOp)
  | branch (c : Cond)
  | implied (op : ImpliedOp)
  | jmp | jsr | rts | pha | pla | php | plp | brk | rti | hlt
  deriving DecidableEq, Repr

/-- The operation of a mnemonic (files 42 to 46 of spec/). -/
def operationOf : Mnemonic → Operation
  | .lda => .read .lda | .ldx => .read .ldx | .ldy => .read .ldy
  | .sta => .write .a | .stx => .write .x | .sty => .write .y
  | .tax => .implied .tax | .tay => .implied .tay | .txa => .implied .txa
  | .tya => .implied .tya | .tsx => .implied .tsx | .txs => .implied .txs
  | .adc => .read .adc | .sbc => .read .sbc | .and => .read .and | .ora => .read .ora | .eor => .read .eor
  | .cmp => .read .cmp | .cpx => .read .cpx | .cpy => .read .cpy | .bit => .read .bit
  | .inc => .rmw .inc | .dec => .rmw .dec
  | .inx => .implied .inx | .iny => .implied .iny | .dex => .implied .dex | .dey => .implied .dey
  | .asl => .rmw .asl | .lsr => .rmw .lsr | .rol => .rmw .rol | .ror => .rmw .ror
  | .jmp => .jmp | .jsr => .jsr | .rts => .rts
  | .bcc => .branch .cc | .bcs => .branch .cs | .beq => .branch .eq | .bne => .branch .ne
  | .bmi => .branch .mi | .bpl => .branch .pl | .bvc => .branch .vc | .bvs => .branch .vs
  | .pha => .pha | .pla => .pla | .php => .php | .plp => .plp
  | .clc => .implied .clc | .sec => .implied .sec | .cli => .implied .cli | .sei => .implied .sei
  | .cld => .implied .cld | .sed => .implied .sed | .clv => .implied .clv | .nop => .implied .nop
  | .brk => .brk | .rti => .rti | .hlt => .hlt

/-- The queued micro-operations of an (operation, mode) pair, none where the pair has no sequence
(F_NOT_IMPLEMENTED, 30_encoding.md R112). -/
def sequenceOf : Operation → Mode → Option (List MicroOp)
  | .implied op, .imp => some [.implied op]
  | .read op, .imm => some [.immediate op]
  | .read op, .zp => some [.operandZp, .readEa op]
  | .read op, .zpx => some [.operandLo, .zpIndex .x, .readEa op]
  | .read op, .zpy => some [.operandLo, .zpIndex .y, .readEa op]
  | .read op, .abs => some [.operandLo, .operandHi, .readEa op]
  | .read op, .abx => some [.operandLo, .operandHiIndexed .x, .readUnfixed op]
  | .read op, .aby => some [.operandLo, .operandHiIndexed .y, .readUnfixed op]
  | .read op, .izx => some [.operandLo, .pointerIndex, .pointerLo, .pointerHi, .readEa op]
  | .read op, .izy => some [.operandPointer, .pointerLo, .pointerHiIndexed, .readUnfixed op]
  | .write r, .zp => some [.operandZp, .writeEa r]
  | .write r, .zpx => some [.operandLo, .zpIndex .x, .writeEa r]
  | .write r, .zpy => some [.operandLo, .zpIndex .y, .writeEa r]
  | .write r, .abs => some [.operandLo, .operandHi, .writeEa r]
  | .write r, .abx => some [.operandLo, .operandHiIndexed .x, .discardUnfixed, .writeEa r]
  | .write r, .aby => some [.operandLo, .operandHiIndexed .y, .discardUnfixed, .writeEa r]
  | .write r, .izx => some [.operandLo, .pointerIndex, .pointerLo, .pointerHi, .writeEa r]
  | .write r, .izy => some [.operandPointer, .pointerLo, .pointerHiIndexed, .discardUnfixed, .writeEa r]
  | .rmw op, .acc => some [.accumulator op]
  | .rmw op, .zp => some [.operandZp, .rmwRead, .rmwWriteOld, .rmwWriteNew op]
  | .rmw op, .zpx => some [.operandLo, .zpIndex .x, .rmwRead, .rmwWriteOld, .rmwWriteNew op]
  | .rmw op, .abs => some [.operandLo, .operandHi, .rmwRead, .rmwWriteOld, .rmwWriteNew op]
  | .rmw op, .abx =>
    some [.operandLo, .operandHiIndexed .x, .discardUnfixed, .rmwRead, .rmwWriteOld, .rmwWriteNew op]
  | .branch c, .rel => some [.branchOperand c]
  | .jmp, .abs => some [.operandLo, .jumpHi]
  | .jmp, .ind => some [.operandLo, .operandHi, .jumpIndirectLo, .jumpIndirectHi]
  | .jsr, .abs => some [.operandLo, .discardStack, .pushPcHi, .pushPcLo, .jumpHi]
  | .rts, .imp => some [.discardPc, .pullStart, .pullLo, .pullHi, .returnIncrement]
  | .pha, .imp => some [.discardPc, .pushA]
  | .php, .imp => some [.discardPc, .pushP]
  | .pla, .imp => some [.discardPc, .pullStart, .pullA]
  | .plp, .imp => some [.discardPc, .pullStart, .pullP]
  | .brk, .imp => some [.skipByte, .pushPcHi, .pushPcLo, .pushStatus true, .vectorLo .irq, .vectorHi .irq true]
  | .rti, .imp => some [.discardPc, .pullStart, .pullStatus, .pullLo, .pullHiReturn]
  | .hlt, .imp => some []
  | _, _ => none

/-- The hardware-interrupt service sequence `S1` to `S5`, after the dummy ticks (60_exceptions.md R408). -/
def serviceSequence (v : VectorId) (dummies : Nat) : List MicroOp :=
  List.replicate dummies .discardPc ++
    [.pushPcHi, .pushPcLo, .pushStatus false, .vectorLo v, .vectorHi v false]

/-- An enqueue; into a queue of 16 it raises F_QUEUE_OVERFLOW (10_state.md R30, 40_execution_engine.md R148). -/
def enqueue (m : MicroOp) (s : State) : Res Unit :=
  if s.queue.length < queueCapacity then .ok () { s with queue := s.queue ++ [m] } else .fault .queueOverflow s

/-- Enqueue in order. -/
def enqueueAll : List MicroOp → State → Res Unit
  | [], s => .ok () s
  | m :: ms, s => (enqueue m s).bind fun _ s => enqueueAll ms s

/-! ### One micro-operation -/

/-- New temporaries. -/
def State.setTmp (s : State) (t : Temps) : State := { s with tmp := t }

/-- The temporaries after the high byte `h` of an indexed base is known (41_addressing_modes.md R187, R189). -/
def Temps.indexed (t : Temps) (h idx : Byte) : Temps :=
  let base := mkWord h t.lo
  { t with hi := h, ea := indexedAddr base idx, crossed := pageCrossed base idx }

/-- `ea_nofix` of the instruction in flight: the high byte of the base with the low byte of the sum. -/
def Temps.unfixed (t : Temps) : Word := mkWord t.hi (loByte t.ea)

/-- A read whose value goes into the temporaries. -/
def readTmp (a : Word) (f : Byte → Temps → Temps) (s : State) : Res Unit :=
  (busRead a s).bind fun v s => .ok () (s.setTmp (f v s.tmp))

/-- An operand fetch whose value goes into the temporaries. -/
def fetchTmp (f : Byte → Temps → Temps) (s : State) : Res Unit :=
  (fetchByte s).bind fun v s => .ok () (s.setTmp (f v s.tmp))

/-- One micro-operation: exactly one bus access and its internal action (40_execution_engine.md R142). -/
def runMicro (m : MicroOp) (s : State) : Res Unit :=
  match m with
  | .implied op => (busRead s.pc s).bind fun _ s => .ok () (op.apply s)
  | .accumulator op => (busRead s.pc s).bind fun _ s => .ok () (s.setAFlags (op.apply s.a s.p))
  | .immediate op => (fetchByte s).bind fun v s => op.apply v s
  | .operandLo => fetchTmp (fun v t => { t with lo := v }) s
  | .operandZp => fetchTmp (fun v t => { t with lo := v, ea := zpAddr v }) s
  | .operandHi => fetchTmp (fun v t => { t with hi := v, ea := mkWord v t.lo }) s
  | .operandHiIndexed i => fetchTmp (fun v t => t.indexed v (i.value s)) s
  | .zpIndex i => readTmp (zpAddr s.tmp.lo) (fun _ t => { t with ea := zpAddr (t.lo + i.value s) }) s
  | .pointerIndex => readTmp (zpAddr s.tmp.lo) (fun _ t => { t with ptr := t.lo + s.x }) s
  | .operandPointer => fetchTmp (fun v t => { t with ptr := v }) s
  | .pointerLo => readTmp (zpAddr s.tmp.ptr) (fun v t => { t with lo := v }) s
  | .pointerHi => readTmp (zpAddr (s.tmp.ptr + 1)) (fun v t => { t with hi := v, ea := mkWord v t.lo }) s
  | .pointerHiIndexed => readTmp (zpAddr (s.tmp.ptr + 1)) (fun v t => t.indexed v s.y) s
  | .readEa op => readInto op s.tmp.ea s
  | .readUnfixed op =>
    if s.tmp.crossed then (busRead s.tmp.unfixed s).bind fun _ s => enqueue (.readEa op) s
    else readInto op s.tmp.unfixed s
  | .discardUnfixed => (busRead s.tmp.unfixed s).bind fun _ s => .ok () s
  | .writeEa r => busWrite s.tmp.ea (r.value s) s
  | .rmwRead => readTmp s.tmp.ea (fun v t => { t with val := v }) s
  | .rmwWriteOld => busWrite s.tmp.ea s.tmp.val s
  | .rmwWriteNew op => rmwWrite op s.tmp.ea s.tmp.val s
  | .branchOperand c =>
    (fetchTmp (fun v t => { t with lo := v }) s).bind fun _ s =>
      if c.holds s.p then enqueue .branchTaken s else .ok () s
  | .branchTaken =>
    let target := branchTarget s.pc s.tmp.lo
    if hiByte target = hiByte s.pc then branchLand s.pc target s
    else (readTmp s.pc (fun _ t => { t with ea := target, crossed := true }) s).bind fun _ s => enqueue .branchFix s
  | .branchFix => branchLand (mkWord (hiByte s.pc) (loByte s.tmp.ea)) s.tmp.ea s
  | .jumpHi => (busRead s.pc s).bind fun h s => .ok () { s with pc := mkWord h s.tmp.lo }
  | .jumpIndirectLo => readTmp s.tmp.ea (fun v t => { t with val := v }) s
  | .jumpIndirectHi =>
    (busRead (indirectHiAddr s.tmp.ea) s).bind fun h s => .ok () { s with pc := mkWord h s.tmp.val }
  | .discardPc => (busRead s.pc s).bind fun _ s => .ok () s
  | .skipByte => (fetchByte s).bind fun _ s => .ok () s
  | .discardStack => (stackRead s).bind fun _ s => .ok () s
  | .pullStart => (stackReadInc s).bind fun _ s => .ok () s
  | .pullLo => (stackRead s).bind fun v s => incSp (s.setTmp { s.tmp with lo := v })
  | .pullHi => (stackRead s).bind fun v s => .ok () (s.setTmp { s.tmp with hi := v })
  | .returnIncrement =>
    (busRead (mkWord s.tmp.hi s.tmp.lo) s).bind fun _ s => .ok () { s with pc := mkWord s.tmp.hi s.tmp.lo + 1 }
  | .pushPcHi => push (hiByte s.pc) s
  | .pushPcLo => push (loByte s.pc) s
  | .pushA => push s.a s
  | .pushP => push (packBreak s.p) s
  | .pullA => (stackRead s).bind fun v s => .ok () (s.setA v)
  | .pullP => (stackRead s).bind fun b s => .ok () { s with p := pulledFlags b s.p }
  | .pushStatus soft => pushStatusByte soft s
  | .vectorLo v => loadVectorLo v s
  | .vectorHi v soft => loadVectorHi v soft s
  | .pullStatus => pullStatusByte s
  | .pullHiReturn => pullReturnHi s.tmp.lo s

/-! ### One tick -/

/-- The quiescent hook fires and is disarmed, before the opcode fetch (40_execution_engine.md R151). -/
def fireHook (s : State) : State := { s with hookArmed := false }

/-- FetchDecodeDispatch (40_execution_engine.md R144); HLT sets `halted` in this tick (46_stack_flags_system.md R365). -/
def fetchDecodeDispatch (s : State) : Res Unit :=
  let opaddr := s.pc
  (fetchByte s).bind fun opcode s =>
  match decodeOpcode s.params.hltOpcode opcode with
  | none => .fault (.unassignedOpcode opcode opaddr) s
  | some (mn, mode) =>
    match sequenceOf (operationOf mn) mode with
    | none => .fault (.notImplemented mn mode) s
    | some ms => enqueueAll ms (if mn = .hlt then { s with halted := true } else s)

/-- Step 2 of the tick, at a boundary (40_execution_engine.md R141, R143). -/
def boundaryTick (s : State) : Res Unit :=
  match interruptTaken s with
  | some v => enqueueAll (serviceSequence v s.params.intEntryDummy) s
  | none => fetchDecodeDispatch (fireHook s)

/-- Step 3 of the tick (40_execution_engine.md R141, R145), the peripherals' turn and, with the queue empty, the end of
the instruction. -/
def endTick (s : State) : Res Unit :=
  .ok () (if (countCycle s).queue.isEmpty then settle (countCycle s) else countCycle s)

/-- One tick of a CPU that is neither halted nor faulted (40_execution_engine.md R141). -/
def tickRes (s : State) : Res Unit :=
  (match s.queue with
    | m :: q => runMicro m { s with queue := q }
    | [] => boundaryTick s).bind fun _ s => endTick s

/-- `tick()`: a halted CPU takes no tick, a faulted one stays faulted (40_execution_engine.md R140, R153). -/
def tick (s : State) : Host.Outcome State Fault Refusal :=
  match s.fault with
  | some f => .fault f
  | none => if s.halted then .next s else (tickRes s).outcome

/-- The state `tick()` leaves behind, the wreckage of a fatal fault included: the fault is recorded, the effects before
it stay, and the tick is not counted (10_state.md R35, 40_execution_engine.md R153). A refused tick has no successor state
in the spec (93_implementation_defined.md, DECIMAL_MODE); that this function answers for it the state in which the refusal
arose, the micro-operation dequeued, the tick not counted and nothing recorded, is the model's own (DESIGN CHOICE, log
35). -/
def afterTick (s : State) : State :=
  if s.fault.isSome || s.halted then s
  else match tickRes s with
    | .ok _ t => t
    | .fault f t => { t with fault := some f }
    | .refuse _ t => t

/-- Ticks until the queue is empty, at most `fuel` of them. -/
def ticksToBoundary : Nat → State → Res Unit
  | 0, s => .ok () s
  | n + 1, s => match s.queue with
    | [] => .ok () s
    | _ :: _ => (tickRes s).bind fun _ s => ticksToBoundary n s

/-- The instruction or service sequence in flight, run to its end. Each queued micro-operation adds at most two more
ticks (41_addressing_modes.md R187, R189, R190). -/
def finishInFlight (s : State) : Res Unit := ticksToBoundary (3 * s.queue.length) s

/-! ### Coarse states -/

/-- The three coarse states the source names and the two absorbing ones (40_execution_engine.md R146). -/
inductive CoarseState where
  | fetching | executing | servicingInterrupt | halted | faulted
  deriving DecidableEq, Repr

/-- A micro-operation of a hardware-interrupt service sequence: its last one marks `inISR` (60_exceptions.md R408). -/
def MicroOp.endsService : MicroOp → Bool
  | .vectorHi _ soft => !soft
  | _ => false

/-- The coarse state, read off the queue (40_execution_engine.md R146). -/
def coarseState (s : State) : CoarseState :=
  if s.fault.isSome then .faulted
  else if s.halted then .halted
  else if s.queue.isEmpty then .fetching
  else if s.queue.any MicroOp.endsService then .servicingInterrupt
  else .executing

end Sys2Proof.Machine
end

