-- ==== Sys2Proof/Machine/Fetch.lean ====
section
/-! DEFINITION. Fetching and decoding a whole instruction for the instruction view: the bytes its fetch ticks are going to
read (40_execution_engine.md R144, R156), and placing an instruction where the next fetch finds it. -/

namespace Sys2Proof.Machine

/-- The next byte the fetch ticks of state `s` would read, 0 where that read stops the machine: the meaning makes the
same read and stops there itself. -/
def peekByte (s : State) : Byte :=
  match fetchByte s with
  | .ok v _ => v
  | .fault _ _ => 0
  | .refuse _ _ => 0

/-- The state after one fetch tick of a look ahead. -/
def peekNext (s : State) : State :=
  match cycle (fetchByte s) with
  | .ok _ t => t
  | .fault _ t => t
  | .refuse _ t => t

/-- The bytes three fetch ticks from `s` would read; nothing is read by looking. -/
def peekBytes (s : State) : List Byte := [peekByte s, peekByte (peekNext s), peekByte (peekNext (peekNext s))]

/-- The decoded instruction at PC. A fetch that stops, or an unassigned opcode, is the fault of the fetch tick
(30_encoding.md R105, 40_execution_engine.md R144). -/
def fetchDecode (s : State) : Res Instr :=
  (fetchByte s).bind fun _ t =>
  match decode s.params.hltOpcode (peekBytes s) with
  | .ok (i, _) => .ok i s
  | .error (.unassignedOpcode b) => .fault (.unassignedOpcode b s.pc) t
  | .error (.notImplemented mn mode) => .fault (.notImplemented mn mode) t
  | .error .empty => .fault (.unassignedOpcode 0 s.pc) t
  | .error (.truncated b) => .fault (.unassignedOpcode b s.pc) t

/-- Bytes put into storage from an address on, modulo 65536 (10_state.md R24). -/
def storeBytes : List Byte → Word → List Host.Cell → List Host.Cell
  | [], _, m => m
  | b :: bs, a, m => storeBytes bs (a + 1) (Memory.write m a.toNat b)

/-- The three bytes of the longest instruction, byte k being bits 8k+7..8k, every bit above `nbits` zero. -/
def instructionBytes (nbits w : Nat) : List Byte :=
  let v := w % 2 ^ nbits
  [BitVec.ofNat 8 v, BitVec.ofNat 8 (v / 256), BitVec.ofNat 8 (v / 65536)]

end Sys2Proof.Machine
end

