-- ==== Sys2Proof/Machine/Step.lean ====
section
/-! DEFINITION. The step: from boundary to boundary, one instruction or one interrupt entry (40_execution_engine.md R156;
log 11). -/

namespace Sys2Proof.Machine

/-- One step. A faulted machine stays faulted and a halted one takes no tick (40_execution_engine.md R140); an instruction
in flight is finished; at a boundary an interrupt is taken (60_exceptions.md R403 to R407), or the hook fires if armed and
the instruction at PC is fetched, decoded and executed (40_execution_engine.md R141). -/
def step (s : State) : Host.Outcome State Fault Refusal :=
  match s.fault with
  | some f => .fault f
  | none =>
    if s.halted then .next s
    else match s.queue with
      | _ :: _ => (finishInFlight s).outcome
      | [] => match interruptTaken s with
        | some v => (serviceInterrupt v s).outcome
        | none => match fetchDecode (fireHook s) with
          | .ok i t => exec i t
          | .fault f _ => .fault f
          | .refuse r _ => .refused r

/-- `s` with an instruction's bytes stored at PC, where the next step fetches it: in a state at a boundary, not stopped,
with no interrupt taken, whose PC lies in RAM or ROM, as `State.reset` is. -/
def State.withFetchWord (s : State) (nbits w : Nat) : State :=
  { s with mem := storeBytes (instructionBytes nbits w) s.pc s.mem }

end Sys2Proof.Machine
end

