-- ==== Sys2Proof/Machine/HostPort.lean ====
section
/-! DEFINITION. What the host does to the machine (60_exceptions.md R423): power-on and `reset()`
(70_reset_and_hazards.md R450, R451), the accessors (10_state.md R41), the quiescent hook, the cycle limit and the stop
condition (40_execution_engine.md R145, R151). -/

namespace Sys2Proof.Machine

/-- What the host gives when it builds the machine: the parameters of 00_scope.md R5 and the values 10_state.md R42
leaves open. `p.i` is not used: I is 1 after power-on. -/
structure Launch where
  a       : Byte
  x       : Byte
  y       : Byte
  sp      : Byte
  p       : Flags
  params  : Params
  regions : List Region
  sources : List Source
  bankSel : List Nat
  mem     : List Host.Cell
  deriving DecidableEq, Repr

/-- The launch whose power-on is `State.reset` (logs 1 to 4). -/
def Launch.default : Launch := ⟨0, 0, 0, 0xFF, Flags.reset, Params.default, [Region.wholeRam], [], [], []⟩

/-- The state built before the reset vector is read (70_reset_and_hazards.md R450 steps 2 and 4). -/
def Launch.state (l : Launch) : State where
  a := l.a
  x := l.x
  y := l.y
  pc := 0
  sp := l.sp
  p := { l.p with i := true }
  queue := []
  tmp := Temps.clear
  inISR := false
  cycles := 0
  haltRequested := false
  halted := false
  fault := none
  hookArmed := false
  mem := l.mem
  bankSel := l.bankSel
  regions := l.regions
  sources := l.sources
  bus := []
  params := l.params

/-- `PC <- MemRead(VEC_RESET, 2)`, two reads and no tick (70_reset_and_hazards.md R450, D30). -/
def loadResetVector (s : State) : Res Unit :=
  (readWord VectorId.reset.addr s).bind fun w s => .ok () { s with pc := w }

/-- Power-on: the instruction table is registered, the state is created, PC is seeded from the reset vector
(70_reset_and_hazards.md R450). Where a read of the vector stops, the state beside the fault or the refusal is the model's
choice (DESIGN CHOICE, log 37). -/
def powerOn (l : Launch) : Res Unit :=
  match registerAll [] (instructionSet l.params.hltOpcode) with
  | .error e => .fault (.table e) l.state
  | .ok _ => loadResetVector l.state

/-- The state `reset()` has before it reads the vector: the instruction in flight is abandoned, I is set, a recorded
fault stays (70_reset_and_hazards.md R451, D23). -/
def resetCore (s : State) : State :=
  { s with
    queue := [], tmp := Temps.clear, inISR := false, haltRequested := false, halted := false
    p := { s.p with i := true } }

/-- `reset()`, a host call legal at any time (70_reset_and_hazards.md R451). R451 gives no order between the clearing and
the reads, and 40_execution_engine.md R153 speaks of ticks only: that where a read of the vector stops (F_NO_REGION, or a
refusal) the clearing has already been done, PC is as it was and the stop is answered but not put into `State.fault` is the
model's choice (DESIGN CHOICE, log 37). -/
def hostReset (s : State) : Res Unit := loadResetVector (resetCore s)

/-- A host write, meaningful only while the queue is empty (10_state.md R41, 70_reset_and_hazards.md R467; log 22). -/
def hostPoke (f : State → State) (s : State) : Host.Outcome State Fault Refusal :=
  if s.queue.isEmpty then .next (f s) else .refused .hostMidInstruction

/-- Set A (10_state.md R41). -/
def hostSetA (v : Byte) : State → Host.Outcome State Fault Refusal := hostPoke fun s => { s with a := v }

/-- Set X (10_state.md R41). -/
def hostSetX (v : Byte) : State → Host.Outcome State Fault Refusal := hostPoke fun s => { s with x := v }

/-- Set Y (10_state.md R41). -/
def hostSetY (v : Byte) : State → Host.Outcome State Fault Refusal := hostPoke fun s => { s with y := v }

/-- Set PC (10_state.md R41). -/
def hostSetPc (v : Word) : State → Host.Outcome State Fault Refusal := hostPoke fun s => { s with pc := v }

/-- Set SP (10_state.md R41). -/
def hostSetSp (v : Byte) : State → Host.Outcome State Fault Refusal := hostPoke fun s => { s with sp := v }

/-- Set the flags (10_state.md R41). -/
def hostSetFlags (v : Flags) : State → Host.Outcome State Fault Refusal := hostPoke fun s => { s with p := v }

/-- Get the cycle count (10_state.md R41). -/
def hostGetCycles (s : State) : Nat := s.cycles

/-- Arm the quiescent hook (40_execution_engine.md R151). -/
def hostArmHook (s : State) : State := { s with hookArmed := true }

/-- Set or clear MAX_CYCLES (60_exceptions.md R421). -/
def hostSetMaxCycles (limit : Option Nat) (s : State) : State := { s with params := { s.params with maxCycles := limit } }

/-- The Runner saw its stop condition (40_execution_engine.md R145). -/
def hostRequestHalt (s : State) : State := { s with haltRequested := true }

end Sys2Proof.Machine
end

