-- ==== Sys2Proof/Safety.lean ====
section
/-! DEFINITION. The terms claims use: which accesses a memory map answers, the effective address and the cycle count of an
instruction as functions of the state (41_addressing_modes.md R197, R198), what a finished instruction leaves, the
invariant of the machine, and a run without a fault. -/

namespace Sys2Proof.Machine

/-! ### Memory maps -/

/-- The byte of storage at an address. -/
def State.byteAt (s : State) (a : Word) : Byte := Memory.read s.mem a.toNat

/-- The kind of the region that takes an access at an address, if any (20_memory.md R67). -/
def State.kindAt (s : State) (a : Word) : Option RegionKind := (claimant s.regions a).map (fun r => r.kind)

/-- The address is writable storage. -/
abbrev State.InRam (s : State) (a : Word) : Prop := s.kindAt a = some .ram

/-- The address is RAM or ROM: a read of it is answered from storage. -/
abbrev State.Stored (s : State) (a : Word) : Prop := s.kindAt a = some .ram ∨ s.kindAt a = some .rom

/-- Every address is RAM or ROM. -/
def State.AllStored (s : State) : Prop := ∀ a : Word, s.Stored a

/-- The address is a device window. -/
def State.InDevice (s : State) (a : Word) : Prop := ∃ d n, s.kindAt a = some (.device d n)

/-- The address is read-only storage (20_memory.md R64, R65). -/
def State.ReadOnly (s : State) (a : Word) : Prop := s.kindAt a = some .rom ∨ ∃ k b, s.kindAt a = some (.paged k b)

/-- Every address is RAM or a device window: no access can fault (20_memory.md R86). -/
def State.AllOpen (s : State) : Prop := ∀ a : Word, s.InRam a ∨ s.InDevice a

/-- The stack page is RAM (70_reset_and_hazards.md R453). -/
def State.StackInRam (s : State) : Prop := ∀ sp : Byte, s.InRam (stackAddr sp)

/-! ### Effective addresses and cycle counts -/

/-- The word a zero-page pointer holds, its second byte at `(ptr + 1) & 0xFF` (41_addressing_modes.md R196). -/
def State.pointerAt (s : State) (ptr : Byte) : Word := mkWord (s.byteAt (zpAddr (ptr + 1))) (s.byteAt (zpAddr ptr))

/-- The effective address of an operand over stored memory, none for a mode without one (41_addressing_modes.md R197). -/
def State.effectiveAddress (s : State) (mode : Mode) (opnd : Word) : Option Word :=
  match mode with
  | .zp => some (zpAddr (loByte opnd))
  | .zpx => some (zpAddr (loByte opnd + s.x))
  | .zpy => some (zpAddr (loByte opnd + s.y))
  | .abs => some opnd
  | .abx => some (indexedAddr opnd s.x)
  | .aby => some (indexedAddr opnd s.y)
  | .izx => some (s.pointerAt (loByte opnd + s.x))
  | .izy => some (indexedAddr (s.pointerAt (loByte opnd)) s.y)
  | .imp => none
  | .acc => none
  | .imm => none
  | .rel => none
  | .ind => none

/-- The byte an instruction of class READ works on: the operand itself in mode IMM, the byte at the effective address
otherwise (41_addressing_modes.md R183, R197). -/
def State.operandByte (s : State) (i : Instr) : Byte :=
  match s.effectiveAddress i.mode i.operand with
  | some ea => s.byteAt ea
  | none => loByte i.operand

/-- An indexed read crosses a page (41_addressing_modes.md R195). -/
def State.readCrosses (s : State) (mode : Mode) (opnd : Word) : Bool :=
  match mode with
  | .abx => pageCrossed opnd s.x
  | .aby => pageCrossed opnd s.y
  | .izy => pageCrossed (s.pointerAt (loByte opnd)) s.y
  | _ => false

/-- The predicate of a branch (45_control_flow.md R325 to R332), false for another mnemonic. -/
def branchPredicate (mn : Mnemonic) (p : Flags) : Bool :=
  match mn with
  | .bcc => p.c == false
  | .bcs => p.c == true
  | .beq => p.z == true
  | .bne => p.z == false
  | .bmi => p.n == true
  | .bpl => p.n == false
  | .bvc => p.v == false
  | .bvs => p.v == true
  | _ => false

/-- Ticks of a mode in class READ when no page is crossed (41_addressing_modes.md R198). -/
def readTicks : Mode → Nat
  | .imm => 2 | .zp => 3 | .zpx => 4 | .zpy => 4 | .abs => 4 | .abx => 4 | .aby => 4 | .izx => 6 | .izy => 5
  | .imp => 0 | .acc => 0 | .rel => 0 | .ind => 0

/-- Ticks of a mode in class WRITE (41_addressing_modes.md R198). -/
def writeTicks : Mode → Nat
  | .zp => 3 | .zpx => 4 | .zpy => 4 | .abs => 4 | .abx => 5 | .aby => 5 | .izx => 6 | .izy => 6
  | .imm => 0 | .imp => 0 | .acc => 0 | .rel => 0 | .ind => 0

/-- Ticks of a mode in class READ_MODIFY_WRITE (41_addressing_modes.md R198). -/
def rmwTicks : Mode → Nat
  | .acc => 2 | .zp => 5 | .zpx => 6 | .abs => 6 | .abx => 7
  | .imm => 0 | .imp => 0 | .zpy => 0 | .aby => 0 | .izx => 0 | .izy => 0 | .rel => 0 | .ind => 0

/-- Ticks of a branch at `pc` (41_addressing_modes.md R190, R198). -/
def branchTicks (taken : Bool) (pc : Word) (d : Byte) : Nat :=
  if taken then (if hiByte (branchTarget (pc + 2) d) = hiByte (pc + 2) then 3 else 4) else 2

/-- Ticks of class STACK (41_addressing_modes.md R198). -/
def stackTicks : Mnemonic → Nat
  | .pha => 3 | .php => 3 | .pla => 4 | .plp => 4 | .rts => 6 | .rti => 6 | .brk => 7
  | _ => 0

/-- The number of ticks an instruction takes from state `s` over stored memory (41_addressing_modes.md R198). -/
def State.cycleCount (s : State) (i : Instr) : Nat :=
  match i.mnemonic.instrClass with
  | .read => readTicks i.mode + (s.readCrosses i.mode i.operand).toNat
  | .write => writeTicks i.mode
  | .readModifyWrite => rmwTicks i.mode
  | .jump => if i.mnemonic = .jsr then 6 else if i.mode = .ind then 5 else 3
  | .branch => branchTicks (branchPredicate i.mnemonic s.p) s.pc (loByte i.operand)
  | .stack => stackTicks i.mnemonic
  | .implied => if i = .hlt then 1 else 2

/-- The length of an instruction in bytes (30_encoding.md R100). -/
def instrSize (i : Instr) : Nat := 1 + i.mode.operandBytes

/-- The address of the next instruction, `opaddr + length` mod 65536 (40_execution_engine.md R155). -/
def State.nextPc (s : State) (i : Instr) : Word := s.pc + BitVec.ofNat 16 (instrSize i)

/-! ### Arithmetic in numbers -/

/-- The four shifts of 44_shift_rotate.md R300 as arithmetic: the new byte and the carry-out; `none` for another
mnemonic. -/
def shiftResult (mn : Mnemonic) (v : Byte) (c : Bool) : Option (Byte × Bool) :=
  match mn with
  | .asl => some (BitVec.ofNat 8 (2 * v.toNat), decide (128 ≤ v.toNat))
  | .lsr => some (BitVec.ofNat 8 (v.toNat / 2), decide (v.toNat % 2 = 1))
  | .rol => some (BitVec.ofNat 8 (2 * v.toNat + c.toNat), decide (128 ≤ v.toNat))
  | .ror => some (BitVec.ofNat 8 (v.toNat / 2 + 128 * c.toNat), decide (v.toNat % 2 = 1))
  | _ => none

/-- The byte a read-modify-write writes last: an increment or decrement modulo 256 (43_arithmetic_logic.md R272, R273) or a
shift; `none` for another mnemonic. -/
def rmwResult (mn : Mnemonic) (v : Byte) (c : Bool) : Option Byte :=
  match mn with
  | .inc => some (BitVec.ofNat 8 (v.toNat + 1))
  | .dec => some (BitVec.ofNat 8 (v.toNat + 255))
  | mn => (shiftResult mn v c).map (fun r => r.1)

/-- The register a store writes to memory (42_load_store_transfer.md R233 to R235); `none` for another mnemonic. -/
def State.storedByte (s : State) (mn : Mnemonic) : Option Byte :=
  match mn with
  | .sta => some s.a
  | .stx => some s.x
  | .sty => some s.y
  | _ => none

/-- The number two binary-coded decimal digits stand for. -/
def bcdValue (v : Byte) : Nat := 10 * (v.toNat / 16) + v.toNat % 16

/-- Both digits are decimal. -/
def bcdValid (v : Byte) : Prop := v.toNat / 16 ≤ 9 ∧ v.toNat % 16 ≤ 9

/-- The opcodes of 30_encoding.md R104 that a rule names for an instruction decode to its pairs, whichever unassigned byte
HLT_OPCODE is. -/
def OpcodesAre (rows : List OpcodeRow) : Prop :=
  ∀ hlt, hltOpcodeOk hlt = true → ∀ r ∈ rows, decodeOpcode hlt r.opcode = some (r.mnemonic, r.mode)

/-! ### The addresses an instruction touches -/

/-- `n` addresses from PC on, modulo 65536 (10_state.md R24). -/
def State.fetchAddresses (s : State) (n : Nat) : List Word := (List.range n).map fun k => s.pc + BitVec.ofNat 16 k

/-- The addresses the ticks after the operand fetch of a READ, WRITE or READ_MODIFY_WRITE instruction read or write, over
stored memory, those of discarded reads included (41_addressing_modes.md R184 to R189). -/
def State.dataAddresses (s : State) (mode : Mode) (opnd : Word) : List Word :=
  match mode with
  | .zp => [zpAddr (loByte opnd)]
  | .zpx => [zpAddr (loByte opnd), zpAddr (loByte opnd + s.x)]
  | .zpy => [zpAddr (loByte opnd), zpAddr (loByte opnd + s.y)]
  | .abs => [opnd]
  | .abx => [unfixedAddr opnd s.x, indexedAddr opnd s.x]
  | .aby => [unfixedAddr opnd s.y, indexedAddr opnd s.y]
  | .izx =>
    [zpAddr (loByte opnd), zpAddr (loByte opnd + s.x), zpAddr (loByte opnd + s.x + 1),
      s.pointerAt (loByte opnd + s.x)]
  | .izy =>
    [zpAddr (loByte opnd), zpAddr (loByte opnd + 1), unfixedAddr (s.pointerAt (loByte opnd)) s.y,
      indexedAddr (s.pointerAt (loByte opnd)) s.y]
  | .imp => []
  | .acc => []
  | .imm => []
  | .rel => []
  | .ind => [opnd, indirectHiAddr opnd]

/-- The word two stacked bytes make, the low byte at `sp` (40_execution_engine.md R159). -/
def State.stackWord (s : State) (sp : Byte) : Word := mkWord (s.byteAt (stackAddr (sp + 1))) (s.byteAt (stackAddr sp))

/-- The addresses a stack instruction touches after the two reads at PC, over stored memory (45_control_flow.md R323,
46_stack_flags_system.md R350 to R353, R362, R364). -/
def State.stackAddresses (s : State) (mn : Mnemonic) : List Word :=
  match mn with
  | .pha => [stackAddr s.sp]
  | .php => [stackAddr s.sp]
  | .pla => [stackAddr s.sp, stackAddr (s.sp + 1)]
  | .plp => [stackAddr s.sp, stackAddr (s.sp + 1)]
  | .rts => [stackAddr s.sp, stackAddr (s.sp + 1), stackAddr (s.sp + 2), s.stackWord (s.sp + 1)]
  | .rti => [stackAddr s.sp, stackAddr (s.sp + 1), stackAddr (s.sp + 2), stackAddr (s.sp + 3)]
  | .brk => [stackAddr s.sp, stackAddr (s.sp - 1), stackAddr (s.sp - 2), vectorIrq, vectorIrq + 1]
  | _ => []

/-- The addresses a branch touches: the byte after it when taken, and the read at the unfixed target when that lies in
another page (41_addressing_modes.md R190). -/
def State.branchAddresses (s : State) (taken : Bool) (d : Byte) : List Word :=
  if taken then
    if hiByte (branchTarget (s.pc + 2) d) = hiByte (s.pc + 2) then [s.pc + 2]
    else [s.pc + 2, mkWord (hiByte (s.pc + 2)) (loByte (branchTarget (s.pc + 2) d))]
  else []

/-- Every address an instruction at PC reads or writes over stored memory (40_execution_engine.md R156). -/
def State.touched (s : State) (i : Instr) : List Word :=
  match i.mnemonic.instrClass with
  | .read => s.fetchAddresses (instrSize i) ++ s.dataAddresses i.mode i.operand
  | .write => s.fetchAddresses (instrSize i) ++ s.dataAddresses i.mode i.operand
  | .readModifyWrite =>
    s.fetchAddresses (if i.mode = .acc then 2 else instrSize i) ++ s.dataAddresses i.mode i.operand
  | .jump =>
    s.fetchAddresses 3 ++
      (if i.mnemonic = .jsr then [stackAddr s.sp, stackAddr (s.sp - 1)]
        else if i.mode = .ind then s.dataAddresses .ind i.operand else [])
  | .branch => s.fetchAddresses 2 ++ s.branchAddresses (branchPredicate i.mnemonic s.p) (loByte i.operand)
  | .stack => s.fetchAddresses 2 ++ s.stackAddresses i.mnemonic
  | .implied => s.fetchAddresses (if i = .hlt then 1 else 2)

/-- An indexed read that ends with the read at `ea_nofix`, no page being crossed (41_addressing_modes.md R187, R189). -/
def State.readEndsUnfixed (s : State) (mode : Mode) (opnd : Word) : Bool :=
  match mode with
  | .abx => !s.readCrosses .abx opnd
  | .aby => !s.readCrosses .aby opnd
  | .izy => !s.readCrosses .izy opnd
  | _ => false

/-- Reads of these addresses. -/
def readsOf (as : List Word) : List (Bool × Word) := as.map fun a => (false, a)

/-- Writes to these addresses. -/
def writesOf (as : List Word) : List (Bool × Word) := as.map fun a => (true, a)

/-- The accesses of a stack instruction after the two reads at PC (45_control_flow.md R323, 46_stack_flags_system.md R350
to R353, R362, R364). -/
def State.stackSequence (s : State) (mn : Mnemonic) : List (Bool × Word) :=
  match mn with
  | .pha => writesOf (s.stackAddresses .pha)
  | .php => writesOf (s.stackAddresses .php)
  | .brk => writesOf ((s.stackAddresses .brk).take 3) ++ readsOf ((s.stackAddresses .brk).drop 3)
  | mn => readsOf (s.stackAddresses mn)

/-- The bus accesses of an instruction at PC over stored memory, oldest first, one for each of its ticks: discarded reads
and the redundant write of a read-modify-write are among them (41_addressing_modes.md R181 to R193, 20_memory.md R76). -/
def State.busSequence (s : State) (i : Instr) : List (Bool × Word) :=
  let data := s.dataAddresses i.mode i.operand
  let ea := (s.effectiveAddress i.mode i.operand).toList
  match i.mnemonic.instrClass with
  | .read =>
    readsOf (s.fetchAddresses (instrSize i) ++ if s.readEndsUnfixed i.mode i.operand then data.dropLast else data)
  | .write => readsOf (s.fetchAddresses (instrSize i) ++ data.dropLast) ++ writesOf ea
  | .readModifyWrite =>
    if i.mode = .acc then readsOf (s.fetchAddresses 2)
    else readsOf (s.fetchAddresses (instrSize i) ++ data) ++ writesOf (ea ++ ea)
  | .jump =>
    if i.mnemonic = .jsr then
      readsOf (s.fetchAddresses 2 ++ [stackAddr s.sp]) ++ writesOf [stackAddr s.sp, stackAddr (s.sp - 1)] ++
        readsOf [s.pc + 2]
    else readsOf (s.fetchAddresses 3 ++ if i.mode = .ind then data else [])
  | .branch => readsOf (s.fetchAddresses 2 ++ s.branchAddresses (branchPredicate i.mnemonic s.p) (loByte i.operand))
  | .stack => readsOf (s.fetchAddresses 2) ++ s.stackSequence i.mnemonic
  | .implied => readsOf (s.fetchAddresses (if i = .hlt then 1 else 2))

/-- Every address the instruction touches is RAM or ROM. -/
def State.TouchesStored (s : State) (i : Instr) : Prop := ∀ a ∈ s.touched i, s.Stored a

/-- `n` pushes in a row do not leave the stack page, or SP wraps (40_execution_engine.md R157). -/
def State.RoomToPush (s : State) (n : Nat) : Prop := s.params.spBounds = .wrap ∨ n ≤ s.sp.toNat

/-- `n` increments of SP in a row do not leave the stack page, or SP wraps (40_execution_engine.md R158). -/
def State.RoomToPull (s : State) (n : Nat) : Prop := s.params.spBounds = .wrap ∨ s.sp.toNat + n ≤ 255

/-! ### What a finished instruction leaves -/

/-- A halt is requested once `n` more ticks have been counted (40_execution_engine.md R145). -/
def State.haltAfter (s : State) (n : Nat) : Bool := s.haltRequested || limitReached s.params.maxCycles (s.cycles + n)

/-- `t` is what `n` ticks from `s` leave when the registers, flags, memory and all other state of the core are as in
`r`: `n` cycles are counted, a halt requested by then has taken effect, and only the inputs from outside (`bankSel`,
`sources`) and the bus record are not told. -/
def Finished (s r : State) (n : Nat) (t : State) : Prop :=
  t = { r with
    cycles := s.cycles + n
    haltRequested := s.haltAfter n
    halted := r.halted || s.haltAfter n
    tmp := Temps.clear
    bankSel := t.bankSel
    sources := t.sources
    bus := t.bus }

/-- Instruction `i` completes from `s`, in the ticks 41_addressing_modes.md R198 gives it, and leaves the core as in
`r`. -/
def Completes (i : Instr) (s r : State) : Prop := ∃ t, exec i s = .next t ∧ Finished s r (s.cycleCount i) t

/-- `s` with PC at the next instruction. -/
def State.advanced (s : State) (i : Instr) : State := { s with pc := s.nextPc i }

/-- What no instruction changes: the queue, the recorded fault, the hook, the regions and the parameters. -/
def SameFixture (s t : State) : Prop :=
  t.queue = s.queue ∧ t.fault = s.fault ∧ t.hookArmed = s.hookArmed ∧ t.regions = s.regions ∧ t.params = s.params

/-! ### Invariant and safe runs -/

/-- The invariant of the machine: storage is in canonical form, the queue holds at most 16 micro-operations (10_state.md
R30), a halted CPU is at a boundary (40_execution_engine.md R145), and no temporary crosses a boundary (R31). -/
def State.Inv (s : State) : Prop :=
  Memory.wf s.mem = true ∧ s.queue.length ≤ queueCapacity ∧ (s.halted = true → s.queue = []) ∧
    (s.queue = [] → s.tmp = Temps.clear)

/-- The CPU is at a boundary and runs: neither faulted nor halted, queue empty (40_execution_engine.md R141). -/
def State.AtBoundary (s : State) : Prop := s.fault = none ∧ s.halted = false ∧ s.queue = []

/-- `n` steps from `s` meet no fault and no refusal (60_exceptions.md R416). -/
def SafeFor (n : Nat) (s : State) : Prop := ∃ t, Host.Core.run Sys2Proof.core n s = .next t

end Sys2Proof.Machine
end

