-- ==== Sys2Proof/Certificates/Slice0/Obligations.lean ====
section
/-! DEFINITION. The statements for the provers, from the numbered rules of spec/. `Completes i s r` says that `exec i s`
answers a next state, after the ticks 41_addressing_modes.md R198 gives, in which everything but the cycle count, a
requested halt and what comes from outside is as in `r`. -/

open Sys2Proof Sys2Proof.Machine

/-! ### Encoding -/

/-- Decoding the encoding of an instruction gives it back, with every operand at every value, and leaves the bytes after
it (30_encoding.md R111, R100, R102). -/
def Obligations.DecodeEncodeRoundTrip : Prop :=
  ∀ (hlt : Byte) (i : Instr) (rest : List Byte), i.wellFormed hlt = true →
    decode hlt (encode hlt i ++ rest) = .ok (i, rest)

/-- What is decoded encodes to the bytes it was read from, and is well-formed (30_encoding.md R111, second half). -/
def Obligations.EncodeDecodeBack : Prop :=
  ∀ (hlt : Byte) (bs : List Byte) (i : Instr) (rest : List Byte), decode hlt bs = .ok (i, rest) →
    encode hlt i ++ rest = bs ∧ i.wellFormed hlt = true

/-- Words written out from the opcode map and the operand rule decode to the instructions they stand for (30_encoding.md
R104, R102); HLT is at the byte the machine gives it (R106). -/
def Obligations.SpecWordsDecode : Prop :=
  decode 0x02 [0xA9, 0x42] = .ok (.ldaImm 0x42, []) ∧
  decode 0x02 [0xBD, 0xFE, 0x20] = .ok (.ldaAbx 0x20FE, []) ∧
  decode 0x02 [0xB6, 0x80] = .ok (.ldxZpy 0x80, []) ∧
  decode 0x02 [0x95, 0x10] = .ok (.staZpx 0x10, []) ∧
  decode 0x02 [0x71, 0xFF] = .ok (.adcIzy 0xFF, []) ∧
  decode 0x02 [0xE1, 0x07] = .ok (.sbcIzx 0x07, []) ∧
  decode 0x02 [0xFE, 0x00, 0x80] = .ok (.incAbx 0x8000, []) ∧
  decode 0x02 [0x6A] = .ok (.rorAcc, []) ∧
  decode 0x02 [0x6C, 0xFF, 0x30] = .ok (.jmpInd 0x30FF, []) ∧
  decode 0x02 [0x20, 0x06, 0x10] = .ok (.jsr 0x1006, []) ∧
  decode 0x02 [0xD0, 0xFD] = .ok (.bne 0xFD, []) ∧
  decode 0x02 [0x28] = .ok (.plp, []) ∧
  decode 0x02 [0xB8] = .ok (.clv, []) ∧
  decode 0x02 [0x00] = .ok (.brk, []) ∧
  decode 0x02 [0x02] = .ok (.hlt, []) ∧
  decode 0xFC [0xFC] = .ok (.hlt, []) ∧
  decode 0x02 [0x12] = .error (.unassignedOpcode 0x12) ∧
  decode 0x02 [0xAD, 0x34] = .error (.truncated 0xAD)

/-- Which opcode bytes have an entry: every byte but the 105 of 30_encoding.md R105, and of those the one HLT_OPCODE
names (R106). -/
def Obligations.AssignedOpcodes : Prop :=
  unassignedBytes.length = 105 ∧ unassignedBytes.Nodup ∧
  ∀ hlt b : Byte, decodeOpcode hlt b = none ↔ b ∈ unassignedBytes ∧ b ≠ hlt

/-- The contract of the table (30_encoding.md R103): registering its 152 entries meets no duplicate, a duplicate is
refused, and `encode` fails exactly on a pair the table lacks or on an operand out of range; where both hold, that the
failure named is the pair's is the model's choice (log 36). -/
def Obligations.TableContract : Prop :=
  (∀ hlt, hltOpcodeOk hlt = true → registerAll [] (instructionSet hlt) = .ok (instructionSet hlt) ∧
    (instructionSet hlt).length = 152) ∧
  (∀ (table : List OpcodeRow) (r q : OpcodeRow), q ∈ table →
    (q.opcode = r.opcode ∨ (q.mnemonic = r.mnemonic ∧ q.mode = r.mode)) →
    registerRow table r = .error (.duplicate r.mnemonic r.mode r.opcode)) ∧
  ∀ (hlt : Byte) (i : AsmInstr),
    (i.pairSupported = false → encodeAsm hlt i = .error (.encodeUnsupported i.mnemonic i.mode)) ∧
    (i.pairSupported = true → i.operandInRange = false → encodeAsm hlt i = .error (.encodeRange i.operand)) ∧
    (i.pairSupported = true → i.operandInRange = true →
      ∃ bytes, encodeAsm hlt i = .ok bytes ∧ bytes.length = 1 + i.mode.operandBytes)

/-! ### The step -/

/-- At a boundary where no interrupt is taken, when the bytes at PC decode to `i`, the step is `exec` of `i`, on the state
in which an armed quiescent hook has fired (40_execution_engine.md R141, R144, R156). -/
def Obligations.StepRunsDecodedInstruction : Prop :=
  ∀ (s : State) (i : Instr) (rest : List Byte), s.AtBoundary → interruptTaken s = none →
    decode s.params.hltOpcode [s.byteAt s.pc, s.byteAt (s.pc + 1), s.byteAt (s.pc + 2)] = .ok (i, rest) →
    (∀ a ∈ s.fetchAddresses (instrSize i), s.Stored a) →
    step s = exec i { s with hookArmed := false }

/-- Fetching one of the bytes of 30_encoding.md R105, but for the one that is HLT_OPCODE, is the fault
F_UNASSIGNED_OPCODE with the opcode and its address, whatever answers the fetch: RAM, ROM, a paged ROM or a device. The
faulting tick has made the read, which leaves `t`, and the increment of PC, and is not counted (40_execution_engine.md R144,
R153; logs 10, 13 and 33). -/
def Obligations.UnassignedOpcodeFaults : Prop :=
  ∀ (s t : State) (b : Byte), s.AtBoundary → interruptTaken s = none → busRead s.pc s = .ok b t →
    b ∈ unassignedBytes → b ≠ s.params.hltOpcode →
    step s = .fault (.unassignedOpcode b s.pc) ∧
    tick s = .fault (.unassignedOpcode b s.pc) ∧
    afterTick s = { t with pc := s.pc + 1, hookArmed := false, fault := some (.unassignedOpcode b s.pc) } ∧
    t.cycles = s.cycles ∧ ∃ access, access.line = (false, s.pc, b) ∧ t = s.record access

/-- A faulted CPU stays faulted and a halted one takes no tick, in both views (40_execution_engine.md R140, 10_state.md
R34, R35; how a step of such a machine answers is the model's choice, logs 12 and 13). -/
def Obligations.HaltedAndFaultedTakeNoTick : Prop :=
  ∀ s : State,
    (∀ f, s.fault = some f → step s = .fault f ∧ tick s = .fault f ∧ afterTick s = s) ∧
    (s.fault = none → s.halted = true → step s = .next s ∧ tick s = .next s ∧ afterTick s = s)

/-- What a boundary does (60_exceptions.md R404, R405, R407): with `inISR` clear an asserted NMI is served, whatever I is;
with no NMI an asserted IRQ is served when I is clear; otherwise, and always with `inISR` set, the next instruction is
fetched. -/
def Obligations.InterruptSampling : Prop :=
  ∀ s : State, s.AtBoundary →
    (s.inISR = false → (∃ d ∈ s.sources, d.nmi = true) → step s = (serviceInterrupt .nmi s).outcome) ∧
    (s.inISR = false → (∀ d ∈ s.sources, d.nmi = false) → (∃ d ∈ s.sources, d.irq = true) → s.p.i = false →
      step s = (serviceInterrupt .irq s).outcome) ∧
    (s.inISR = true ∨ ((∀ d ∈ s.sources, d.nmi = false) ∧ (s.p.i = true ∨ ∀ d ∈ s.sources, d.irq = false)) →
      (∀ i t, fetchDecode { s with hookArmed := false } = .ok i t → step s = exec i t) ∧
      (∀ f t, fetchDecode { s with hookArmed := false } = .fault f t → step s = .fault f) ∧
      (∀ r t, fetchDecode { s with hookArmed := false } = .refuse r t → step s = .refused r))

/-- A hardware interrupt is entered in six ticks and INT_ENTRY_DUMMY more: PC and the status byte, B as stored, are
pushed, I and `inISR` are set, and PC comes from the vector; nothing else changes (60_exceptions.md R408, R409). It stops
with F_STACK_BOUNDS where three pushes do not fit and SP_BOUNDS is fatal, with F_READONLY_WRITE or F_NO_REGION where the
first stack slot is read-only or unclaimed (R408), and with F_QUEUE_OVERFLOW where the sequence does not fit the queue
(40_execution_engine.md R148; log 26). -/
def Obligations.HardwareInterruptEntry : Prop :=
  ∀ (s : State) (v : VectorId), s.AtBoundary → interruptTaken s = some v →
    (v = .nmi ∧ v.addr = 0xFFFA ∨ v = .irq ∧ v.addr = 0xFFFE) ∧
    (11 < s.params.intEntryDummy → step s = .fault .queueOverflow) ∧
    (s.params.intEntryDummy ≤ 11 → (s.params.intEntryDummy = 0 ∨ s.Stored s.pc) →
      (s.StackInRam → s.params.spBounds = .fatal → s.sp.toNat < 3 → step s = .fault (.stackBounds .overflow)) ∧
      (s.ReadOnly (stackAddr s.sp) → step s = .fault (.readOnlyWrite (stackAddr s.sp) (hiByte s.pc))) ∧
      (s.kindAt (stackAddr s.sp) = none → step s = .fault (.noRegion (stackAddr s.sp) (.write (hiByte s.pc)))) ∧
      (s.StackInRam → s.Stored v.addr → s.Stored (v.addr + 1) → s.RoomToPush 3 →
        ∃ t, step s = .next t ∧ Finished s { s with
          pc := mkWord (s.byteAt (v.addr + 1)) (s.byteAt v.addr)
          sp := s.sp - 3
          p := { s.p with i := true }
          inISR := true
          mem := Memory.write (Memory.write (Memory.write s.mem
            (stackAddr s.sp).toNat (hiByte s.pc))
            (stackAddr (s.sp - 1)).toNat (loByte s.pc))
            (stackAddr (s.sp - 2)).toNat (pack s.p) } (6 + s.params.intEntryDummy) t))

/-- The tick view and the instruction view agree (00_scope.md R12, 40_execution_engine.md R156): at a boundary the step
answers what the boundary tick and the ticks of the micro-operations it queued answer, on every memory map. -/
def Obligations.TicksAgreeWithStep : Prop :=
  ∀ s : State, s.AtBoundary → step s = ((tickRes s).bind fun _ t => finishInFlight t).outcome

/-- A step keeps the invariant of the machine, from every state that meets it (10_state.md R30, R31, R40,
40_execution_engine.md R145). -/
def Obligations.StepKeepsInvariant : Prop :=
  ∀ s t : State, s.Inv → step s = .next t → t.Inv

/-- A single tick that completes keeps the invariant (10_state.md R40). A fatal tick leaves a state that has the fault recorded, the
cycle count as it was, and of the invariant all but the temporaries' clause, since the fault may fall in the middle of an
instruction (10_state.md R35, 40_execution_engine.md R153). -/
def Obligations.TickKeepsInvariant : Prop :=
  (∀ s t : State, s.Inv → tick s = .next t → t.Inv) ∧
  ∀ (s : State) (f : Fault), s.Inv → tick s = .fault f →
    (afterTick s).fault = some f ∧ (afterTick s).cycles = s.cycles ∧ Memory.wf (afterTick s).mem = true ∧
    (afterTick s).queue.length ≤ queueCapacity ∧ ((afterTick s).halted = true → (afterTick s).queue = [])

/-- The reset state meets the invariant and is at a boundary. -/
def Obligations.ResetMeetsInvariant : Prop := State.reset.Inv ∧ State.reset.AtBoundary

/-- The quiescent hook fires, and is disarmed, in the boundary tick that fetches an opcode and in no other
(40_execution_engine.md R151, R143). -/
def Obligations.QuiescentHookFires : Prop :=
  ∀ s t : State, tick s = .next t → s.halted = false →
    t.hookArmed = (if s.queue = [] ∧ interruptTaken s = none then false else s.hookArmed)

/-- With MAX_CYCLES set to `n`, an instruction that completes leaves the CPU halted exactly when the cycle counter has
reached `n` (40_execution_engine.md R145), and never earlier than its own end. -/
def Obligations.CycleLimitHaltsAtBoundary : Prop :=
  ∀ (s t : State) (i : Instr) (n : Nat), exec i s = .next t → i ≠ .hlt → s.halted = false →
    s.haltRequested = false → s.params.maxCycles = some n → (t.halted = true ↔ n ≤ t.cycles)

/-! ### Power-on and reset -/

/-- The values 10_state.md R42 gives after power-on; PC is the reset vector of the reset memory. -/
def Obligations.ResetValues : Prop :=
  State.reset.p.i = true ∧ State.reset.queue = [] ∧ State.reset.inISR = false ∧ State.reset.cycles = 0 ∧
  State.reset.haltRequested = false ∧ State.reset.halted = false ∧ State.reset.fault = none ∧
  State.reset.pc = mkWord (State.reset.byteAt 0xFFFD) (State.reset.byteAt 0xFFFC)

/-- Power-on with any launch values whose vector bytes are stored: PC is seeded from the reset vector, low byte read
first, I is set, everything else is as given; where no region claims the vector, power-on is F_NO_REGION
(70_reset_and_hazards.md R450, 10_state.md R42, 92_eei_decisions.md D30; the state beside the fault is the model's choice,
log 37). -/
def Obligations.PowerOnSeedsPc : Prop :=
  ∀ l : Launch, hltOpcodeOk l.params.hltOpcode = true →
    (l.state.Stored 0xFFFC → l.state.Stored 0xFFFD → powerOn l = .ok () { l.state with
      pc := mkWord (l.state.byteAt 0xFFFD) (l.state.byteAt 0xFFFC)
      bus := [.read 0xFFFD (l.state.byteAt 0xFFFD), .read 0xFFFC (l.state.byteAt 0xFFFC)] }) ∧
    (l.state.kindAt 0xFFFC = none → powerOn l = .fault (.noRegion 0xFFFC .read) l.state) ∧
    l.state.params = l.params ∧ l.state.regions = l.regions ∧ l.state.sources = l.sources ∧
    l.state.hookArmed = false ∧ l.state.p = { l.p with i := true } ∧ l.state.a = l.a ∧ l.state.x = l.x ∧ l.state.y = l.y ∧ l.state.sp = l.sp ∧
    l.state.queue = [] ∧ l.state.inISR = false ∧ l.state.cycles = 0 ∧ l.state.haltRequested = false ∧
    l.state.halted = false ∧ l.state.fault = none ∧ l.state.mem = l.mem ∧ l.state.bankSel = l.bankSel

/-- `reset()` at any time, mid-instruction and halted included: the instruction in flight is abandoned, `inISR` and the
halt are cleared, I is set, PC is reloaded; A, X, Y, SP, the other flags, `cycles`, memory, the selected bank and a
recorded fault stay (70_reset_and_hazards.md R451). The host's setters of 10_state.md R41 change their one register while
the queue is empty, and are refused in the middle of an instruction (R41, 70_reset_and_hazards.md R467; log 22). -/
def Obligations.HostResetRestarts : Prop :=
  (∀ s : State, s.Stored 0xFFFC → s.Stored 0xFFFD →
    hostReset s = .ok () { s with
      queue := []
      tmp := Temps.clear
      inISR := false
      haltRequested := false
      halted := false
      p := { s.p with i := true }
      pc := mkWord (s.byteAt 0xFFFD) (s.byteAt 0xFFFC)
      bus := .read 0xFFFD (s.byteAt 0xFFFD) :: .read 0xFFFC (s.byteAt 0xFFFC) :: s.bus }) ∧
  ∀ (s : State) (v : Byte) (w : Word) (p : Flags),
    (s.queue = [] →
      hostSetA v s = .next { s with a := v } ∧ hostSetX v s = .next { s with x := v } ∧
      hostSetY v s = .next { s with y := v } ∧ hostSetSp v s = .next { s with sp := v } ∧
      hostSetPc w s = .next { s with pc := w } ∧ hostSetFlags p s = .next { s with p := p }) ∧
    (s.queue ≠ [] → ∀ set ∈ [hostSetA v, hostSetX v, hostSetY v, hostSetSp v, hostSetPc w, hostSetFlags p],
      set s = .refused .hostMidInstruction) ∧
    hostGetCycles s = s.cycles

/-! ### Memory and the dispatcher -/

/-- The first region in list order that claims an address takes the access; with no claimant every access is
F_NO_REGION (20_memory.md R67, R68). -/
def Obligations.FirstClaimantAnswers : Prop :=
  (∀ (before after : List Region) (r : Region) (a : Word), (∀ q ∈ before, q.hasAddress a = false) →
    r.hasAddress a = true → claimant (before ++ r :: after) a = some r) ∧
  (∀ (r : Region) (a : Word), r.hasAddress a = true ↔ r.start ≤ a.toNat ∧ a.toNat < r.start + r.length) ∧
  ∀ (s : State) (a : Word) (v : Byte), (∀ q ∈ s.regions, q.hasAddress a = false) →
    busRead a s = .fault (.noRegion a .read) s ∧ busWrite a v s = .fault (.noRegion a (.write v)) s

/-- RAM: a read gives the last byte written, a write leaves every other byte alone (20_memory.md R63, R79); a read
changes nothing but the record of the bus. A write to ROM or paged ROM is F_READONLY_WRITE with the address and the value
and has no effect (R64, R65, 40_execution_engine.md R153). A paged ROM answers byte `a - start` of the selected image (R65);
where that image or that byte does not exist the read is refused (the model's choice, log 25). -/
def Obligations.RamReadsLastWrite : Prop :=
  ∀ (s : State) (a : Word) (v : Byte),
    (Memory.wf s.mem = true → s.InRam a →
      ∃ t, busWrite a v s = .ok () t ∧ busRead a t = .ok v (t.record (.read a v)) ∧
        ∀ b, b ≠ a → t.byteAt b = s.byteAt b) ∧
    (s.ReadOnly a → busWrite a v s = .fault (.readOnlyWrite a v) s) ∧
    ∀ (r : Region) (slot : Nat) (banks : List (List Byte)), claimant s.regions a = some r → r.kind = .paged slot banks →
      (∀ (sel : Nat) (image : List Byte), s.bankSel[slot]? = some sel → banks[sel]? = some image →
        (∀ b, image[a.toNat - r.start]? = some b → busRead a s = .ok b (s.record (.read a b))) ∧
        (image.length ≤ a.toNat - r.start → busRead a s = .refuse .noBank s)) ∧
      (∀ sel, s.bankSel[slot]? = some sel → banks.length ≤ sel → busRead a s = .refuse .noBank s) ∧
      (s.bankSel.length ≤ slot → busRead a s = .refuse .noBank s)

/-- A device window: the register index is the offset masked to the device's register count; a read is
`readRegister(index)`, which may answer any byte, a write is the event `writeRegister(index, v)` recorded for the device,
and neither touches storage (20_memory.md R66; log 7, log 10). -/
def Obligations.DeviceWindowAccess : Prop :=
  ∀ (s : State) (r : Region) (a : Word) (d k : Nat), claimant s.regions a = some r → r.kind = .device d (2 ^ k) →
    r.start ≤ a.toNat →
    deviceIndex r.start (2 ^ k) a = (a.toNat - r.start) % 2 ^ k ∧
    busRead a s = .ok (Config.deviceRead d ((a.toNat - r.start) % 2 ^ k) s.cycles s.bus)
      (s.record (.readRegister d ((a.toNat - r.start) % 2 ^ k) a
        (Config.deviceRead d ((a.toNat - r.start) % 2 ^ k) s.cycles s.bus))) ∧
    ∀ v, busWrite a v s = .ok () (s.record (.writeRegister d ((a.toNat - r.start) % 2 ^ k) a v))

/-- No step changes a byte of read-only storage, from any state and on any memory map (20_memory.md R64: "The contents
never change"), and the address stays read-only. -/
def Obligations.ReadOnlyBytesNeverChange : Prop :=
  ∀ (s t : State) (a : Word), s.ReadOnly a → step s = .next t → t.byteAt a = s.byteAt a ∧ t.ReadOnly a

/-- No step adds, removes, moves or resizes a region, changes a parameter, adds or removes an interrupt source or a
selected bank (20_memory.md R70, 10_state.md R38). -/
def Obligations.MapAndParametersFixed : Prop :=
  ∀ s t : State, step s = .next t →
    t.regions = s.regions ∧ t.params = s.params ∧ t.sources.length = s.sources.length ∧
      t.bankSel.length = s.bankSel.length

/-! ### Who writes what -/

/-- RTI clears the in-ISR marker and no other instruction changes it (60_exceptions.md R411, 10_state.md R32). -/
def Obligations.InServiceMarkerWriters : Prop :=
  ∀ (i : Instr) (s t : State), exec i s = .next t → t.inISR = (if i = .rti then false else s.inISR)

/-- Each flag is changed only by the instructions the table of 10_state.md R28 lists for it. -/
def Obligations.FlagWriters : Prop :=
  ∀ (i : Instr) (s t : State), exec i s = .next t →
    (t.p.c ≠ s.p.c → i.mnemonic ∈
      [.adc, .sbc, .cmp, .cpx, .cpy, .asl, .lsr, .rol, .ror, .sec, .clc, .plp, .rti]) ∧
    (t.p.z ≠ s.p.z → i.mnemonic ∈
      [.lda, .ldx, .ldy, .tax, .tay, .txa, .tya, .tsx, .pla, .and, .ora, .eor, .adc, .sbc, .inc, .dec, .inx, .iny,
        .dex, .dey, .asl, .lsr, .rol, .ror, .cmp, .cpx, .cpy, .bit, .plp, .rti]) ∧
    (t.p.i ≠ s.p.i → i.mnemonic ∈ [.sei, .cli, .brk, .plp, .rti]) ∧
    (t.p.d ≠ s.p.d → i.mnemonic ∈ [.sed, .cld, .plp, .rti]) ∧
    (t.p.b ≠ s.p.b → i.mnemonic = .rti ∧ t.p.b = false) ∧
    (t.p.v ≠ s.p.v → i.mnemonic ∈ [.adc, .sbc, .bit, .clv, .plp, .rti]) ∧
    (t.p.n ≠ s.p.n → i.mnemonic ∈
      [.lda, .ldx, .ldy, .tax, .tay, .txa, .tya, .tsx, .pla, .and, .ora, .eor, .adc, .sbc, .inc, .dec, .inx, .iny,
        .dex, .dey, .asl, .lsr, .rol, .ror, .cmp, .cpx, .cpy, .bit, .plp, .rti])

/-- A, X, Y and SP are changed only by the instructions 10_state.md R20, R21, R22 and R25 list; the shifts write A in
mode ACC only. -/
def Obligations.RegisterWriters : Prop :=
  ∀ (i : Instr) (s t : State), exec i s = .next t →
    (t.a ≠ s.a → i.mnemonic ∈ [.lda, .pla, .txa, .tya, .adc, .sbc, .and, .ora, .eor] ∨
      (i.mnemonic ∈ [.asl, .lsr, .rol, .ror] ∧ i.mode = .acc)) ∧
    (t.x ≠ s.x → i.mnemonic ∈ [.ldx, .tax, .tsx, .inx, .dex]) ∧
    (t.y ≠ s.y → i.mnemonic ∈ [.ldy, .tay, .iny, .dey]) ∧
    (t.sp ≠ s.sp → i.mnemonic ∈ [.txs, .pha, .php, .pla, .plp, .jsr, .rts, .brk, .rti])

/-- No instruction touches the queue, the recorded fault, the hook, the regions or the parameters; it counts one to seven
ticks; only HLT or a halt request halts (70_reset_and_hazards.md R470, 40_execution_engine.md R152). Over stored memory it
makes the accesses of its sequence, discarded reads and redundant writes among them, in that order and no other, one in
each tick (41_addressing_modes.md R181 to R193, 40_execution_engine.md R142, R156, 20_memory.md R76). -/
def Obligations.InstructionFrame : Prop :=
  ∀ (i : Instr) (s t : State), exec i s = .next t →
    SameFixture s t ∧ s.cycles < t.cycles ∧ t.cycles ≤ s.cycles + 7 ∧ t.tmp = Temps.clear ∧
      t.halted = (s.halted || decide (i = .hlt) || t.haltRequested) ∧
      (s.TouchesStored i →
        t.bus.map BusAccess.place = (s.busSequence i).reverse ++ s.bus.map BusAccess.place ∧
        t.cycles = s.cycles + (s.busSequence i).length)

/-- The instructions of classes READ, IMPLIED, BRANCH and JUMP but for JSR, the accumulator shifts, and PLA, PLP, RTS and
RTI leave every byte of memory as it is. -/
def Obligations.NonStoringInstructionsKeepMemory : Prop :=
  ∀ (i : Instr) (s t : State), exec i s = .next t →
    (i.mnemonic.instrClass = .read ∨ i.mnemonic.instrClass = .implied ∨ i.mnemonic.instrClass = .branch ∨
      i.mnemonic = .jmp ∨ i.mode = .acc ∨ i.mnemonic ∈ [.pla, .plp, .rts, .rti]) →
    t.mem = s.mem ∧ ∀ a, t.byteAt a = s.byteAt a

/-- A store or a read-modify-write on memory changes no byte but the one at the address its operand form computes
(`storeEa`, which leaves `u`); STA, STX and STY change no register and no flag but PC, INC, DEC and the shifts no register
but PC. On any memory map, a device window included, a store ends with one write of its register, and a
read-modify-write with a read, a write of the byte read and a write of the result (41_addressing_modes.md R184,
20_memory.md R76, 70_reset_and_hazards.md R456). -/
def Obligations.StoresChangeOneByte : Prop :=
  ∀ (i : Instr) (s t : State), exec i s = .next t →
    (i.mnemonic.instrClass = .write ∨ (i.mnemonic.instrClass = .readModifyWrite ∧ i.mode ≠ .acc)) →
    (∃ ea u, storeEa i.mode i.operand s = some (.ok ea u) ∧ (∀ a, a ≠ ea → t.byteAt a = s.byteAt a) ∧
      (i.mnemonic.instrClass = .write → ∃ v, s.storedByte i.mnemonic = some v ∧
        t.bus.map BusAccess.line = (true, ea, v) :: u.bus.map BusAccess.line) ∧
      (i.mnemonic.instrClass = .readModifyWrite → ∃ old new, rmwResult i.mnemonic old s.p.c = some new ∧
        t.bus.map BusAccess.line =
          (true, ea, new) :: (true, ea, old) :: (false, ea, old) :: u.bus.map BusAccess.line)) ∧
    t.a = s.a ∧ t.x = s.x ∧ t.y = s.y ∧ t.sp = s.sp ∧ t.inISR = s.inISR ∧ t.pc = s.nextPc i ∧
    (i.mnemonic.instrClass = .write → t.p = s.p)

/-- PHA and PHP change no byte but the one at the old SP, JSR the two and BRK the three from the old SP downwards, within
the stack page; A, X and Y stay (40_execution_engine.md R157, R159). -/
def Obligations.PushesChangeStackSlots : Prop :=
  ∀ (i : Instr) (s t : State), exec i s = .next t →
    (i = .pha ∨ i = .php → t.sp = s.sp - 1 ∧ ∀ a, a ≠ stackAddr s.sp → t.byteAt a = s.byteAt a) ∧
    (∀ w, i = .jsr w → t.sp = s.sp - 2 ∧
      ∀ a, a ≠ stackAddr s.sp → a ≠ stackAddr (s.sp - 1) → t.byteAt a = s.byteAt a) ∧
    (i = .brk → t.sp = s.sp - 3 ∧ ∀ a, a ≠ stackAddr s.sp → a ≠ stackAddr (s.sp - 1) → a ≠ stackAddr (s.sp - 2) →
      t.byteAt a = s.byteAt a) ∧
    (i = .pha ∨ i = .php ∨ (∃ w, i = .jsr w) ∨ i = .brk → t.a = s.a ∧ t.x = s.x ∧ t.y = s.y)

/-- Every instruction completes on every map of RAM and device windows, where the stack has room and decimal arithmetic
is not refused (20_memory.md R86, 40_execution_engine.md R157, R158, 43_arithmetic_logic.md R261). -/
def Obligations.EveryInstructionCompletes : Prop :=
  ∀ (i : Instr) (s : State), s.AllOpen →
    (i.mnemonic = .adc ∨ i.mnemonic = .sbc → s.p.d = false ∨ s.params.decimalMode ≠ .refuse) →
    (i.mnemonic = .pha ∨ i.mnemonic = .php → s.RoomToPush 1) → (i.mnemonic = .jsr → s.RoomToPush 2) →
    (i.mnemonic = .brk → s.RoomToPush 3) → (i.mnemonic = .pla ∨ i.mnemonic = .plp → s.RoomToPull 1) →
    (i.mnemonic = .rts → s.RoomToPull 2) → (i.mnemonic = .rti → s.RoomToPull 3) →
    ∃ t, exec i s = .next t

/-! ### Loads, logic, arithmetic, compares -/

/-- LDA, LDX, LDY (42_load_store_transfer.md R230 to R232): the operand byte goes to the register; N is its bit 7, Z
whether it is zero. -/
def Obligations.LoadsComplete : Prop :=
  ∀ (i : Instr) (s : State), s.TouchesStored i →
    let v := s.operandByte i
    let p : Flags := { s.p with n := v.getLsbD 7, z := decide (v = 0) }
    (i.mnemonic = .lda → Completes i s { s.advanced i with a := v, p := p }) ∧
    (i.mnemonic = .ldx → Completes i s { s.advanced i with x := v, p := p }) ∧
    (i.mnemonic = .ldy → Completes i s { s.advanced i with y := v, p := p })

/-- AND, ORA, EOR (43_arithmetic_logic.md R264 to R266). -/
def Obligations.LogicCompletes : Prop :=
  ∀ (i : Instr) (s : State), s.TouchesStored i →
    ∀ r : Byte, (i.mnemonic = .and ∧ r = s.a &&& s.operandByte i ∨ i.mnemonic = .ora ∧ r = s.a ||| s.operandByte i ∨
      i.mnemonic = .eor ∧ r = s.a ^^^ s.operandByte i) →
    Completes i s { s.advanced i with a := r, p := { s.p with n := r.getLsbD 7, z := decide (r = 0) } }

/-- ADC with D = 0, or with D ignored (43_arithmetic_logic.md R260, R262). -/
def Obligations.AdcCompletes : Prop :=
  ∀ (i : Instr) (s : State), i.mnemonic = .adc → s.TouchesStored i →
    s.p.d = false ∨ s.params.decimalMode = .binary →
    let v := s.operandByte i
    let sum := s.a.toNat + v.toNat + s.p.c.toNat
    let r := BitVec.ofNat 8 sum
    Completes i s { s.advanced i with
      a := r
      p := { s.p with
        c := decide (255 < sum)
        v := decide (s.a.getLsbD 7 = v.getLsbD 7 ∧ r.getLsbD 7 ≠ s.a.getLsbD 7)
        n := r.getLsbD 7
        z := decide (r = 0) } }

/-- SBC with D = 0, or with D ignored (43_arithmetic_logic.md R263): the result is A - val - (1 - C), C says that no
borrow occurred, V that the signed difference is out of range. -/
def Obligations.SbcCompletes : Prop :=
  ∀ (i : Instr) (s : State), i.mnemonic = .sbc → s.TouchesStored i →
    s.p.d = false ∨ s.params.decimalMode = .binary →
    let v := s.operandByte i
    let borrow := 1 - s.p.c.toNat
    let r := s.a - v - BitVec.ofNat 8 borrow
    Completes i s { s.advanced i with
      a := r
      p := { s.p with
        c := decide (v.toNat + borrow ≤ s.a.toNat)
        v := decide (s.a.toInt - v.toInt - borrow < -128 ∨ 127 < s.a.toInt - v.toInt - borrow)
        n := r.getLsbD 7
        z := decide (r = 0) } }

/-- ADC or SBC with D = 1 under DECIMAL_MODE = refuse has no successor (43_arithmetic_logic.md R261). -/
def Obligations.DecimalRefused : Prop :=
  ∀ (i : Instr) (s : State), i.mnemonic = .adc ∨ i.mnemonic = .sbc → s.TouchesStored i → s.p.d = true →
    s.params.decimalMode = .refuse → exec i s = .refused .decimalMode

/-- ADC and SBC with D = 1 under DECIMAL_MODE = nmos_bcd: A is that of the decimal functions; Z of ADC comes from the
binary sum and all four flags of SBC from the binary difference (43_arithmetic_logic.md R261). -/
def Obligations.DecimalCompletes : Prop :=
  ∀ (i : Instr) (s : State), s.TouchesStored i → s.p.d = true → s.params.decimalMode = .nmosBcd →
    let v := s.operandByte i
    (i.mnemonic = .adc →
      Completes i s { s.advanced i with a := (adcDecimalFlags s.a v s.p).1, p := (adcDecimalFlags s.a v s.p).2 } ∧
      (adcDecimalFlags s.a v s.p).2.z = decide ((s.a.toNat + v.toNat + s.p.c.toNat) % 256 = 0)) ∧
    (i.mnemonic = .sbc →
      Completes i s { s.advanced i with a := (sbcDecimalFlags s.a v s.p).1, p := (adcBinaryFlags s.a (~~~v) s.p).2 })

/-- The decimal functions on any bytes, digit by digit: each digit of a sum above 9 is adjusted by 6 and carries, each digit
of a difference below 0 is adjusted by 6 and borrows; N and V of ADC come from the sum whose high digit is not yet adjusted,
Z from the binary sum; all flags of SBC from the binary difference. On decimal digits they add and subtract decimal numbers,
with C as decimal carry and no-borrow (43_arithmetic_logic.md R261, its pseudocode). -/
def Obligations.DecimalDigits : Prop :=
  ∀ (a b : Byte) (p : Flags),
    let lo := a.toNat % 16 + b.toNat % 16 + p.c.toNat
    let carry := (decide (10 ≤ lo)).toNat
    let hi := a.toNat / 16 + b.toNat / 16 + carry
    let adjust (d : Nat) : Nat := (if 10 ≤ d then d + 6 else d) % 16
    let signed (d : Nat) : Int := if d < 8 then d else (d : Int) - 16
    let top : Int := signed (a.toNat / 16) + signed (b.toNat / 16) + carry
    adcDecimalFlags a b p = (BitVec.ofNat 8 (16 * adjust hi + adjust lo),
      { p with
        c := decide (10 ≤ hi)
        z := decide ((a.toNat + b.toNat + p.c.toNat) % 256 = 0)
        n := decide (8 ≤ hi % 16)
        v := decide (top < -8 ∨ 7 < top) }) ∧
    (let borrow := 1 - p.c.toNat
    let below : Int := (a.toNat % 16 : Nat) - (b.toNat % 16 : Nat) - (borrow : Int)
    let above : Int := (a.toNat / 16 : Nat) - (b.toNat / 16 : Nat) - ((decide (below < 0)).toNat : Int)
    let adjustDown (d : Int) : Int := (if d < 0 then d - 6 else d) % 16
    let r := a - b - BitVec.ofNat 8 borrow
    sbcDecimalFlags a b p = (BitVec.ofInt 8 (16 * adjustDown above + adjustDown below),
      { p with
        c := decide (b.toNat + borrow ≤ a.toNat)
        v := decide (a.toInt - b.toInt - borrow < -128 ∨ 127 < a.toInt - b.toInt - borrow)
        n := r.getLsbD 7
        z := decide (r = 0) })) ∧
    (bcdValid a → bcdValid b →
      (bcdValid (adcDecimalFlags a b p).1 ∧
        bcdValue (adcDecimalFlags a b p).1 = (bcdValue a + bcdValue b + p.c.toNat) % 100 ∧
        (adcDecimalFlags a b p).2.c = decide (100 ≤ bcdValue a + bcdValue b + p.c.toNat)) ∧
      (bcdValid (sbcDecimalFlags a b p).1 ∧
        bcdValue (sbcDecimalFlags a b p).1 = (bcdValue a + 100 - bcdValue b - (1 - p.c.toNat)) % 100 ∧
        (sbcDecimalFlags a b p).2.c = decide (bcdValue b + (1 - p.c.toNat) ≤ bcdValue a)))

/-- CMP, CPX, CPY (43_arithmetic_logic.md R267 to R270): C is the unsigned `r >= m`, Z equality, N bit 7 of the
difference; no register is written. -/
def Obligations.ComparesComplete : Prop :=
  ∀ (i : Instr) (s : State), s.TouchesStored i →
    ∀ r : Byte, (i.mnemonic = .cmp ∧ r = s.a ∨ i.mnemonic = .cpx ∧ r = s.x ∨ i.mnemonic = .cpy ∧ r = s.y) →
    let m := s.operandByte i
    Completes i s { s.advanced i with
      p := { s.p with c := decide (m.toNat ≤ r.toNat), z := decide (r = m), n := (r - m).getLsbD 7 } }

/-- BIT (43_arithmetic_logic.md R271): N and V are bits 7 and 6 of the operand, Z is that of the AND; A stays. -/
def Obligations.BitCompletes : Prop :=
  ∀ (i : Instr) (s : State), i.mnemonic = .bit → s.TouchesStored i →
    let m := s.operandByte i
    Completes i s { s.advanced i with
      p := { s.p with z := decide (s.a &&& m = 0), n := m.getLsbD 7, v := m.getLsbD 6 } }

/-! ### Stores and read-modify-write -/

/-- STA, STX, STY (42_load_store_transfer.md R233 to R235): the register is written at the effective address; no flag
changes. -/
def Obligations.StoresComplete : Prop :=
  ∀ (i : Instr) (s : State) (ea : Word), s.TouchesStored i → s.effectiveAddress i.mode i.operand = some ea →
    s.InRam ea →
    (i.mnemonic = .sta → Completes i s { s.advanced i with mem := Memory.write s.mem ea.toNat s.a }) ∧
    (i.mnemonic = .stx → Completes i s { s.advanced i with mem := Memory.write s.mem ea.toNat s.x }) ∧
    (i.mnemonic = .sty → Completes i s { s.advanced i with mem := Memory.write s.mem ea.toNat s.y })

/-- A store to ROM stops with the value stored, a read-modify-write on ROM with the old value, which its first write
writes (42_load_store_transfer.md R233, 70_reset_and_hazards.md R456, R458). -/
def Obligations.StoresToRomStop : Prop :=
  ∀ (i : Instr) (s : State) (ea : Word), s.TouchesStored i → s.effectiveAddress i.mode i.operand = some ea →
    s.kindAt ea = some .rom →
    (i.mnemonic = .sta → exec i s = .fault (.readOnlyWrite ea s.a)) ∧
    (i.mnemonic = .stx → exec i s = .fault (.readOnlyWrite ea s.x)) ∧
    (i.mnemonic = .sty → exec i s = .fault (.readOnlyWrite ea s.y)) ∧
    (i.mnemonic.instrClass = .readModifyWrite → exec i s = .fault (.readOnlyWrite ea (s.byteAt ea)))

/-- INC and DEC (43_arithmetic_logic.md R272, R273): the byte is read, written back unchanged, then written plus or minus
one modulo 256; N and Z come from the new value, C and V stay. -/
def Obligations.IncDecComplete : Prop :=
  ∀ (i : Instr) (s : State) (ea : Word), s.TouchesStored i → s.effectiveAddress i.mode i.operand = some ea →
    s.InRam ea →
    ∀ r : Byte, (i.mnemonic = .inc ∧ r = s.byteAt ea + 1 ∨ i.mnemonic = .dec ∧ r = s.byteAt ea - 1) →
    Completes i s { s.advanced i with
      mem := Memory.write (Memory.write s.mem ea.toNat (s.byteAt ea)) ea.toNat r
      p := { s.p with n := r.getLsbD 7, z := decide (r = 0) } }

/-- ASL, LSR, ROL, ROR on memory (44_shift_rotate.md R300 to R304), by the arithmetic of `shiftResult`. -/
def Obligations.MemoryShiftsComplete : Prop :=
  ∀ (i : Instr) (s : State) (ea : Word) (r : Byte) (co : Bool), s.TouchesStored i →
    s.effectiveAddress i.mode i.operand = some ea → s.InRam ea →
    shiftResult i.mnemonic (s.byteAt ea) s.p.c = some (r, co) →
    Completes i s { s.advanced i with
      mem := Memory.write (Memory.write s.mem ea.toNat (s.byteAt ea)) ea.toNat r
      p := { s.p with c := co, n := r.getLsbD 7, z := decide (r = 0) } }

/-- ASL, LSR, ROL, ROR on A (44_shift_rotate.md R300 to R304, 41_addressing_modes.md R182). -/
def Obligations.AccumulatorShiftsComplete : Prop :=
  ∀ (i : Instr) (s : State) (r : Byte) (co : Bool), i.mode = .acc → s.TouchesStored i →
    shiftResult i.mnemonic s.a s.p.c = some (r, co) →
    Completes i s { s.advanced i with
      a := r
      p := { s.p with c := co, n := r.getLsbD 7, z := decide (r = 0) } }

/-! ### Register and flag instructions -/

/-- The transfers (42_load_store_transfer.md R236 to R241), with their opcodes: each but TXS sets N and Z from the byte
moved; TXS changes no flag; two ticks each. -/
def Obligations.TransfersComplete : Prop :=
  OpcodesAre [⟨0xAA, .tax, .imp⟩, ⟨0xA8, .tay, .imp⟩, ⟨0x8A, .txa, .imp⟩, ⟨0x98, .tya, .imp⟩, ⟨0xBA, .tsx, .imp⟩,
    ⟨0x9A, .txs, .imp⟩] ∧
  ∀ s : State,
    let nz (v : Byte) : Flags := { s.p with n := v.getLsbD 7, z := decide (v = 0) }
    let next := s.pc + 1
    (∀ i : Instr, i = .tax ∨ i = .tay ∨ i = .txa ∨ i = .tya ∨ i = .tsx ∨ i = .txs → s.cycleCount i = 2) ∧
    (s.Stored s.pc → s.Stored next →
      Completes .tax s { s with pc := next, x := s.a, p := nz s.a } ∧
      Completes .tay s { s with pc := next, y := s.a, p := nz s.a } ∧
      Completes .txa s { s with pc := next, a := s.x, p := nz s.x } ∧
      Completes .tya s { s with pc := next, a := s.y, p := nz s.y } ∧
      Completes .tsx s { s with pc := next, x := s.sp, p := nz s.sp } ∧
      Completes .txs s { s with pc := next, sp := s.x })

/-- INX, INY, DEX, DEY (43_arithmetic_logic.md R274 to R277), with their opcodes: modulo 256, N and Z from the result. -/
def Obligations.IndexStepsComplete : Prop :=
  OpcodesAre [⟨0xE8, .inx, .imp⟩, ⟨0xC8, .iny, .imp⟩, ⟨0xCA, .dex, .imp⟩, ⟨0x88, .dey, .imp⟩] ∧
  ∀ s : State,
    let nz (v : Byte) : Flags := { s.p with n := v.getLsbD 7, z := decide (v = 0) }
    let next := s.pc + 1
    (∀ i : Instr, i = .inx ∨ i = .iny ∨ i = .dex ∨ i = .dey → s.cycleCount i = 2) ∧
    (s.Stored s.pc → s.Stored next →
      Completes .inx s { s with pc := next, x := s.x + 1, p := nz (s.x + 1) } ∧
      Completes .iny s { s with pc := next, y := s.y + 1, p := nz (s.y + 1) } ∧
      Completes .dex s { s with pc := next, x := s.x - 1, p := nz (s.x - 1) } ∧
      Completes .dey s { s with pc := next, y := s.y - 1, p := nz (s.y - 1) })

/-- CLC, SEC, CLI, SEI, CLD, SED, CLV and NOP (46_stack_flags_system.md R354 to R361), with their opcodes: one flag or
none, no register, no memory. -/
def Obligations.FlagInstructionsComplete : Prop :=
  OpcodesAre [⟨0x18, .clc, .imp⟩, ⟨0x38, .sec, .imp⟩, ⟨0x58, .cli, .imp⟩, ⟨0x78, .sei, .imp⟩, ⟨0xD8, .cld, .imp⟩,
    ⟨0xF8, .sed, .imp⟩, ⟨0xB8, .clv, .imp⟩, ⟨0xEA, .nop, .imp⟩] ∧
  ∀ s : State,
    let next := s.pc + 1
    (∀ i : Instr, i = .clc ∨ i = .sec ∨ i = .cli ∨ i = .sei ∨ i = .cld ∨ i = .sed ∨ i = .clv ∨ i = .nop →
      s.cycleCount i = 2) ∧
    (s.Stored s.pc → s.Stored next →
      Completes .clc s { s with pc := next, p := { s.p with c := false } } ∧
      Completes .sec s { s with pc := next, p := { s.p with c := true } } ∧
      Completes .cli s { s with pc := next, p := { s.p with i := false } } ∧
      Completes .sei s { s with pc := next, p := { s.p with i := true } } ∧
      Completes .cld s { s with pc := next, p := { s.p with d := false } } ∧
      Completes .sed s { s with pc := next, p := { s.p with d := true } } ∧
      Completes .clv s { s with pc := next, p := { s.p with v := false } } ∧
      Completes .nop s { s with pc := next })

/-! ### Control transfer -/

/-- JMP (45_control_flow.md R320, R321): absolute to the operand; indirect through the pointer, whose second byte is read
in the page of the first. -/
def Obligations.JumpsComplete : Prop :=
  ∀ (s : State) (w : Word),
    (s.TouchesStored (.jmpAbs w) → Completes (.jmpAbs w) s { s with pc := w }) ∧
    (s.TouchesStored (.jmpInd w) → Completes (.jmpInd w) s { s with
      pc := mkWord (s.byteAt ((w &&& 0xFF00) ||| ((w + 1) &&& 0x00FF))) (s.byteAt w) })

/-- JSR (45_control_flow.md R322): the address of its own last byte is pushed, high byte first; the target's low byte is
the first operand byte, its high byte the byte at the last operand address after the pushes. -/
def Obligations.JsrCompletes : Prop :=
  ∀ (s : State) (w : Word), s.TouchesStored (.jsr w) → s.InRam (stackAddr s.sp) → s.InRam (stackAddr (s.sp - 1)) →
    s.RoomToPush 2 →
    let mem := Memory.write (Memory.write s.mem (stackAddr s.sp).toNat (hiByte (s.pc + 2)))
      (stackAddr (s.sp - 1)).toNat (loByte (s.pc + 2))
    Completes (.jsr w) s { s with
      pc := mkWord (Memory.read mem (s.pc + 2).toNat) (loByte w)
      sp := s.sp - 2
      mem := mem }

/-- RTS (45_control_flow.md R323): the pulled word plus one; no flag and no `inISR`. -/
def Obligations.RtsCompletes : Prop :=
  ∀ s : State, s.TouchesStored .rts → s.RoomToPull 2 →
    Completes .rts s { s with
      pc := mkWord (s.byteAt (stackAddr (s.sp + 2))) (s.byteAt (stackAddr (s.sp + 1))) + 1
      sp := s.sp + 2 }

/-- The eight branches (45_control_flow.md R324 to R332): to the address after the branch plus the signed displacement
when the predicate holds, else to the address after the branch; no flag changes. -/
def Obligations.BranchesComplete : Prop :=
  ∀ (s : State) (d : Byte),
    let base := s.pc + 2
    let target := base + d.signExtend 16
    let go (i : Instr) (taken : Prop) [Decidable taken] : Prop :=
      s.TouchesStored i → Completes i s { s with pc := if taken then target else base }
    go (.bcc d) (s.p.c = false) ∧ go (.bcs d) (s.p.c = true) ∧ go (.beq d) (s.p.z = true) ∧
    go (.bne d) (s.p.z = false) ∧ go (.bmi d) (s.p.n = true) ∧ go (.bpl d) (s.p.n = false) ∧
    go (.bvc d) (s.p.v = false) ∧ go (.bvs d) (s.p.v = true)

/-! ### Stack and system -/

/-- PHA and PHP (46_stack_flags_system.md R350, R352): the byte is written at the old SP, then SP is decremented; PHP
pushes the status with bits 4 and 5 set and leaves P alone. -/
def Obligations.PushesComplete : Prop :=
  ∀ s : State, s.Stored s.pc → s.Stored (s.pc + 1) → s.InRam (stackAddr s.sp) → s.RoomToPush 1 →
    Completes .pha s { s with
      pc := s.pc + 1, sp := s.sp - 1, mem := Memory.write s.mem (stackAddr s.sp).toNat s.a } ∧
    Completes .php s { s with
      pc := s.pc + 1, sp := s.sp - 1, mem := Memory.write s.mem (stackAddr s.sp).toNat (pack s.p ||| 0x30) }

/-- PLA and PLP (46_stack_flags_system.md R351, R353): SP is incremented, then the byte read; PLP loads six flags and
leaves B. -/
def Obligations.PullsComplete : Prop :=
  ∀ s : State, s.TouchesStored .pla → s.RoomToPull 1 →
    let v := s.byteAt (stackAddr (s.sp + 1))
    Completes .pla s { s with
      pc := s.pc + 1, sp := s.sp + 1, a := v, p := { s.p with n := v.getLsbD 7, z := decide (v = 0) } } ∧
    Completes .plp s { s with
      pc := s.pc + 1, sp := s.sp + 1
      p := { s.p with
        n := v.getLsbD 7, v := v.getLsbD 6, d := v.getLsbD 3, i := v.getLsbD 2, z := v.getLsbD 1, c := v.getLsbD 0 } }

/-- BRK (46_stack_flags_system.md R362): the address two past the opcode and the status with bits 4 and 5 set are pushed,
I is set afterwards, PC comes from the vector at 0xFFFE; D, the stored B and `inISR` stay. -/
def Obligations.BrkCompletes : Prop :=
  ∀ s : State, s.TouchesStored .brk → s.StackInRam → s.RoomToPush 3 →
    Completes .brk s { s with
      pc := mkWord (s.byteAt 0xFFFF) (s.byteAt 0xFFFE)
      sp := s.sp - 3
      p := { s.p with i := true }
      mem := Memory.write (Memory.write (Memory.write s.mem
        (stackAddr s.sp).toNat (hiByte (s.pc + 2)))
        (stackAddr (s.sp - 1)).toNat (loByte (s.pc + 2)))
        (stackAddr (s.sp - 2)).toNat (pack s.p ||| 0x30) }

/-- RTI (46_stack_flags_system.md R364): the flags from the first byte pulled with B cleared, PC from the next two as it
is, `inISR` cleared. -/
def Obligations.RtiCompletes : Prop :=
  ∀ s : State, s.TouchesStored .rti → s.RoomToPull 3 →
    let v := s.byteAt (stackAddr (s.sp + 1))
    Completes .rti s { s with
      pc := mkWord (s.byteAt (stackAddr (s.sp + 3))) (s.byteAt (stackAddr (s.sp + 2)))
      sp := s.sp + 3
      inISR := false
      p := ⟨v.getLsbD 7, v.getLsbD 6, false, v.getLsbD 3, v.getLsbD 2, v.getLsbD 1, v.getLsbD 0⟩ }

/-- HLT (46_stack_flags_system.md R365): one tick, PC at its address plus one, halted; nothing else. -/
def Obligations.HltCompletes : Prop :=
  ∀ s : State, s.Stored s.pc → Completes .hlt s { s with pc := s.pc + 1, halted := true } ∧ s.cycleCount .hlt = 1

/-- Under SP_BOUNDS = fatal a push at SP = 0x00 and a pull at SP = 0xFF stop with F_STACK_BOUNDS, whichever of an
instruction's pushes or pulls it is (40_execution_engine.md R157, R158). -/
def Obligations.StackBoundsStop : Prop :=
  ∀ s : State, s.params.spBounds = .fatal → s.AllStored → s.StackInRam →
    (s.sp.toNat < 1 → exec .pha s = .fault (.stackBounds .overflow) ∧ exec .php s = .fault (.stackBounds .overflow)) ∧
    (s.sp.toNat < 2 → ∀ w, exec (.jsr w) s = .fault (.stackBounds .overflow)) ∧
    (s.sp.toNat < 3 → exec .brk s = .fault (.stackBounds .overflow)) ∧
    (254 < s.sp.toNat → exec .pla s = .fault (.stackBounds .underflow) ∧
      exec .plp s = .fault (.stackBounds .underflow)) ∧
    (253 < s.sp.toNat → exec .rts s = .fault (.stackBounds .underflow)) ∧
    (252 < s.sp.toNat → exec .rti s = .fault (.stackBounds .underflow))

/-- The packed status byte (10_state.md R26, R27): bit 5 is 1, the flags stand at bits 7, 6, 4, 3, 2, 1, 0; unpacking a
byte reads those bits and ignores bit 5. -/
def Obligations.StatusPacking : Prop :=
  (∀ p : Flags, (pack p).getLsbD 7 = p.n ∧ (pack p).getLsbD 6 = p.v ∧ (pack p).getLsbD 5 = true ∧
    (pack p).getLsbD 4 = p.b ∧ (pack p).getLsbD 3 = p.d ∧ (pack p).getLsbD 2 = p.i ∧ (pack p).getLsbD 1 = p.z ∧
    (pack p).getLsbD 0 = p.c) ∧
  (∀ p : Flags, unpack (pack p) = p) ∧ ∀ b : Byte, pack (unpack b) = b ||| 0x20
end

