-- ==== Sys2Proof/Laws/State.lean ====
section
/-! SUPPORT. One lemma per field of State and per named update of it, each true by rfl. -/

namespace Sys2Proof.Machine

/-! ### `record` -/

@[simp] theorem record_a (s : State) (acc : BusAccess) : (s.record acc).a = s.a := rfl
@[simp] theorem record_x (s : State) (acc : BusAccess) : (s.record acc).x = s.x := rfl
@[simp] theorem record_y (s : State) (acc : BusAccess) : (s.record acc).y = s.y := rfl
@[simp] theorem record_pc (s : State) (acc : BusAccess) : (s.record acc).pc = s.pc := rfl
@[simp] theorem record_sp (s : State) (acc : BusAccess) : (s.record acc).sp = s.sp := rfl
@[simp] theorem record_p (s : State) (acc : BusAccess) : (s.record acc).p = s.p := rfl
@[simp] theorem record_queue (s : State) (acc : BusAccess) : (s.record acc).queue = s.queue := rfl
@[simp] theorem record_tmp (s : State) (acc : BusAccess) : (s.record acc).tmp = s.tmp := rfl
@[simp] theorem record_inISR (s : State) (acc : BusAccess) : (s.record acc).inISR = s.inISR := rfl
@[simp] theorem record_cycles (s : State) (acc : BusAccess) : (s.record acc).cycles = s.cycles := rfl
@[simp] theorem record_haltRequested (s : State) (acc : BusAccess) : (s.record acc).haltRequested = s.haltRequested := rfl
@[simp] theorem record_halted (s : State) (acc : BusAccess) : (s.record acc).halted = s.halted := rfl
@[simp] theorem record_fault (s : State) (acc : BusAccess) : (s.record acc).fault = s.fault := rfl
@[simp] theorem record_hookArmed (s : State) (acc : BusAccess) : (s.record acc).hookArmed = s.hookArmed := rfl
@[simp] theorem record_mem (s : State) (acc : BusAccess) : (s.record acc).mem = s.mem := rfl
@[simp] theorem record_bankSel (s : State) (acc : BusAccess) : (s.record acc).bankSel = s.bankSel := rfl
@[simp] theorem record_regions (s : State) (acc : BusAccess) : (s.record acc).regions = s.regions := rfl
@[simp] theorem record_sources (s : State) (acc : BusAccess) : (s.record acc).sources = s.sources := rfl
@[simp] theorem record_bus (s : State) (acc : BusAccess) : (s.record acc).bus = acc :: s.bus := rfl
@[simp] theorem record_params (s : State) (acc : BusAccess) : (s.record acc).params = s.params := rfl

/-! ### `peripherals` -/

@[simp] theorem peripherals_a (s : State) : (peripherals s).a = s.a := rfl
@[simp] theorem peripherals_x (s : State) : (peripherals s).x = s.x := rfl
@[simp] theorem peripherals_y (s : State) : (peripherals s).y = s.y := rfl
@[simp] theorem peripherals_pc (s : State) : (peripherals s).pc = s.pc := rfl
@[simp] theorem peripherals_sp (s : State) : (peripherals s).sp = s.sp := rfl
@[simp] theorem peripherals_p (s : State) : (peripherals s).p = s.p := rfl
@[simp] theorem peripherals_queue (s : State) : (peripherals s).queue = s.queue := rfl
@[simp] theorem peripherals_tmp (s : State) : (peripherals s).tmp = s.tmp := rfl
@[simp] theorem peripherals_inISR (s : State) : (peripherals s).inISR = s.inISR := rfl
@[simp] theorem peripherals_cycles (s : State) : (peripherals s).cycles = s.cycles := rfl
@[simp] theorem peripherals_haltRequested (s : State) : (peripherals s).haltRequested = s.haltRequested := rfl
@[simp] theorem peripherals_halted (s : State) : (peripherals s).halted = s.halted := rfl
@[simp] theorem peripherals_fault (s : State) : (peripherals s).fault = s.fault := rfl
@[simp] theorem peripherals_hookArmed (s : State) : (peripherals s).hookArmed = s.hookArmed := rfl
@[simp] theorem peripherals_mem (s : State) : (peripherals s).mem = s.mem := rfl
@[simp] theorem peripherals_bankSel (s : State) : (peripherals s).bankSel = nextBankSel s := rfl
@[simp] theorem peripherals_regions (s : State) : (peripherals s).regions = s.regions := rfl
@[simp] theorem peripherals_sources (s : State) : (peripherals s).sources = nextSources s := rfl
@[simp] theorem peripherals_bus (s : State) : (peripherals s).bus = s.bus := rfl
@[simp] theorem peripherals_params (s : State) : (peripherals s).params = s.params := rfl

/-! ### `countCycle` -/

@[simp] theorem countCycle_a (s : State) : (countCycle s).a = s.a := rfl
@[simp] theorem countCycle_x (s : State) : (countCycle s).x = s.x := rfl
@[simp] theorem countCycle_y (s : State) : (countCycle s).y = s.y := rfl
@[simp] theorem countCycle_pc (s : State) : (countCycle s).pc = s.pc := rfl
@[simp] theorem countCycle_sp (s : State) : (countCycle s).sp = s.sp := rfl
@[simp] theorem countCycle_p (s : State) : (countCycle s).p = s.p := rfl
@[simp] theorem countCycle_queue (s : State) : (countCycle s).queue = s.queue := rfl
@[simp] theorem countCycle_tmp (s : State) : (countCycle s).tmp = s.tmp := rfl
@[simp] theorem countCycle_inISR (s : State) : (countCycle s).inISR = s.inISR := rfl
@[simp] theorem countCycle_cycles (s : State) : (countCycle s).cycles = s.cycles + 1 := rfl
@[simp] theorem countCycle_haltRequested (s : State) : (countCycle s).haltRequested = (s.haltRequested || limitReached s.params.maxCycles (s.cycles + 1)) := rfl
@[simp] theorem countCycle_halted (s : State) : (countCycle s).halted = s.halted := rfl
@[simp] theorem countCycle_fault (s : State) : (countCycle s).fault = s.fault := rfl
@[simp] theorem countCycle_hookArmed (s : State) : (countCycle s).hookArmed = s.hookArmed := rfl
@[simp] theorem countCycle_mem (s : State) : (countCycle s).mem = s.mem := rfl
@[simp] theorem countCycle_regions (s : State) : (countCycle s).regions = s.regions := rfl
@[simp] theorem countCycle_bus (s : State) : (countCycle s).bus = s.bus := rfl
@[simp] theorem countCycle_params (s : State) : (countCycle s).params = s.params := rfl

/-! ### `settle` -/

@[simp] theorem settle_a (s : State) : (settle s).a = s.a := rfl
@[simp] theorem settle_x (s : State) : (settle s).x = s.x := rfl
@[simp] theorem settle_y (s : State) : (settle s).y = s.y := rfl
@[simp] theorem settle_pc (s : State) : (settle s).pc = s.pc := rfl
@[simp] theorem settle_sp (s : State) : (settle s).sp = s.sp := rfl
@[simp] theorem settle_p (s : State) : (settle s).p = s.p := rfl
@[simp] theorem settle_queue (s : State) : (settle s).queue = s.queue := rfl
@[simp] theorem settle_tmp (s : State) : (settle s).tmp = Temps.clear := rfl
@[simp] theorem settle_inISR (s : State) : (settle s).inISR = s.inISR := rfl
@[simp] theorem settle_cycles (s : State) : (settle s).cycles = s.cycles := rfl
@[simp] theorem settle_haltRequested (s : State) : (settle s).haltRequested = s.haltRequested := rfl
@[simp] theorem settle_halted (s : State) : (settle s).halted = (s.halted || s.haltRequested) := rfl
@[simp] theorem settle_fault (s : State) : (settle s).fault = s.fault := rfl
@[simp] theorem settle_hookArmed (s : State) : (settle s).hookArmed = s.hookArmed := rfl
@[simp] theorem settle_mem (s : State) : (settle s).mem = s.mem := rfl
@[simp] theorem settle_bankSel (s : State) : (settle s).bankSel = s.bankSel := rfl
@[simp] theorem settle_regions (s : State) : (settle s).regions = s.regions := rfl
@[simp] theorem settle_sources (s : State) : (settle s).sources = s.sources := rfl
@[simp] theorem settle_bus (s : State) : (settle s).bus = s.bus := rfl
@[simp] theorem settle_params (s : State) : (settle s).params = s.params := rfl

/-! ### `setA` -/

@[simp] theorem setA_a (s : State) (v : Byte) : (s.setA v).a = v := rfl
@[simp] theorem setA_x (s : State) (v : Byte) : (s.setA v).x = s.x := rfl
@[simp] theorem setA_y (s : State) (v : Byte) : (s.setA v).y = s.y := rfl
@[simp] theorem setA_pc (s : State) (v : Byte) : (s.setA v).pc = s.pc := rfl
@[simp] theorem setA_sp (s : State) (v : Byte) : (s.setA v).sp = s.sp := rfl
@[simp] theorem setA_p (s : State) (v : Byte) : (s.setA v).p = setNZ v s.p := rfl
@[simp] theorem setA_queue (s : State) (v : Byte) : (s.setA v).queue = s.queue := rfl
@[simp] theorem setA_tmp (s : State) (v : Byte) : (s.setA v).tmp = s.tmp := rfl
@[simp] theorem setA_inISR (s : State) (v : Byte) : (s.setA v).inISR = s.inISR := rfl
@[simp] theorem setA_cycles (s : State) (v : Byte) : (s.setA v).cycles = s.cycles := rfl
@[simp] theorem setA_haltRequested (s : State) (v : Byte) : (s.setA v).haltRequested = s.haltRequested := rfl
@[simp] theorem setA_halted (s : State) (v : Byte) : (s.setA v).halted = s.halted := rfl
@[simp] theorem setA_fault (s : State) (v : Byte) : (s.setA v).fault = s.fault := rfl
@[simp] theorem setA_hookArmed (s : State) (v : Byte) : (s.setA v).hookArmed = s.hookArmed := rfl
@[simp] theorem setA_mem (s : State) (v : Byte) : (s.setA v).mem = s.mem := rfl
@[simp] theorem setA_bankSel (s : State) (v : Byte) : (s.setA v).bankSel = s.bankSel := rfl
@[simp] theorem setA_regions (s : State) (v : Byte) : (s.setA v).regions = s.regions := rfl
@[simp] theorem setA_sources (s : State) (v : Byte) : (s.setA v).sources = s.sources := rfl
@[simp] theorem setA_bus (s : State) (v : Byte) : (s.setA v).bus = s.bus := rfl
@[simp] theorem setA_params (s : State) (v : Byte) : (s.setA v).params = s.params := rfl

/-! ### `setX` -/

@[simp] theorem setX_a (s : State) (v : Byte) : (s.setX v).a = s.a := rfl
@[simp] theorem setX_x (s : State) (v : Byte) : (s.setX v).x = v := rfl
@[simp] theorem setX_y (s : State) (v : Byte) : (s.setX v).y = s.y := rfl
@[simp] theorem setX_pc (s : State) (v : Byte) : (s.setX v).pc = s.pc := rfl
@[simp] theorem setX_sp (s : State) (v : Byte) : (s.setX v).sp = s.sp := rfl
@[simp] theorem setX_p (s : State) (v : Byte) : (s.setX v).p = setNZ v s.p := rfl
@[simp] theorem setX_queue (s : State) (v : Byte) : (s.setX v).queue = s.queue := rfl
@[simp] theorem setX_tmp (s : State) (v : Byte) : (s.setX v).tmp = s.tmp := rfl
@[simp] theorem setX_inISR (s : State) (v : Byte) : (s.setX v).inISR = s.inISR := rfl
@[simp] theorem setX_cycles (s : State) (v : Byte) : (s.setX v).cycles = s.cycles := rfl
@[simp] theorem setX_haltRequested (s : State) (v : Byte) : (s.setX v).haltRequested = s.haltRequested := rfl
@[simp] theorem setX_halted (s : State) (v : Byte) : (s.setX v).halted = s.halted := rfl
@[simp] theorem setX_fault (s : State) (v : Byte) : (s.setX v).fault = s.fault := rfl
@[simp] theorem setX_hookArmed (s : State) (v : Byte) : (s.setX v).hookArmed = s.hookArmed := rfl
@[simp] theorem setX_mem (s : State) (v : Byte) : (s.setX v).mem = s.mem := rfl
@[simp] theorem setX_bankSel (s : State) (v : Byte) : (s.setX v).bankSel = s.bankSel := rfl
@[simp] theorem setX_regions (s : State) (v : Byte) : (s.setX v).regions = s.regions := rfl
@[simp] theorem setX_sources (s : State) (v : Byte) : (s.setX v).sources = s.sources := rfl
@[simp] theorem setX_bus (s : State) (v : Byte) : (s.setX v).bus = s.bus := rfl
@[simp] theorem setX_params (s : State) (v : Byte) : (s.setX v).params = s.params := rfl

/-! ### `setY` -/

@[simp] theorem setY_a (s : State) (v : Byte) : (s.setY v).a = s.a := rfl
@[simp] theorem setY_x (s : State) (v : Byte) : (s.setY v).x = s.x := rfl
@[simp] theorem setY_y (s : State) (v : Byte) : (s.setY v).y = v := rfl
@[simp] theorem setY_pc (s : State) (v : Byte) : (s.setY v).pc = s.pc := rfl
@[simp] theorem setY_sp (s : State) (v : Byte) : (s.setY v).sp = s.sp := rfl
@[simp] theorem setY_p (s : State) (v : Byte) : (s.setY v).p = setNZ v s.p := rfl
@[simp] theorem setY_queue (s : State) (v : Byte) : (s.setY v).queue = s.queue := rfl
@[simp] theorem setY_tmp (s : State) (v : Byte) : (s.setY v).tmp = s.tmp := rfl
@[simp] theorem setY_inISR (s : State) (v : Byte) : (s.setY v).inISR = s.inISR := rfl
@[simp] theorem setY_cycles (s : State) (v : Byte) : (s.setY v).cycles = s.cycles := rfl
@[simp] theorem setY_haltRequested (s : State) (v : Byte) : (s.setY v).haltRequested = s.haltRequested := rfl
@[simp] theorem setY_halted (s : State) (v : Byte) : (s.setY v).halted = s.halted := rfl
@[simp] theorem setY_fault (s : State) (v : Byte) : (s.setY v).fault = s.fault := rfl
@[simp] theorem setY_hookArmed (s : State) (v : Byte) : (s.setY v).hookArmed = s.hookArmed := rfl
@[simp] theorem setY_mem (s : State) (v : Byte) : (s.setY v).mem = s.mem := rfl
@[simp] theorem setY_bankSel (s : State) (v : Byte) : (s.setY v).bankSel = s.bankSel := rfl
@[simp] theorem setY_regions (s : State) (v : Byte) : (s.setY v).regions = s.regions := rfl
@[simp] theorem setY_sources (s : State) (v : Byte) : (s.setY v).sources = s.sources := rfl
@[simp] theorem setY_bus (s : State) (v : Byte) : (s.setY v).bus = s.bus := rfl
@[simp] theorem setY_params (s : State) (v : Byte) : (s.setY v).params = s.params := rfl

/-! ### `setAFlags` -/

@[simp] theorem setAFlags_a (s : State) (r : Byte × Flags) : (s.setAFlags r).a = r.1 := rfl
@[simp] theorem setAFlags_x (s : State) (r : Byte × Flags) : (s.setAFlags r).x = s.x := rfl
@[simp] theorem setAFlags_y (s : State) (r : Byte × Flags) : (s.setAFlags r).y = s.y := rfl
@[simp] theorem setAFlags_pc (s : State) (r : Byte × Flags) : (s.setAFlags r).pc = s.pc := rfl
@[simp] theorem setAFlags_sp (s : State) (r : Byte × Flags) : (s.setAFlags r).sp = s.sp := rfl
@[simp] theorem setAFlags_p (s : State) (r : Byte × Flags) : (s.setAFlags r).p = r.2 := rfl
@[simp] theorem setAFlags_queue (s : State) (r : Byte × Flags) : (s.setAFlags r).queue = s.queue := rfl
@[simp] theorem setAFlags_tmp (s : State) (r : Byte × Flags) : (s.setAFlags r).tmp = s.tmp := rfl
@[simp] theorem setAFlags_inISR (s : State) (r : Byte × Flags) : (s.setAFlags r).inISR = s.inISR := rfl
@[simp] theorem setAFlags_cycles (s : State) (r : Byte × Flags) : (s.setAFlags r).cycles = s.cycles := rfl
@[simp] theorem setAFlags_haltRequested (s : State) (r : Byte × Flags) : (s.setAFlags r).haltRequested = s.haltRequested := rfl
@[simp] theorem setAFlags_halted (s : State) (r : Byte × Flags) : (s.setAFlags r).halted = s.halted := rfl
@[simp] theorem setAFlags_fault (s : State) (r : Byte × Flags) : (s.setAFlags r).fault = s.fault := rfl
@[simp] theorem setAFlags_hookArmed (s : State) (r : Byte × Flags) : (s.setAFlags r).hookArmed = s.hookArmed := rfl
@[simp] theorem setAFlags_mem (s : State) (r : Byte × Flags) : (s.setAFlags r).mem = s.mem := rfl
@[simp] theorem setAFlags_bankSel (s : State) (r : Byte × Flags) : (s.setAFlags r).bankSel = s.bankSel := rfl
@[simp] theorem setAFlags_regions (s : State) (r : Byte × Flags) : (s.setAFlags r).regions = s.regions := rfl
@[simp] theorem setAFlags_sources (s : State) (r : Byte × Flags) : (s.setAFlags r).sources = s.sources := rfl
@[simp] theorem setAFlags_bus (s : State) (r : Byte × Flags) : (s.setAFlags r).bus = s.bus := rfl
@[simp] theorem setAFlags_params (s : State) (r : Byte × Flags) : (s.setAFlags r).params = s.params := rfl

/-! ### `setTmp` -/

@[simp] theorem setTmp_a (s : State) (t : Temps) : (s.setTmp t).a = s.a := rfl
@[simp] theorem setTmp_x (s : State) (t : Temps) : (s.setTmp t).x = s.x := rfl
@[simp] theorem setTmp_y (s : State) (t : Temps) : (s.setTmp t).y = s.y := rfl
@[simp] theorem setTmp_pc (s : State) (t : Temps) : (s.setTmp t).pc = s.pc := rfl
@[simp] theorem setTmp_sp (s : State) (t : Temps) : (s.setTmp t).sp = s.sp := rfl
@[simp] theorem setTmp_p (s : State) (t : Temps) : (s.setTmp t).p = s.p := rfl
@[simp] theorem setTmp_queue (s : State) (t : Temps) : (s.setTmp t).queue = s.queue := rfl
@[simp] theorem setTmp_tmp (s : State) (t : Temps) : (s.setTmp t).tmp = t := rfl
@[simp] theorem setTmp_inISR (s : State) (t : Temps) : (s.setTmp t).inISR = s.inISR := rfl
@[simp] theorem setTmp_cycles (s : State) (t : Temps) : (s.setTmp t).cycles = s.cycles := rfl
@[simp] theorem setTmp_haltRequested (s : State) (t : Temps) : (s.setTmp t).haltRequested = s.haltRequested := rfl
@[simp] theorem setTmp_halted (s : State) (t : Temps) : (s.setTmp t).halted = s.halted := rfl
@[simp] theorem setTmp_fault (s : State) (t : Temps) : (s.setTmp t).fault = s.fault := rfl
@[simp] theorem setTmp_hookArmed (s : State) (t : Temps) : (s.setTmp t).hookArmed = s.hookArmed := rfl
@[simp] theorem setTmp_mem (s : State) (t : Temps) : (s.setTmp t).mem = s.mem := rfl
@[simp] theorem setTmp_bankSel (s : State) (t : Temps) : (s.setTmp t).bankSel = s.bankSel := rfl
@[simp] theorem setTmp_regions (s : State) (t : Temps) : (s.setTmp t).regions = s.regions := rfl
@[simp] theorem setTmp_sources (s : State) (t : Temps) : (s.setTmp t).sources = s.sources := rfl
@[simp] theorem setTmp_bus (s : State) (t : Temps) : (s.setTmp t).bus = s.bus := rfl
@[simp] theorem setTmp_params (s : State) (t : Temps) : (s.setTmp t).params = s.params := rfl

/-! ### `fireHook` -/

@[simp] theorem fireHook_a (s : State) : (fireHook s).a = s.a := rfl
@[simp] theorem fireHook_x (s : State) : (fireHook s).x = s.x := rfl
@[simp] theorem fireHook_y (s : State) : (fireHook s).y = s.y := rfl
@[simp] theorem fireHook_pc (s : State) : (fireHook s).pc = s.pc := rfl
@[simp] theorem fireHook_sp (s : State) : (fireHook s).sp = s.sp := rfl
@[simp] theorem fireHook_p (s : State) : (fireHook s).p = s.p := rfl
@[simp] theorem fireHook_queue (s : State) : (fireHook s).queue = s.queue := rfl
@[simp] theorem fireHook_tmp (s : State) : (fireHook s).tmp = s.tmp := rfl
@[simp] theorem fireHook_inISR (s : State) : (fireHook s).inISR = s.inISR := rfl
@[simp] theorem fireHook_cycles (s : State) : (fireHook s).cycles = s.cycles := rfl
@[simp] theorem fireHook_haltRequested (s : State) : (fireHook s).haltRequested = s.haltRequested := rfl
@[simp] theorem fireHook_halted (s : State) : (fireHook s).halted = s.halted := rfl
@[simp] theorem fireHook_fault (s : State) : (fireHook s).fault = s.fault := rfl
@[simp] theorem fireHook_hookArmed (s : State) : (fireHook s).hookArmed = false := rfl
@[simp] theorem fireHook_mem (s : State) : (fireHook s).mem = s.mem := rfl
@[simp] theorem fireHook_bankSel (s : State) : (fireHook s).bankSel = s.bankSel := rfl
@[simp] theorem fireHook_regions (s : State) : (fireHook s).regions = s.regions := rfl
@[simp] theorem fireHook_sources (s : State) : (fireHook s).sources = s.sources := rfl
@[simp] theorem fireHook_bus (s : State) : (fireHook s).bus = s.bus := rfl
@[simp] theorem fireHook_params (s : State) : (fireHook s).params = s.params := rfl

@[simp] theorem setNZ_n (v : Byte) (p : Flags) : (setNZ v p).n = v.msb := rfl
@[simp] theorem setNZ_v (v : Byte) (p : Flags) : (setNZ v p).v = p.v := rfl
@[simp] theorem setNZ_b (v : Byte) (p : Flags) : (setNZ v p).b = p.b := rfl
@[simp] theorem setNZ_d (v : Byte) (p : Flags) : (setNZ v p).d = p.d := rfl
@[simp] theorem setNZ_i (v : Byte) (p : Flags) : (setNZ v p).i = p.i := rfl
@[simp] theorem setNZ_z (v : Byte) (p : Flags) : (setNZ v p).z = (v == 0#8) := rfl
@[simp] theorem setNZ_c (v : Byte) (p : Flags) : (setNZ v p).c = p.c := rfl

end Sys2Proof.Machine
end

