-- ==== Sys2Proof/Laws/Ops.lean ====
section
/-! SUPPORT. What each shared operation can do, said once: `Res.Spec g r P` says that whatever `r` answers satisfies `P`
(partial correctness, on every memory map), and that under `g` it does answer. With `g := False` it is a frame, with
`g := True` a completion. `Ticked n s t` says that `t` is `s` after `n` ticks that changed nothing else. -/

namespace Sys2Proof.Machine

variable {α β : Type} {g : Prop} {n m : Nat}

/-! ### Words -/

theorem mkWord_toNat (h l : Byte) : (mkWord h l).toNat = h.toNat * 256 + l.toNat := by
  simp only [mkWord, BitVec.toNat_append]
  rw [← Nat.shiftLeft_add_eq_or_of_lt l.isLt]
  simp [Nat.shiftLeft_eq]

theorem mkWord_getLsbD (h l : Byte) (i : Nat) :
    (mkWord h l).getLsbD i = if i < 8 then l.getLsbD i else h.getLsbD (i - 8) := by
  have := BitVec.getLsbD_append (x := h) (y := l) (i := i)
  simpa [mkWord] using this

theorem hiByte_getLsbD (w : Word) (i : Nat) : (hiByte w).getLsbD i = (decide (i < 8) && w.getLsbD (8 + i)) := by
  simp [hiByte]

theorem loByte_getLsbD (w : Word) (i : Nat) : (loByte w).getLsbD i = (decide (i < 8) && w.getLsbD i) := by
  simp [loByte]

theorem hiByte_toNat (w : Word) : (hiByte w).toNat = w.toNat / 256 := by
  have := w.isLt
  simp [hiByte, BitVec.extractLsb'_toNat, Nat.shiftRight_eq_div_pow]
  omega

theorem loByte_toNat (w : Word) : (loByte w).toNat = w.toNat % 256 := by
  simp [loByte, BitVec.extractLsb'_toNat]

@[simp] theorem hiByte_mkWord (h l : Byte) : hiByte (mkWord h l) = h := by
  have := l.isLt
  apply BitVec.eq_of_toNat_eq
  rw [hiByte_toNat, mkWord_toNat]
  omega

@[simp] theorem loByte_mkWord (h l : Byte) : loByte (mkWord h l) = l := by
  have := l.isLt
  apply BitVec.eq_of_toNat_eq
  rw [loByte_toNat, mkWord_toNat]
  omega

@[simp] theorem mkWord_hi_lo (w : Word) : mkWord (hiByte w) (loByte w) = w := by
  apply BitVec.eq_of_toNat_eq
  rw [mkWord_toNat, hiByte_toNat, loByte_toNat]
  omega

@[simp] theorem loByte_zextWord (b : Byte) : loByte (zextWord b) = b := by
  have := b.isLt
  apply BitVec.eq_of_toNat_eq
  simp only [loByte_toNat, zextWord, BitVec.toNat_setWidth]
  omega

/-- Without a page cross the two sums of an indexed address agree (41_addressing_modes.md R187). -/
theorem unfixed_eq_indexed {base : Word} {idx : Byte} (h : pageCrossed base idx = false) :
    unfixedAddr base idx = indexedAddr base idx := by
  apply BitVec.eq_of_toNat_eq
  have hb := base.isLt
  have hi := idx.isLt
  simp only [pageCrossed, loByte_toNat, decide_eq_false_iff_not] at h
  simp only [unfixedAddr, indexedAddr, mkWord_toNat, hiByte_toNat, BitVec.toNat_add, loByte_toNat, zextWord,
    BitVec.toNat_setWidth]
  omega

/-- Distinct stack pointers address distinct bytes. -/
theorem stackAddr_inj {a b : Byte} (h : stackAddr a = stackAddr b) : a = b := by
  simpa [stackAddr] using congrArg loByte h

/-! ### Sequencing -/

/-- What `r` answers satisfies `P`; under `g` it answers. -/
def Res.Spec (g : Prop) (r : Res α) (P : α → State → Prop) : Prop :=
  (∀ v t, r = .ok v t → P v t) ∧ (g → ∃ v t, r = .ok v t)

theorem Res.Spec.ok {v : α} {s : State} {P : α → State → Prop} (h : P v s) : Res.Spec g (.ok v s) P :=
  ⟨fun _ _ e => by cases e; exact h, fun _ => ⟨_, _, rfl⟩⟩

theorem Res.Spec.mono {r : Res α} {P Q : α → State → Prop} (h : Res.Spec g r P) (hPQ : ∀ v t, P v t → Q v t) :
    Res.Spec g r Q := ⟨fun v t e => hPQ v t (h.1 v t e), h.2⟩

theorem Res.Spec.bind {r : Res α} {k : α → State → Res β} {P : α → State → Prop} {Q : β → State → Prop}
    (h : Res.Spec g r P) (hk : ∀ v t, P v t → Res.Spec g (k v t) Q) : Res.Spec g (r.bind k) Q := by
  cases r with
  | ok v s => exact hk v s (h.1 v s rfl)
  | fault f s => exact ⟨fun _ _ e => by simp [Res.bind] at e, fun hg => by obtain ⟨_, _, e⟩ := h.2 hg; cases e⟩
  | refuse f s => exact ⟨fun _ _ e => by simp [Res.bind] at e, fun hg => by obtain ⟨_, _, e⟩ := h.2 hg; cases e⟩

/-- A frame needs no guard. -/
theorem Res.Spec.weaken {r : Res α} {P : α → State → Prop} (h : Res.Spec g r P) : Res.Spec False r P :=
  ⟨h.1, fun f => f.elim⟩

/-- A sequence that answers is two operations that answer. -/
theorem Res.bind_ok {r : Res α} {k : α → State → Res β} {v : β} {t : State} :
    r.bind k = .ok v t ↔ ∃ a u, r = .ok a u ∧ k a u = .ok v t := by
  cases r <;> simp [Res.bind]

@[simp] theorem Res.ok_bind (v : α) (s : State) (k : α → State → Res β) : (Res.ok v s).bind k = k v s := rfl
@[simp] theorem Res.fault_bind (f : Fault) (s : State) (k : α → State → Res β) :
    (Res.fault f s).bind k = .fault f s := rfl
@[simp] theorem Res.refuse_bind (e : Refusal) (s : State) (k : α → State → Res β) :
    (Res.refuse e s).bind k = .refuse e s := rfl
@[simp] theorem Res.outcome_ok (s : State) : (Res.ok () s).outcome = .next s := rfl
@[simp] theorem Res.outcome_fault (f : Fault) (s : State) : (Res.fault f s).outcome = .fault f := rfl
@[simp] theorem Res.outcome_refuse (e : Refusal) (s : State) : (Res.refuse e s).outcome = .refused e := rfl

theorem Res.bind_assoc {γ : Type} (r : Res α) (k : α → State → Res β) (j : β → State → Res γ) :
    (r.bind k).bind j = r.bind fun v s => (k v s).bind j := by cases r <;> rfl

/-- The last tick of a sequence is the last tick of its last operation. -/
theorem lastCycle_bind (r : Res α) (k : α → State → Res β) :
    lastCycle (r.bind k) = r.bind fun v s => lastCycle (k v s) := by cases r <;> rfl

/-- A tick of a sequence, its last operation counted. -/
theorem cycle_bind (r : Res α) (k : α → State → Res β) :
    cycle (r.bind k) = r.bind fun v s => cycle (k v s) := by cases r <;> rfl

/-- A meaning answers a next state exactly when its result is that state. -/
theorem Res.outcome_next {r : Res Unit} {t : State} : r.outcome = .next t ↔ r = .ok () t := by
  cases r <;> simp [Res.outcome]

theorem Res.Spec.outcome {r : Res Unit} {P : Unit → State → Prop} (h : Res.Spec g r P) {t : State}
    (ht : r.outcome = .next t) : P () t := h.1 _ _ (Res.outcome_next.mp ht)

theorem Res.Spec.completes {r : Res Unit} {P : Unit → State → Prop} (h : Res.Spec g r P) (hg : g) :
    ∃ t, r.outcome = .next t ∧ P () t := by
  obtain ⟨v, t, e⟩ := h.2 hg
  exact ⟨t, Res.outcome_next.mpr e, h.1 _ _ e⟩

/-! ### Ticks that change nothing else -/

/-- A halt is requested after `n` more ticks; unlike `State.haltAfter` also right for `n = 0`. -/
def State.haltBy (s : State) (n : Nat) : Bool :=
  s.haltRequested || (decide (0 < n) && limitReached s.params.maxCycles (s.cycles + n))

@[simp] theorem haltBy_zero (s : State) : s.haltBy 0 = s.haltRequested := by simp [State.haltBy]

theorem haltBy_eq_haltAfter (s : State) (h : 0 < n) : s.haltBy n = s.haltAfter n := by
  simp [State.haltBy, State.haltAfter, h]

theorem limitReached_mono {limit : Option Nat} {a b : Nat} (hab : a ≤ b) (h : limitReached limit a = true) :
    limitReached limit b = true := by
  cases limit with
  | none => exact h
  | some k => simp only [limitReached, decide_eq_true_eq] at h ⊢; omega

theorem haltBy_succ (s : State) (n : Nat) :
    (s.haltBy n || limitReached s.params.maxCycles (s.cycles + n + 1)) = s.haltBy (n + 1) := by
  simp only [State.haltBy, Nat.add_assoc, Nat.zero_lt_succ, decide_true, Bool.true_and]
  cases hl : limitReached s.params.maxCycles (s.cycles + n) with
  | false => simp
  | true => simp [limitReached_mono (show s.cycles + n ≤ s.cycles + (n + 1) by omega) hl]

/-- `t` is `s` after `n` ticks: `n` cycles are counted, a halt may have been requested, of the inputs from outside only
their number and of the bus record nothing is told, and nothing else differs. -/
def Ticked (n : Nat) (s t : State) : Prop :=
  ∃ b o y, b.length = s.bankSel.length ∧ o.length = s.sources.length ∧ t = { s with
    cycles := s.cycles + n, haltRequested := s.haltBy n, bankSel := b, sources := o, bus := y }

theorem Ticked.refl (s : State) : Ticked 0 s s := ⟨s.bankSel, s.sources, s.bus, rfl, rfl, by simp⟩

/-- The end of a tick counts one more. -/
theorem Ticked.count {s t : State} (h : Ticked n s t) : Ticked (n + 1) s (countCycle t) := by
  obtain ⟨b, o, y, hb, ho, rfl⟩ := h
  refine ⟨nextBankSel _, nextSources _, y, ?_, ?_, by rw [← haltBy_succ]; rfl⟩
  · simpa [nextBankSel] using hb
  · simpa [nextSources] using ho

/-- A bus access that stores nothing is not told apart. -/
theorem Ticked.record {s t : State} (h : Ticked n s t) (access : BusAccess) : Ticked n s (t.record access) := by
  obtain ⟨b, o, y, hb, ho, rfl⟩ := h
  exact ⟨_, _, _, hb, ho, rfl⟩

/-- Any update of the other fields goes through the ticks. -/
theorem Ticked.update {s t : State} (h : Ticked n s t) (f : State → State)
    (hf : ∀ u c r b o y, f { u with cycles := c, haltRequested := r, bankSel := b, sources := o, bus := y } =
      { f u with cycles := c, haltRequested := r, bankSel := b, sources := o, bus := y } := by intros; rfl)
    (h0 : ∀ u, (f u).cycles = u.cycles ∧ (f u).haltRequested = u.haltRequested ∧
      (f u).params.maxCycles = u.params.maxCycles ∧ (f u).bankSel = u.bankSel ∧ (f u).sources = u.sources := by
        intro u; exact ⟨rfl, rfl, rfl, rfl, rfl⟩) :
    Ticked n (f s) (f t) := by
  obtain ⟨b, o, y, hb, ho, rfl⟩ := h
  obtain ⟨h1, h2, h3, h4, h5⟩ := h0 s
  exact ⟨b, o, y, by rw [h4]; exact hb, by rw [h5]; exact ho, by rw [hf]; simp only [State.haltBy, h1, h2, h3]⟩

theorem Ticked.a {s t : State} (h : Ticked n s t) : t.a = s.a := by obtain ⟨_, _, _, -, -, rfl⟩ := h; rfl

theorem Ticked.x {s t : State} (h : Ticked n s t) : t.x = s.x := by obtain ⟨_, _, _, -, -, rfl⟩ := h; rfl

theorem Ticked.y {s t : State} (h : Ticked n s t) : t.y = s.y := by obtain ⟨_, _, _, -, -, rfl⟩ := h; rfl

theorem Ticked.pc {s t : State} (h : Ticked n s t) : t.pc = s.pc := by obtain ⟨_, _, _, -, -, rfl⟩ := h; rfl

theorem Ticked.sp {s t : State} (h : Ticked n s t) : t.sp = s.sp := by obtain ⟨_, _, _, -, -, rfl⟩ := h; rfl

theorem Ticked.p {s t : State} (h : Ticked n s t) : t.p = s.p := by obtain ⟨_, _, _, -, -, rfl⟩ := h; rfl

theorem Ticked.queue {s t : State} (h : Ticked n s t) : t.queue = s.queue := by obtain ⟨_, _, _, -, -, rfl⟩ := h; rfl

theorem Ticked.tmp {s t : State} (h : Ticked n s t) : t.tmp = s.tmp := by obtain ⟨_, _, _, -, -, rfl⟩ := h; rfl

theorem Ticked.inISR {s t : State} (h : Ticked n s t) : t.inISR = s.inISR := by obtain ⟨_, _, _, -, -, rfl⟩ := h; rfl

theorem Ticked.mem {s t : State} (h : Ticked n s t) : t.mem = s.mem := by obtain ⟨_, _, _, -, -, rfl⟩ := h; rfl

theorem Ticked.regions {s t : State} (h : Ticked n s t) : t.regions = s.regions := by obtain ⟨_, _, _, -, -, rfl⟩ := h; rfl

theorem Ticked.params {s t : State} (h : Ticked n s t) : t.params = s.params := by obtain ⟨_, _, _, -, -, rfl⟩ := h; rfl

theorem Ticked.bankSel {s t : State} (h : Ticked n s t) : t.bankSel.length = s.bankSel.length := by
  obtain ⟨_, _, _, h, -, rfl⟩ := h; exact h

theorem Ticked.sources {s t : State} (h : Ticked n s t) : t.sources.length = s.sources.length := by
  obtain ⟨_, _, _, -, h, rfl⟩ := h; exact h

theorem Ticked.kindAt {s t : State} (h : Ticked n s t) (a : Word) : t.kindAt a = s.kindAt a := by
  simp [State.kindAt, h.regions]

theorem Ticked.byteAt {s t : State} (h : Ticked n s t) (a : Word) : t.byteAt a = s.byteAt a := by
  simp [State.byteAt, h.mem]

theorem Ticked.stored {s t : State} (h : Ticked n s t) (a : Word) : t.Stored a ↔ s.Stored a := by
  simp [State.Stored, h.kindAt]

theorem Ticked.readable {s t : State} (h : Ticked n s t) (a : Word) :
    (s.Stored a ∨ s.InDevice a) ↔ (t.Stored a ∨ t.InDevice a) := by
  simp [State.Stored, State.InDevice, h.kindAt]

/-- The last tick leaves what `Finished` says. -/
theorem Ticked.finish {s r u : State} (h : Ticked n r u) (hn : 0 < n) (hc : r.cycles = s.cycles)
    (hh : r.haltRequested = s.haltRequested) (hp : r.params = s.params) : Finished s r n (settle u) := by
  obtain ⟨b, o, y, -, -, rfl⟩ := h
  have : r.haltBy n = s.haltAfter n := by rw [haltBy_eq_haltAfter r hn]; simp [State.haltAfter, hc, hh, hp]
  simp [Finished, settle, this, hc]

/-! ### The bus -/

/-- A read of the address is answered: RAM, ROM or a device. -/
def State.Readable (s : State) (a : Word) : Prop := s.Stored a ∨ s.InDevice a

/-- A write to the address is taken: RAM or a device. -/
def State.Writable (s : State) (a : Word) : Prop := s.InRam a ∨ s.InDevice a

theorem State.AllOpen.readable {s : State} (h : s.AllOpen) (a : Word) : s.Readable a :=
  (h a).elim (fun h => .inl (.inl h)) .inr

theorem State.AllOpen.writable {s : State} (h : s.AllOpen) (a : Word) : s.Writable a := h a

/-- A read changes the bus record only, by one read of the address; a stored byte is the byte of storage (20_memory.md R63,
R64, R66). -/
theorem busRead_spec {s : State} {a : Word} (h : g → s.Readable a) :
    Res.Spec g (busRead a s) fun v t =>
      (∃ access, access.line = (false, a, v) ∧ t = s.record access) ∧ (s.Stored a → v = s.byteAt a) := by
  unfold State.Readable State.Stored State.InDevice State.kindAt at *
  unfold busRead
  cases hc : claimant s.regions a with
  | none => exact ⟨fun _ _ e => by simp at e, fun hg => by simpa [hc] using h hg⟩
  | some r =>
    rw [hc] at h
    dsimp only [Option.map_some] at h ⊢
    cases hk : r.kind with
    | ram => exact .ok ⟨⟨_, rfl, rfl⟩, fun _ => rfl⟩
    | rom => exact .ok ⟨⟨_, rfl, rfl⟩, fun _ => rfl⟩
    | device d k => exact .ok ⟨⟨_, rfl, rfl⟩, fun h => by simp at h⟩
    | paged slot banks =>
      refine ⟨fun v t e => ?_, fun hg => by simpa [hk] using h hg⟩
      simp only at e
      split at e
      · cases e; exact ⟨⟨_, rfl, rfl⟩, fun h => by simp at h⟩
      · cases e

/-- A write changes storage and the bus record only, the record by one write of the byte to the address (20_memory.md R63
to R66). -/
theorem busWrite_spec {s : State} {a : Word} {v : Byte} (h : g → s.Writable a) :
    Res.Spec g (busWrite a v s) fun _ t =>
      (∃ access, access.line = (true, a, v) ∧ t = { s with mem := t.mem }.record access) ∧
      (s.InRam a → t.mem = Memory.write s.mem a.toNat v) ∧ (s.InRam a ∨ (t.mem = s.mem ∧ s.InDevice a)) := by
  unfold State.Writable State.InRam State.InDevice State.kindAt at *
  unfold busWrite
  cases hc : claimant s.regions a with
  | none => exact ⟨fun _ _ e => by simp at e, fun hg => by simpa [hc] using h hg⟩
  | some r =>
    rw [hc] at h
    dsimp only [Option.map_some] at h ⊢
    cases hk : r.kind with
    | ram => exact .ok ⟨⟨_, rfl, rfl⟩, fun _ => rfl, .inl rfl⟩
    | rom => exact ⟨fun _ _ e => by simp at e, fun hg => by simpa [hk] using h hg⟩
    | paged slot banks => exact ⟨fun _ _ e => by simp at e, fun hg => by simpa [hk] using h hg⟩
    | device d k => exact .ok ⟨⟨_, rfl, rfl⟩, fun h => by simp at h, .inr ⟨rfl, d, k, rfl⟩⟩

/-- A read of RAM or ROM, in full (20_memory.md R63, R64). -/
theorem busRead_stored {s : State} {a : Word} (h : s.Stored a) :
    busRead a s = .ok (s.byteAt a) (s.record (.read a (s.byteAt a))) := by
  unfold State.Stored State.kindAt at h
  unfold busRead
  cases hc : claimant s.regions a with
  | none => simp [hc] at h
  | some r => rcases h with h | h <;> simp [hc] at h <;> simp [h, answerRead, State.byteAt]

/-- A write to RAM, in full (20_memory.md R63). -/
theorem busWrite_inRam {s : State} {a : Word} (v : Byte) (h : s.InRam a) :
    busWrite a v s = .ok () ({ s with mem := Memory.write s.mem a.toNat v }.record (.write a v)) := by
  unfold State.InRam State.kindAt at h
  unfold busWrite
  cases hc : claimant s.regions a with
  | none => simp [hc] at h
  | some r => simp [hc] at h; simp [h]

/-- A write to read-only storage stops (20_memory.md R64, R65). -/
theorem busWrite_readOnly {s : State} {a : Word} (v : Byte) (h : s.ReadOnly a) :
    busWrite a v s = .fault (.readOnlyWrite a v) s := by
  unfold State.ReadOnly State.kindAt at h
  unfold busWrite
  cases hc : claimant s.regions a with
  | none => simp [hc] at h
  | some r => rcases h with h | ⟨k, b, h⟩ <;> simp [hc] at h <;> simp [h]

/-- `t` is `s` after as many ticks as `l` is long that made the accesses `l`, oldest first, and changed nothing else. -/
def Traced (l : List (Bool × Word)) (s t : State) : Prop :=
  Ticked l.length s t ∧ t.bus.map BusAccess.place = l.reverse ++ s.bus.map BusAccess.place

theorem Traced.refl (s : State) : Traced [] s s := ⟨.refl s, rfl⟩

/-- One tick with a read of RAM or ROM. -/
theorem Traced.read {l : List (Bool × Word)} {s t : State} {a : Word} (hT : Traced l s t) (h : s.Stored a) :
    ∃ u, (busRead a t).bind (fun v u => Res.ok v (countCycle u)) = .ok (s.byteAt a) u ∧
      Traced (l ++ [(false, a)]) s u := by
  refine ⟨_, by rw [busRead_stored ((hT.1.stored a).mpr h), hT.1.byteAt]; rfl, ?_, ?_⟩
  · simpa using (hT.1.record _).count
  · simp [hT.2, BusAccess.place, BusAccess.line]

/-! ### One tick -/

theorem cycle_spec {r : Res α} {P Q : α → State → Prop} (h : Res.Spec g r P) (hQ : ∀ v u, P v u → Q v (countCycle u)) :
    Res.Spec g (cycle r) Q := h.bind fun v u hu => .ok (hQ v u hu)

theorem lastCycle_spec {r : Res α} {P : α → State → Prop} {Q : Unit → State → Prop} (h : Res.Spec g r P)
    (hQ : ∀ v u, P v u → Q () (settle (countCycle u))) : Res.Spec g (lastCycle r) Q :=
  h.bind fun v u hu => .ok (hQ v u hu)

section Ticks

variable {s t : State}

theorem read_spec (hT : Ticked n s t) {a : Word} (h : g → s.Readable a) :
    Res.Spec g (busRead a t) fun v u => Ticked n s u ∧ (s.Stored a → v = s.byteAt a) := by
  refine (busRead_spec fun hg => (hT.readable a).mp (h hg)).mono fun v u hu => ⟨?_, fun hs => ?_⟩
  · obtain ⟨_, -, h⟩ := hu.1
    rw [h]
    exact hT.record _
  · rw [hu.2 ((hT.stored a).mpr hs), hT.byteAt]

theorem cycleRead_spec (hT : Ticked n s t) {a : Word} (h : g → s.Readable a) :
    Res.Spec g (cycle (busRead a t)) fun v u => Ticked (n + 1) s u ∧ (s.Stored a → v = s.byteAt a) :=
  cycle_spec (read_spec hT h) fun _ _ hu => ⟨hu.1.count, hu.2⟩

/-- A write: the storage afterwards, whether the address is RAM or a device. -/
theorem write_spec (hT : Ticked n s t) {a : Word} {v : Byte} (h : g → s.Writable a) :
    Res.Spec g (busWrite a v t) fun _ u => ∃ m, Ticked n { s with mem := m } u ∧
      (s.InRam a → m = Memory.write s.mem a.toNat v) ∧ (s.InRam a ∨ (m = s.mem ∧ s.InDevice a)) := by
  have hk := hT.kindAt a
  have hm := hT.mem
  refine (busWrite_spec (fun hg => ?_)).mono fun _ u hu => ⟨u.mem, ?_, ?_, ?_⟩
  · simpa [State.Writable, State.InRam, State.InDevice, hk] using h hg
  · obtain ⟨_, -, h⟩ := hu.1
    rw [h]
    exact (hT.update (fun s => { s with mem := u.mem })).record _
  · simpa [State.InRam, hk, hm] using hu.2.1
  · simpa [State.InRam, State.InDevice, hk, hm] using hu.2.2

theorem fetchByte_spec (hT : Ticked n s t) (h : g → s.Readable s.pc) :
    Res.Spec g (fetchByte t) fun v u => Ticked n { s with pc := s.pc + 1 } u ∧ (s.Stored s.pc → v = s.byteAt s.pc) := by
  unfold fetchByte
  rw [hT.pc]
  refine (read_spec hT h).bind fun v u hu => .ok ⟨?_, hu.2⟩
  exact hu.1.update (fun x => { x with pc := x.pc + 1 })

theorem fetchCycles_spec (m : Nat) (hT : Ticked n s t) (h : ∀ k < m, g → s.Readable (s.pc + BitVec.ofNat 16 k)) :
    Res.Spec g (fetchCycles m t) fun _ u => Ticked (n + m) { s with pc := s.pc + BitVec.ofNat 16 m } u := by
  induction m generalizing n s t with
  | zero => exact .ok (by simpa using hT)
  | succ m ih =>
    have h0 : g → s.Readable s.pc := by simpa using h 0 (Nat.succ_pos m)
    refine (cycle_spec (fetchByte_spec hT h0) fun v u hu => hu.1.count).bind fun _ u hu => ?_
    have hpc : ∀ k, s.pc + 1 + BitVec.ofNat 16 k = s.pc + BitVec.ofNat 16 (k + 1) := fun k => by
      rw [BitVec.add_assoc, Nat.add_comm k 1, BitVec.ofNat_add]; rfl
    refine (ih hu fun k hk hg => ?_).mono fun _ w hw => ?_
    · have := h (k + 1) (by omega) hg
      rw [← hpc] at this
      exact this
    · rw [← hpc, Nat.add_comm m 1, ← Nat.add_assoc]
      exact hw

/-! ### The stack -/

/-- The decrement of a push completes. -/
def State.CanPush (s : State) : Prop := s.sp ≠ 0x00#8 ∨ s.params.spBounds = .wrap

/-- The increment of a pull completes. -/
def State.CanPull (s : State) : Prop := s.sp ≠ 0xFF#8 ∨ s.params.spBounds = .wrap

theorem decSp_spec (hT : Ticked n s t) (h : g → s.CanPush) :
    Res.Spec g (decSp t) fun _ u => s.CanPush ∧ Ticked n { s with sp := s.sp - 1 } u := by
  have hc : s.CanPush ↔ t.sp ≠ 0x00#8 ∨ t.params.spBounds = .wrap := by simp [State.CanPush, hT.sp, hT.params]
  have h1 := hT.update (fun x => { x with sp := x.sp - 1 })
  rw [hc] at h
  simp only [hc]
  unfold decSp
  by_cases h0 : t.sp = 0x00#8
  · rw [if_pos h0]
    cases hb : t.params.spBounds with
    | fatal => exact ⟨fun _ _ e => (by cases e), fun hg => by simpa [h0, hb] using h hg⟩
    | wrap =>
      rw [h0, show 0x00#8 - 1 = 0xFF#8 from rfl] at h1
      exact .ok ⟨.inr rfl, h1⟩
  · rw [if_neg h0]
    exact .ok ⟨.inl h0, h1⟩

theorem incSp_spec (hT : Ticked n s t) (h : g → s.CanPull) :
    Res.Spec g (incSp t) fun _ u => s.CanPull ∧ Ticked n { s with sp := s.sp + 1 } u := by
  have hc : s.CanPull ↔ t.sp ≠ 0xFF#8 ∨ t.params.spBounds = .wrap := by simp [State.CanPull, hT.sp, hT.params]
  have h1 := hT.update (fun x => { x with sp := x.sp + 1 })
  rw [hc] at h
  simp only [hc]
  unfold incSp
  by_cases h0 : t.sp = 0xFF#8
  · rw [if_pos h0]
    cases hb : t.params.spBounds with
    | fatal => exact ⟨fun _ _ e => (by cases e), fun hg => by simpa [h0, hb] using h hg⟩
    | wrap =>
      rw [h0, show 0xFF#8 + 1 = 0x00#8 from rfl] at h1
      exact .ok ⟨.inr rfl, h1⟩
  · rw [if_neg h0]
    exact .ok ⟨.inl h0, h1⟩

/-- A push writes at the old SP, then decrements (40_execution_engine.md R157). -/
theorem push_spec (hT : Ticked n s t) {v : Byte} (h : g → s.Writable (stackAddr s.sp) ∧ s.CanPush) :
    Res.Spec g (push v t) fun _ u => s.CanPush ∧ ∃ m, Ticked n { s with mem := m, sp := s.sp - 1 } u ∧
      (s.InRam (stackAddr s.sp) → m = Memory.write s.mem (stackAddr s.sp).toNat v) ∧
      (s.InRam (stackAddr s.sp) ∨ (m = s.mem ∧ s.InDevice (stackAddr s.sp))) := by
  unfold push
  rw [hT.sp]
  refine (write_spec hT fun hg => (h hg).1).bind fun _ u hu => ?_
  obtain ⟨m, hm, h1, h2⟩ := hu
  exact (decSp_spec hm fun hg => (h hg).2).mono fun _ w hw => ⟨hw.1, m, hw.2, h1, h2⟩

theorem stackRead_spec (hT : Ticked n s t) (h : g → s.Readable (stackAddr s.sp)) :
    Res.Spec g (stackRead t) fun v u => Ticked n s u ∧ (s.Stored (stackAddr s.sp) → v = s.byteAt (stackAddr s.sp)) := by
  unfold stackRead
  rw [hT.sp]
  exact read_spec hT h

/-- A read at the old SP, then the increment (40_execution_engine.md R158). -/
theorem stackReadInc_spec (hT : Ticked n s t) (h : g → s.Readable (stackAddr s.sp) ∧ s.CanPull) :
    Res.Spec g (stackReadInc t) fun v u => s.CanPull ∧ Ticked n { s with sp := s.sp + 1 } u ∧
      (s.Stored (stackAddr s.sp) → v = s.byteAt (stackAddr s.sp)) := by
  refine (stackRead_spec hT fun hg => (h hg).1).bind fun v u hu => ?_
  exact (incSp_spec hu.1 fun hg => (h hg).2).bind fun _ w hw => .ok ⟨hw.1, hw.2, hu.2⟩

end Ticks

end Sys2Proof.Machine
end

