-- ==== Sys2Proof/Laws/Operands.lean ====
section
/-! SUPPORT. What each operand form can do: how many ticks it takes, that it changes nothing but PC, which address it
answers over stored memory, and how a sequence of each class ends. -/

namespace Sys2Proof.Machine

variable {g : Prop} {n : Nat} {s t : State}

/-- `k` instruction bytes from PC on can be read. -/
def State.CanFetch (s : State) (k : Nat) : Prop := ∀ j < k, s.Readable (s.pc + BitVec.ofNat 16 j)

/-! ### Effective addresses -/

theorem eaZp_spec (z : Byte) (h : g → s.CanFetch 2) :
    Res.Spec g (eaZp z s) fun ea u => Ticked 2 { s with pc := s.pc + 2 } u ∧ ea = zpAddr z :=
  (fetchCycles_spec 2 (Ticked.refl s) fun k hk hg => h hg k hk).bind fun _ _ hu => .ok ⟨by simpa using hu, rfl⟩

theorem eaAbs_spec (w : Word) (h : g → s.CanFetch 3) :
    Res.Spec g (eaAbs w s) fun ea u => Ticked 3 { s with pc := s.pc + 3 } u ∧ ea = w :=
  (fetchCycles_spec 3 (Ticked.refl s) fun k hk hg => h hg k hk).bind fun _ _ hu => .ok ⟨by simpa using hu, rfl⟩

theorem Index.value_ticked {i : Index} (h : Ticked n s t) : i.value t = i.value s := by
  cases i <;> simp [Index.value, h.x, h.y]

theorem eaZpIdx_spec (i : Index) (z : Byte) (h : g → s.CanFetch 2 ∧ s.Readable (zpAddr z)) :
    Res.Spec g (eaZpIdx i z s) fun ea u =>
      Ticked 3 { s with pc := s.pc + 2 } u ∧ ea = zpAddr (z + i.value s) :=
  (fetchCycles_spec 2 (Ticked.refl s) fun k hk hg => (h hg).1 k hk).bind fun _ _ hu =>
    (cycleRead_spec hu fun hg => (h hg).2).bind fun _ _ hw => .ok ⟨hw.1, by rw [Index.value_ticked hw.1]; cases i <;> rfl⟩

/-- The pointer over stored memory (41_addressing_modes.md R196). -/
theorem readPointer_spec (hT : Ticked n s t) (p : Byte)
    (h : g → s.Readable (zpAddr p) ∧ s.Readable (zpAddr (p + 1))) :
    Res.Spec g (readPointer p t) fun w u => Ticked (n + 2) s u ∧
      (s.Stored (zpAddr p) → s.Stored (zpAddr (p + 1)) → w = s.pointerAt p) :=
  (cycleRead_spec hT fun hg => (h hg).1).bind fun _ _ hl =>
    (cycleRead_spec hl.1 fun hg => (h hg).2).bind fun _ _ hh =>
      .ok ⟨hh.1, fun h0 h1 => by rw [hl.2 h0, hh.2 h1, State.pointerAt]⟩

theorem eaIzx_spec (z : Byte) (h : g → s.CanFetch 2 ∧ s.Readable (zpAddr z) ∧ s.Readable (zpAddr (z + s.x)) ∧
      s.Readable (zpAddr (z + s.x + 1))) :
    Res.Spec g (eaIzx z s) fun ea u => Ticked 5 { s with pc := s.pc + 2 } u ∧
      (s.Stored (zpAddr (z + s.x)) → s.Stored (zpAddr (z + s.x + 1)) → ea = s.pointerAt (z + s.x)) :=
  (fetchCycles_spec 2 (Ticked.refl s) fun k hk hg => (h hg).1 k hk).bind fun _ _ hu =>
    (cycleRead_spec hu fun hg => (h hg).2.1).bind fun _ w hw => by
      rw [hw.1.x]
      exact (readPointer_spec hw.1 (z + s.x) fun hg => (h hg).2.2).mono fun _ _ hp => hp

theorem baseIzy_spec (z : Byte) (h : g → s.CanFetch 2 ∧ s.Readable (zpAddr z) ∧ s.Readable (zpAddr (z + 1))) :
    Res.Spec g (baseIzy z s) fun base u => Ticked 4 { s with pc := s.pc + 2 } u ∧
      (s.Stored (zpAddr z) → s.Stored (zpAddr (z + 1)) → base = s.pointerAt z) :=
  (fetchCycles_spec 2 (Ticked.refl s) fun k hk hg => (h hg).1 k hk).bind fun _ _ hu =>
    (readPointer_spec hu z fun hg => (h hg).2).mono fun _ _ hp => hp

theorem eaAbsIdx_spec (i : Index) (w : Word) (h : g → s.CanFetch 3 ∧ s.Readable (unfixedAddr w (i.value s))) :
    Res.Spec g (eaAbsIdx i w s) fun ea u =>
      Ticked 4 { s with pc := s.pc + 3 } u ∧ ea = indexedAddr w (i.value s) :=
  (fetchCycles_spec 3 (Ticked.refl s) fun k hk hg => (h hg).1 k hk).bind fun _ u hu => by
    have hi : i.value u = i.value s := by rw [Index.value_ticked hu]; cases i <;> rfl
    rw [hi]
    refine (cycleRead_spec hu fun hg => (h hg).2).bind fun _ v hv => .ok ⟨hv.1, ?_⟩
    rw [Index.value_ticked hv.1]
    cases i <;> rfl

theorem eaIzy_spec (z : Byte) (h : g → s.CanFetch 2 ∧ s.Readable (zpAddr z) ∧ s.Readable (zpAddr (z + 1)) ∧
      ∀ base, (s.Stored (zpAddr z) → s.Stored (zpAddr (z + 1)) → base = s.pointerAt z) →
        s.Readable (unfixedAddr base s.y)) :
    Res.Spec g (eaIzy z s) fun ea u => Ticked 5 { s with pc := s.pc + 2 } u ∧
      (s.Stored (zpAddr z) → s.Stored (zpAddr (z + 1)) → ea = indexedAddr (s.pointerAt z) s.y) :=
  (baseIzy_spec z fun hg => ⟨(h hg).1, (h hg).2.1, (h hg).2.2.1⟩).bind fun base u hu => by
    rw [hu.1.y]
    refine (cycleRead_spec hu.1 fun hg => (h hg).2.2.2 base hu.2).bind fun _ v hv => .ok ⟨hv.1, fun h0 h1 => ?_⟩
    rw [hv.1.y, hu.2 h0 h1]

/-! ### How a sequence ends -/

/-- An operation of class READ that answers gives the registers and flags `f v s`, whatever ticks came before. -/
theorem ReadOp.apply_ticked {op : ReadOp} {v : Byte} (hT : Ticked n s t) :
    (∀ r, op.apply v s = .ok () r → ∃ u, op.apply v t = .ok () u ∧ Ticked n r u) ∧
    (∀ u, op.apply v t = .ok () u → ∃ r, op.apply v s = .ok () r ∧ Ticked n r u) := by
  obtain ⟨b, o, y, hb, ho, rfl⟩ := hT
  cases op <;> simp only [ReadOp.apply, arithmetic] <;> (try split) <;> (try split) <;>
    constructor <;> intro r hr <;> cases hr <;> exact ⟨_, rfl, _, _, _, hb, ho, rfl⟩

/-- Class WRITE: the register is written at `ea`, which is RAM or a device. -/
theorem writeAt_spec (r : StoreReg) (hT : Ticked n s t) {ea : Word} (h : g → s.Writable ea) :
    Res.Spec g (writeAt r ea t) fun _ u => ∃ m w, Ticked (n + 1) { s with mem := m } w ∧ u = settle w ∧
      (s.InRam ea → m = Memory.write s.mem ea.toNat (r.value s)) ∧ (s.InRam ea ∨ (m = s.mem ∧ s.InDevice ea)) := by
  have hv : r.value t = r.value s := by cases r <;> simp [StoreReg.value, hT.a, hT.x, hT.y]
  unfold writeAt
  rw [hv]
  exact lastCycle_spec (write_spec hT h) fun _ u hu => by
    obtain ⟨m, hm, h1, h2⟩ := hu
    exact ⟨m, _, hm.count, rfl, h1, h2⟩

/-- The storage a READ_MODIFY_WRITE leaves at `ea`: the old value, then the new one; a device takes both writes. -/
def rmwMem (op : RmwOp) (ea : Word) (v : Byte) (s : State) (m : List Host.Cell) : Prop :=
  (s.InRam ea → m = Memory.write (Memory.write s.mem ea.toNat v) ea.toNat (op.apply v s.p).1) ∧
  (s.InRam ea ∨ (m = s.mem ∧ s.InDevice ea))

/-- Class READ_MODIFY_WRITE on memory (41_addressing_modes.md R184). -/
theorem rmwAt_spec (op : RmwOp) (hT : Ticked n s t) {ea : Word} (h : g → s.Writable ea) :
    Res.Spec g (rmwAt op ea t) fun _ u => ∃ v m w, (s.Stored ea → v = s.byteAt ea) ∧ rmwMem op ea v s m ∧
      Ticked (n + 3) { s with mem := m, p := (op.apply v s.p).2 } w ∧ u = settle w := by
  refine (cycleRead_spec hT fun hg => (h hg).elim (fun h => .inl (.inl h)) .inr).bind fun v u hu => ?_
  refine (cycle_spec (write_spec hu.1 h) (Q := fun _ w => ∃ m, Ticked (n + 2) { s with mem := m } w ∧
      (s.InRam ea → m = Memory.write s.mem ea.toNat v) ∧ (s.InRam ea ∨ (m = s.mem ∧ s.InDevice ea)))
    fun _ w hw => by obtain ⟨m, hm, h1, h2⟩ := hw; exact ⟨m, hm.count, h1, h2⟩).bind fun _ w hw => ?_
  obtain ⟨m, hm, h1, h2⟩ := hw
  refine lastCycle_spec (P := fun _ x => ∃ m', Ticked (n + 2) { s with mem := m', p := (op.apply v s.p).2 } x ∧
      rmwMem op ea v s m') ?_ fun _ x hx => ?_
  · unfold rmwWrite
    rw [hm.p]
    refine (write_spec hm h).bind fun _ x hx => .ok ?_
    obtain ⟨m', hm', h1', h2'⟩ := hx
    refine ⟨m', hm'.update (fun z => { z with p := (op.apply v z.p).2 }), fun hr => ?_, ?_⟩
    · rw [h1' hr, ← h1 hr]
    · rcases h2' with hr | ⟨he, hd⟩
      · exact .inl hr
      · rcases h2 with hr | ⟨he2, -⟩
        · exact .inl hr
        · exact .inr ⟨by rw [he]; exact he2, hd⟩
  · obtain ⟨m', hm', hr⟩ := hx
    exact ⟨v, m', _, hu.2, hr, hm'.count, rfl⟩

/-! ### The forms by mode -/

/-- The form of class READ in a mode; the modes the class has no sequence for are not reached. -/
def readForm (op : ReadOp) (mode : Mode) (opnd : Word) (s : State) : Res Unit :=
  match mode with
  | .imm => readImm op (loByte opnd) s
  | .zp => readZp op (loByte opnd) s
  | .zpx => readZpIdx op .x (loByte opnd) s
  | .zpy => readZpIdx op .y (loByte opnd) s
  | .abs => readAbs op opnd s
  | .abx => readAbsIdx op .x opnd s
  | .aby => readAbsIdx op .y opnd s
  | .izx => readIzx op (loByte opnd) s
  | .izy => readIzy op (loByte opnd) s
  | .imp | .acc | .rel | .ind => .fault .queueOverflow s

/-- The form of class WRITE in a mode. -/
def writeForm (r : StoreReg) (mode : Mode) (opnd : Word) (s : State) : Res Unit :=
  match storeEa mode opnd s with
  | some e => e.bind fun ea s => writeAt r ea s
  | none => .fault .queueOverflow s

/-- The form of class READ_MODIFY_WRITE in a mode. -/
def rmwForm (op : RmwOp) (mode : Mode) (opnd : Word) (s : State) : Res Unit :=
  match mode with
  | .acc => rmwAcc op s
  | _ => match storeEa mode opnd s with
    | some e => e.bind fun ea s => rmwAt op ea s
    | none => .fault .queueOverflow s

theorem exec_read {i : Instr} {op : ReadOp} (h : operationOf i.mnemonic = .read op) (s : State) :
    exec i s = (readForm op i.mode i.operand s).outcome := by
  cases i <;> first | cases h; done | (cases h; first | rfl | (simp [exec, readForm, Instr.mode, Instr.operand]; rfl))

theorem exec_write {i : Instr} {r : StoreReg} (h : operationOf i.mnemonic = .write r) (s : State) :
    exec i s = (writeForm r i.mode i.operand s).outcome := by
  cases i <;> first | cases h; done | (cases h; first | rfl | (simp [exec, writeForm, storeEa, Instr.mode, Instr.operand]; rfl))

theorem exec_rmw {i : Instr} {op : RmwOp} (h : operationOf i.mnemonic = .rmw op) (s : State) :
    exec i s = (rmwForm op i.mode i.operand s).outcome := by
  cases i <;> first | cases h; done | (cases h; first | rfl | (simp [exec, rmwForm, storeEa, Instr.mode, Instr.operand]; rfl))

/-! ### The forms over any map -/

theorem instrClass_of_read {mn : Mnemonic} {op : ReadOp} (h : operationOf mn = .read op) : mn.instrClass = .read := by
  cases mn <;> first | rfl | cases h

theorem instrClass_of_write {mn : Mnemonic} {r : StoreReg} (h : operationOf mn = .write r) : mn.instrClass = .write := by
  cases mn <;> first | rfl | cases h

theorem instrClass_of_rmw {mn : Mnemonic} {op : RmwOp} (h : operationOf mn = .rmw op) :
    mn.instrClass = .readModifyWrite := by
  cases mn <;> first | rfl | cases h

/-- The addresses touched can be read: every address can, or those touched are stored. -/
def State.Reaches (s : State) (i : Instr) : Prop := (∀ a, s.Readable a) ∨ s.TouchesStored i

theorem State.Reaches.readable {i : Instr} (h : s.Reaches i) {a : Word} (ha : a ∈ s.touched i) : s.Readable a :=
  h.elim (fun h => h a) fun h => .inl (h a ha)

theorem canFetch_of_mem {l : List Word} {k : Nat} (h : ∀ a ∈ s.fetchAddresses k ++ l, s.Readable a) : s.CanFetch k := by
  intro j hj
  refine h _ (List.mem_append_left _ ?_)
  simp only [State.fetchAddresses, List.mem_map, List.mem_range]
  exact ⟨j, hj, rfl⟩

theorem advanced_of_mode {i : Instr} {k : Nat} (h : instrSize i = k) :
    s.advanced i = { s with pc := s.pc + BitVec.ofNat 16 k } := by simp [State.advanced, State.nextPc, h]

theorem mode_of_read {i : Instr} {op : ReadOp} (h : operationOf i.mnemonic = .read op) :
    i.mode ≠ .imp ∧ i.mode ≠ .acc ∧ i.mode ≠ .rel ∧ i.mode ≠ .ind := by
  cases i <;> first | (cases h; done) | simp [Instr.mode]

/-- Ticks until the effective address of a store or a read-modify-write is known. -/
def eaTicks : Mode → Nat
  | .zp => 2 | .zpx => 3 | .zpy => 3 | .abs => 3 | .abx => 4 | .aby => 4 | .izx => 5 | .izy => 5
  | .imp | .acc | .imm | .rel | .ind => 0

/-- The effective address by mode, on any memory map; over stored memory it is that of 41_addressing_modes.md R197. -/
theorem storeEa_spec {mode : Mode} {opnd : Word} {e : Res Word} (he : storeEa mode opnd s = some e)
    (hf : g → s.CanFetch (1 + mode.operandBytes))
    (hd : g → (∀ a, s.Readable a) ∨ ∀ a ∈ s.dataAddresses mode opnd, s.Stored a) :
    Res.Spec g e fun ea u =>
      Ticked (eaTicks mode) { s with pc := s.pc + BitVec.ofNat 16 (1 + mode.operandBytes) } u ∧
        ((∀ a ∈ s.dataAddresses mode opnd, s.Stored a) → s.effectiveAddress mode opnd = some ea) := by
  have hr : g → ∀ a ∈ s.dataAddresses mode opnd, s.Readable a := fun hg a ha =>
    (hd hg).elim (fun h => h a) fun h => .inl (h a ha)
  cases mode <;> simp only [storeEa, Option.some.injEq, reduceCtorEq] at he <;> subst he <;>
    simp only [State.dataAddresses, List.mem_cons, List.not_mem_nil, or_false, forall_eq_or_imp, forall_eq] at hr hd ⊢
  case zp => exact (eaZp_spec _ hf).mono fun ea u hu => ⟨hu.1, fun _ => by rw [hu.2]; rfl⟩
  case zpx =>
    exact (eaZpIdx_spec .x _ fun hg => ⟨hf hg, (hr hg).1⟩).mono fun ea u hu => ⟨hu.1, fun _ => by rw [hu.2]; rfl⟩
  case zpy =>
    exact (eaZpIdx_spec .y _ fun hg => ⟨hf hg, (hr hg).1⟩).mono fun ea u hu => ⟨hu.1, fun _ => by rw [hu.2]; rfl⟩
  case abs => exact (eaAbs_spec _ hf).mono fun ea u hu => ⟨hu.1, fun _ => by rw [hu.2]; rfl⟩
  case abx =>
    exact (eaAbsIdx_spec .x _ fun hg => ⟨hf hg, (hr hg).1⟩).mono fun ea u hu => ⟨hu.1, fun _ => by rw [hu.2]; rfl⟩
  case aby =>
    exact (eaAbsIdx_spec .y _ fun hg => ⟨hf hg, (hr hg).1⟩).mono fun ea u hu => ⟨hu.1, fun _ => by rw [hu.2]; rfl⟩
  case izx =>
    exact (eaIzx_spec _ fun hg => ⟨hf hg, (hr hg).1, (hr hg).2.1, (hr hg).2.2.1⟩).mono fun ea u hu =>
      ⟨hu.1, fun h => by rw [hu.2 h.2.1 h.2.2.1]; rfl⟩
  case izy =>
    refine (eaIzy_spec _ fun hg => ⟨hf hg, (hr hg).1, (hr hg).2.1, fun base hb => ?_⟩).mono fun ea u hu =>
      ⟨hu.1, fun h => by rw [hu.2 h.1 h.2.1]; rfl⟩
    rcases hd hg with h | h
    · exact h _
    · rw [hb h.1 h.2.1]; exact .inl h.2.2.1

/-- The byte at an indexed address, after the extra read when the page is crossed (41_addressing_modes.md R187). -/
def readValIndexed (base : Word) (idx : Byte) (s : State) : Res Byte :=
  if pageCrossed base idx then
    (cycle (busRead (unfixedAddr base idx) s)).bind fun _ s => busRead (indexedAddr base idx) s
  else busRead (unfixedAddr base idx) s

/-- The byte a class READ instruction hands to its operation, with the ticks up to the last bus read. -/
def readVal (mode : Mode) (opnd : Word) (s : State) : Res Byte :=
  match mode with
  | .imm => (fetchCycles 1 s).bind fun _ s => (fetchByte s).bind fun _ s => .ok (loByte opnd) s
  | .zp => (eaZp (loByte opnd) s).bind fun ea s => busRead ea s
  | .zpx => (eaZpIdx .x (loByte opnd) s).bind fun ea s => busRead ea s
  | .zpy => (eaZpIdx .y (loByte opnd) s).bind fun ea s => busRead ea s
  | .abs => (eaAbs opnd s).bind fun ea s => busRead ea s
  | .abx => (fetchCycles 3 s).bind fun _ s => readValIndexed opnd s.x s
  | .aby => (fetchCycles 3 s).bind fun _ s => readValIndexed opnd s.y s
  | .izx => (eaIzx (loByte opnd) s).bind fun ea s => busRead ea s
  | .izy => (baseIzy (loByte opnd) s).bind fun base s => readValIndexed base s.y s
  | .imp | .acc | .rel | .ind => .fault .queueOverflow s

/-- A class READ instruction is its byte, then its operation in the last tick. -/
theorem readForm_eq (op : ReadOp) (mode : Mode) (opnd : Word) (s : State) :
    readForm op mode opnd s = (readVal mode opnd s).bind fun v s => lastCycle (op.apply v s) := by
  have hI : ∀ base idx s, readIndexed op base idx s =
      (readValIndexed base idx s).bind fun v s => lastCycle (op.apply v s) := by
    intro base idx s
    unfold readIndexed readValIndexed
    split <;> simp [readAt, readInto, lastCycle_bind, Res.bind_assoc]
  cases mode <;> simp [readForm, readVal, readImm, readZp, readZpIdx, readAbs, readAbsIdx, readIzx, readIzy, readAt, readInto,
    lastCycle_bind, Res.bind_assoc, Index.value, hI]

/-- What is known of the byte: it is the operand byte over stored memory, and nothing but PC has changed. -/
def ReadValPost (i : Instr) (s : State) (v : Byte) (u : State) : Prop :=
  ∃ k, Ticked k (s.advanced i) u ∧ k ≤ 5 ∧ (s.TouchesStored i → v = s.operandByte i ∧ k + 1 = s.cycleCount i)

theorem readEa_post {i : Instr} {k : Nat} {ea : Word} (hT : Ticked k (s.advanced i) t) (h5 : k ≤ 5)
    (hea : s.TouchesStored i → s.effectiveAddress i.mode i.operand = some ea ∧ s.Stored ea)
    (hk : k + 1 = s.cycleCount i) (hr : g → s.Readable ea) :
    Res.Spec g (busRead ea t) fun v u => ReadValPost i s v u :=
  (read_spec hT hr).mono fun v u hu => ⟨k, hu.1, h5, fun hs => ⟨by
    rw [State.operandByte, (hea hs).1]; exact hu.2 (hea hs).2, hk⟩⟩

theorem readIndexed_post {i : Instr} {k : Nat} {base : Word} {idx : Byte} (hT : Ticked k (s.advanced i) t) (h4 : k ≤ 4)
    (hea : s.TouchesStored i → s.effectiveAddress i.mode i.operand = some (indexedAddr base idx) ∧
      s.Stored (indexedAddr base idx) ∧ k + 1 + (pageCrossed base idx).toNat = s.cycleCount i)
    (hr : g → s.Readable (unfixedAddr base idx) ∧ s.Readable (indexedAddr base idx)) :
    Res.Spec g (readValIndexed base idx t) fun v u => ReadValPost i s v u := by
  have hv : s.TouchesStored i → s.operandByte i = s.byteAt (indexedAddr base idx) := fun h => by
    simp [State.operandByte, (hea h).1]
  unfold readValIndexed
  cases hc : pageCrossed base idx with
  | true =>
    refine (cycleRead_spec hT fun hg => (hr hg).1).bind fun _ u hu => ?_
    refine (read_spec hu.1 fun hg => (hr hg).2).mono fun v w hw => ⟨k + 1, hw.1, by omega, fun hs => ⟨?_, ?_⟩⟩
    · rw [hv hs]; exact hw.2 (hea hs).2.1
    · have := (hea hs).2.2; simp [hc] at this; omega
  | false =>
    rw [unfixed_eq_indexed hc]
    refine (read_spec hT fun hg => (hr hg).2).mono fun v w hw => ⟨k, hw.1, by omega, fun hs => ⟨?_, ?_⟩⟩
    · rw [hv hs]; exact hw.2 (hea hs).2.1
    · have := (hea hs).2.2; simp [hc] at this; omega

/-- Class READ at an effective address that needs no page fix. -/
theorem readVal_eq_storeEa {mode : Mode} {opnd : Word}
    (h : mode = .zp ∨ mode = .zpx ∨ mode = .zpy ∨ mode = .abs ∨ mode = .izx) :
    ∃ e, storeEa mode opnd s = some e ∧ readVal mode opnd s = e.bind fun ea s => busRead ea s := by
  rcases h with rfl | rfl | rfl | rfl | rfl <;> exact ⟨_, rfl, rfl⟩

/-- Class READ, every mode, on any memory map. -/
theorem readVal_spec {i : Instr} {op : ReadOp} (hop : operationOf i.mnemonic = .read op) (hr : g → s.Reaches i) :
    Res.Spec g (readVal i.mode i.operand s) fun v u => ReadValPost i s v u := by
  have hcl := instrClass_of_read hop
  have hto : s.touched i = s.fetchAddresses (instrSize i) ++ s.dataAddresses i.mode i.operand := by
    simp [State.touched, hcl]
  have hcc : s.cycleCount i = readTicks i.mode + (s.readCrosses i.mode i.operand).toNat := by
    simp [State.cycleCount, hcl]
  have hfetch : g → s.CanFetch (1 + i.mode.operandBytes) := fun hg => by
    refine canFetch_of_mem (l := s.dataAddresses i.mode i.operand) fun a h => (hr hg).readable ?_
    rw [hto]; exact h
  have hst : s.TouchesStored i → ∀ a ∈ s.dataAddresses i.mode i.operand, s.Stored a := fun h a hm =>
    h a (by rw [hto]; exact List.mem_append_right _ hm)
  have hd : g → (∀ a, s.Readable a) ∨ ∀ a ∈ s.dataAddresses i.mode i.operand, s.Stored a := fun hg =>
    (hr hg).imp id hst
  have hmem : ∀ a, s.effectiveAddress i.mode i.operand = some a → a ∈ s.dataAddresses i.mode i.operand := by
    intro a h
    cases hm : i.mode <;> simp_all [State.effectiveAddress, State.dataAddresses]
  obtain ⟨n1, n2, n3, n4⟩ := mode_of_read hop
  by_cases hsimple : i.mode = .zp ∨ i.mode = .zpx ∨ i.mode = .zpy ∨ i.mode = .abs ∨ i.mode = .izx
  · obtain ⟨e, he, hform⟩ := readVal_eq_storeEa (s := s) (opnd := i.operand) hsimple
    rw [hform]
    refine (storeEa_spec he hfetch hd).bind fun ea u hu => readEa_post hu.1 ?_ (fun h => ?_) ?_ (fun hg => ?_)
    · rcases hsimple with h | h | h | h | h <;> simp [h, eaTicks]
    · exact ⟨hu.2 (hst h), hst h _ (hmem _ (hu.2 (hst h)))⟩
    · rw [hcc]
      rcases hsimple with h | h | h | h | h <;> simp [h, eaTicks, readTicks, State.readCrosses]
    · rcases hd hg with h | h
      · exact h _
      · exact .inl (h _ (hmem _ (hu.2 h)))
  · cases hm : i.mode <;> simp only [hm, reduceCtorEq, or_self, not_true, or_true, true_or, ne_eq] at hsimple n1 n2 n3 n4 <;>
      simp only [hm, State.dataAddresses, List.mem_cons, List.not_mem_nil, or_false, forall_eq_or_imp, forall_eq,
        Mode.operandBytes, readTicks, State.readCrosses, Bool.toNat_false, Nat.add_zero] at hfetch hd hst hcc
    case imm =>
      refine (fetchCycles_spec 1 (Ticked.refl s) fun k hk hg => hfetch hg k (by omega)).bind fun _ u hu => ?_
      have hadv : { s with pc := s.pc + 1 + 1 } = s.advanced i := by
        simp [advanced_of_mode (show instrSize i = 2 by simp [instrSize, hm, Mode.operandBytes]), BitVec.add_assoc]
      have hv : s.operandByte i = loByte i.operand := by simp [State.operandByte, hm, State.effectiveAddress]
      have h1 : g → s.Readable (s.pc + 1) := fun hg => by simpa using hfetch hg 1 (by omega)
      refine (fetchByte_spec hu h1).bind fun _ u hu => .ok ?_
      have hu : Ticked 1 (s.advanced i) u := hadv ▸ hu.1
      exact ⟨1, hu, by omega, fun _ => ⟨hv.symm, hcc.symm⟩⟩
    case abx =>
      have hadv : { s with pc := s.pc + 3#16 } = s.advanced i :=
        (advanced_of_mode (show instrSize i = 3 by simp [instrSize, hm, Mode.operandBytes])).symm
      refine (fetchCycles_spec 3 (Ticked.refl s) fun k hk hg => hfetch hg k (by omega)).bind fun _ u hu => ?_
      have hu : Ticked 3 (s.advanced i) u := by rw [← hadv]; simpa using hu
      rw [show u.x = s.x from hu.x]
      refine readIndexed_post hu (by omega) (fun h => ⟨by simp [hm, State.effectiveAddress], (hst h).2, by omega⟩) (fun hg => ?_)
      exact (hd hg).elim (fun h => ⟨h _, h _⟩) fun h => ⟨.inl h.1, .inl h.2⟩
    case aby =>
      have hadv : { s with pc := s.pc + 3#16 } = s.advanced i :=
        (advanced_of_mode (show instrSize i = 3 by simp [instrSize, hm, Mode.operandBytes])).symm
      refine (fetchCycles_spec 3 (Ticked.refl s) fun k hk hg => hfetch hg k (by omega)).bind fun _ u hu => ?_
      have hu : Ticked 3 (s.advanced i) u := by rw [← hadv]; simpa using hu
      rw [show u.y = s.y from hu.y]
      refine readIndexed_post hu (by omega) (fun h => ⟨by simp [hm, State.effectiveAddress], (hst h).2, by omega⟩) (fun hg => ?_)
      exact (hd hg).elim (fun h => ⟨h _, h _⟩) fun h => ⟨.inl h.1, .inl h.2⟩
    case izy =>
      have hadv : { s with pc := s.pc + 2 } = s.advanced i :=
        (advanced_of_mode (show instrSize i = 2 by simp [instrSize, hm, Mode.operandBytes])).symm
      refine (baseIzy_spec (loByte i.operand) fun hg => ⟨hfetch hg, ?_⟩).bind fun base u hu => ?_
      · exact (hd hg).elim (fun h => ⟨h _, h _⟩) fun h => ⟨.inl h.1, .inl h.2.1⟩
      have hT : Ticked 4 (s.advanced i) u := by rw [← hadv]; exact hu.1
      have hb : s.TouchesStored i → base = s.pointerAt (loByte i.operand) := fun h => hu.2 (hst h).1 (hst h).2.1
      rw [show u.y = s.y from hT.y]
      refine readIndexed_post hT (by omega) (fun h => ⟨by simp [hm, State.effectiveAddress, hb h], ?_, ?_⟩) (fun hg => ?_)
      · rw [hb h]; exact (hst h).2.2.2
      · rw [hb h, hcc]
      · rcases hd hg with h | h
        · exact ⟨h _, h _⟩
        · rw [show base = s.pointerAt (loByte i.operand) from hu.2 h.1 h.2.1]
          exact ⟨.inl h.2.2.1, .inl h.2.2.2⟩

/-- What an instruction of class READ leaves: `op` applied to some byte, the operand byte over stored memory. -/
def ReadPost (i : Instr) (op : ReadOp) (s u : State) : Prop :=
  ∃ v r k w, 0 < k ∧ k ≤ 6 ∧ (s.TouchesStored i → v = s.operandByte i ∧ k = s.cycleCount i) ∧
    op.apply v (s.advanced i) = .ok () r ∧ Ticked k r w ∧ u = settle w

/-- Class READ, every mode, on any memory map. -/
theorem read_form_spec {i : Instr} {op : ReadOp} (hop : operationOf i.mnemonic = .read op) (hr : g → s.Reaches i)
    (ha : g → ∀ v, (s.TouchesStored i → v = s.operandByte i) → ∃ r, op.apply v (s.advanced i) = .ok () r) :
    Res.Spec g (readForm op i.mode i.operand s) fun _ u => ReadPost i op s u := by
  rw [readForm_eq]
  refine (readVal_spec hop hr).bind fun v t ht => ?_
  obtain ⟨k, hT, h5, hv⟩ := ht
  refine lastCycle_spec (P := fun _ u => ∃ r, op.apply v (s.advanced i) = .ok () r ∧ Ticked k r u)
    ⟨fun _ w hw => (ReadOp.apply_ticked hT).2 w hw, fun hg => ?_⟩ fun _ u hu => ?_
  · obtain ⟨r, hr⟩ := ha hg v fun hs => (hv hs).1
    obtain ⟨w, hw, -⟩ := (ReadOp.apply_ticked hT).1 r hr
    exact ⟨(), w, hw⟩
  · obtain ⟨r, h1, h2⟩ := hu
    exact ⟨v, r, k + 1, _, by omega, by omega, fun hs => ⟨(hv hs).1, (hv hs).2⟩, h1, h2.count, rfl⟩

end Sys2Proof.Machine
end

