-- ==== Sys2Proof/Laws/Forms.lean ====
section
/-! SUPPORT. What the forms of the remaining classes can do, on any memory map: WRITE, READ_MODIFY_WRITE, IMPLIED and
BRANCH by one lemma each, and the stack instructions' shared parts. -/

namespace Sys2Proof.Machine

variable {g : Prop} {n : Nat} {s t : State}

/-! ### Class WRITE -/

/-- What a write of `v` to `a` leaves in storage: RAM takes it, a device keeps storage as it is. -/
def Wrote (s : State) (a : Word) (v : Byte) (m : List Host.Cell) : Prop :=
  (s.InRam a → m = Memory.write s.mem a.toNat v) ∧ (s.InRam a ∨ (m = s.mem ∧ s.InDevice a))

/-- What an instruction of class WRITE leaves. -/
def WritePost (i : Instr) (r : StoreReg) (s u : State) : Prop :=
  ∃ ea m w, (∃ e x, storeEa i.mode i.operand s = some e ∧ e = .ok ea x) ∧
    (s.TouchesStored i → s.effectiveAddress i.mode i.operand = some ea) ∧ Wrote s ea (r.value s) m ∧
    Ticked (writeTicks i.mode) { s.advanced i with mem := m } w ∧ u = settle w

theorem mode_of_write {i : Instr} {r : StoreReg} (h : operationOf i.mnemonic = .write r) :
    (storeEa i.mode i.operand s).isSome ∧ writeTicks i.mode = eaTicks i.mode + 1 := by
  cases i <;> first | (cases h; done) | simp [Instr.mode, storeEa, writeTicks, eaTicks]

/-- Keeping what was answered. -/
theorem Res.Spec.remember {α : Type} {r : Res α} {P : α → State → Prop} (h : Res.Spec g r P) :
    Res.Spec g r fun v t => r = .ok v t ∧ P v t := ⟨fun v t e => ⟨e, h.1 v t e⟩, h.2⟩

/-- Class WRITE, every mode. -/
theorem write_form_spec {i : Instr} {r : StoreReg} (hop : operationOf i.mnemonic = .write r)
    (hg : g → (∀ a, s.Readable a ∧ s.Writable a) ∨
      (s.TouchesStored i ∧ ∃ ea, s.effectiveAddress i.mode i.operand = some ea ∧ s.InRam ea)) :
    Res.Spec g (writeForm r i.mode i.operand s) fun _ u => WritePost i r s u := by
  have hcl := instrClass_of_write hop
  have hto : s.touched i = s.fetchAddresses (instrSize i) ++ s.dataAddresses i.mode i.operand := by
    simp [State.touched, hcl]
  have hr : g → s.Reaches i := fun h => (hg h).imp (fun h a => (h a).1) fun h => h.1
  have hfetch : g → s.CanFetch (1 + i.mode.operandBytes) := fun hg => by
    refine canFetch_of_mem (l := s.dataAddresses i.mode i.operand) fun a h => (hr hg).readable ?_
    rw [hto]; exact h
  have hst : s.TouchesStored i → ∀ a ∈ s.dataAddresses i.mode i.operand, s.Stored a := fun h a hm =>
    h a (by rw [hto]; exact List.mem_append_right _ hm)
  obtain ⟨hsome, htick⟩ := mode_of_write (s := s) hop
  obtain ⟨e, he⟩ := Option.isSome_iff_exists.mp hsome
  unfold writeForm
  rw [he]
  refine (storeEa_spec he hfetch fun h => (hr h).imp id hst).remember.bind fun ea u hu => ?_
  obtain ⟨h0, hT, hea⟩ := hu
  have hT : Ticked (eaTicks i.mode) (s.advanced i) u := by
    rw [advanced_of_mode rfl]; exact hT
  refine (writeAt_spec r hT fun h => ?_).mono fun _ w hw => ?_
  · rcases hg h with h | ⟨hs, ea', h1, h2⟩
    · exact (h ea).2
    · rw [hea (hst hs), Option.some.injEq] at h1
      subst h1
      exact .inl h2
  · obtain ⟨m, x, h1, h2, h3, h4⟩ := hw
    have hv : r.value (s.advanced i) = r.value s := by cases r <;> rfl
    exact ⟨ea, m, x, ⟨e, u, he, h0⟩, fun hs => hea (hst hs), ⟨by rw [← hv]; exact h3, h4⟩, by rw [htick]; exact h1, h2⟩

/-! ### Class READ_MODIFY_WRITE -/

/-- What an instruction of class READ_MODIFY_WRITE leaves in memory (41_addressing_modes.md R184). -/
def RmwPost (i : Instr) (op : RmwOp) (s u : State) : Prop :=
  ∃ ea v m w, (∃ e x, storeEa i.mode i.operand s = some e ∧ e = .ok ea x) ∧
    (s.TouchesStored i → s.effectiveAddress i.mode i.operand = some ea ∧ v = s.byteAt ea) ∧ rmwMem op ea v s m ∧
    Ticked (rmwTicks i.mode) { s.advanced i with mem := m, p := (op.apply v s.p).2 } w ∧ u = settle w

theorem mode_of_rmw {i : Instr} {op : RmwOp} (h : operationOf i.mnemonic = .rmw op) (hm : i.mode ≠ .acc) :
    (storeEa i.mode i.operand s).isSome ∧ rmwTicks i.mode = eaTicks i.mode + 3 ∧
      rmwForm op i.mode i.operand s = (match storeEa i.mode i.operand s with
        | some e => e.bind fun ea s => rmwAt op ea s
        | none => .fault .queueOverflow s) := by
  cases i <;> first | (cases h; done) | (simp [Instr.mode] at hm; done) |
    exact ⟨rfl, rfl, rfl⟩

theorem rmw_form_spec {i : Instr} {op : RmwOp} (hop : operationOf i.mnemonic = .rmw op) (hmode : i.mode ≠ .acc)
    (hg : g → (∀ a, s.Readable a ∧ s.Writable a) ∨
      (s.TouchesStored i ∧ ∃ ea, s.effectiveAddress i.mode i.operand = some ea ∧ s.InRam ea)) :
    Res.Spec g (rmwForm op i.mode i.operand s) fun _ u => RmwPost i op s u := by
  have hcl := instrClass_of_rmw hop
  have hto : s.touched i = s.fetchAddresses (instrSize i) ++ s.dataAddresses i.mode i.operand := by
    simp [State.touched, hcl, hmode]
  have hr : g → s.Reaches i := fun h => (hg h).imp (fun h a => (h a).1) fun h => h.1
  have hfetch : g → s.CanFetch (1 + i.mode.operandBytes) := fun hg => by
    refine canFetch_of_mem (l := s.dataAddresses i.mode i.operand) fun a h => (hr hg).readable ?_
    rw [hto]; exact h
  have hst : s.TouchesStored i → ∀ a ∈ s.dataAddresses i.mode i.operand, s.Stored a := fun h a hm =>
    h a (by rw [hto]; exact List.mem_append_right _ hm)
  obtain ⟨hsome, htick, hform⟩ := mode_of_rmw (s := s) hop hmode
  obtain ⟨e, he⟩ := Option.isSome_iff_exists.mp hsome
  rw [hform, he]
  have hmem : ∀ a, s.effectiveAddress i.mode i.operand = some a → a ∈ s.dataAddresses i.mode i.operand := by
    intro a h
    cases hm : i.mode <;> simp_all [State.effectiveAddress, State.dataAddresses]
  refine (storeEa_spec he hfetch fun h => (hr h).imp id hst).remember.bind fun ea u hu => ?_
  obtain ⟨h0, hT, hea⟩ := hu
  have hT : Ticked (eaTicks i.mode) (s.advanced i) u := by
    rw [advanced_of_mode rfl]; exact hT
  refine (rmwAt_spec op hT fun h => ?_).mono fun _ w hw => ?_
  · rcases hg h with h | ⟨hs, ea', h1, h2⟩
    · exact (h ea).2
    · rw [hea (hst hs), Option.some.injEq] at h1
      subst h1
      exact .inl h2
  · obtain ⟨v, m, x, h1, h2, h3, h4⟩ := hw
    exact ⟨ea, v, m, x, ⟨e, u, he, h0⟩, fun hs => ⟨hea (hst hs), h1 (hst hs _ (hmem _ (hea (hst hs))))⟩, h2,
      by rw [htick]; exact h3, h4⟩

/-- Mode ACC (41_addressing_modes.md R182). -/
theorem rmwAcc_spec (op : RmwOp) (h : g → s.CanFetch 2) :
    Res.Spec g (rmwAcc op s) fun _ u => ∃ w, Ticked 2 ({ s with pc := s.pc + 1 }.setAFlags (op.apply s.a s.p)) w ∧
      u = settle w := by
  refine (fetchCycles_spec 1 (Ticked.refl s) fun k hk hg => h hg k (by omega)).bind fun _ u hu => ?_
  refine lastCycle_spec (P := fun _ u => Ticked 1 ({ s with pc := s.pc + 1 }.setAFlags (op.apply s.a s.p)) u) ?_
    fun _ u hu => ⟨_, hu.count, rfl⟩
  rw [hu.pc]
  refine (read_spec hu fun hg => h hg 1 (by omega)).bind fun _ w hw => .ok ?_
  exact hw.1.update (fun x => x.setAFlags (op.apply x.a x.p))

/-! ### Class IMPLIED -/

theorem ImpliedOp.apply_ticked {op : ImpliedOp} (hT : Ticked n s t) : Ticked n (op.apply s) (op.apply t) := by
  obtain ⟨b, o, y, hb, ho, rfl⟩ := hT
  cases op <;> exact ⟨_, _, _, hb, ho, rfl⟩

/-- Class IMPLIED but for HLT (41_addressing_modes.md R181). -/
theorem implied_spec (op : ImpliedOp) (h : g → s.CanFetch 2) :
    Res.Spec g (implied op s) fun _ u => ∃ w, Ticked 2 (op.apply { s with pc := s.pc + 1 }) w ∧ u = settle w := by
  refine (fetchCycles_spec 1 (Ticked.refl s) fun k hk hg => h hg k (by omega)).bind fun _ u hu => ?_
  refine lastCycle_spec (P := fun _ u => Ticked 1 (op.apply { s with pc := s.pc + 1 }) u) ?_
    fun _ u hu => ⟨_, hu.count, rfl⟩
  rw [hu.pc]
  refine (read_spec hu fun hg => h hg 1 (by omega)).bind fun _ w hw => .ok (ImpliedOp.apply_ticked hw.1)

theorem exec_implied {i : Instr} {op : ImpliedOp} (h : operationOf i.mnemonic = .implied op) (s : State) :
    exec i s = (implied op s).outcome := by
  cases i <;> first | (cases h; done) | (cases h; rfl)

/-! ### Class BRANCH -/

theorem exec_branch {i : Instr} {c : Cond} (h : operationOf i.mnemonic = .branch c) (s : State) :
    exec i s = (branchRel c (loByte i.operand) s).outcome := by
  cases i <;> first | (cases h; done) | (cases h; simp [exec, Instr.operand]; rfl)

/-- A branch (41_addressing_modes.md R190). -/
theorem branchRel_spec (c : Cond) (d : Byte) (h : g → s.CanFetch 2)
    (hb : g → ∀ a ∈ s.branchAddresses (c.holds s.p) d, s.Readable a) :
    Res.Spec g (branchRel c d s) fun _ u => ∃ w, Ticked (branchTicks (c.holds s.p) s.pc d)
      { s with pc := if c.holds s.p then branchTarget (s.pc + 2) d else s.pc + 2 } w ∧ u = settle w := by
  refine (fetchCycles_spec 1 (Ticked.refl s) fun k hk hg => h hg k (by omega)).bind fun _ u hu => ?_
  have h1 : g → s.Readable (s.pc + 1) := fun hg => by simpa using h hg 1 (by omega)
  have e2 : s.pc + 1#16 + 1 = s.pc + 2 := by rw [BitVec.add_assoc]; rfl
  rw [hu.p]
  simp only [State.branchAddresses] at hb
  dsimp only
  cases hc : c.holds s.p with
  | false =>
    rw [if_neg (by simp)]
    refine lastCycle_spec (fetchByte_spec hu h1) fun _ w hw => ⟨_, ?_, rfl⟩
    have := hw.1.count
    simpa [branchTicks, e2, BitVec.add_assoc] using this
  | true =>
    rw [if_pos rfl]
    simp only [hc, if_true] at hb
    refine (cycle_spec (fetchByte_spec hu h1) (Q := fun _ w => Ticked 2 { s with pc := s.pc + 2 } w) fun _ w hw => by
      have := hw.1.count
      simpa [BitVec.add_assoc] using this).bind fun _ w hw => ?_
    rw [hw.pc]
    dsimp only
    by_cases hx : hiByte (branchTarget (s.pc + 2) d) = hiByte (s.pc + 2)
    · rw [if_pos hx]
      simp only [hx, if_true, List.mem_singleton, forall_eq] at hb
      refine lastCycle_spec (P := fun _ w => Ticked 2 { s with pc := branchTarget (s.pc + 2) d } w)
        ((read_spec hw hb).bind fun _ v hv => .ok (hv.1.update (fun x => { x with pc := branchTarget (s.pc + 2) d })))
        fun _ v hv => ⟨_, by simpa only [branchTicks, hx, if_true] using hv.count, rfl⟩
    · rw [if_neg hx]
      simp only [hx, if_false, List.mem_cons, List.not_mem_nil, or_false, forall_eq_or_imp, forall_eq] at hb
      refine (cycleRead_spec hw fun hg => (hb hg).1).bind fun _ v hv => ?_
      rw [hv.1.pc]
      refine lastCycle_spec (P := fun _ w => Ticked 3 { s with pc := branchTarget (s.pc + 2) d } w)
        ((read_spec hv.1 fun hg => (hb hg).2).bind fun _ v hv =>
          .ok (hv.1.update (fun x => { x with pc := branchTarget (s.pc + 2) d })))
        fun _ v hv => ⟨_, by simpa only [branchTicks, hx, if_true, if_false] using hv.count, rfl⟩

end Sys2Proof.Machine
end

