-- ==== Sys2Proof/Laws/Stack.lean ====
section
/-! SUPPORT. What the jumps, the stack instructions, taking an exception and returning from one can do, on any memory
map. -/

namespace Sys2Proof.Machine

variable {g : Prop} {n : Nat} {s t : State}

/-! ### Shared parts -/

theorem stackHead_spec (h : g → s.CanFetch 2) :
    Res.Spec g (stackHead s) fun _ u => Ticked 2 { s with pc := s.pc + 1 } u := by
  refine (fetchCycles_spec 1 (Ticked.refl s) fun k hk hg => h hg k (by omega)).bind fun _ u hu => ?_
  rw [hu.pc]
  exact (cycleRead_spec hu fun hg => h hg 1 (by omega)).bind fun _ v hv => .ok hv.1

/-- One push in one tick, not the last. -/
theorem cyclePush_spec (hT : Ticked n s t) {v : Byte} (h : g → s.Writable (stackAddr s.sp) ∧ s.CanPush) :
    Res.Spec g (cycle (push v t)) fun _ u => s.CanPush ∧ ∃ m, Wrote s (stackAddr s.sp) v m ∧
      Ticked (n + 1) { s with mem := m, sp := s.sp - 1 } u :=
  cycle_spec (push_spec hT h) fun _ _ hu => by
    obtain ⟨h0, m, h1, h2, h3⟩ := hu
    exact ⟨h0, m, ⟨h2, h3⟩, h1.count⟩

/-- One push in the last tick. -/
theorem lastPush_spec (hT : Ticked n s t) {v : Byte} (h : g → s.Writable (stackAddr s.sp) ∧ s.CanPush) :
    Res.Spec g (lastCycle (push v t)) fun _ u => s.CanPush ∧ ∃ m w, Wrote s (stackAddr s.sp) v m ∧
      Ticked (n + 1) { s with mem := m, sp := s.sp - 1 } w ∧ u = settle w :=
  lastCycle_spec (push_spec hT h) fun _ _ hu => by
    obtain ⟨h0, m, h1, h2, h3⟩ := hu
    exact ⟨h0, m, _, ⟨h2, h3⟩, h1.count, rfl⟩

/-- A read of the stack with an increment, in one tick. -/
theorem cyclePull_spec (hT : Ticked n s t) (h : g → s.Readable (stackAddr s.sp) ∧ s.CanPull) :
    Res.Spec g (cycle (stackReadInc t)) fun v u => s.CanPull ∧ Ticked (n + 1) { s with sp := s.sp + 1 } u ∧
      (s.Stored (stackAddr s.sp) → v = s.byteAt (stackAddr s.sp)) :=
  cycle_spec (stackReadInc_spec hT h) fun _ _ hu => ⟨hu.1, hu.2.1.count, hu.2.2⟩

/-- The last tick of a pull: a read of the stack, then an update `f` of the state by the byte read. -/
theorem lastPull_spec (hT : Ticked n s t) (f : Byte → State → State)
    (hf : ∀ v u c r b o y, f v { u with cycles := c, haltRequested := r, bankSel := b, sources := o, bus := y } =
      { f v u with cycles := c, haltRequested := r, bankSel := b, sources := o, bus := y })
    (h0 : ∀ v u, (f v u).cycles = u.cycles ∧ (f v u).haltRequested = u.haltRequested ∧
      (f v u).params.maxCycles = u.params.maxCycles ∧ (f v u).bankSel = u.bankSel ∧ (f v u).sources = u.sources)
    (h : g → s.Readable (stackAddr s.sp)) :
    Res.Spec g (lastCycle ((stackRead t).bind fun v s => .ok () (f v s))) fun _ u => ∃ v w,
      (s.Stored (stackAddr s.sp) → v = s.byteAt (stackAddr s.sp)) ∧ Ticked (n + 1) (f v s) w ∧ u = settle w :=
  lastCycle_spec (P := fun _ u => ∃ v, (s.Stored (stackAddr s.sp) → v = s.byteAt (stackAddr s.sp)) ∧ Ticked n (f v s) u)
    ((stackRead_spec hT h).bind fun v _ hu => .ok ⟨v, hu.2, hu.1.update (f v) (hf v) (h0 v)⟩)
    fun _ _ hu => by obtain ⟨v, h1, h2⟩ := hu; exact ⟨v, _, h1, h2.count, rfl⟩

/-! ### Pushes and pulls -/

/-- PHA and PHP: the byte `f` of the state is pushed (46_stack_flags_system.md R350, R352). -/
theorem pushInstr_spec (f : State → Byte) (hf : ∀ {n : Nat} {s t : State}, Ticked n s t → f t = f s)
    (hpc : ∀ (s : State) pc, f { s with pc := pc } = f s)
    (h : g → s.CanFetch 2 ∧ s.Writable (stackAddr s.sp) ∧ s.CanPush) :
    Res.Spec g ((stackHead s).bind fun _ s => lastCycle (push (f s) s)) fun _ u => s.CanPush ∧ ∃ m w,
      Wrote s (stackAddr s.sp) (f s) m ∧ Ticked 3 { s with pc := s.pc + 1, mem := m, sp := s.sp - 1 } w ∧ u = settle w := by
  refine (stackHead_spec fun hg => (h hg).1).bind fun _ u hu => ?_
  rw [hf hu, hpc]
  exact lastPush_spec hu fun hg => (h hg).2

/-- PLA and PLP: the byte pulled updates the state by `f` (46_stack_flags_system.md R351, R353). -/
theorem pullInstr_spec (f : Byte → State → State)
    (hf : ∀ v u c r b o y, f v { u with cycles := c, haltRequested := r, bankSel := b, sources := o, bus := y } =
      { f v u with cycles := c, haltRequested := r, bankSel := b, sources := o, bus := y })
    (h0 : ∀ v u, (f v u).cycles = u.cycles ∧ (f v u).haltRequested = u.haltRequested ∧
      (f v u).params.maxCycles = u.params.maxCycles ∧ (f v u).bankSel = u.bankSel ∧ (f v u).sources = u.sources)
    (h : g → s.CanFetch 2 ∧ s.Readable (stackAddr s.sp) ∧ s.Readable (stackAddr (s.sp + 1)) ∧ s.CanPull) :
    Res.Spec g ((stackHead s).bind fun _ s => (cycle (stackReadInc s)).bind fun _ s =>
        lastCycle ((stackRead s).bind fun v s => .ok () (f v s))) fun _ u => s.CanPull ∧ ∃ v w,
      (s.Stored (stackAddr (s.sp + 1)) → v = s.byteAt (stackAddr (s.sp + 1))) ∧
      Ticked 4 (f v { s with pc := s.pc + 1, sp := s.sp + 1 }) w ∧ u = settle w := by
  refine (stackHead_spec fun hg => (h hg).1).bind fun _ u hu => ?_
  refine (cyclePull_spec hu fun hg => ⟨(h hg).2.1, (h hg).2.2.2⟩).bind fun _ v hv => ?_
  exact (lastPull_spec hv.2.1 f hf h0 fun hg => (h hg).2.2.1).mono fun _ w hw => ⟨hv.1, hw⟩

/-! ### Jumps -/

theorem jmpAbs_spec (w : Word) (h : g → s.CanFetch 3) :
    Res.Spec g ((fetchCycles 2 s).bind fun _ s =>
        lastCycle ((busRead s.pc s).bind fun _ s => .ok () { s with pc := w })) fun _ u =>
      ∃ v, Ticked 3 { s with pc := w } v ∧ u = settle v := by
  refine (fetchCycles_spec 2 (Ticked.refl s) fun k hk hg => h hg k (by omega)).bind fun _ u hu => ?_
  rw [hu.pc]
  refine lastCycle_spec (P := fun _ u => Ticked 2 { s with pc := w } u) ?_ fun _ v hv => ⟨_, hv.count, rfl⟩
  refine (read_spec hu fun hg => h hg 2 (by omega)).bind fun _ v hv => .ok ?_
  simpa using hv.1.update (fun x => { x with pc := w })

theorem jmpInd_spec (w : Word) (h : g → s.CanFetch 3 ∧ s.Readable w ∧ s.Readable (indirectHiAddr w)) :
    Res.Spec g ((fetchCycles 3 s).bind fun _ s => (cycle (busRead w s)).bind fun tlo s =>
        lastCycle ((busRead (indirectHiAddr w) s).bind fun thi s => .ok () { s with pc := mkWord thi tlo })) fun _ u =>
      ∃ lo hi v, (s.Stored w → lo = s.byteAt w) ∧ (s.Stored (indirectHiAddr w) → hi = s.byteAt (indirectHiAddr w)) ∧
        Ticked 5 { s with pc := mkWord hi lo } v ∧ u = settle v := by
  refine (fetchCycles_spec 3 (Ticked.refl s) fun k hk hg => (h hg).1 k (by omega)).bind fun _ u hu => ?_
  refine (cycleRead_spec hu fun hg => (h hg).2.1).bind fun lo u hu => ?_
  refine lastCycle_spec (P := fun _ u => ∃ hi, (s.Stored (indirectHiAddr w) → hi = s.byteAt (indirectHiAddr w)) ∧
    Ticked 4 { s with pc := mkWord hi lo } u) ?_ fun _ v hv => ?_
  · refine (read_spec hu.1 fun hg => (h hg).2.2).bind fun hi v hv => .ok ⟨hi, hv.2, ?_⟩
    simpa using hv.1.update (fun x => { x with pc := mkWord hi lo })
  · obtain ⟨hi, h1, h2⟩ := hv
    exact ⟨lo, hi, _, hu.2, h1, h2.count, rfl⟩

/-- JSR (45_control_flow.md R322): the target's high byte is the byte read after the pushes. -/
theorem jsr_spec (w : Word) (h : g → s.CanFetch 3 ∧ s.Readable (stackAddr s.sp) ∧ s.Writable (stackAddr s.sp) ∧
      s.Writable (stackAddr (s.sp - 1)) ∧ s.CanPush ∧ { s with sp := s.sp - 1 }.CanPush) :
    Res.Spec g ((fetchCycles 2 s).bind fun _ s => (cycle (stackRead s)).bind fun _ s =>
        (cycle (push (hiByte s.pc) s)).bind fun _ s => (cycle (push (loByte s.pc) s)).bind fun _ s =>
        lastCycle ((busRead s.pc s).bind fun hi s => .ok () { s with pc := mkWord hi (loByte w) })) fun _ u =>
      s.CanPush ∧ { s with sp := s.sp - 1 }.CanPush ∧
      ∃ m1 m2 hi v, Wrote s (stackAddr s.sp) (hiByte (s.pc + 2)) m1 ∧
        Wrote { s with mem := m1 } (stackAddr (s.sp - 1)) (loByte (s.pc + 2)) m2 ∧
        (s.Stored (s.pc + 2) → hi = { s with mem := m2 }.byteAt (s.pc + 2)) ∧
        Ticked 6 { s with pc := mkWord hi (loByte w), sp := s.sp - 2, mem := m2 } v ∧ u = settle v := by
  refine (fetchCycles_spec 2 (Ticked.refl s) fun k hk hg => (h hg).1 k (by omega)).bind fun _ u hu => ?_
  refine (cycle_spec (stackRead_spec hu fun hg => (h hg).2.1) (Q := fun _ u => Ticked 3 { s with pc := s.pc + 2 } u)
    fun _ _ hu => by simpa using hu.1.count).bind fun _ u hu => ?_
  rw [hu.pc]
  refine (cyclePush_spec hu fun hg => ⟨(h hg).2.2.1, (h hg).2.2.2.2.1⟩).bind fun _ u hu => ?_
  obtain ⟨c1, m1, hm1, hu⟩ := hu
  rw [hu.pc]
  refine (cyclePush_spec hu fun hg => ⟨(h hg).2.2.2.1, (h hg).2.2.2.2.2⟩).bind fun _ u hu => ?_
  obtain ⟨c2, m2, hm2, hu⟩ := hu
  rw [hu.pc]
  refine lastCycle_spec (P := fun _ u => ∃ hi, (s.Stored (s.pc + 2) → hi = { s with mem := m2 }.byteAt (s.pc + 2)) ∧
    Ticked 5 { s with pc := mkWord hi (loByte w), sp := s.sp - 2, mem := m2 } u) ?_ fun _ v hv => ?_
  · refine (read_spec hu fun hg => (h hg).1 2 (by omega)).bind fun hi v hv => .ok ⟨hi, hv.2, ?_⟩
    have := hv.1.update (fun x => { x with pc := mkWord hi (loByte w) })
    have e : s.sp - 1 - 1 = s.sp - 2 := by rw [BitVec.sub_sub]; rfl
    dsimp only at this
    rw [e] at this
    exact this
  · obtain ⟨hi, h1, h2⟩ := hv
    exact ⟨c1, c2, m1, m2, hi, _, hm1, hm2, h1, h2.count, rfl⟩

/-- RTS (45_control_flow.md R323). -/
theorem rts_spec (h : g → s.CanFetch 2 ∧ s.Readable (stackAddr s.sp) ∧ s.Readable (stackAddr (s.sp + 1)) ∧
      s.Readable (stackAddr (s.sp + 2)) ∧ s.CanPull ∧ { s with sp := s.sp + 1 }.CanPull ∧
      ∀ lo hi, (s.Stored (stackAddr (s.sp + 1)) → lo = s.byteAt (stackAddr (s.sp + 1))) →
        (s.Stored (stackAddr (s.sp + 2)) → hi = s.byteAt (stackAddr (s.sp + 2))) → s.Readable (mkWord hi lo)) :
    Res.Spec g ((stackHead s).bind fun _ s => (cycle (stackReadInc s)).bind fun _ s =>
        (cycle (stackReadInc s)).bind fun lo s => (cycle (stackRead s)).bind fun hi s =>
        lastCycle ((busRead (mkWord hi lo) s).bind fun _ s => .ok () { s with pc := mkWord hi lo + 1 })) fun _ u =>
      s.CanPull ∧ { s with sp := s.sp + 1 }.CanPull ∧
      ∃ lo hi v, (s.Stored (stackAddr (s.sp + 1)) → lo = s.byteAt (stackAddr (s.sp + 1))) ∧
        (s.Stored (stackAddr (s.sp + 2)) → hi = s.byteAt (stackAddr (s.sp + 2))) ∧
        Ticked 6 { s with pc := mkWord hi lo + 1, sp := s.sp + 2 } v ∧ u = settle v := by
  have e : s.sp + 1 + 1 = s.sp + 2 := by rw [BitVec.add_assoc]; rfl
  refine (stackHead_spec fun hg => (h hg).1).bind fun _ u hu => ?_
  refine (cyclePull_spec hu fun hg => ⟨(h hg).2.1, (h hg).2.2.2.2.1⟩).bind fun _ u hu => ?_
  obtain ⟨c1, hu, -⟩ := hu
  refine (cyclePull_spec hu fun hg => ⟨(h hg).2.2.1, (h hg).2.2.2.2.2.1⟩).bind fun lo u hu => ?_
  obtain ⟨c2, hu, hlo⟩ := hu
  dsimp only at hu hlo
  rw [e] at hu
  refine (cycle_spec (stackRead_spec hu fun hg => (h hg).2.2.2.1) (Q := fun hi u =>
    Ticked 5 { s with pc := s.pc + 1, sp := s.sp + 2 } u ∧
      (s.Stored (stackAddr (s.sp + 2)) → hi = s.byteAt (stackAddr (s.sp + 2)))) fun _ _ hu => ⟨hu.1.count, hu.2⟩).bind
    fun hi u hu => ?_
  refine lastCycle_spec (P := fun _ u => Ticked 5 { s with pc := mkWord hi lo + 1, sp := s.sp + 2 } u) ?_
    fun _ v hv => ⟨c1, c2, lo, hi, _, hlo, hu.2, hv.count, rfl⟩
  refine (read_spec hu.1 fun hg => (h hg).2.2.2.2.2.2 lo hi hlo hu.2).bind fun _ v hv => .ok ?_
  exact hv.1.update (fun x => { x with pc := mkWord hi lo + 1 })

/-! ### Exceptions -/

/-- Three bytes pushed from `s` on: the storage afterwards. -/
def Pushed3 (s : State) (b1 b2 b3 : Byte) (m : List Host.Cell) : Prop :=
  ∃ m1 m2, Wrote s (stackAddr s.sp) b1 m1 ∧ Wrote { s with mem := m1 } (stackAddr (s.sp - 1)) b2 m2 ∧
    Wrote { s with mem := m2 } (stackAddr (s.sp - 2)) b3 m

/-- Three pushes in a row complete. -/
def State.CanPush3 (s : State) : Prop :=
  s.CanPush ∧ { s with sp := s.sp - 1 }.CanPush ∧ { s with sp := s.sp - 2 }.CanPush

/-- Taking an exception (46_stack_flags_system.md R362, 60_exceptions.md R408). -/
theorem takeException_spec (v : VectorId) (soft : Bool) (hT : Ticked n s t)
    (h : g → (∀ k : Fin 3, s.Writable (stackAddr (s.sp - BitVec.ofNat 8 k))) ∧ s.CanPush3 ∧ s.Readable v.addr ∧
      s.Readable (v.addr + 1)) :
    Res.Spec g (takeException v soft t) fun _ u => s.CanPush3 ∧
      ∃ m lo hi w, Pushed3 s (hiByte s.pc) (loByte s.pc) (entryStatus soft s.p) m ∧
        (s.Stored v.addr → lo = { s with mem := m }.byteAt v.addr) ∧
        (s.Stored (v.addr + 1) → hi = { s with mem := m }.byteAt (v.addr + 1)) ∧
        Ticked (n + 5) { s with
          pc := mkWord hi lo, sp := s.sp - 3, p := { s.p with i := true }, mem := m, inISR := s.inISR || !soft } w ∧
        u = settle w := by
  have e2 : s.sp - 1 - 1 = s.sp - 2 := by rw [BitVec.sub_sub]; rfl
  have e3 : s.sp - 2 - 1 = s.sp - 3 := by rw [BitVec.sub_sub]; rfl
  unfold takeException
  rw [hT.pc]
  refine (cyclePush_spec hT fun hg => ⟨by simpa using (h hg).1 0, (h hg).2.1.1⟩).bind fun _ u hu => ?_
  obtain ⟨c1, m1, hm1, hu⟩ := hu
  rw [hu.pc]
  refine (cyclePush_spec hu fun hg => ⟨(h hg).1 1, (h hg).2.1.2.1⟩).bind fun _ u hu => ?_
  obtain ⟨c2, m2, hm2, hu⟩ := hu
  dsimp only at hu
  rw [e2] at hu
  refine (cycle_spec (P := fun _ u => { s with sp := s.sp - 2 }.CanPush ∧ ∃ m,
      Wrote { s with mem := m2 } (stackAddr (s.sp - 2)) (entryStatus soft s.p) m ∧
      Ticked (n + 2) { s with mem := m, sp := s.sp - 3, p := { s.p with i := true } } u)
    (Q := fun _ u => { s with sp := s.sp - 2 }.CanPush ∧ ∃ m,
      Wrote { s with mem := m2 } (stackAddr (s.sp - 2)) (entryStatus soft s.p) m ∧
      Ticked (n + 3) { s with mem := m, sp := s.sp - 3, p := { s.p with i := true } } u) ?_
    fun _ u hu => ⟨hu.1, by obtain ⟨m, h1, h2⟩ := hu.2; exact ⟨m, h1, h2.count⟩⟩).bind fun _ u hu => ?_
  · unfold pushStatusByte
    rw [hu.p]
    refine (push_spec hu fun hg => ⟨(h hg).1 2, (h hg).2.1.2.2⟩).bind fun _ u hu => .ok ?_
    obtain ⟨c3, m, hu, h1, h2⟩ := hu
    dsimp only at hu
    rw [e3] at hu
    exact ⟨c3, m, ⟨h1, h2⟩, hu.update (fun x => { x with p := { x.p with i := true } })⟩
  obtain ⟨c3, m, hm3, hu⟩ := hu
  refine (cycle_spec (P := fun _ u => ∃ lo, (s.Stored v.addr → lo = { s with mem := m }.byteAt v.addr) ∧
      Ticked (n + 3) { s with pc := mkWord (hiByte s.pc) lo, sp := s.sp - 3, p := { s.p with i := true }, mem := m } u)
    (Q := fun _ u => ∃ lo, (s.Stored v.addr → lo = { s with mem := m }.byteAt v.addr) ∧
      Ticked (n + 4) { s with pc := mkWord (hiByte s.pc) lo, sp := s.sp - 3, p := { s.p with i := true }, mem := m } u)
    ?_ fun _ u hu => by obtain ⟨lo, h1, h2⟩ := hu; exact ⟨lo, h1, h2.count⟩).bind fun _ u hu => ?_
  · unfold loadVectorLo
    refine (read_spec hu fun hg => (h hg).2.2.1).bind fun lo u hu => .ok ⟨lo, hu.2, ?_⟩
    exact hu.1.update (fun x => { x with pc := mkWord (hiByte x.pc) lo })
  obtain ⟨lo, hlo, hu⟩ := hu
  refine lastCycle_spec (P := fun _ u => ∃ hi, (s.Stored (v.addr + 1) → hi = { s with mem := m }.byteAt (v.addr + 1)) ∧
      Ticked (n + 4) { s with
        pc := mkWord hi lo, sp := s.sp - 3, p := { s.p with i := true }, mem := m, inISR := s.inISR || !soft } u)
    ?_ fun _ u hu => ?_
  · unfold loadVectorHi
    refine (read_spec hu fun hg => (h hg).2.2.2).bind fun hi u hu => .ok ⟨hi, hu.2, ?_⟩
    have := hu.1.update (fun x => { x with pc := mkWord hi (loByte x.pc), inISR := x.inISR || !soft })
    simpa using this
  · obtain ⟨hi, h1, h2⟩ := hu
    exact ⟨⟨c1, c2, c3⟩, m, lo, hi, _, ⟨m1, m2, hm1, hm2, hm3⟩, hlo, h1, h2.count, rfl⟩

/-- Three increments of SP in a row complete. -/
def State.CanPull3 (s : State) : Prop :=
  s.CanPull ∧ { s with sp := s.sp + 1 }.CanPull ∧ { s with sp := s.sp + 2 }.CanPull

/-- Returning from an exception (46_stack_flags_system.md R364). -/
theorem returnFromException_spec (hT : Ticked n s t)
    (h : g → (∀ k : Fin 4, s.Readable (stackAddr (s.sp + BitVec.ofNat 8 k))) ∧ s.CanPull3) :
    Res.Spec g (returnFromException t) fun _ u => s.CanPull3 ∧
      ∃ b lo hi w, (s.Stored (stackAddr (s.sp + 1)) → b = s.byteAt (stackAddr (s.sp + 1))) ∧
        (s.Stored (stackAddr (s.sp + 2)) → lo = s.byteAt (stackAddr (s.sp + 2))) ∧
        (s.Stored (stackAddr (s.sp + 3)) → hi = s.byteAt (stackAddr (s.sp + 3))) ∧
        Ticked (n + 4) { s with pc := mkWord hi lo, sp := s.sp + 3, p := returnedFlags b, inISR := false } w ∧
        u = settle w := by
  have e2 : s.sp + 1 + 1 = s.sp + 2 := by rw [BitVec.add_assoc]; rfl
  have e3 : s.sp + 2 + 1 = s.sp + 3 := by rw [BitVec.add_assoc]; rfl
  unfold returnFromException
  refine (cyclePull_spec hT fun hg => ⟨by simpa using (h hg).1 0, (h hg).2.1⟩).bind fun _ u hu => ?_
  obtain ⟨c1, hu, -⟩ := hu
  refine (cycle_spec (P := fun _ u => { s with sp := s.sp + 1 }.CanPull ∧ ∃ b,
      (s.Stored (stackAddr (s.sp + 1)) → b = s.byteAt (stackAddr (s.sp + 1))) ∧
      Ticked (n + 1) { s with sp := s.sp + 2, p := returnedFlags b } u)
    (Q := fun _ u => { s with sp := s.sp + 1 }.CanPull ∧ ∃ b,
      (s.Stored (stackAddr (s.sp + 1)) → b = s.byteAt (stackAddr (s.sp + 1))) ∧
      Ticked (n + 2) { s with sp := s.sp + 2, p := returnedFlags b } u) ?_
    fun _ u hu => ⟨hu.1, by obtain ⟨b, h1, h2⟩ := hu.2; exact ⟨b, h1, h2.count⟩⟩).bind fun _ u hu => ?_
  · unfold pullStatusByte
    refine (stackRead_spec hu fun hg => (h hg).1 1).bind fun b u hu => ?_
    refine (incSp_spec (hu.1.update (fun x => { x with p := returnedFlags b })) fun hg => (h hg).2.2.1).mono
      fun _ w hw => ⟨hw.1, b, hu.2, ?_⟩
    have := hw.2
    dsimp only at this
    rw [e2] at this
    exact this
  obtain ⟨c2, b, hb, hu⟩ := hu
  refine (cyclePull_spec hu fun hg => ⟨(h hg).1 2, (h hg).2.2.2⟩).bind fun lo u hu => ?_
  obtain ⟨c3, hu, hlo⟩ := hu
  dsimp only at hu
  rw [e3] at hu
  refine (lastPull_spec hu (fun hi x => { x with pc := mkWord hi lo, inISR := false }) (by intros; rfl)
    (by intro v u; exact ⟨rfl, rfl, rfl, rfl, rfl⟩) fun hg => (h hg).1 3).mono fun _ u hu => ?_
  obtain ⟨hi, w, h1, h2, h3⟩ := hu
  exact ⟨⟨c1, c2, c3⟩, b, lo, hi, w, hb, hlo, h1, h2, h3⟩

/-- BRK (46_stack_flags_system.md R362). -/
theorem brk_spec (h : g → s.CanFetch 2 ∧ (∀ k : Fin 3, s.Writable (stackAddr (s.sp - BitVec.ofNat 8 k))) ∧
      s.CanPush3 ∧ s.Readable vectorIrq ∧ s.Readable (vectorIrq + 1)) :
    Res.Spec g ((fetchCycles 2 s).bind fun _ s => takeException .irq true s) fun _ u => s.CanPush3 ∧
      ∃ m lo hi w, Pushed3 s (hiByte (s.pc + 2)) (loByte (s.pc + 2)) (packBreak s.p) m ∧
        (s.Stored vectorIrq → lo = { s with mem := m }.byteAt vectorIrq) ∧
        (s.Stored (vectorIrq + 1) → hi = { s with mem := m }.byteAt (vectorIrq + 1)) ∧
        Ticked 7 { s with pc := mkWord hi lo, sp := s.sp - 3, p := { s.p with i := true }, mem := m } w ∧
        u = settle w := by
  refine (fetchCycles_spec 2 (Ticked.refl s) fun k hk hg => (h hg).1 k (by omega)).bind fun _ u hu => ?_
  refine (takeException_spec .irq true hu fun hg => (h hg).2).mono fun _ w hw => ?_
  obtain ⟨c, m, lo, hi, w', h1, h2, h3, h4, h5⟩ := hw
  exact ⟨c, m, lo, hi, w', h1, h2, h3, by simpa using h4, h5⟩

/-- RTI (46_stack_flags_system.md R364). -/
theorem rti_spec (h : g → s.CanFetch 2 ∧ (∀ k : Fin 4, s.Readable (stackAddr (s.sp + BitVec.ofNat 8 k))) ∧ s.CanPull3) :
    Res.Spec g ((stackHead s).bind fun _ s => returnFromException s) fun _ u => s.CanPull3 ∧
      ∃ b lo hi w, (s.Stored (stackAddr (s.sp + 1)) → b = s.byteAt (stackAddr (s.sp + 1))) ∧
        (s.Stored (stackAddr (s.sp + 2)) → lo = s.byteAt (stackAddr (s.sp + 2))) ∧
        (s.Stored (stackAddr (s.sp + 3)) → hi = s.byteAt (stackAddr (s.sp + 3))) ∧
        Ticked 6 { s with pc := mkWord hi lo, sp := s.sp + 3, p := returnedFlags b, inISR := false } w ∧
        u = settle w :=
  (stackHead_spec fun hg => (h hg).1).bind fun _ _ hu =>
    returnFromException_spec (s := { s with pc := s.pc + 1 }) hu fun hg => (h hg).2

/-- HLT (46_stack_flags_system.md R365). -/
theorem hlt_spec (h : g → s.Readable s.pc) :
    Res.Spec g (lastCycle ((fetchByte s).bind fun _ s => .ok () { s with halted := true })) fun _ u => ∃ w,
      Ticked 1 { s with pc := s.pc + 1, halted := true } w ∧ u = settle w :=
  lastCycle_spec (P := fun _ u => Ticked 0 { s with pc := s.pc + 1, halted := true } u)
    ((fetchByte_spec (Ticked.refl s) h).bind fun _ _ hu => .ok (hu.1.update (fun x => { x with halted := true })))
    fun _ _ hu => ⟨_, hu.count, rfl⟩

end Sys2Proof.Machine
end

