-- ==== Sys2Proof/Laws/Complete.lean ====
section
/-! SUPPORT. Completion by class: when the addresses touched are stored (and the one written is RAM), `exec` answers the
state its operation gives, in the ticks of 41_addressing_modes.md R198. -/

namespace Sys2Proof.Machine

variable {s : State} {i : Instr}

/-- From a form's specification to `Completes`. -/
theorem completes_of_spec {x : Res Unit} {r : State} {P : Unit → State → Prop} (he : exec i s = x.outcome)
    (h : Res.Spec True x P)
    (hP : ∀ u, P () u → ∃ w, Ticked (s.cycleCount i) r w ∧ u = settle w) (hn : 0 < s.cycleCount i)
    (hc : r.cycles = s.cycles) (hh : r.haltRequested = s.haltRequested) (hp : r.params = s.params) :
    Completes i s r := by
  obtain ⟨t, h1, h2⟩ := h.completes trivial
  obtain ⟨w, h3, rfl⟩ := hP t h2
  exact ⟨_, by rw [he, h1], h3.finish hn hc hh hp⟩

theorem branchTicks_pos (taken : Bool) (pc : Word) (d : Byte) : 0 < branchTicks taken pc d := by
  unfold branchTicks
  by_cases h : hiByte (branchTarget (pc + 2) d) = hiByte (pc + 2) <;> cases taken <;> simp only [h] <;> decide

theorem cycleCount_pos (s : State) (i : Instr) : 0 < s.cycleCount i := by
  cases i <;> first
    | exact branchTicks_pos _ _ _
    | simp [State.cycleCount, Instr.mnemonic, Mnemonic.instrClass, Instr.mode, readTicks, writeTicks, rmwTicks, stackTicks]

theorem complete_read {op : ReadOp} (hop : operationOf i.mnemonic = .read op) (hs : s.TouchesStored i) {r : State}
    (hr : op.apply (s.operandByte i) (s.advanced i) = .ok () r)
    (hf : r.cycles = s.cycles ∧ r.haltRequested = s.haltRequested ∧ r.params = s.params) : Completes i s r :=
  completes_of_spec (exec_read hop s)
    (read_form_spec hop (fun _ => .inr hs) fun _ v hv => ⟨r, by rw [hv hs]; exact hr⟩)
    (fun u hu => by
      obtain ⟨v, r', k, w, -, -, h1, h2, h3, h4⟩ := hu
      obtain ⟨hv, hk⟩ := h1 hs
      subst hv hk
      rw [h2] at hr
      cases hr
      exact ⟨w, h3, h4⟩) (cycleCount_pos s i) hf.1 hf.2.1 hf.2.2

theorem complete_write {sr : StoreReg} (hop : operationOf i.mnemonic = .write sr) (hs : s.TouchesStored i) {ea : Word}
    (hea : s.effectiveAddress i.mode i.operand = some ea) (hram : s.InRam ea) :
    Completes i s { s.advanced i with mem := Memory.write s.mem ea.toNat (sr.value s) } :=
  completes_of_spec (exec_write hop s) (write_form_spec hop fun _ => .inr ⟨hs, ea, hea, hram⟩)
    (fun u hu => by
      obtain ⟨ea', m, w, -, h1, h2, h3, h4⟩ := hu
      have : ea' = ea := Option.some.inj ((h1 hs).symm.trans hea)
      subst this
      rw [h2.1 hram] at h3
      exact ⟨w, by simpa [State.cycleCount, instrClass_of_write hop] using h3, h4⟩) (cycleCount_pos s i) rfl rfl rfl

theorem complete_rmw {op : RmwOp} (hop : operationOf i.mnemonic = .rmw op) (hs : s.TouchesStored i) {ea : Word}
    (hea : s.effectiveAddress i.mode i.operand = some ea) (hram : s.InRam ea) :
    Completes i s { s.advanced i with
      mem := Memory.write (Memory.write s.mem ea.toNat (s.byteAt ea)) ea.toNat (op.apply (s.byteAt ea) s.p).1
      p := (op.apply (s.byteAt ea) s.p).2 } :=
  completes_of_spec (exec_rmw hop s)
    (rmw_form_spec hop (fun h => by simp [h, State.effectiveAddress] at hea) fun _ => .inr ⟨hs, ea, hea, hram⟩)
    (fun u hu => by
      obtain ⟨ea', v, m, w, -, h1, h2, h3, h4⟩ := hu
      obtain ⟨h5, h6⟩ := h1 hs
      have : ea' = ea := Option.some.inj (h5.symm.trans hea)
      subst this h6
      rw [h2.1 hram] at h3
      exact ⟨w, by simpa [State.cycleCount, instrClass_of_rmw hop] using h3, h4⟩) (cycleCount_pos s i) rfl rfl rfl

theorem complete_acc {op : RmwOp} (hop : operationOf i.mnemonic = .rmw op) (hm : i.mode = .acc)
    (hs : s.TouchesStored i) :
    Completes i s ((s.advanced i).setAFlags (op.apply s.a s.p)) := by
  have hf : s.CanFetch 2 := canFetch_of_mem (l := s.dataAddresses i.mode i.operand) fun a ha => .inl (hs a (by
    simpa [State.touched, instrClass_of_rmw hop, hm] using ha))
  refine completes_of_spec (exec_rmw hop s) (x := rmwForm op i.mode i.operand s) (P := _)
    (by rw [hm]; exact rmwAcc_spec op fun _ => hf) (fun u hu => ?_) (cycleCount_pos s i) rfl rfl rfl
  obtain ⟨w, h1, h2⟩ := hu
  have hk : s.cycleCount i = 2 := by simp [State.cycleCount, instrClass_of_rmw hop, hm, rmwTicks]
  rw [hk, advanced_of_mode (show instrSize i = 1 by simp [instrSize, hm, Mode.operandBytes])]
  exact ⟨w, h1, h2⟩

theorem canFetch_two (h0 : s.Stored s.pc) (h1 : s.Stored (s.pc + 1)) : s.CanFetch 2 := by
  intro j hj
  match j, hj with
  | 0, _ => exact .inl (by simpa using h0)
  | 1, _ => exact .inl h1

theorem complete_implied {op : ImpliedOp} (hop : operationOf i.mnemonic = .implied op) (h0 : s.Stored s.pc)
    (h1 : s.Stored (s.pc + 1)) : Completes i s (op.apply { s with pc := s.pc + 1 }) := by
  have hk : s.cycleCount i = 2 := by cases i <;> first | (cases hop; done) | rfl
  have hf : ∀ u : State, (op.apply u).cycles = u.cycles ∧ (op.apply u).haltRequested = u.haltRequested ∧
      (op.apply u).params = u.params := by intro u; cases op <;> exact ⟨rfl, rfl, rfl⟩
  obtain ⟨a, b, c⟩ := hf { s with pc := s.pc + 1 }
  exact completes_of_spec (exec_implied hop s) (implied_spec op fun _ => canFetch_two h0 h1)
    (fun u hu => by rw [hk]; exact hu) (by omega) a b c

theorem complete_branch {c : Cond} (hop : operationOf i.mnemonic = .branch c) (hs : s.TouchesStored i) :
    Completes i s { s with
      pc := if c.holds s.p then branchTarget (s.pc + 2) (loByte i.operand) else s.pc + 2 } := by
  have hcl : i.mnemonic.instrClass = .branch := by
    revert hop; cases i.mnemonic <;> intro h <;> first | rfl | cases h
  have hpred : branchPredicate i.mnemonic s.p = c.holds s.p := by
    revert hop; cases i.mnemonic <;> intro h <;> cases h <;> simp [branchPredicate, Cond.holds]
  have hto : s.touched i = s.fetchAddresses 2 ++ s.branchAddresses (c.holds s.p) (loByte i.operand) := by
    simp [State.touched, hcl, hpred]
  have hk : s.cycleCount i = branchTicks (c.holds s.p) s.pc (loByte i.operand) := by
    simp [State.cycleCount, hcl, hpred]
  refine completes_of_spec (exec_branch hop s) (branchRel_spec c (loByte i.operand) (fun _ => ?_) fun _ a ha => ?_)
    (fun u hu => by rw [hk]; exact hu) (cycleCount_pos s i) rfl rfl rfl
  · exact canFetch_of_mem (l := s.branchAddresses (c.holds s.p) (loByte i.operand)) fun a ha =>
      .inl (hs a (by rw [hto]; exact ha))
  · exact .inl (hs a (by rw [hto]; exact List.mem_append_right _ ha))

/-- Room for `n` pushes is room for each of them. -/
theorem State.RoomToPush.canPush {n k : Nat} (h : s.RoomToPush n) (hk : k < n) (hn : n ≤ 255) :
    { s with sp := s.sp - BitVec.ofNat 8 k }.CanPush := by
  refine h.elim .inr fun h => .inl fun h0 => ?_
  have := congrArg BitVec.toNat h0
  have := s.sp.isLt
  simp [BitVec.toNat_sub] at *
  omega

/-- Room for `n` pulls is room for each of them. -/
theorem State.RoomToPull.canPull {n k : Nat} (h : s.RoomToPull n) (hk : k < n) :
    { s with sp := s.sp + BitVec.ofNat 8 k }.CanPull := by
  refine h.elim .inr fun h => .inl fun h0 => ?_
  have := congrArg BitVec.toNat h0
  have := s.sp.isLt
  simp [BitVec.toNat_add] at *
  omega

end Sys2Proof.Machine
end

