-- ==== Sys2Proof/Laws/Exec.lean ====
section
/-! SUPPORT. Everything `exec` can do, by the operation of the mnemonic, on any memory map: when it answers `t`, then `t`
is as `ExecPost` says. Frames are read off it without unfolding a meaning. -/

namespace Sys2Proof.Machine

variable {s t : State} {i : Instr}

/-- `t` is `r` after one to seven ticks that changed nothing else, the instruction ended. -/
def Ended (r t : State) : Prop := ∃ k w, 0 < k ∧ k ≤ 7 ∧ Ticked k r w ∧ t = settle w

theorem Ended.a {r t : State} (h : Ended r t) : t.a = r.a := by obtain ⟨_, _, _, _, ⟨_, _, _, -, -, rfl⟩, rfl⟩ := h; rfl

theorem Ended.x {r t : State} (h : Ended r t) : t.x = r.x := by obtain ⟨_, _, _, _, ⟨_, _, _, -, -, rfl⟩, rfl⟩ := h; rfl

theorem Ended.y {r t : State} (h : Ended r t) : t.y = r.y := by obtain ⟨_, _, _, _, ⟨_, _, _, -, -, rfl⟩, rfl⟩ := h; rfl

theorem Ended.pc {r t : State} (h : Ended r t) : t.pc = r.pc := by obtain ⟨_, _, _, _, ⟨_, _, _, -, -, rfl⟩, rfl⟩ := h; rfl

theorem Ended.sp {r t : State} (h : Ended r t) : t.sp = r.sp := by obtain ⟨_, _, _, _, ⟨_, _, _, -, -, rfl⟩, rfl⟩ := h; rfl

theorem Ended.p {r t : State} (h : Ended r t) : t.p = r.p := by obtain ⟨_, _, _, _, ⟨_, _, _, -, -, rfl⟩, rfl⟩ := h; rfl

theorem Ended.mem {r t : State} (h : Ended r t) : t.mem = r.mem := by obtain ⟨_, _, _, _, ⟨_, _, _, -, -, rfl⟩, rfl⟩ := h; rfl

theorem Ended.inISR {r t : State} (h : Ended r t) : t.inISR = r.inISR := by obtain ⟨_, _, _, _, ⟨_, _, _, -, -, rfl⟩, rfl⟩ := h; rfl

theorem Ended.queue {r t : State} (h : Ended r t) : t.queue = r.queue := by obtain ⟨_, _, _, _, ⟨_, _, _, -, -, rfl⟩, rfl⟩ := h; rfl

theorem Ended.fault {r t : State} (h : Ended r t) : t.fault = r.fault := by obtain ⟨_, _, _, _, ⟨_, _, _, -, -, rfl⟩, rfl⟩ := h; rfl

theorem Ended.hookArmed {r t : State} (h : Ended r t) : t.hookArmed = r.hookArmed := by obtain ⟨_, _, _, _, ⟨_, _, _, -, -, rfl⟩, rfl⟩ := h; rfl

theorem Ended.regions {r t : State} (h : Ended r t) : t.regions = r.regions := by obtain ⟨_, _, _, _, ⟨_, _, _, -, -, rfl⟩, rfl⟩ := h; rfl

theorem Ended.params {r t : State} (h : Ended r t) : t.params = r.params := by obtain ⟨_, _, _, _, ⟨_, _, _, -, -, rfl⟩, rfl⟩ := h; rfl

theorem Ended.bankSel {r t : State} (h : Ended r t) : t.bankSel.length = r.bankSel.length := by
  obtain ⟨_, _, _, _, h, rfl⟩ := h; exact h.bankSel

theorem Ended.sources {r t : State} (h : Ended r t) : t.sources.length = r.sources.length := by
  obtain ⟨_, _, _, _, h, rfl⟩ := h; exact h.sources

theorem Ended.tmp {r t : State} (h : Ended r t) : t.tmp = Temps.clear := by obtain ⟨_, _, _, _, -, rfl⟩ := h; rfl

theorem Ended.cycles {r t : State} (h : Ended r t) : r.cycles < t.cycles ∧ t.cycles ≤ r.cycles + 7 := by
  obtain ⟨k, _, h0, h7, ⟨_, _, _, -, -, rfl⟩, rfl⟩ := h
  exact ⟨Nat.lt_add_of_pos_right h0, Nat.add_le_add_left h7 _⟩

theorem Ended.halted {r t : State} (h : Ended r t) : t.halted = (r.halted || t.haltRequested) := by
  obtain ⟨_, _, _, _, ⟨_, _, _, -, -, rfl⟩, rfl⟩ := h; rfl

theorem Ended.haltRequested {r t : State} (h : Ended r t) : t.haltRequested = r.haltAfter (t.cycles - r.cycles) := by
  obtain ⟨k, _, h0, _, ⟨_, _, _, -, -, rfl⟩, rfl⟩ := h
  simp only [settle_haltRequested, settle_cycles, Nat.add_sub_cancel_left]
  exact haltBy_eq_haltAfter _ h0

/-- What an instruction that answers leaves, by its operation. -/
def ExecPost (i : Instr) (s t : State) : Prop :=
  match operationOf i.mnemonic with
  | .read op => ∃ v r, op.apply v (s.advanced i) = .ok () r ∧ Ended r t
  | .write r => ∃ ea m, (∃ e u, storeEa i.mode i.operand s = some e ∧ e = .ok ea u) ∧ Wrote s ea (r.value s) m ∧
      Ended { s.advanced i with mem := m } t
  | .rmw op =>
    if i.mode = .acc then Ended ({ s with pc := s.pc + 1 }.setAFlags (op.apply s.a s.p)) t
    else ∃ ea v m, (∃ e u, storeEa i.mode i.operand s = some e ∧ e = .ok ea u) ∧ rmwMem op ea v s m ∧
      Ended { s.advanced i with mem := m, p := (op.apply v s.p).2 } t
  | .implied op => Ended (op.apply { s with pc := s.pc + 1 }) t
  | .branch _ => ∃ pc, Ended { s with pc := pc } t
  | .jmp => ∃ pc, Ended { s with pc := pc } t
  | .jsr => ∃ pc m1 m2, Wrote s (stackAddr s.sp) (hiByte (s.pc + 2)) m1 ∧
      Wrote { s with mem := m1 } (stackAddr (s.sp - 1)) (loByte (s.pc + 2)) m2 ∧
      Ended { s with pc := pc, sp := s.sp - 2, mem := m2 } t
  | .rts => ∃ pc, Ended { s with pc := pc, sp := s.sp + 2 } t
  | .pha => ∃ m, Wrote s (stackAddr s.sp) s.a m ∧ Ended { s with pc := s.pc + 1, sp := s.sp - 1, mem := m } t
  | .php => ∃ m, Wrote s (stackAddr s.sp) (packBreak s.p) m ∧
      Ended { s with pc := s.pc + 1, sp := s.sp - 1, mem := m } t
  | .pla => ∃ v, Ended ({ s with pc := s.pc + 1, sp := s.sp + 1 }.setA v) t
  | .plp => ∃ v, Ended { s with pc := s.pc + 1, sp := s.sp + 1, p := pulledFlags v s.p } t
  | .brk => ∃ pc m, Pushed3 s (hiByte (s.pc + 2)) (loByte (s.pc + 2)) (packBreak s.p) m ∧
      Ended { s with pc := pc, sp := s.sp - 3, p := { s.p with i := true }, mem := m } t
  | .rti => ∃ b pc, Ended { s with pc := pc, sp := s.sp + 3, p := returnedFlags b, inISR := false } t
  | .hlt => Ended { s with pc := s.pc + 1, halted := true } t

theorem branchTicks_le (taken : Bool) (pc : Word) (d : Byte) : branchTicks taken pc d ≤ 4 := by
  unfold branchTicks
  by_cases h : hiByte (branchTarget (pc + 2) d) = hiByte (pc + 2) <;> cases taken <;> simp only [h] <;> decide

/-- What `exec` can do. -/
theorem exec_post (h : exec i s = .next t) : ExecPost i s t := by
  unfold ExecPost
  split
  next op hop =>
    rw [exec_read hop] at h
    obtain ⟨v, r, k, w, h0, h6, -, h1, h2, h3⟩ :=
      (read_form_spec (g := False) hop (fun f => f.elim) fun f => f.elim).outcome h
    exact ⟨v, r, h1, k, w, h0, by omega, h2, h3⟩
  next r hop =>
    rw [exec_write hop] at h
    obtain ⟨ea, m, w, h1, -, h2, h3, h4⟩ := (write_form_spec (g := False) hop fun f => f.elim).outcome h
    refine ⟨ea, m, h1, h2, _, w, ?_, ?_, h3, h4⟩ <;> cases i <;> first | (cases hop; done) | simp [Instr.mode, writeTicks]
  next op hop =>
    rw [exec_rmw hop] at h
    by_cases hm : i.mode = .acc
    · rw [if_pos hm]
      rw [hm] at h
      obtain ⟨w, h1, h2⟩ := (rmwAcc_spec (g := False) op fun f => f.elim).outcome h
      exact ⟨2, w, by decide, by decide, h1, h2⟩
    · rw [if_neg hm]
      obtain ⟨ea, v, m, w, h1, -, h2, h3, h4⟩ := (rmw_form_spec (g := False) hop hm fun f => f.elim).outcome h
      refine ⟨ea, v, m, h1, h2, _, w, ?_, ?_, h3, h4⟩ <;> cases i <;>
        first | (cases hop; done) | exact absurd rfl hm | simp [Instr.mode, rmwTicks]
  next op hop =>
    rw [exec_implied hop] at h
    obtain ⟨w, h1, h2⟩ := (implied_spec (g := False) op fun f => f.elim).outcome h
    exact ⟨2, w, by decide, by decide, h1, h2⟩
  next c hop =>
    rw [exec_branch hop] at h
    obtain ⟨w, h1, h2⟩ := (branchRel_spec (g := False) c _ (fun f => f.elim) fun f => f.elim).outcome h
    exact ⟨_, _, w, branchTicks_pos _ _ _, (branchTicks_le _ _ _).trans (by decide), h1, h2⟩
  next hop =>
    cases i <;> first | (cases hop; done) | skip
    case jmpAbs w =>
      obtain ⟨v, h1, h2⟩ := (jmpAbs_spec (g := False) w fun f => f.elim).outcome h
      exact ⟨_, 3, v, by decide, by decide, h1, h2⟩
    case jmpInd w =>
      obtain ⟨lo, hi, v, -, -, h1, h2⟩ := (jmpInd_spec (g := False) w fun f => f.elim).outcome h
      exact ⟨_, 5, v, by decide, by decide, h1, h2⟩
  next hop =>
    obtain ⟨w, rfl⟩ : ∃ w, i = .jsr w := by cases i <;> first | (cases hop; done) | exact ⟨_, rfl⟩
    obtain ⟨-, -, m1, m2, hi, v, h1, h2, -, h3, h4⟩ := (jsr_spec (g := False) w fun f => f.elim).outcome h
    exact ⟨_, m1, m2, h1, h2, 6, v, by decide, by decide, h3, h4⟩
  next hop =>
    obtain rfl : i = .rts := by cases i <;> first | (cases hop; done) | rfl
    obtain ⟨-, -, lo, hi, v, -, -, h1, h2⟩ := (rts_spec (g := False) fun f => f.elim).outcome h
    exact ⟨_, 6, v, by decide, by decide, h1, h2⟩
  next hop =>
    obtain rfl : i = .pha := by cases i <;> first | (cases hop; done) | rfl
    obtain ⟨-, m, w, h1, h2, h3⟩ := (pushInstr_spec (g := False) (fun s => s.a) (fun h => h.a) (fun _ _ => rfl)
      fun f => f.elim).outcome h
    exact ⟨m, h1, 3, w, by decide, by decide, h2, h3⟩
  next hop =>
    obtain rfl : i = .php := by cases i <;> first | (cases hop; done) | rfl
    obtain ⟨-, m, w, h1, h2, h3⟩ := (pushInstr_spec (g := False) (fun s => packBreak s.p) (fun h => by rw [h.p])
      (fun _ _ => rfl) fun f => f.elim).outcome h
    exact ⟨m, h1, 3, w, by decide, by decide, h2, h3⟩
  next hop =>
    obtain rfl : i = .pla := by cases i <;> first | (cases hop; done) | rfl
    obtain ⟨-, v, w, -, h1, h2⟩ := (pullInstr_spec (g := False) (fun v s => s.setA v) (by intros; rfl)
      (fun _ _ => ⟨rfl, rfl, rfl, rfl, rfl⟩) fun f => f.elim).outcome h
    exact ⟨v, 4, w, by decide, by decide, h1, h2⟩
  next hop =>
    obtain rfl : i = .plp := by cases i <;> first | (cases hop; done) | rfl
    obtain ⟨-, v, w, -, h1, h2⟩ := (pullInstr_spec (g := False) (fun b s => { s with p := pulledFlags b s.p })
      (by intros; rfl) (fun _ _ => ⟨rfl, rfl, rfl, rfl, rfl⟩) fun f => f.elim).outcome h
    exact ⟨v, 4, w, by decide, by decide, h1, h2⟩
  next hop =>
    obtain rfl : i = .brk := by cases i <;> first | (cases hop; done) | rfl
    obtain ⟨-, m, lo, hi, w, h1, -, -, h2, h3⟩ := (brk_spec (g := False) fun f => f.elim).outcome h
    exact ⟨_, m, h1, 7, w, by decide, by decide, h2, h3⟩
  next hop =>
    obtain rfl : i = .rti := by cases i <;> first | (cases hop; done) | rfl
    obtain ⟨-, b, lo, hi, w, -, -, -, h1, h2⟩ := (rti_spec (g := False) fun f => f.elim).outcome h
    exact ⟨b, _, 6, w, by decide, by decide, h1, h2⟩
  next hop =>
    obtain rfl : i = .hlt := by cases i <;> first | (cases hop; done) | rfl
    obtain ⟨w, h1, h2⟩ := (hlt_spec (g := False) fun f => f.elim).outcome h
    exact ⟨1, w, by decide, by decide, h1, h2⟩

end Sys2Proof.Machine
end

