-- ==== Sys2Proof/Laws/PerInstr.lean ====
section
/-! SUPPORT. One lemma per constructor of `Instr` about it as syntax: its encoding has the length its mode gives
(30_encoding.md R100), and its pair is one of the mode columns of 30_encoding.md R104. -/

namespace Sys2Proof.Laws.Encoding

/-- The encoding of `i` is its opcode and its operand bytes, and the pair exists. -/
def Statement (i : Instr) : Prop :=
  (∀ hlt, (encode hlt i).length = i.mode.operandBytes + 1) ∧ i.mnemonic.modes.contains i.mode = true

theorem ldaImm (v : Byte) : Statement (.ldaImm v) := ⟨fun _ => rfl, rfl⟩
theorem ldaZp (z : Byte) : Statement (.ldaZp z) := ⟨fun _ => rfl, rfl⟩
theorem ldaZpx (z : Byte) : Statement (.ldaZpx z) := ⟨fun _ => rfl, rfl⟩
theorem ldaAbs (w : Word) : Statement (.ldaAbs w) := ⟨fun _ => rfl, rfl⟩
theorem ldaAbx (w : Word) : Statement (.ldaAbx w) := ⟨fun _ => rfl, rfl⟩
theorem ldaAby (w : Word) : Statement (.ldaAby w) := ⟨fun _ => rfl, rfl⟩
theorem ldaIzx (z : Byte) : Statement (.ldaIzx z) := ⟨fun _ => rfl, rfl⟩
theorem ldaIzy (z : Byte) : Statement (.ldaIzy z) := ⟨fun _ => rfl, rfl⟩
theorem ldxImm (v : Byte) : Statement (.ldxImm v) := ⟨fun _ => rfl, rfl⟩
theorem ldxZp (z : Byte) : Statement (.ldxZp z) := ⟨fun _ => rfl, rfl⟩
theorem ldxZpy (z : Byte) : Statement (.ldxZpy z) := ⟨fun _ => rfl, rfl⟩
theorem ldxAbs (w : Word) : Statement (.ldxAbs w) := ⟨fun _ => rfl, rfl⟩
theorem ldxAby (w : Word) : Statement (.ldxAby w) := ⟨fun _ => rfl, rfl⟩
theorem ldyImm (v : Byte) : Statement (.ldyImm v) := ⟨fun _ => rfl, rfl⟩
theorem ldyZp (z : Byte) : Statement (.ldyZp z) := ⟨fun _ => rfl, rfl⟩
theorem ldyZpx (z : Byte) : Statement (.ldyZpx z) := ⟨fun _ => rfl, rfl⟩
theorem ldyAbs (w : Word) : Statement (.ldyAbs w) := ⟨fun _ => rfl, rfl⟩
theorem ldyAbx (w : Word) : Statement (.ldyAbx w) := ⟨fun _ => rfl, rfl⟩
theorem staZp (z : Byte) : Statement (.staZp z) := ⟨fun _ => rfl, rfl⟩
theorem staZpx (z : Byte) : Statement (.staZpx z) := ⟨fun _ => rfl, rfl⟩
theorem staAbs (w : Word) : Statement (.staAbs w) := ⟨fun _ => rfl, rfl⟩
theorem staAbx (w : Word) : Statement (.staAbx w) := ⟨fun _ => rfl, rfl⟩
theorem staAby (w : Word) : Statement (.staAby w) := ⟨fun _ => rfl, rfl⟩
theorem staIzx (z : Byte) : Statement (.staIzx z) := ⟨fun _ => rfl, rfl⟩
theorem staIzy (z : Byte) : Statement (.staIzy z) := ⟨fun _ => rfl, rfl⟩
theorem stxZp (z : Byte) : Statement (.stxZp z) := ⟨fun _ => rfl, rfl⟩
theorem stxZpy (z : Byte) : Statement (.stxZpy z) := ⟨fun _ => rfl, rfl⟩
theorem stxAbs (w : Word) : Statement (.stxAbs w) := ⟨fun _ => rfl, rfl⟩
theorem styZp (z : Byte) : Statement (.styZp z) := ⟨fun _ => rfl, rfl⟩
theorem styZpx (z : Byte) : Statement (.styZpx z) := ⟨fun _ => rfl, rfl⟩
theorem styAbs (w : Word) : Statement (.styAbs w) := ⟨fun _ => rfl, rfl⟩
theorem tax : Statement .tax := ⟨fun _ => rfl, rfl⟩
theorem tay : Statement .tay := ⟨fun _ => rfl, rfl⟩
theorem txa : Statement .txa := ⟨fun _ => rfl, rfl⟩
theorem tya : Statement .tya := ⟨fun _ => rfl, rfl⟩
theorem tsx : Statement .tsx := ⟨fun _ => rfl, rfl⟩
theorem txs : Statement .txs := ⟨fun _ => rfl, rfl⟩
theorem adcImm (v : Byte) : Statement (.adcImm v) := ⟨fun _ => rfl, rfl⟩
theorem adcZp (z : Byte) : Statement (.adcZp z) := ⟨fun _ => rfl, rfl⟩
theorem adcZpx (z : Byte) : Statement (.adcZpx z) := ⟨fun _ => rfl, rfl⟩
theorem adcAbs (w : Word) : Statement (.adcAbs w) := ⟨fun _ => rfl, rfl⟩
theorem adcAbx (w : Word) : Statement (.adcAbx w) := ⟨fun _ => rfl, rfl⟩
theorem adcAby (w : Word) : Statement (.adcAby w) := ⟨fun _ => rfl, rfl⟩
theorem adcIzx (z : Byte) : Statement (.adcIzx z) := ⟨fun _ => rfl, rfl⟩
theorem adcIzy (z : Byte) : Statement (.adcIzy z) := ⟨fun _ => rfl, rfl⟩
theorem sbcImm (v : Byte) : Statement (.sbcImm v) := ⟨fun _ => rfl, rfl⟩
theorem sbcZp (z : Byte) : Statement (.sbcZp z) := ⟨fun _ => rfl, rfl⟩
theorem sbcZpx (z : Byte) : Statement (.sbcZpx z) := ⟨fun _ => rfl, rfl⟩
theorem sbcAbs (w : Word) : Statement (.sbcAbs w) := ⟨fun _ => rfl, rfl⟩
theorem sbcAbx (w : Word) : Statement (.sbcAbx w) := ⟨fun _ => rfl, rfl⟩
theorem sbcAby (w : Word) : Statement (.sbcAby w) := ⟨fun _ => rfl, rfl⟩
theorem sbcIzx (z : Byte) : Statement (.sbcIzx z) := ⟨fun _ => rfl, rfl⟩
theorem sbcIzy (z : Byte) : Statement (.sbcIzy z) := ⟨fun _ => rfl, rfl⟩
theorem andImm (v : Byte) : Statement (.andImm v) := ⟨fun _ => rfl, rfl⟩
theorem andZp (z : Byte) : Statement (.andZp z) := ⟨fun _ => rfl, rfl⟩
theorem andZpx (z : Byte) : Statement (.andZpx z) := ⟨fun _ => rfl, rfl⟩
theorem andAbs (w : Word) : Statement (.andAbs w) := ⟨fun _ => rfl, rfl⟩
theorem andAbx (w : Word) : Statement (.andAbx w) := ⟨fun _ => rfl, rfl⟩
theorem andAby (w : Word) : Statement (.andAby w) := ⟨fun _ => rfl, rfl⟩
theorem andIzx (z : Byte) : Statement (.andIzx z) := ⟨fun _ => rfl, rfl⟩
theorem andIzy (z : Byte) : Statement (.andIzy z) := ⟨fun _ => rfl, rfl⟩
theorem oraImm (v : Byte) : Statement (.oraImm v) := ⟨fun _ => rfl, rfl⟩
theorem oraZp (z : Byte) : Statement (.oraZp z) := ⟨fun _ => rfl, rfl⟩
theorem oraZpx (z : Byte) : Statement (.oraZpx z) := ⟨fun _ => rfl, rfl⟩
theorem oraAbs (w : Word) : Statement (.oraAbs w) := ⟨fun _ => rfl, rfl⟩
theorem oraAbx (w : Word) : Statement (.oraAbx w) := ⟨fun _ => rfl, rfl⟩
theorem oraAby (w : Word) : Statement (.oraAby w) := ⟨fun _ => rfl, rfl⟩
theorem oraIzx (z : Byte) : Statement (.oraIzx z) := ⟨fun _ => rfl, rfl⟩
theorem oraIzy (z : Byte) : Statement (.oraIzy z) := ⟨fun _ => rfl, rfl⟩
theorem eorImm (v : Byte) : Statement (.eorImm v) := ⟨fun _ => rfl, rfl⟩
theorem eorZp (z : Byte) : Statement (.eorZp z) := ⟨fun _ => rfl, rfl⟩
theorem eorZpx (z : Byte) : Statement (.eorZpx z) := ⟨fun _ => rfl, rfl⟩
theorem eorAbs (w : Word) : Statement (.eorAbs w) := ⟨fun _ => rfl, rfl⟩
theorem eorAbx (w : Word) : Statement (.eorAbx w) := ⟨fun _ => rfl, rfl⟩
theorem eorAby (w : Word) : Statement (.eorAby w) := ⟨fun _ => rfl, rfl⟩
theorem eorIzx (z : Byte) : Statement (.eorIzx z) := ⟨fun _ => rfl, rfl⟩
theorem eorIzy (z : Byte) : Statement (.eorIzy z) := ⟨fun _ => rfl, rfl⟩
theorem cmpImm (v : Byte) : Statement (.cmpImm v) := ⟨fun _ => rfl, rfl⟩
theorem cmpZp (z : Byte) : Statement (.cmpZp z) := ⟨fun _ => rfl, rfl⟩
theorem cmpZpx (z : Byte) : Statement (.cmpZpx z) := ⟨fun _ => rfl, rfl⟩
theorem cmpAbs (w : Word) : Statement (.cmpAbs w) := ⟨fun _ => rfl, rfl⟩
theorem cmpAbx (w : Word) : Statement (.cmpAbx w) := ⟨fun _ => rfl, rfl⟩
theorem cmpAby (w : Word) : Statement (.cmpAby w) := ⟨fun _ => rfl, rfl⟩
theorem cmpIzx (z : Byte) : Statement (.cmpIzx z) := ⟨fun _ => rfl, rfl⟩
theorem cmpIzy (z : Byte) : Statement (.cmpIzy z) := ⟨fun _ => rfl, rfl⟩
theorem cpxImm (v : Byte) : Statement (.cpxImm v) := ⟨fun _ => rfl, rfl⟩
theorem cpxZp (z : Byte) : Statement (.cpxZp z) := ⟨fun _ => rfl, rfl⟩
theorem cpxAbs (w : Word) : Statement (.cpxAbs w) := ⟨fun _ => rfl, rfl⟩
theorem cpyImm (v : Byte) : Statement (.cpyImm v) := ⟨fun _ => rfl, rfl⟩
theorem cpyZp (z : Byte) : Statement (.cpyZp z) := ⟨fun _ => rfl, rfl⟩
theorem cpyAbs (w : Word) : Statement (.cpyAbs w) := ⟨fun _ => rfl, rfl⟩
theorem bitZp (z : Byte) : Statement (.bitZp z) := ⟨fun _ => rfl, rfl⟩
theorem bitAbs (w : Word) : Statement (.bitAbs w) := ⟨fun _ => rfl, rfl⟩
theorem incZp (z : Byte) : Statement (.incZp z) := ⟨fun _ => rfl, rfl⟩
theorem incZpx (z : Byte) : Statement (.incZpx z) := ⟨fun _ => rfl, rfl⟩
theorem incAbs (w : Word) : Statement (.incAbs w) := ⟨fun _ => rfl, rfl⟩
theorem incAbx (w : Word) : Statement (.incAbx w) := ⟨fun _ => rfl, rfl⟩
theorem decZp (z : Byte) : Statement (.decZp z) := ⟨fun _ => rfl, rfl⟩
theorem decZpx (z : Byte) : Statement (.decZpx z) := ⟨fun _ => rfl, rfl⟩
theorem decAbs (w : Word) : Statement (.decAbs w) := ⟨fun _ => rfl, rfl⟩
theorem decAbx (w : Word) : Statement (.decAbx w) := ⟨fun _ => rfl, rfl⟩
theorem inx : Statement .inx := ⟨fun _ => rfl, rfl⟩
theorem iny : Statement .iny := ⟨fun _ => rfl, rfl⟩
theorem dex : Statement .dex := ⟨fun _ => rfl, rfl⟩
theorem dey : Statement .dey := ⟨fun _ => rfl, rfl⟩
theorem aslAcc : Statement .aslAcc := ⟨fun _ => rfl, rfl⟩
theorem aslZp (z : Byte) : Statement (.aslZp z) := ⟨fun _ => rfl, rfl⟩
theorem aslZpx (z : Byte) : Statement (.aslZpx z) := ⟨fun _ => rfl, rfl⟩
theorem aslAbs (w : Word) : Statement (.aslAbs w) := ⟨fun _ => rfl, rfl⟩
theorem aslAbx (w : Word) : Statement (.aslAbx w) := ⟨fun _ => rfl, rfl⟩
theorem lsrAcc : Statement .lsrAcc := ⟨fun _ => rfl, rfl⟩
theorem lsrZp (z : Byte) : Statement (.lsrZp z) := ⟨fun _ => rfl, rfl⟩
theorem lsrZpx (z : Byte) : Statement (.lsrZpx z) := ⟨fun _ => rfl, rfl⟩
theorem lsrAbs (w : Word) : Statement (.lsrAbs w) := ⟨fun _ => rfl, rfl⟩
theorem lsrAbx (w : Word) : Statement (.lsrAbx w) := ⟨fun _ => rfl, rfl⟩
theorem rolAcc : Statement .rolAcc := ⟨fun _ => rfl, rfl⟩
theorem rolZp (z : Byte) : Statement (.rolZp z) := ⟨fun _ => rfl, rfl⟩
theorem rolZpx (z : Byte) : Statement (.rolZpx z) := ⟨fun _ => rfl, rfl⟩
theorem rolAbs (w : Word) : Statement (.rolAbs w) := ⟨fun _ => rfl, rfl⟩
theorem rolAbx (w : Word) : Statement (.rolAbx w) := ⟨fun _ => rfl, rfl⟩
theorem rorAcc : Statement .rorAcc := ⟨fun _ => rfl, rfl⟩
theorem rorZp (z : Byte) : Statement (.rorZp z) := ⟨fun _ => rfl, rfl⟩
theorem rorZpx (z : Byte) : Statement (.rorZpx z) := ⟨fun _ => rfl, rfl⟩
theorem rorAbs (w : Word) : Statement (.rorAbs w) := ⟨fun _ => rfl, rfl⟩
theorem rorAbx (w : Word) : Statement (.rorAbx w) := ⟨fun _ => rfl, rfl⟩
theorem jmpAbs (w : Word) : Statement (.jmpAbs w) := ⟨fun _ => rfl, rfl⟩
theorem jmpInd (w : Word) : Statement (.jmpInd w) := ⟨fun _ => rfl, rfl⟩
theorem jsr (w : Word) : Statement (.jsr w) := ⟨fun _ => rfl, rfl⟩
theorem rts : Statement .rts := ⟨fun _ => rfl, rfl⟩
theorem bcc (d : Byte) : Statement (.bcc d) := ⟨fun _ => rfl, rfl⟩
theorem bcs (d : Byte) : Statement (.bcs d) := ⟨fun _ => rfl, rfl⟩
theorem beq (d : Byte) : Statement (.beq d) := ⟨fun _ => rfl, rfl⟩
theorem bne (d : Byte) : Statement (.bne d) := ⟨fun _ => rfl, rfl⟩
theorem bmi (d : Byte) : Statement (.bmi d) := ⟨fun _ => rfl, rfl⟩
theorem bpl (d : Byte) : Statement (.bpl d) := ⟨fun _ => rfl, rfl⟩
theorem bvc (d : Byte) : Statement (.bvc d) := ⟨fun _ => rfl, rfl⟩
theorem bvs (d : Byte) : Statement (.bvs d) := ⟨fun _ => rfl, rfl⟩
theorem pha : Statement .pha := ⟨fun _ => rfl, rfl⟩
theorem pla : Statement .pla := ⟨fun _ => rfl, rfl⟩
theorem php : Statement .php := ⟨fun _ => rfl, rfl⟩
theorem plp : Statement .plp := ⟨fun _ => rfl, rfl⟩
theorem clc : Statement .clc := ⟨fun _ => rfl, rfl⟩
theorem sec : Statement .sec := ⟨fun _ => rfl, rfl⟩
theorem cli : Statement .cli := ⟨fun _ => rfl, rfl⟩
theorem sei : Statement .sei := ⟨fun _ => rfl, rfl⟩
theorem cld : Statement .cld := ⟨fun _ => rfl, rfl⟩
theorem sed : Statement .sed := ⟨fun _ => rfl, rfl⟩
theorem clv : Statement .clv := ⟨fun _ => rfl, rfl⟩
theorem nop : Statement .nop := ⟨fun _ => rfl, rfl⟩
theorem brk : Statement .brk := ⟨fun _ => rfl, rfl⟩
theorem rti : Statement .rti := ⟨fun _ => rfl, rfl⟩
theorem hlt : Statement .hlt := ⟨fun _ => rfl, rfl⟩

end Sys2Proof.Laws.Encoding
end

