-- ==== Sys2Proof/Laws/Tick.lean ====
section
/-! SUPPORT. What a tick and an interrupt entry can do, on any memory map: storage changes by writes to RAM only, the map,
the parameters and the number of inputs stay, and a micro-operation queues at most one more. -/

namespace Sys2Proof.Machine

variable {g : Prop} {n : Nat} {s t u : State}

/-! ### Storage changes by writes to RAM -/

/-- Bytes written one after another. -/
def writeAll (ws : List (Word × Byte)) (m : List Host.Cell) : List Host.Cell :=
  ws.foldl (fun m w => Memory.write m w.1.toNat w.2) m

/-- What no operation of the machine can change, and how it can change storage. -/
def Kept (s t : State) : Prop :=
  t.fault = s.fault ∧ t.regions = s.regions ∧ t.params = s.params ∧ t.bankSel.length = s.bankSel.length ∧
    t.sources.length = s.sources.length ∧ ∃ ws, (∀ w ∈ ws, s.InRam w.1) ∧ t.mem = writeAll ws s.mem

theorem Kept.trans (h1 : Kept s t) (h2 : Kept t u) : Kept s u := by
  obtain ⟨a1, a2, a3, a4, a5, ws, a6, a7⟩ := h1
  obtain ⟨b1, b2, b3, b4, b5, vs, b6, b7⟩ := h2
  refine ⟨b1.trans a1, b2.trans a2, b3.trans a3, b4.trans a4, b5.trans a5, ws ++ vs, fun w hw => ?_, ?_⟩
  · rcases List.mem_append.mp hw with h | h
    · exact a6 w h
    · simpa [State.InRam, State.kindAt, a2] using b6 w h
  · rw [b7, a7, writeAll, writeAll, writeAll, List.foldl_append]

/-- Nothing of these changed. -/
theorem Kept.of_eq (h1 : t.fault = s.fault := by rfl) (h2 : t.regions = s.regions := by rfl)
    (h3 : t.params = s.params := by rfl) (h4 : t.bankSel = s.bankSel := by rfl) (h5 : t.sources = s.sources := by rfl)
    (h6 : t.mem = s.mem := by rfl) : Kept s t := ⟨h1, h2, h3, by rw [h4], by rw [h5], [], by simp, h6⟩

/-- A write, to RAM or to a device. -/
theorem Wrote.writes {a : Word} {v : Byte} {m : List Host.Cell} (h : Wrote s a v m) :
    ∃ ws, (∀ w ∈ ws, s.InRam w.1) ∧ m = writeAll ws s.mem := by
  rcases h.2 with hr | ⟨rfl, -⟩
  · exact ⟨[(a, v)], by simpa using hr, h.1 hr⟩
  · exact ⟨[], by simp, rfl⟩

theorem Kept.countCycle (s : State) : Kept s (countCycle s) :=
  ⟨rfl, rfl, rfl, by simp [Machine.countCycle, peripherals, nextBankSel],
    by simp [Machine.countCycle, peripherals, nextSources], [], by simp, rfl⟩

theorem Kept.settle (s : State) : Kept s (settle s) := .of_eq

/-- Storage a chain of RAM writes leaves is in canonical form again. -/
theorem writeAll_wf (ws : List (Word × Byte)) {m : List Host.Cell} (h : Memory.wf m = true) :
    Memory.wf (writeAll ws m) = true := by
  induction ws generalizing m with
  | nil => exact h
  | cons w ws ih => exact ih (Memory.wf_write h w.1 w.2)

/-- A byte none of the writes goes to stays. -/
theorem read_writeAll (ws : List (Word × Byte)) (m : List Host.Cell) {a : Word} (h : ∀ w ∈ ws, w.1 ≠ a) :
    Memory.read (writeAll ws m) a.toNat = Memory.read m a.toNat := by
  induction ws generalizing m with
  | nil => rfl
  | cons w ws ih =>
    rw [writeAll, List.foldl_cons, ← writeAll, ih _ fun v hv => h v (List.mem_cons_of_mem _ hv)]
    refine Memory.read_write_of_ne _ _ fun e => h w List.mem_cons_self (BitVec.eq_of_toNat_eq e.symm)

/-- A byte whose address is not RAM stays. -/
theorem Kept.byteAt (h : Kept s t) {a : Word} (ha : ¬ s.InRam a) : t.byteAt a = s.byteAt a := by
  obtain ⟨-, -, -, -, -, ws, hw, hm⟩ := h
  have : ∀ w ∈ ws, w.1 ≠ a := fun w hx e => ha (by rw [← e]; exact hw w hx)
  rw [State.byteAt, hm, read_writeAll ws s.mem this]
  rfl

theorem Kept.kindAt (h : Kept s t) (a : Word) : t.kindAt a = s.kindAt a := by simp [State.kindAt, h.2.1]

theorem Kept.mem_wf (h : Kept s t) (hs : Memory.wf s.mem = true) : Memory.wf t.mem = true := by
  obtain ⟨-, -, -, -, -, ws, -, hm⟩ := h
  rw [hm]
  exact writeAll_wf ws hs

/-- Every bus operation keeps them. -/
theorem busRead_kept (a : Word) (s : State) : Res.Spec False (busRead a s) fun _ t => ∃ access, t = s.record access :=
  (busRead_spec fun f => f.elim).mono fun _ _ h => let ⟨access, _, e⟩ := h.1; ⟨access, e⟩

theorem busWrite_kept (a : Word) (v : Byte) (s : State) :
    Res.Spec False (busWrite a v s) fun _ t => ∃ m access, Wrote s a v m ∧ t = { s with mem := m }.record access :=
  (busWrite_spec fun f => f.elim).mono fun _ t h =>
    let ⟨access, _, e⟩ := h.1; ⟨t.mem, access, ⟨h.2.1, h.2.2⟩, e⟩

/-! ### One micro-operation -/

/-- What one micro-operation can do, its own removal from the queue apart. -/
def MicroPost (s t : State) : Prop :=
  Kept s t ∧ t.halted = s.halted ∧ t.hookArmed = s.hookArmed ∧ t.cycles = s.cycles ∧
    t.haltRequested = s.haltRequested ∧
    (t.queue = s.queue ∨ ∃ m, t.queue = s.queue ++ [m] ∧ s.queue.length < queueCapacity)

theorem MicroPost.of_eq (h : Kept s t := by exact Kept.of_eq) (h1 : t.halted = s.halted := by rfl)
    (h2 : t.hookArmed = s.hookArmed := by rfl) (h3 : t.cycles = s.cycles := by rfl)
    (h4 : t.haltRequested = s.haltRequested := by rfl) (h5 : t.queue = s.queue := by rfl) : MicroPost s t :=
  ⟨h, h1, h2, h3, h4, .inl h5⟩

/-- A read, then a change of the registers, the flags and the temporaries. -/
theorem microRead {a : Word} {k : Byte → State → Res Unit}
    (h : ∀ v access, Res.Spec False (k v (s.record access)) fun _ t => MicroPost s t) :
    Res.Spec False ((busRead a s).bind k) fun _ t => MicroPost s t :=
  (busRead_kept a s).bind fun v t ht => by obtain ⟨access, rfl⟩ := ht; exact h v access

theorem microFetch {k : Byte → State → Res Unit}
    (h : ∀ v access, Res.Spec False (k v { s.record access with pc := s.pc + 1 }) fun _ t => MicroPost s t) :
    Res.Spec False ((fetchByte s).bind k) fun _ t => MicroPost s t := by
  unfold fetchByte
  rw [Res.bind_assoc]
  exact microRead fun v access => h v access

theorem microIncSp (h : MicroPost s t) : Res.Spec False (incSp t) fun _ u => MicroPost s u := by
  unfold incSp
  split
  · split
    · exact ⟨fun _ _ e => (by cases e), fun f => f.elim⟩
    · exact .ok h
  · exact .ok h

theorem microDecSp (h : MicroPost s t) : Res.Spec False (decSp t) fun _ u => MicroPost s u := by
  unfold decSp
  split
  · split
    · exact ⟨fun _ _ e => (by cases e), fun f => f.elim⟩
    · exact .ok h
  · exact .ok h

theorem microWrite {a : Word} {v : Byte} {k : Unit → State → Res Unit}
    (h : ∀ m access, MicroPost s ({ s with mem := m }.record access) →
      Res.Spec False (k () ({ s with mem := m }.record access)) fun _ t => MicroPost s t) :
    Res.Spec False ((busWrite a v s).bind k) fun _ t => MicroPost s t :=
  (busWrite_kept a v s).bind fun _ t ht => by
    obtain ⟨m, access, hm, rfl⟩ := ht
    exact h m access (.of_eq (h := ⟨rfl, rfl, rfl, rfl, rfl, hm.writes⟩))

theorem microPush (v : Byte) (s : State) : Res.Spec False (push v s) fun _ t => MicroPost s t :=
  microWrite fun _ _ h => microDecSp h

theorem microEnqueue (m : MicroOp) (h : MicroPost s t) (hq : t.queue = s.queue) :
    Res.Spec False (enqueue m t) fun _ u => MicroPost s u := by
  unfold enqueue
  split
  · obtain ⟨h0, h1, h2, h3, h4, -⟩ := h
    exact .ok ⟨h0, h1, h2, h3, h4, .inr ⟨m, by rw [hq], by rwa [hq] at *⟩⟩
  · exact ⟨fun _ _ e => (by cases e), fun f => f.elim⟩

theorem microApply {op : ReadOp} {v : Byte} (h : MicroPost s t) :
    Res.Spec False (op.apply v t) fun _ u => MicroPost s u := by
  refine ⟨fun _ u e => ?_, fun f => f.elim⟩
  cases op <;> simp only [ReadOp.apply, arithmetic] at e <;> (try split at e) <;> (try split at e) <;> cases e <;> exact h

/-- What a micro-operation can do. -/
theorem runMicro_post (m : MicroOp) (s : State) : Res.Spec False (runMicro m s) fun _ t => MicroPost s t := by
  cases m <;> simp only [runMicro]
  case implied op => exact microRead fun v _ => .ok (by cases op <;> exact .of_eq)
  case accumulator op => exact microRead fun v _ => .ok .of_eq
  case immediate op => exact microFetch fun v _ => microApply .of_eq
  case operandLo => exact microFetch fun v _ => .ok .of_eq
  case operandZp => exact microFetch fun v _ => .ok .of_eq
  case operandHi => exact microFetch fun v _ => .ok .of_eq
  case operandHiIndexed i => exact microFetch fun v _ => .ok .of_eq
  case zpIndex i => exact microRead fun v _ => .ok .of_eq
  case pointerIndex => exact microRead fun v _ => .ok .of_eq
  case operandPointer => exact microFetch fun v _ => .ok .of_eq
  case pointerLo => exact microRead fun v _ => .ok .of_eq
  case pointerHi => exact microRead fun v _ => .ok .of_eq
  case pointerHiIndexed => exact microRead fun v _ => .ok .of_eq
  case readEa op => exact microRead fun v _ => microApply .of_eq
  case readUnfixed op =>
    split
    · exact microRead fun v _ => microEnqueue _ .of_eq rfl
    · exact microRead fun v _ => microApply .of_eq
  case discardUnfixed => exact microRead fun v _ => .ok .of_eq
  case writeEa r =>
    have := microWrite (s := s) (a := s.tmp.ea) (v := r.value s) (k := fun _ t => .ok () t) fun m _ h => .ok h
    cases hb : busWrite s.tmp.ea (r.value s) s <;> simpa [hb] using this
  case rmwRead => exact microRead fun v _ => .ok .of_eq
  case rmwWriteOld =>
    have := microWrite (s := s) (a := s.tmp.ea) (v := s.tmp.val) (k := fun _ t => .ok () t) fun m _ h => .ok h
    cases hb : busWrite s.tmp.ea s.tmp.val s <;> simpa [hb] using this
  case rmwWriteNew op => exact microWrite fun m _ h => .ok h
  case branchOperand c =>
    unfold fetchTmp
    rw [Res.bind_assoc]
    refine microFetch fun v _ => ?_
    simp only [Res.ok_bind]
    split
    · exact microEnqueue _ .of_eq rfl
    · exact .ok .of_eq
  case branchTaken =>
    split
    · exact microRead fun v _ => .ok .of_eq
    · unfold readTmp
      rw [Res.bind_assoc]
      exact microRead fun v _ => microEnqueue _ .of_eq rfl
  case branchFix => exact microRead fun v _ => .ok .of_eq
  case jumpHi => exact microRead fun v _ => .ok .of_eq
  case jumpIndirectLo => exact microRead fun v _ => .ok .of_eq
  case jumpIndirectHi => exact microRead fun v _ => .ok .of_eq
  case discardPc => exact microRead fun v _ => .ok .of_eq
  case skipByte => exact microFetch fun v _ => .ok .of_eq
  case discardStack => exact microRead fun v _ => .ok .of_eq
  case pullStart =>
    unfold stackReadInc
    rw [Res.bind_assoc]
    refine microRead fun v _ => ?_
    rw [Res.bind_assoc]
    exact (microIncSp .of_eq).bind fun _ t h => .ok h
  case pullLo => exact microRead fun v _ => microIncSp .of_eq
  case pullHi => exact microRead fun v _ => .ok .of_eq
  case returnIncrement => exact microRead fun v _ => .ok .of_eq
  case pushPcHi => exact microPush _ s
  case pushPcLo => exact microPush _ s
  case pushA => exact microPush _ s
  case pushP => exact microPush _ s
  case pullA => exact microRead fun v _ => .ok .of_eq
  case pullP => exact microRead fun v _ => .ok .of_eq
  case pushStatus soft => exact (microPush _ s).bind fun _ t h => .ok h
  case vectorLo v => exact microRead fun v _ => .ok .of_eq
  case vectorHi v soft => exact microRead fun v _ => .ok .of_eq
  case pullStatus => exact microRead fun v _ => microIncSp .of_eq
  case pullHiReturn => exact microRead fun v _ => .ok .of_eq

/-! ### One tick -/

/-- Enqueueing in order fits the queue and changes nothing else. -/
theorem enqueueAll_spec (ms : List MicroOp) (s : State) (h : s.queue.length ≤ queueCapacity) :
    Res.Spec (s.queue.length + ms.length ≤ queueCapacity) (enqueueAll ms s) fun _ t =>
      t = { s with queue := s.queue ++ ms } ∧ s.queue.length + ms.length ≤ queueCapacity := by
  induction ms generalizing s with
  | nil => exact .ok ⟨by simp, h⟩
  | cons m ms ih =>
    unfold enqueueAll enqueue
    split
    next hlt =>
      have := ih { s with queue := s.queue ++ [m] } (by simpa using hlt)
      simp only [List.length_append, List.length_singleton, List.append_assoc, List.singleton_append] at this
      simp only [Res.ok_bind, List.length_cons]
      rw [show s.queue.length + (ms.length + 1) = s.queue.length + 1 + ms.length by omega]
      exact this
    next hge =>
      exact ⟨fun _ _ e => (by cases e), fun hg => by simp only [List.length_cons] at hg; omega⟩

/-- What the part of a tick before its end can do. -/
def TickPost (s u : State) : Prop :=
  Kept s u ∧ u.cycles = s.cycles ∧ u.haltRequested = s.haltRequested ∧ u.queue.length ≤ queueCapacity ∧
    (u.halted = s.halted ∨ u.queue = []) ∧
    u.hookArmed = (if s.queue = [] ∧ interruptTaken s = none then false else s.hookArmed)

theorem fetchDecodeDispatch_post (h : s.queue = []) :
    Res.Spec False (fetchDecodeDispatch s) fun _ u => Kept s u ∧ u.cycles = s.cycles ∧
      u.haltRequested = s.haltRequested ∧ u.queue.length ≤ queueCapacity ∧ (u.halted = s.halted ∨ u.queue = []) ∧
      u.hookArmed = s.hookArmed := by
  unfold fetchDecodeDispatch fetchByte
  rw [Res.bind_assoc]
  refine (busRead_kept s.pc s).bind fun v t ht => ?_
  obtain ⟨_, rfl⟩ := ht
  simp only [Res.ok_bind]
  split
  · exact ⟨fun _ _ e => (by cases e), fun f => f.elim⟩
  split
  · exact ⟨fun _ _ e => (by cases e), fun f => f.elim⟩
  next mn mode hd _ ms hms =>
    by_cases hh : mn = .hlt
    · subst hh
      have : ms = [] := by
        cases mode <;> simp [sequenceOf, operationOf] at hms
        exact hms
      subst this
      exact .ok ⟨.of_eq, rfl, rfl, by simp [h], .inr (by simp [h]), rfl⟩
    · rw [if_neg hh]
      refine ((enqueueAll_spec ms _ (by simp [h])).mono fun _ u hu => ?_).weaken
      rw [hu.1]
      exact ⟨.of_eq, rfl, rfl, by simpa using hu.2, .inl rfl, rfl⟩

/-- One tick: what `u` is at the end of step 2, then the count and, with the queue empty, the end of the instruction. -/
theorem tickRes_post (h : s.queue.length ≤ queueCapacity) :
    Res.Spec False (tickRes s) fun _ t => ∃ u, TickPost s u ∧
      t = if (countCycle u).queue.isEmpty then settle (countCycle u) else countCycle u := by
  unfold tickRes
  refine Res.Spec.bind (P := fun _ u => TickPost s u) ?_ fun _ u hu => .ok ⟨u, hu, rfl⟩
  split
  next m q hq =>
    rw [hq] at h
    simp only [List.length_cons] at h
    refine (runMicro_post m { s with queue := q }).mono fun _ u hu => ?_
    obtain ⟨h0, h1, h2, h3, h4, h5⟩ := hu
    refine ⟨h0, h3, h4, ?_, .inl h1, by simp [hq, h2]⟩
    rcases h5 with h5 | ⟨m', h5, h6⟩
    · rw [h5]; simp only; omega
    · rw [h5]; simp only [List.length_append, List.length_singleton]; simp only at h6; omega
  next hq =>
    unfold boundaryTick
    split
    next v hv =>
      refine ((enqueueAll_spec (serviceSequence v s.params.intEntryDummy) s h).mono fun _ u hu => ?_).weaken
      rw [hu.1]
      exact ⟨.of_eq, rfl, rfl, by simpa using hu.2, .inl rfl, by simp [hv]⟩
    next hv =>
      refine (fetchDecodeDispatch_post (s := fireHook s) hq).mono fun _ u hu => ?_
      obtain ⟨h0, h1, h2, h3, h4, h5⟩ := hu
      exact ⟨h0, h1, h2, h3, h4, by rw [h5]; simp [hq, hv, fireHook]⟩

/-! ### Whole instructions and interrupt entries -/

theorem Ended.kept {r t : State} (h : Ended r t) (hk : Kept s r) : Kept s t :=
  hk.trans ⟨h.fault, h.regions, h.params, h.bankSel, h.sources, [], by simp, h.mem⟩

/-- Registers changed and storage written. -/
theorem Kept.of_writes {m : List Host.Cell} (h : ∃ ws, (∀ w ∈ ws, s.InRam w.1) ∧ m = writeAll ws s.mem)
    (h1 : t.fault = s.fault := by rfl) (h2 : t.regions = s.regions := by rfl) (h3 : t.params = s.params := by rfl)
    (h4 : t.bankSel = s.bankSel := by rfl) (h5 : t.sources = s.sources := by rfl) (h6 : t.mem = m := by rfl) : Kept s t := by
  obtain ⟨ws, hw, hm⟩ := h
  exact ⟨h1, h2, h3, by rw [h4], by rw [h5], ws, hw, h6.trans hm⟩

/-- One write after others. -/
theorem writes_snoc {m m' : List Host.Cell} {a : Word} {v : Byte}
    (h : ∃ ws, (∀ w ∈ ws, s.InRam w.1) ∧ m = writeAll ws s.mem) (hw : Wrote { s with mem := m } a v m') :
    ∃ ws, (∀ w ∈ ws, s.InRam w.1) ∧ m' = writeAll ws s.mem := by
  obtain ⟨ws, h1, rfl⟩ := h
  obtain ⟨vs, h2, h3⟩ := hw.writes
  refine ⟨ws ++ vs, fun w hx => (List.mem_append.mp hx).elim (h1 w) (h2 w), ?_⟩
  rw [h3, writeAll, writeAll, writeAll, List.foldl_append]

theorem Pushed3.writes {b1 b2 b3 : Byte} {m : List Host.Cell} (h : Pushed3 s b1 b2 b3 m) :
    ∃ ws, (∀ w ∈ ws, s.InRam w.1) ∧ m = writeAll ws s.mem := by
  obtain ⟨m1, m2, h1, h2, h3⟩ := h
  exact writes_snoc (writes_snoc h1.writes h2) h3

theorem rmwMem_writes {op : RmwOp} {ea : Word} {v : Byte} {m : List Host.Cell} (h : rmwMem op ea v s m) :
    ∃ ws, (∀ w ∈ ws, s.InRam w.1) ∧ m = writeAll ws s.mem := by
  rcases h.2 with hr | ⟨rfl, -⟩
  · exact ⟨[(ea, v), (ea, (op.apply v s.p).1)], by simpa using hr, h.1 hr⟩
  · exact ⟨[], by simp, rfl⟩

/-- An instruction keeps the map, the parameters and everything but RAM. -/
theorem exec_kept {i : Instr} (h : exec i s = .next t) : Kept s t := by
  have hp := exec_post h
  unfold ExecPost at hp
  split at hp
  next op _ =>
    obtain ⟨v, r, h1, h2⟩ := hp
    refine h2.kept ?_
    cases op <;> simp only [ReadOp.apply, arithmetic] at h1 <;> (try split at h1) <;> (try split at h1) <;> cases h1 <;>
      exact .of_eq
  next r _ =>
    obtain ⟨ea, m, -, h1, h2⟩ := hp
    exact h2.kept (.of_writes h1.writes)
  next op _ =>
    split at hp
    · exact hp.kept .of_eq
    · obtain ⟨ea, v, m, -, h1, h2⟩ := hp
      exact h2.kept (.of_writes (rmwMem_writes h1))
  next op _ => exact hp.kept (by cases op <;> exact .of_eq)
  next c _ => obtain ⟨pc, h1⟩ := hp; exact h1.kept .of_eq
  next => obtain ⟨pc, h1⟩ := hp; exact h1.kept .of_eq
  next => obtain ⟨pc, m1, m2, h1, h2, h3⟩ := hp; exact h3.kept (.of_writes (writes_snoc h1.writes h2))
  next => obtain ⟨pc, h1⟩ := hp; exact h1.kept .of_eq
  next => obtain ⟨m, h1, h2⟩ := hp; exact h2.kept (.of_writes h1.writes)
  next => obtain ⟨m, h1, h2⟩ := hp; exact h2.kept (.of_writes h1.writes)
  next => obtain ⟨v, h1⟩ := hp; exact h1.kept .of_eq
  next => obtain ⟨v, h1⟩ := hp; exact h1.kept .of_eq
  next => obtain ⟨pc, m, h1, h2⟩ := hp; exact h2.kept (.of_writes h1.writes)
  next => obtain ⟨b, pc, h1⟩ := hp; exact h1.kept .of_eq
  next => exact hp.kept .of_eq

/-- The dummy ticks of an interrupt entry (60_exceptions.md R408). -/
theorem dummyCycles_spec (k : Nat) (hT : Ticked n s t) (h : 0 < k → g → s.Readable s.pc) :
    Res.Spec g (dummyCycles k t) fun _ u => Ticked (n + k) s u := by
  induction k generalizing n t with
  | zero => exact .ok hT
  | succ k ih =>
    unfold dummyCycles
    rw [hT.pc]
    refine (cycleRead_spec hT (h (Nat.succ_pos k))).bind fun _ u hu => ?_
    rw [Nat.add_comm k 1, ← Nat.add_assoc]
    exact ih hu.1 fun _ => h (Nat.succ_pos k)

/-- A hardware interrupt entry (60_exceptions.md R408). -/
theorem serviceInterrupt_spec (v : VectorId)
    (h : g → serviceFits s = true ∧ (0 < s.params.intEntryDummy → s.Readable s.pc) ∧
      (∀ k : Fin 3, s.Writable (stackAddr (s.sp - BitVec.ofNat 8 k))) ∧ s.CanPush3 ∧ s.Readable v.addr ∧
      s.Readable (v.addr + 1)) :
    Res.Spec g (serviceInterrupt v s) fun _ u => s.CanPush3 ∧
      ∃ m lo hi w, Pushed3 s (hiByte s.pc) (loByte s.pc) (pack s.p) m ∧
        (s.Stored v.addr → lo = { s with mem := m }.byteAt v.addr) ∧
        (s.Stored (v.addr + 1) → hi = { s with mem := m }.byteAt (v.addr + 1)) ∧
        Ticked (6 + s.params.intEntryDummy) { s with
          pc := mkWord hi lo, sp := s.sp - 3, p := { s.p with i := true }, mem := m, inISR := true } w ∧
        u = settle w := by
  unfold serviceInterrupt
  split
  next =>
    refine (cycle_spec (P := fun _ u => u = s) (Q := fun _ u => Ticked 1 s u) (.ok rfl) fun _ u hu => ?_).bind
      fun _ u hu => ?_
    · subst hu; exact (Ticked.refl u).count
    rw [hu.params]
    refine (dummyCycles_spec _ hu fun h0 hg => (h hg).2.1 h0).bind fun _ u hu => ?_
    refine (takeException_spec v false hu fun hg => (h hg).2.2).mono fun _ u hu => ?_
    obtain ⟨h0, m, lo, hi, w, h1, h2, h3, h4, h5⟩ := hu
    refine ⟨h0, m, lo, hi, w, h1, h2, h3, ?_, h5⟩
    rw [show 6 + s.params.intEntryDummy = 1 + s.params.intEntryDummy + 5 by omega]
    simpa using h4
  next hf => exact ⟨fun _ _ e => (by cases e), fun hg => absurd (h hg).1 hf⟩

end Sys2Proof.Machine
end

