-- ==== Sys2Proof/Tests/Slice0.lean ====
section
/-! SUPPORT. Tests: ill-formed terms, the words of the opcode map, single steps and ticks with the results spec/ gives
(95_test_vectors.md; never the model's own answer), and a witness for the hypotheses of every statement. -/

namespace Sys2Proof.Tests

open Sys2Proof Sys2Proof.Machine

/-! ### Well-formedness -/

/-- STA IMM is no pair (30_encoding.md R104). -/
theorem test_ill_formed_pair : (AsmInstr.mk .sta .imm 0).wellFormed = false := by decide

/-- A one-byte operand is at most 255 (30_encoding.md R103). -/
theorem test_ill_formed_operand : (AsmInstr.mk .lda .zp 0x100).wellFormed = false := by decide

/-- A mode without operand bytes takes none. -/
theorem test_ill_formed_no_operand : (AsmInstr.mk .tax .imp 1).wellFormed = false := by decide

/-- An instruction of each operand width is accepted at the top of its range. -/
theorem test_well_formed : ((AsmInstr.mk .lda .zp 0xFF).wellFormed && (AsmInstr.mk .jmp .ind 0xFFFF).wellFormed &&
    (AsmInstr.mk .tax .imp 0).wellFormed) = true := by decide

/-- HLT_OPCODE must be an unassigned byte (30_encoding.md R106). -/
theorem test_ill_formed_hlt : Instr.wellFormed 0xA9 .hlt = false ∧ Instr.wellFormed 0x02 .hlt = true ∧
    Instr.wellFormed 0xA9 .tax = true := by decide

/-! ### Decoding: the words of the opcode map -/

/-- `bytes` decode to `i`, and `i` encodes to them. -/
def reads (bytes : List Byte) (i : Instr) : Bool :=
  match decode 0x02 bytes with
  | .ok (j, rest) => j == i && rest.isEmpty && encode 0x02 i == bytes
  | .error _ => false

/-- 30_encoding.md R104, row 0x. -/
theorem test_decode_0x :
    (reads [0x00] (.brk) && reads [0x01, 0x8F] (.oraIzx 0x8F) && reads [0x05, 0x8F] (.oraZp 0x8F) &&
    reads [0x06, 0x8F] (.aslZp 0x8F) && reads [0x08] (.php) && reads [0x09, 0x8F] (.oraImm 0x8F) &&
    reads [0x0A] (.aslAcc) && reads [0x0D, 0x34, 0x12] (.oraAbs 0x1234) && reads [0x0E, 0x34, 0x12] (.aslAbs 0x1234) &&
    reads [0x02] (.hlt)) = true := by decide

/-- 30_encoding.md R104, row 1x. -/
theorem test_decode_1x :
    (reads [0x10, 0x8F] (.bpl 0x8F) && reads [0x11, 0x8F] (.oraIzy 0x8F) && reads [0x15, 0x8F] (.oraZpx 0x8F) &&
    reads [0x16, 0x8F] (.aslZpx 0x8F) && reads [0x18] (.clc) && reads [0x19, 0x34, 0x12] (.oraAby 0x1234) &&
    reads [0x1D, 0x34, 0x12] (.oraAbx 0x1234) && reads [0x1E, 0x34, 0x12] (.aslAbx 0x1234)) = true := by decide

/-- 30_encoding.md R104, row 2x. -/
theorem test_decode_2x :
    (reads [0x20, 0x34, 0x12] (.jsr 0x1234) && reads [0x21, 0x8F] (.andIzx 0x8F) && reads [0x24, 0x8F] (.bitZp 0x8F) &&
    reads [0x25, 0x8F] (.andZp 0x8F) && reads [0x26, 0x8F] (.rolZp 0x8F) && reads [0x28] (.plp) &&
    reads [0x29, 0x8F] (.andImm 0x8F) && reads [0x2A] (.rolAcc) && reads [0x2C, 0x34, 0x12] (.bitAbs 0x1234) &&
    reads [0x2D, 0x34, 0x12] (.andAbs 0x1234) && reads [0x2E, 0x34, 0x12] (.rolAbs 0x1234)) = true := by decide

/-- 30_encoding.md R104, row 3x. -/
theorem test_decode_3x :
    (reads [0x30, 0x8F] (.bmi 0x8F) && reads [0x31, 0x8F] (.andIzy 0x8F) && reads [0x35, 0x8F] (.andZpx 0x8F) &&
    reads [0x36, 0x8F] (.rolZpx 0x8F) && reads [0x38] (.sec) && reads [0x39, 0x34, 0x12] (.andAby 0x1234) &&
    reads [0x3D, 0x34, 0x12] (.andAbx 0x1234) && reads [0x3E, 0x34, 0x12] (.rolAbx 0x1234)) = true := by decide

/-- 30_encoding.md R104, row 4x. -/
theorem test_decode_4x :
    (reads [0x40] (.rti) && reads [0x41, 0x8F] (.eorIzx 0x8F) && reads [0x45, 0x8F] (.eorZp 0x8F) &&
    reads [0x46, 0x8F] (.lsrZp 0x8F) && reads [0x48] (.pha) && reads [0x49, 0x8F] (.eorImm 0x8F) &&
    reads [0x4A] (.lsrAcc) && reads [0x4C, 0x34, 0x12] (.jmpAbs 0x1234) && reads [0x4D, 0x34, 0x12] (.eorAbs 0x1234) &&
    reads [0x4E, 0x34, 0x12] (.lsrAbs 0x1234)) = true := by decide

/-- 30_encoding.md R104, row 5x. -/
theorem test_decode_5x :
    (reads [0x50, 0x8F] (.bvc 0x8F) && reads [0x51, 0x8F] (.eorIzy 0x8F) && reads [0x55, 0x8F] (.eorZpx 0x8F) &&
    reads [0x56, 0x8F] (.lsrZpx 0x8F) && reads [0x58] (.cli) && reads [0x59, 0x34, 0x12] (.eorAby 0x1234) &&
    reads [0x5D, 0x34, 0x12] (.eorAbx 0x1234) && reads [0x5E, 0x34, 0x12] (.lsrAbx 0x1234)) = true := by decide

/-- 30_encoding.md R104, row 6x. -/
theorem test_decode_6x :
    (reads [0x60] (.rts) && reads [0x61, 0x8F] (.adcIzx 0x8F) && reads [0x65, 0x8F] (.adcZp 0x8F) &&
    reads [0x66, 0x8F] (.rorZp 0x8F) && reads [0x68] (.pla) && reads [0x69, 0x8F] (.adcImm 0x8F) &&
    reads [0x6A] (.rorAcc) && reads [0x6C, 0x34, 0x12] (.jmpInd 0x1234) && reads [0x6D, 0x34, 0x12] (.adcAbs 0x1234) &&
    reads [0x6E, 0x34, 0x12] (.rorAbs 0x1234)) = true := by decide

/-- 30_encoding.md R104, row 7x. -/
theorem test_decode_7x :
    (reads [0x70, 0x8F] (.bvs 0x8F) && reads [0x71, 0x8F] (.adcIzy 0x8F) && reads [0x75, 0x8F] (.adcZpx 0x8F) &&
    reads [0x76, 0x8F] (.rorZpx 0x8F) && reads [0x78] (.sei) && reads [0x79, 0x34, 0x12] (.adcAby 0x1234) &&
    reads [0x7D, 0x34, 0x12] (.adcAbx 0x1234) && reads [0x7E, 0x34, 0x12] (.rorAbx 0x1234)) = true := by decide

/-- 30_encoding.md R104, row 8x. -/
theorem test_decode_8x :
    (reads [0x81, 0x8F] (.staIzx 0x8F) && reads [0x84, 0x8F] (.styZp 0x8F) && reads [0x85, 0x8F] (.staZp 0x8F) &&
    reads [0x86, 0x8F] (.stxZp 0x8F) && reads [0x88] (.dey) && reads [0x8A] (.txa) &&
    reads [0x8C, 0x34, 0x12] (.styAbs 0x1234) && reads [0x8D, 0x34, 0x12] (.staAbs 0x1234) && reads [0x8E, 0x34, 0x12] (.stxAbs 0x1234)) = true := by decide

/-- 30_encoding.md R104, row 9x. -/
theorem test_decode_9x :
    (reads [0x90, 0x8F] (.bcc 0x8F) && reads [0x91, 0x8F] (.staIzy 0x8F) && reads [0x94, 0x8F] (.styZpx 0x8F) &&
    reads [0x95, 0x8F] (.staZpx 0x8F) && reads [0x96, 0x8F] (.stxZpy 0x8F) && reads [0x98] (.tya) &&
    reads [0x99, 0x34, 0x12] (.staAby 0x1234) && reads [0x9A] (.txs) && reads [0x9D, 0x34, 0x12] (.staAbx 0x1234)) = true := by decide

/-- 30_encoding.md R104, row Ax. -/
theorem test_decode_ax :
    (reads [0xA0, 0x8F] (.ldyImm 0x8F) && reads [0xA1, 0x8F] (.ldaIzx 0x8F) && reads [0xA2, 0x8F] (.ldxImm 0x8F) &&
    reads [0xA4, 0x8F] (.ldyZp 0x8F) && reads [0xA5, 0x8F] (.ldaZp 0x8F) && reads [0xA6, 0x8F] (.ldxZp 0x8F) &&
    reads [0xA8] (.tay) && reads [0xA9, 0x8F] (.ldaImm 0x8F) && reads [0xAA] (.tax) &&
    reads [0xAC, 0x34, 0x12] (.ldyAbs 0x1234) && reads [0xAD, 0x34, 0x12] (.ldaAbs 0x1234) && reads [0xAE, 0x34, 0x12] (.ldxAbs 0x1234)) = true := by decide

/-- 30_encoding.md R104, row Bx. -/
theorem test_decode_bx :
    (reads [0xB0, 0x8F] (.bcs 0x8F) && reads [0xB1, 0x8F] (.ldaIzy 0x8F) && reads [0xB4, 0x8F] (.ldyZpx 0x8F) &&
    reads [0xB5, 0x8F] (.ldaZpx 0x8F) && reads [0xB6, 0x8F] (.ldxZpy 0x8F) && reads [0xB8] (.clv) &&
    reads [0xB9, 0x34, 0x12] (.ldaAby 0x1234) && reads [0xBA] (.tsx) && reads [0xBC, 0x34, 0x12] (.ldyAbx 0x1234) &&
    reads [0xBD, 0x34, 0x12] (.ldaAbx 0x1234) && reads [0xBE, 0x34, 0x12] (.ldxAby 0x1234)) = true := by decide

/-- 30_encoding.md R104, row Cx. -/
theorem test_decode_cx :
    (reads [0xC0, 0x8F] (.cpyImm 0x8F) && reads [0xC1, 0x8F] (.cmpIzx 0x8F) && reads [0xC4, 0x8F] (.cpyZp 0x8F) &&
    reads [0xC5, 0x8F] (.cmpZp 0x8F) && reads [0xC6, 0x8F] (.decZp 0x8F) && reads [0xC8] (.iny) &&
    reads [0xC9, 0x8F] (.cmpImm 0x8F) && reads [0xCA] (.dex) && reads [0xCC, 0x34, 0x12] (.cpyAbs 0x1234) &&
    reads [0xCD, 0x34, 0x12] (.cmpAbs 0x1234) && reads [0xCE, 0x34, 0x12] (.decAbs 0x1234)) = true := by decide

/-- 30_encoding.md R104, row Dx. -/
theorem test_decode_dx :
    (reads [0xD0, 0x8F] (.bne 0x8F) && reads [0xD1, 0x8F] (.cmpIzy 0x8F) && reads [0xD5, 0x8F] (.cmpZpx 0x8F) &&
    reads [0xD6, 0x8F] (.decZpx 0x8F) && reads [0xD8] (.cld) && reads [0xD9, 0x34, 0x12] (.cmpAby 0x1234) &&
    reads [0xDD, 0x34, 0x12] (.cmpAbx 0x1234) && reads [0xDE, 0x34, 0x12] (.decAbx 0x1234)) = true := by decide

/-- 30_encoding.md R104, row Ex. -/
theorem test_decode_ex :
    (reads [0xE0, 0x8F] (.cpxImm 0x8F) && reads [0xE1, 0x8F] (.sbcIzx 0x8F) && reads [0xE4, 0x8F] (.cpxZp 0x8F) &&
    reads [0xE5, 0x8F] (.sbcZp 0x8F) && reads [0xE6, 0x8F] (.incZp 0x8F) && reads [0xE8] (.inx) &&
    reads [0xE9, 0x8F] (.sbcImm 0x8F) && reads [0xEA] (.nop) && reads [0xEC, 0x34, 0x12] (.cpxAbs 0x1234) &&
    reads [0xED, 0x34, 0x12] (.sbcAbs 0x1234) && reads [0xEE, 0x34, 0x12] (.incAbs 0x1234)) = true := by decide

/-- 30_encoding.md R104, row Fx. -/
theorem test_decode_fx :
    (reads [0xF0, 0x8F] (.beq 0x8F) && reads [0xF1, 0x8F] (.sbcIzy 0x8F) && reads [0xF5, 0x8F] (.sbcZpx 0x8F) &&
    reads [0xF6, 0x8F] (.incZpx 0x8F) && reads [0xF8] (.sed) && reads [0xF9, 0x34, 0x12] (.sbcAby 0x1234) &&
    reads [0xFD, 0x34, 0x12] (.sbcAbx 0x1234) && reads [0xFE, 0x34, 0x12] (.incAbx 0x1234)) = true := by decide

/-- An operand byte is not looked at as an opcode, and the bytes after the instruction are left (30_encoding.md R100). -/
theorem test_decode_rest : decode 0x02 [0xA2, 0xFF, 0x9A] = .ok (.ldxImm 0xFF, [0x9A]) := rfl

/-- The first and the last byte of 30_encoding.md R105 are refused by name, 0x02 when HLT is elsewhere. -/
theorem test_decode_unassigned : decode 0x02 [0x03] = .error (.unassignedOpcode 0x03) ∧
    decode 0x02 [0xFF] = .error (.unassignedOpcode 0xFF) ∧ decode 0xFC [0x02] = .error (.unassignedOpcode 0x02) :=
  ⟨rfl, rfl, rfl⟩

/-- The table's numbering: `JSR $1006` is 20 06 10, its first byte bits 7..0. -/
theorem test_table_word : decodeTableWord 24 0x100620 = some (.jsr 0x1006) ∧ decodeTableWord 8 0xEA = some .nop := by
  decide

/-- What `withFetchWord` places is fetched and run as the first instruction after reset. -/
theorem test_with_fetch_word : (match step (State.reset.withFetchWord 16 0x42A9) with
    | .next t => t.a == 0x42 && t.pc == 2
    | _ => false) = true := by decide

/-! ### Single steps (95_test_vectors.md) -/

/-- The default start state of 95_test_vectors.md, with `code` at `pc` and `data` in memory. -/
def boot (pc : Word) (code : List Byte) (data : List (Word × Byte)) : State :=
  { State.reset with
    pc := pc
    bus := []
    mem := data.foldl (fun m c => Memory.write m c.1.toNat c.2) (storeBytes code pc []) }

/-- An expected end: the registers, the flags and the cycle count. -/
structure End where
  a : Byte
  x : Byte
  y : Byte
  sp : Byte
  pc : Word
  p : Flags
  cycles : Nat
  deriving DecidableEq, Repr

/-- The registers, flags and cycles of a state. -/
def endOf (s : State) : End := ⟨s.a, s.x, s.y, s.sp, s.pc, s.p, s.cycles⟩

/-- A next state that ends as `e` says after the bus accesses `bus`. -/
def shows (o : Host.Outcome State Fault Refusal) (e : End) (bus : List BusAccess) : Bool :=
  match o with
  | .next t => endOf t == e && t.bus.reverse == bus
  | _ => false

/-- The fault `f`. -/
def faults (o : Host.Outcome State Fault Refusal) (f : Fault) : Bool :=
  match o with
  | .fault g => g == f
  | _ => false

/-- 95_test_vectors.md V4, `LDA $F0,X`. -/
theorem test_lda_zpx_wraps_in_page_zero :
    shows (step { boot 0x1000 [0xB5, 0xF0] [(0x0010, 0x33), (0x0110, 0x44)] with x := 0x20 })
    ⟨0x33, 0x20, 0x00, 0xFF, 0x1002, ⟨false, false, false, false, true, false, false⟩, 4⟩
    [.read 0x1000 0xB5, .read 0x1001 0xF0, .read 0x00F0 0x00, .read 0x0010 0x33] = true := by decide

/-- 95_test_vectors.md V6, `LDA $20FE,X`. -/
theorem test_lda_abx_page_cross :
    shows (step { boot 0x1000 [0xBD, 0xFE, 0x20] [(0x2103, 0x77), (0x2003, 0x11)] with x := 0x05 })
    ⟨0x77, 0x05, 0x00, 0xFF, 0x1003, ⟨false, false, false, false, true, false, false⟩, 5⟩
    [.read 0x1000 0xBD, .read 0x1001 0xFE, .read 0x1002 0x20, .read 0x2003 0x11, .read 0x2103 0x77] = true := by decide

/-- 95_test_vectors.md V8, `LDA $FFFF,X`. -/
theorem test_lda_abx_wraps_at_top_of_memory :
    shows (step { boot 0x1000 [0xBD, 0xFF, 0xFF] [(0x0000, 0x5A), (0xFF00, 0xA5)] with x := 0x01 })
    ⟨0x5A, 0x01, 0x00, 0xFF, 0x1003, ⟨false, false, false, false, true, false, false⟩, 5⟩
    [.read 0x1000 0xBD, .read 0x1001 0xFF, .read 0x1002 0xFF, .read 0xFF00 0xA5, .read 0x0000 0x5A] = true := by decide

/-- 95_test_vectors.md V10, `LDA ($FE,X)`. -/
theorem test_lda_izx_pointer_wraps :
    shows (step { boot 0x1000 [0xA1, 0xFE] [(0x00FF, 0x34), (0x0000, 0x12), (0x1234, 0x99)] with x := 0x01 })
    ⟨0x99, 0x01, 0x00, 0xFF, 0x1002, ⟨true, false, false, false, true, false, false⟩, 6⟩
    [.read 0x1000 0xA1, .read 0x1001 0xFE, .read 0x00FE 0x00, .read 0x00FF 0x34, .read 0x0000 0x12, .read 0x1234 0x99] = true := by decide

/-- 95_test_vectors.md V11, `LDA ($10),Y`. -/
theorem test_lda_izy_page_cross :
    shows (step { boot 0x1000 [0xB1, 0x10] [(0x0010, 0xF8), (0x0011, 0x20), (0x2108, 0x42), (0x2008, 0x24)] with y := 0x10 })
    ⟨0x42, 0x00, 0x10, 0xFF, 0x1002, ⟨false, false, false, false, true, false, false⟩, 6⟩
    [.read 0x1000 0xB1, .read 0x1001 0x10, .read 0x0010 0xF8, .read 0x0011 0x20, .read 0x2008 0x24, .read 0x2108 0x42] = true := by decide

/-- 95_test_vectors.md V12, `LDA ($FF),Y`. -/
theorem test_lda_izy_pointer_wraps :
    shows (step { boot 0x1000 [0xB1, 0xFF] [(0x00FF, 0x00), (0x0000, 0x30), (0x3001, 0xEE)] with y := 0x01 })
    ⟨0xEE, 0x00, 0x01, 0xFF, 0x1002, ⟨true, false, false, false, true, false, false⟩, 5⟩
    [.read 0x1000 0xB1, .read 0x1001 0xFF, .read 0x00FF 0x00, .read 0x0000 0x30, .read 0x3001 0xEE] = true := by decide

/-- 95_test_vectors.md V14, `LDX $F0,Y`. -/
theorem test_ldx_zpy_wraps :
    shows (step { boot 0x1000 [0xB6, 0xF0] [(0x0010, 0x81)] with y := 0x20 })
    ⟨0x00, 0x81, 0x20, 0xFF, 0x1002, ⟨true, false, false, false, true, false, false⟩, 4⟩
    [.read 0x1000 0xB6, .read 0x1001 0xF0, .read 0x00F0 0x00, .read 0x0010 0x81] = true := by decide

/-- 95_test_vectors.md V17, `LDY $3000,X`. -/
theorem test_ldy_abx_no_cross :
    shows (step { boot 0x1000 [0xBC, 0x00, 0x30] [(0x30FF, 0x00)] with x := 0xFF })
    ⟨0x00, 0xFF, 0x00, 0xFF, 0x1003, ⟨false, false, false, false, true, true, false⟩, 4⟩
    [.read 0x1000 0xBC, .read 0x1001 0x00, .read 0x1002 0x30, .read 0x30FF 0x00] = true := by decide

/-- 95_test_vectors.md V20, `STA $40FF,X`. -/
theorem test_sta_abx_discarded_read :
    shows (step { boot 0x1000 [0x9D, 0xFF, 0x40] [] with a := 0xAA, x := 0x01 })
    ⟨0xAA, 0x01, 0x00, 0xFF, 0x1003, ⟨false, false, false, false, true, false, false⟩, 5⟩
    [.read 0x1000 0x9D, .read 0x1001 0xFF, .read 0x1002 0x40, .read 0x4000 0x00, .write 0x4100 0xAA] = true := by decide

/-- 95_test_vectors.md V24, `STA ($10),Y`. -/
theorem test_sta_izy_page_cross :
    shows (step { boot 0x1000 [0x91, 0x10] [(0x0010, 0xFF), (0x0011, 0x20)] with a := 0x88, y := 0x01 })
    ⟨0x88, 0x00, 0x01, 0xFF, 0x1002, ⟨false, false, false, false, true, false, false⟩, 6⟩
    [.read 0x1000 0x91, .read 0x1001 0x10, .read 0x0010 0xFF, .read 0x0011 0x20, .read 0x2000 0x00, .write 0x2100 0x88] = true := by decide

/-- 95_test_vectors.md V27, `STX $FF,Y`. -/
theorem test_stx_zpy_wraps :
    shows (step { boot 0x1000 [0x96, 0xFF] [] with x := 0x09, y := 0x02 })
    ⟨0x00, 0x09, 0x02, 0xFF, 0x1002, ⟨false, false, false, false, true, false, false⟩, 4⟩
    [.read 0x1000 0x96, .read 0x1001 0xFF, .read 0x00FF 0x00, .write 0x0001 0x09] = true := by decide

/-- 95_test_vectors.md V30, `STY $10,X`. -/
theorem test_sty_zpx :
    shows (step { boot 0x1000 [0x94, 0x10] [] with x := 0x01, y := 0x03 })
    ⟨0x00, 0x01, 0x03, 0xFF, 0x1002, ⟨false, false, false, false, true, false, false⟩, 4⟩
    [.read 0x1000 0x94, .read 0x1001 0x10, .read 0x0010 0x00, .write 0x0011 0x03] = true := by decide

/-- 95_test_vectors.md V32, `TAX`. -/
theorem test_tax :
    shows (step { boot 0x1000 [0xAA] [] with a := 0x80 })
    ⟨0x80, 0x80, 0x00, 0xFF, 0x1001, ⟨true, false, false, false, true, false, false⟩, 2⟩
    [.read 0x1000 0xAA, .read 0x1001 0x00] = true := by decide

/-- 95_test_vectors.md V33, `TAY`. -/
theorem test_tay :
    shows (step { boot 0x1000 [0xA8] [] with y := 0x05 })
    ⟨0x00, 0x00, 0x00, 0xFF, 0x1001, ⟨false, false, false, false, true, true, false⟩, 2⟩
    [.read 0x1000 0xA8, .read 0x1001 0x00] = true := by decide

/-- 95_test_vectors.md V34, `TXA`. -/
theorem test_txa :
    shows (step { boot 0x1000 [0x8A] [] with a := 0xFF, x := 0x7F })
    ⟨0x7F, 0x7F, 0x00, 0xFF, 0x1001, ⟨false, false, false, false, true, false, false⟩, 2⟩
    [.read 0x1000 0x8A, .read 0x1001 0x00] = true := by decide

/-- 95_test_vectors.md V35, `TYA`. -/
theorem test_tya :
    shows (step { boot 0x1000 [0x98] [] with a := 0x01 })
    ⟨0x00, 0x00, 0x00, 0xFF, 0x1001, ⟨false, false, false, false, true, true, false⟩, 2⟩
    [.read 0x1000 0x98, .read 0x1001 0x00] = true := by decide

/-- 95_test_vectors.md V36, `TSX`. -/
theorem test_tsx :
    shows (step { boot 0x1000 [0xBA] [] with sp := 0xF0 })
    ⟨0x00, 0xF0, 0x00, 0xF0, 0x1001, ⟨true, false, false, false, true, false, false⟩, 2⟩
    [.read 0x1000 0xBA, .read 0x1001 0x00] = true := by decide

/-- 95_test_vectors.md V38, `TXS`. -/
theorem test_txs_keeps_flags :
    shows (step (boot 0x1000 [0x9A] []))
    ⟨0x00, 0x00, 0x00, 0x00, 0x1001, ⟨false, false, false, false, true, false, false⟩, 2⟩
    [.read 0x1000 0x9A, .read 0x1001 0x00] = true := by decide

/-- 95_test_vectors.md V42, `ADC #$01`. -/
theorem test_adc_overflow :
    shows (step { boot 0x1000 [0x69, 0x01] [] with a := 0x7F })
    ⟨0x80, 0x00, 0x00, 0xFF, 0x1002, ⟨true, true, false, false, true, false, false⟩, 2⟩
    [.read 0x1000 0x69, .read 0x1001 0x01] = true := by decide

/-- 95_test_vectors.md V47, `ADC $2000,X`. -/
theorem test_adc_abx_with_carry :
    shows (step { boot 0x1000 [0x7D, 0x00, 0x20] [(0x20FF, 0x20)] with a := 0x10, x := 0xFF, p := ⟨false, false, false, false, true, false, true⟩ })
    ⟨0x31, 0xFF, 0x00, 0xFF, 0x1003, ⟨false, false, false, false, true, false, false⟩, 4⟩
    [.read 0x1000 0x7D, .read 0x1001 0x00, .read 0x1002 0x20, .read 0x20FF 0x20] = true := by decide

/-- 95_test_vectors.md V49, `SBC #$01`. -/
theorem test_sbc_overflow :
    shows (step { boot 0x1000 [0xE9, 0x01] [] with a := 0x80, p := ⟨false, false, false, false, true, false, true⟩ })
    ⟨0x7F, 0x00, 0x00, 0xFF, 0x1002, ⟨false, true, false, false, true, false, true⟩, 2⟩
    [.read 0x1000 0xE9, .read 0x1001 0x01] = true := by decide

/-- 95_test_vectors.md V52, `SBC #$00`. -/
theorem test_sbc_borrow_in :
    shows (step (boot 0x1000 [0xE9, 0x00] []))
    ⟨0xFF, 0x00, 0x00, 0xFF, 0x1002, ⟨true, false, false, false, true, false, false⟩, 2⟩
    [.read 0x1000 0xE9, .read 0x1001 0x00] = true := by decide

/-- 95_test_vectors.md V56, `AND #$80`. -/
theorem test_and_keeps_c_and_v :
    shows (step { boot 0x1000 [0x29, 0x80] [] with a := 0xFF, p := ⟨false, true, false, false, true, false, true⟩ })
    ⟨0x80, 0x00, 0x00, 0xFF, 0x1002, ⟨true, true, false, false, true, false, true⟩, 2⟩
    [.read 0x1000 0x29, .read 0x1001 0x80] = true := by decide

/-- 95_test_vectors.md V57, `ORA #$80`. -/
theorem test_ora :
    shows (step { boot 0x1000 [0x09, 0x80] [] with a := 0x01 })
    ⟨0x81, 0x00, 0x00, 0xFF, 0x1002, ⟨true, false, false, false, true, false, false⟩, 2⟩
    [.read 0x1000 0x09, .read 0x1001 0x80] = true := by decide

/-- 95_test_vectors.md V60, `EOR #$0F`. -/
theorem test_eor :
    shows (step { boot 0x1000 [0x49, 0x0F] [] with a := 0xF0 })
    ⟨0xFF, 0x00, 0x00, 0xFF, 0x1002, ⟨true, false, false, false, true, false, false⟩, 2⟩
    [.read 0x1000 0x49, .read 0x1001 0x0F] = true := by decide

/-- 95_test_vectors.md V63, `CMP #$01`. -/
theorem test_cmp_n_is_not_signed :
    shows (step { boot 0x1000 [0xC9, 0x01] [] with a := 0x80 })
    ⟨0x80, 0x00, 0x00, 0xFF, 0x1002, ⟨false, false, false, false, true, false, true⟩, 2⟩
    [.read 0x1000 0xC9, .read 0x1001 0x01] = true := by decide

/-- 95_test_vectors.md V66, `CPX $10`. -/
theorem test_cpx :
    shows (step { boot 0x1000 [0xE4, 0x10] [(0x0010, 0x06)] with x := 0x05 })
    ⟨0x00, 0x05, 0x00, 0xFF, 0x1002, ⟨true, false, false, false, true, false, false⟩, 3⟩
    [.read 0x1000 0xE4, .read 0x1001 0x10, .read 0x0010 0x06] = true := by decide

/-- 95_test_vectors.md V67, `CPY #$00`. -/
theorem test_cpy :
    shows (step { boot 0x1000 [0xC0, 0x00] [] with y := 0xFF })
    ⟨0x00, 0x00, 0xFF, 0xFF, 0x1002, ⟨true, false, false, false, true, false, true⟩, 2⟩
    [.read 0x1000 0xC0, .read 0x1001 0x00] = true := by decide

/-- 95_test_vectors.md V70, `BIT $1234`. -/
theorem test_bit_clears_n_and_v :
    shows (step { boot 0x1000 [0x2C, 0x34, 0x12] [(0x1234, 0x3F)] with a := 0xFF, p := ⟨true, true, false, false, true, false, false⟩ })
    ⟨0xFF, 0x00, 0x00, 0xFF, 0x1003, ⟨false, false, false, false, true, false, false⟩, 4⟩
    [.read 0x1000 0x2C, .read 0x1001 0x34, .read 0x1002 0x12, .read 0x1234 0x3F] = true := by decide

/-- 95_test_vectors.md V73, `INC $20FF,X`. -/
theorem test_inc_abx_writes_twice :
    shows (step { boot 0x1000 [0xFE, 0xFF, 0x20] [(0x2100, 0x00)] with x := 0x01 })
    ⟨0x00, 0x01, 0x00, 0xFF, 0x1003, ⟨false, false, false, false, true, false, false⟩, 7⟩
    [.read 0x1000 0xFE, .read 0x1001 0xFF, .read 0x1002 0x20, .read 0x2000 0x00, .read 0x2100 0x00, .write 0x2100 0x00, .write 0x2100 0x01] = true := by decide

/-- 95_test_vectors.md V76, `DEC $10`. -/
theorem test_dec_wraps :
    shows (step (boot 0x1000 [0xC6, 0x10] [(0x0010, 0x00)]))
    ⟨0x00, 0x00, 0x00, 0xFF, 0x1002, ⟨true, false, false, false, true, false, false⟩, 5⟩
    [.read 0x1000 0xC6, .read 0x1001 0x10, .read 0x0010 0x00, .write 0x0010 0x00, .write 0x0010 0xFF] = true := by decide

/-- 95_test_vectors.md V77, `INX`. -/
theorem test_inx_wraps :
    shows (step { boot 0x1000 [0xE8] [] with x := 0xFF })
    ⟨0x00, 0x00, 0x00, 0xFF, 0x1001, ⟨false, false, false, false, true, true, false⟩, 2⟩
    [.read 0x1000 0xE8, .read 0x1001 0x00] = true := by decide

/-- 95_test_vectors.md V78, `INY`. -/
theorem test_iny :
    shows (step { boot 0x1000 [0xC8] [] with y := 0x7F })
    ⟨0x00, 0x00, 0x80, 0xFF, 0x1001, ⟨true, false, false, false, true, false, false⟩, 2⟩
    [.read 0x1000 0xC8, .read 0x1001 0x00] = true := by decide

/-- 95_test_vectors.md V79, `DEX`. -/
theorem test_dex_wraps :
    shows (step (boot 0x1000 [0xCA] []))
    ⟨0x00, 0xFF, 0x00, 0xFF, 0x1001, ⟨true, false, false, false, true, false, false⟩, 2⟩
    [.read 0x1000 0xCA, .read 0x1001 0x00] = true := by decide

/-- 95_test_vectors.md V80, `DEY`. -/
theorem test_dey :
    shows (step { boot 0x1000 [0x88] [] with y := 0x01 })
    ⟨0x00, 0x00, 0x00, 0xFF, 0x1001, ⟨false, false, false, false, true, true, false⟩, 2⟩
    [.read 0x1000 0x88, .read 0x1001 0x00] = true := by decide

/-- 95_test_vectors.md V97, `ASL A`. -/
theorem test_asl_a :
    shows (step { boot 0x1000 [0x0A] [] with a := 0x81 })
    ⟨0x02, 0x00, 0x00, 0xFF, 0x1001, ⟨false, false, false, false, true, false, true⟩, 2⟩
    [.read 0x1000 0x0A, .read 0x1001 0x00] = true := by decide

/-- 95_test_vectors.md V101, `ASL $2000,X`. -/
theorem test_asl_abx :
    shows (step { boot 0x1000 [0x1E, 0x00, 0x20] [(0x2001, 0xC0)] with x := 0x01 })
    ⟨0x00, 0x01, 0x00, 0xFF, 0x1003, ⟨true, false, false, false, true, false, true⟩, 7⟩
    [.read 0x1000 0x1E, .read 0x1001 0x00, .read 0x1002 0x20, .read 0x2001 0xC0, .read 0x2001 0xC0, .write 0x2001 0xC0, .write 0x2001 0x80] = true := by decide

/-- 95_test_vectors.md V103, `LSR A`. -/
theorem test_lsr_a :
    shows (step { boot 0x1000 [0x4A] [] with a := 0xFF, p := ⟨true, false, false, false, true, false, false⟩ })
    ⟨0x7F, 0x00, 0x00, 0xFF, 0x1001, ⟨false, false, false, false, true, false, true⟩, 2⟩
    [.read 0x1000 0x4A, .read 0x1001 0x00] = true := by decide

/-- 95_test_vectors.md V104, `LSR $10`. -/
theorem test_lsr_zp :
    shows (step (boot 0x1000 [0x46, 0x10] [(0x0010, 0x03)]))
    ⟨0x00, 0x00, 0x00, 0xFF, 0x1002, ⟨false, false, false, false, true, false, true⟩, 5⟩
    [.read 0x1000 0x46, .read 0x1001 0x10, .read 0x0010 0x03, .write 0x0010 0x03, .write 0x0010 0x01] = true := by decide

/-- 95_test_vectors.md V105, `ROL A`. -/
theorem test_rol_a :
    shows (step { boot 0x1000 [0x2A] [] with a := 0x40, p := ⟨false, false, false, false, true, false, true⟩ })
    ⟨0x81, 0x00, 0x00, 0xFF, 0x1001, ⟨true, false, false, false, true, false, false⟩, 2⟩
    [.read 0x1000 0x2A, .read 0x1001 0x00] = true := by decide

/-- 95_test_vectors.md V108, `ROL $1234`. -/
theorem test_rol_abs :
    shows (step (boot 0x1000 [0x2E, 0x34, 0x12] [(0x1234, 0xFF)]))
    ⟨0x00, 0x00, 0x00, 0xFF, 0x1003, ⟨true, false, false, false, true, false, true⟩, 6⟩
    [.read 0x1000 0x2E, .read 0x1001 0x34, .read 0x1002 0x12, .read 0x1234 0xFF, .write 0x1234 0xFF, .write 0x1234 0xFE] = true := by decide

/-- 95_test_vectors.md V109, `ROR A`. -/
theorem test_ror_a :
    shows (step { boot 0x1000 [0x6A] [] with a := 0x02, p := ⟨false, false, false, false, true, false, true⟩ })
    ⟨0x81, 0x00, 0x00, 0xFF, 0x1001, ⟨true, false, false, false, true, false, false⟩, 2⟩
    [.read 0x1000 0x6A, .read 0x1001 0x00] = true := by decide

/-- 95_test_vectors.md V112, `ROR $10,X`. -/
theorem test_ror_zpx :
    shows (step { boot 0x1000 [0x76, 0x10] [(0x0011, 0x01)] with x := 0x01, p := ⟨false, false, false, false, true, false, true⟩ })
    ⟨0x00, 0x01, 0x00, 0xFF, 0x1002, ⟨true, false, false, false, true, false, true⟩, 6⟩
    [.read 0x1000 0x76, .read 0x1001 0x10, .read 0x0010 0x00, .read 0x0011 0x01, .write 0x0011 0x01, .write 0x0011 0x80] = true := by decide

/-- 95_test_vectors.md V113, `JMP $1234`. -/
theorem test_jmp_abs :
    shows (step (boot 0x1000 [0x4C, 0x34, 0x12] []))
    ⟨0x00, 0x00, 0x00, 0xFF, 0x1234, ⟨false, false, false, false, true, false, false⟩, 3⟩
    [.read 0x1000 0x4C, .read 0x1001 0x34, .read 0x1002 0x12] = true := by decide

/-- 95_test_vectors.md V117, `JMP ($FFFF)`. -/
theorem test_jmp_ind_stays_in_page :
    shows (step (boot 0x1000 [0x6C, 0xFF, 0xFF] [(0xFFFF, 0x34), (0xFF00, 0x12), (0x0000, 0x99)]))
    ⟨0x00, 0x00, 0x00, 0xFF, 0x1234, ⟨false, false, false, false, true, false, false⟩, 5⟩
    [.read 0x1000 0x6C, .read 0x1001 0xFF, .read 0x1002 0xFF, .read 0xFFFF 0x34, .read 0xFF00 0x12] = true := by decide

/-- 95_test_vectors.md V119, `JSR $C000`. -/
theorem test_jsr_pushes_its_last_address :
    shows (step { boot 0x12FE [0x20, 0x00, 0xC0] [] with sp := 0x80 })
    ⟨0x00, 0x00, 0x00, 0x7E, 0xC000, ⟨false, false, false, false, true, false, false⟩, 6⟩
    [.read 0x12FE 0x20, .read 0x12FF 0x00, .read 0x0180 0x00, .write 0x0180 0x13, .write 0x017F 0x00, .read 0x1300 0xC0] = true := by decide

/-- 95_test_vectors.md V120, `RTS`. -/
theorem test_rts_adds_one :
    shows (step { boot 0x100A [0x60] [(0x01FE, 0x02), (0x01FF, 0x10)] with sp := 0xFD })
    ⟨0x00, 0x00, 0x00, 0xFF, 0x1003, ⟨false, false, false, false, true, false, false⟩, 6⟩
    [.read 0x100A 0x60, .read 0x100B 0x00, .read 0x01FD 0x00, .read 0x01FE 0x02, .read 0x01FF 0x10, .read 0x1002 0x00] = true := by decide

/-- 95_test_vectors.md V121, `RTS`. -/
theorem test_rts_wraps :
    shows (step { boot 0x1000 [0x60] [(0x01FE, 0xFF), (0x01FF, 0xFF)] with sp := 0xFD })
    ⟨0x00, 0x00, 0x00, 0xFF, 0x0000, ⟨false, false, false, false, true, false, false⟩, 6⟩
    [.read 0x1000 0x60, .read 0x1001 0x00, .read 0x01FD 0x00, .read 0x01FE 0xFF, .read 0x01FF 0xFF, .read 0xFFFF 0x00] = true := by decide

/-- 95_test_vectors.md V122, `BCC +4`. -/
theorem test_bcc_taken :
    shows (step (boot 0x2000 [0x90, 0x04] []))
    ⟨0x00, 0x00, 0x00, 0xFF, 0x2006, ⟨false, false, false, false, true, false, false⟩, 3⟩
    [.read 0x2000 0x90, .read 0x2001 0x04, .read 0x2002 0x00] = true := by decide

/-- 95_test_vectors.md V123, `BCC +4`. -/
theorem test_bcc_not_taken :
    shows (step { boot 0x2000 [0x90, 0x04] [] with p := ⟨false, false, false, false, true, false, true⟩ })
    ⟨0x00, 0x00, 0x00, 0xFF, 0x2002, ⟨false, false, false, false, true, false, true⟩, 2⟩
    [.read 0x2000 0x90, .read 0x2001 0x04] = true := by decide

/-- 95_test_vectors.md V125, `BCS +4`. -/
theorem test_bcs_taken :
    shows (step { boot 0x2000 [0xB0, 0x04] [] with p := ⟨false, false, false, false, true, false, true⟩ })
    ⟨0x00, 0x00, 0x00, 0xFF, 0x2006, ⟨false, false, false, false, true, false, true⟩, 3⟩
    [.read 0x2000 0xB0, .read 0x2001 0x04, .read 0x2002 0x00] = true := by decide

/-- 95_test_vectors.md V126, `BEQ -2`. -/
theorem test_beq_backwards :
    shows (step { boot 0x3000 [0xF0, 0xFE] [] with p := ⟨false, false, false, false, true, true, false⟩ })
    ⟨0x00, 0x00, 0x00, 0xFF, 0x3000, ⟨false, false, false, false, true, true, false⟩, 3⟩
    [.read 0x3000 0xF0, .read 0x3001 0xFE, .read 0x3002 0x00] = true := by decide

/-- 95_test_vectors.md V128, `BNE -3`. -/
theorem test_bne_page_cross :
    shows (step (boot 0x1000 [0xD0, 0xFD] []))
    ⟨0x00, 0x00, 0x00, 0xFF, 0x0FFF, ⟨false, false, false, false, true, false, false⟩, 4⟩
    [.read 0x1000 0xD0, .read 0x1001 0xFD, .read 0x1002 0x00, .read 0x10FF 0x00] = true := by decide

/-- 95_test_vectors.md V137, `BNE +1`. -/
theorem test_bne_at_the_top_of_memory :
    shows (step (boot 0xFFFD [0xD0, 0x01] []))
    ⟨0x00, 0x00, 0x00, 0xFF, 0x0000, ⟨false, false, false, false, true, false, false⟩, 4⟩
    [.read 0xFFFD 0xD0, .read 0xFFFE 0x01, .read 0xFFFF 0x00, .read 0xFF00 0x00] = true := by decide

/-- 95_test_vectors.md V130, `BMI +127`. -/
theorem test_bmi_taken :
    shows (step { boot 0x1000 [0x30, 0x7F] [] with p := ⟨true, false, false, false, true, false, false⟩ })
    ⟨0x00, 0x00, 0x00, 0xFF, 0x1081, ⟨true, false, false, false, true, false, false⟩, 3⟩
    [.read 0x1000 0x30, .read 0x1001 0x7F, .read 0x1002 0x00] = true := by decide

/-- 95_test_vectors.md V132, `BPL -128`. -/
theorem test_bpl_page_cross :
    shows (step (boot 0x1000 [0x10, 0x80] []))
    ⟨0x00, 0x00, 0x00, 0xFF, 0x0F82, ⟨false, false, false, false, true, false, false⟩, 4⟩
    [.read 0x1000 0x10, .read 0x1001 0x80, .read 0x1002 0x00, .read 0x1082 0x00] = true := by decide

/-- 95_test_vectors.md V134, `BVC +1`. -/
theorem test_bvc_taken :
    shows (step (boot 0x1000 [0x50, 0x01] []))
    ⟨0x00, 0x00, 0x00, 0xFF, 0x1003, ⟨false, false, false, false, true, false, false⟩, 3⟩
    [.read 0x1000 0x50, .read 0x1001 0x01, .read 0x1002 0x00] = true := by decide

/-- 95_test_vectors.md V135, `BVS +1`. -/
theorem test_bvs_page_cross :
    shows (step { boot 0x10FD [0x70, 0x01] [] with p := ⟨false, true, false, false, true, false, false⟩ })
    ⟨0x00, 0x00, 0x00, 0xFF, 0x1100, ⟨false, true, false, false, true, false, false⟩, 4⟩
    [.read 0x10FD 0x70, .read 0x10FE 0x01, .read 0x10FF 0x00, .read 0x1000 0x00] = true := by decide

/-- 95_test_vectors.md V140, `PHA`. -/
theorem test_pha_last_slot :
    shows (step { boot 0x1000 [0x48] [] with a := 0x42, sp := 0x01 })
    ⟨0x42, 0x00, 0x00, 0x00, 0x1001, ⟨false, false, false, false, true, false, false⟩, 3⟩
    [.read 0x1000 0x48, .read 0x1001 0x00, .write 0x0101 0x42] = true := by decide

/-- 95_test_vectors.md V142, `PLA`. -/
theorem test_pla_at_sp_zero :
    shows (step { boot 0x1000 [0x68] [(0x0101, 0x00)] with a := 0x11, sp := 0x00 })
    ⟨0x00, 0x00, 0x00, 0x01, 0x1001, ⟨false, false, false, false, true, true, false⟩, 4⟩
    [.read 0x1000 0x68, .read 0x1001 0x00, .read 0x0100 0x00, .read 0x0101 0x00] = true := by decide

/-- 95_test_vectors.md V143, `PHP`. -/
theorem test_php_sets_bits_4_and_5 :
    shows (step { boot 0x1000 [0x08] [] with p := ⟨true, false, false, false, false, false, true⟩ })
    ⟨0x00, 0x00, 0x00, 0xFE, 0x1001, ⟨true, false, false, false, false, false, true⟩, 3⟩
    [.read 0x1000 0x08, .read 0x1001 0x00, .write 0x01FF 0xB1] = true := by decide

/-- 95_test_vectors.md V145, `PLP`. -/
theorem test_plp_ignores_b :
    shows (step { boot 0x1000 [0x28] [(0x01FF, 0xFF)] with sp := 0xFE })
    ⟨0x00, 0x00, 0x00, 0xFF, 0x1001, ⟨true, true, false, true, true, true, true⟩, 4⟩
    [.read 0x1000 0x28, .read 0x1001 0x00, .read 0x01FE 0x00, .read 0x01FF 0xFF] = true := by decide

/-- 95_test_vectors.md V146, `PLP`. -/
theorem test_plp_clears :
    shows (step { boot 0x1000 [0x28] [(0x01FF, 0x00)] with sp := 0xFE, p := ⟨true, true, false, true, true, true, true⟩ })
    ⟨0x00, 0x00, 0x00, 0xFF, 0x1001, ⟨false, false, false, false, false, false, false⟩, 4⟩
    [.read 0x1000 0x28, .read 0x1001 0x00, .read 0x01FE 0x00, .read 0x01FF 0x00] = true := by decide

/-- 95_test_vectors.md V147, `CLC`. -/
theorem test_clc :
    shows (step { boot 0x1000 [0x18] [] with p := ⟨false, false, false, false, true, false, true⟩ })
    ⟨0x00, 0x00, 0x00, 0xFF, 0x1001, ⟨false, false, false, false, true, false, false⟩, 2⟩
    [.read 0x1000 0x18, .read 0x1001 0x00] = true := by decide

/-- 95_test_vectors.md V148, `SEC`. -/
theorem test_sec :
    shows (step (boot 0x1000 [0x38] []))
    ⟨0x00, 0x00, 0x00, 0xFF, 0x1001, ⟨false, false, false, false, true, false, true⟩, 2⟩
    [.read 0x1000 0x38, .read 0x1001 0x00] = true := by decide

/-- 95_test_vectors.md V149, `CLI`. -/
theorem test_cli :
    shows (step (boot 0x1000 [0x58] []))
    ⟨0x00, 0x00, 0x00, 0xFF, 0x1001, ⟨false, false, false, false, false, false, false⟩, 2⟩
    [.read 0x1000 0x58, .read 0x1001 0x00] = true := by decide

/-- 95_test_vectors.md V150, `SEI`. -/
theorem test_sei :
    shows (step { boot 0x1000 [0x78] [] with p := ⟨false, false, false, false, false, false, false⟩ })
    ⟨0x00, 0x00, 0x00, 0xFF, 0x1001, ⟨false, false, false, false, true, false, false⟩, 2⟩
    [.read 0x1000 0x78, .read 0x1001 0x00] = true := by decide

/-- 95_test_vectors.md V151, `CLD`. -/
theorem test_cld :
    shows (step { boot 0x1000 [0xD8] [] with p := ⟨false, false, false, true, true, false, false⟩ })
    ⟨0x00, 0x00, 0x00, 0xFF, 0x1001, ⟨false, false, false, false, true, false, false⟩, 2⟩
    [.read 0x1000 0xD8, .read 0x1001 0x00] = true := by decide

/-- 95_test_vectors.md V152, `SED`. -/
theorem test_sed :
    shows (step (boot 0x1000 [0xF8] []))
    ⟨0x00, 0x00, 0x00, 0xFF, 0x1001, ⟨false, false, false, true, true, false, false⟩, 2⟩
    [.read 0x1000 0xF8, .read 0x1001 0x00] = true := by decide

/-- 95_test_vectors.md V153, `CLV`. -/
theorem test_clv :
    shows (step { boot 0x1000 [0xB8] [] with p := ⟨false, true, false, false, true, false, false⟩ })
    ⟨0x00, 0x00, 0x00, 0xFF, 0x1001, ⟨false, false, false, false, true, false, false⟩, 2⟩
    [.read 0x1000 0xB8, .read 0x1001 0x00] = true := by decide

/-- 95_test_vectors.md V154, `NOP`. -/
theorem test_nop :
    shows (step (boot 0x1000 [0xEA] []))
    ⟨0x00, 0x00, 0x00, 0xFF, 0x1001, ⟨false, false, false, false, true, false, false⟩, 2⟩
    [.read 0x1000 0xEA, .read 0x1001 0x00] = true := by decide

/-- 95_test_vectors.md V156, `BRK`. -/
theorem test_brk_keeps_d :
    shows (step { boot 0x10FF [0x00] [(0xFFFE, 0x34), (0xFFFF, 0x12)] with sp := 0x10, p := ⟨true, false, false, true, true, false, true⟩ })
    ⟨0x00, 0x00, 0x00, 0x0D, 0x1234, ⟨true, false, false, true, true, false, true⟩, 7⟩
    [.read 0x10FF 0x00, .read 0x1100 0x00, .write 0x0110 0x11, .write 0x010F 0x01, .write 0x010E 0xBD, .read 0xFFFE 0x34, .read 0xFFFF 0x12] = true := by decide

/-- 95_test_vectors.md V158, `RTI`. -/
theorem test_rti_clears_b :
    shows (step { boot 0x1000 [0x40] [(0x01FD, 0xC3), (0x01FE, 0x34), (0x01FF, 0x12)] with sp := 0xFC })
    ⟨0x00, 0x00, 0x00, 0xFF, 0x1234, ⟨true, true, false, false, false, true, true⟩, 6⟩
    [.read 0x1000 0x40, .read 0x1001 0x00, .read 0x01FC 0x00, .read 0x01FD 0xC3, .read 0x01FE 0x34, .read 0x01FF 0x12] = true := by decide

/-- 95_test_vectors.md V159, `HLT`. -/
theorem test_hlt :
    shows (step (boot 0x1000 [0x02] []))
    ⟨0x00, 0x00, 0x00, 0xFF, 0x1001, ⟨false, false, false, false, true, false, false⟩, 1⟩
    [.read 0x1000 0x02] = true := by decide

/-! ### Decimal mode -/

/-- The state of 95_test_vectors.md V81 to V96. -/
def decimal (mode : DecimalMode) (code : List Byte) (a : Byte) (c : Bool) : State :=
  { boot 0x1000 code [] with
    a := a, p := ⟨false, false, false, true, true, false, c⟩, params := { Params.default with decimalMode := mode } }

/-- 95_test_vectors.md V83 and V96, `ADC` with D = 1 under nmos_bcd and under binary. -/
theorem test_adc_decimal :
    (shows (step (decimal .nmosBcd [0x69, 0x46] 0x58 true))
      ⟨0x05, 0, 0, 0xFF, 0x1002, ⟨true, true, false, true, true, false, true⟩, 2⟩ [.read 0x1000 0x69, .read 0x1001 0x46] &&
    shows (step (decimal .binary [0x69, 0x01] 0x09 false))
      ⟨0x0A, 0, 0, 0xFF, 0x1002, ⟨false, false, false, true, true, false, false⟩, 2⟩
      [.read 0x1000 0x69, .read 0x1001 0x01]) = true := by decide

/-- 95_test_vectors.md V93 and V94, `SBC` with D = 1, a borrow and an invalid digit. -/
theorem test_sbc_decimal :
    (shows (step (decimal .nmosBcd [0xE9, 0x21] 0x12 true))
      ⟨0x91, 0, 0, 0xFF, 0x1002, ⟨true, false, false, true, true, false, false⟩, 2⟩ [.read 0x1000 0xE9, .read 0x1001 0x21] &&
    shows (step (decimal .nmosBcd [0xE9, 0x00] 0x0A true))
      ⟨0x0A, 0, 0, 0xFF, 0x1002, ⟨false, false, false, true, true, false, true⟩, 2⟩
      [.read 0x1000 0xE9, .read 0x1001 0x00]) = true := by decide

/-- 95_test_vectors.md V95, `ADC` with D = 1 under refuse. -/
theorem test_adc_refused : (match step (decimal .refuse [0x69, 0x01] 0x09 false) with
    | .refused .decimalMode => true
    | _ => false) = true := by decide

/-! ### Fatal faults -/

/-- 95_test_vectors.md V160, in both views: the opcode read and the increment of PC stand, the tick is not counted. -/
theorem test_unassigned_opcode :
    (faults (step (boot 0x1000 [0x03] [])) (.unassignedOpcode 0x03 0x1000) &&
      endOf (afterTick (boot 0x1000 [0x03] [])) ==
        ⟨0, 0, 0, 0xFF, 0x1001, ⟨false, false, false, false, true, false, false⟩, 0⟩) = true := by decide

/-- 95_test_vectors.md V162 to V167: the stack bounds under SP_BOUNDS = fatal. -/
theorem test_stack_bounds :
    (faults (step { boot 0x1000 [0x48] [] with sp := 0 }) (.stackBounds .overflow) &&
      faults (step (boot 0x1000 [0x68] [])) (.stackBounds .underflow) &&
      faults (step { boot 0x1000 [0x20, 0x00, 0x20] [] with sp := 1 }) (.stackBounds .overflow) &&
      faults (step { boot 0x1000 [0x60] [] with sp := 0xFE }) (.stackBounds .underflow) &&
      faults (step { boot 0x1000 [0x40] [] with sp := 0xFD }) (.stackBounds .underflow) &&
      faults (step { boot 0x1000 [0x00] [] with sp := 2 }) (.stackBounds .overflow)) = true := by decide

/-- The regions of 95_test_vectors.md V168 to V171: RAM 0000-7FFF, ROM C000-FFFF. -/
def romMap : List Region := [⟨0, 0x8000, .ram⟩, ⟨0xC000, 0x4000, .rom⟩]

/-- 95_test_vectors.md V168 to V171: an unclaimed address, a store and a read-modify-write on ROM. -/
theorem test_region_faults :
    (faults (step { boot 0x1000 [0xAD, 0x00, 0x90] [] with regions := romMap }) (.noRegion 0x9000 .read) &&
      faults (step { boot 0x1000 [0x8D, 0x00, 0xC0] [] with regions := romMap, a := 1 }) (.readOnlyWrite 0xC000 1) &&
      faults (step { boot 0x1000 [0xEE, 0x00, 0xC0] [(0xC000, 5)] with regions := romMap }) (.readOnlyWrite 0xC000 5) &&
      faults (step { boot 0x1000 [0xBD, 0xFF, 0x7F] [] with regions := romMap, x := 1 }) (.noRegion 0x8000 .read)) = true := by
  decide

/-- 95_test_vectors.md V172 and V173: the discarded read and the stack page. -/
theorem test_discarded_read_faults :
    (faults (step { boot 0x1000 [0x9D, 0xFF, 0x80] [] with
        regions := [⟨0, 0x8000, .ram⟩, ⟨0x8100, 0x100, .ram⟩], x := 1 }) (.noRegion 0x8000 .read) &&
      faults (step { boot 0x1000 [0x48] [] with regions := [⟨0, 0x100, .ram⟩, ⟨0x1000, 0x1000, .ram⟩] })
        (.noRegion 0x01FF (.write 0))) = true := by decide

/-! ### Interrupts, the cycle limit, power-on -/

/-- A state with one source whose lines are at the levels given. -/
def asserted (irq nmi : Bool) (s : State) : State := { s with sources := [⟨irq, nmi⟩] }

/-- 95_test_vectors.md P9 after tick 2. -/
def nmiCase : State :=
  asserted true true { boot 0x1001 [0xEA] [(0xFFFB, 0x30), (0xFFFF, 0x20)] with
    p := ⟨false, false, false, false, false, false, false⟩, cycles := 2 }

/-- 95_test_vectors.md P9, ticks 3 to 8: NMI wins over IRQ; PC and P are pushed, I and `inISR` set. -/
theorem test_nmi_entry : (fun o =>
      shows o ⟨0, 0, 0, 0xFC, 0x3000, ⟨false, false, false, false, true, false, false⟩, 8⟩
        [.write 0x01FF 0x10, .write 0x01FE 0x01, .write 0x01FD 0x20, .read 0xFFFA 0x00, .read 0xFFFB 0x30] &&
      (match o with
        | .next t => t.inISR
        | _ => false)) (step nmiCase) = true := by decide

/-- 95_test_vectors.md P5 after tick 13. -/
def irqCase : State :=
  asserted true false { boot 0x8007 [0x4C] [(0xFFFF, 0x90)] with
    a := 0x99, x := 0xFF, y := 0x66, p := ⟨false, false, false, false, false, false, true⟩, cycles := 13 }

/-- 95_test_vectors.md P5, ticks 14 to 19: the pushed status has B clear and bit 5 set. -/
theorem test_irq_entry :
    (shows (step irqCase)
        ⟨0x99, 0xFF, 0x66, 0xFC, 0x9000, ⟨false, false, false, false, true, false, true⟩, 19⟩
        [.write 0x01FF 0x80, .write 0x01FE 0x07, .write 0x01FD 0x21, .read 0xFFFE 0x00, .read 0xFFFF 0x90]) = true := by
  decide

/-- 95_test_vectors.md P12, tick 7: with I = 1 an asserted IRQ is not taken, CLI is fetched. -/
theorem test_irq_masked :
    shows (step (asserted true false (boot 0x1003 [0x58, 0xEA] [])))
      ⟨0, 0, 0, 0xFF, 0x1004, ⟨false, false, false, false, false, false, false⟩, 2⟩
      [.read 0x1003 0x58, .read 0x1004 0xEA] = true := by decide

/-- 95_test_vectors.md P9, ticks 9 to 10: inside a service routine no NMI is sampled. -/
theorem test_no_nesting :
    shows (step (asserted true true { boot 0x3000 [0xC8, 0x40] [] with inISR := true }))
      ⟨0, 0, 1, 0xFF, 0x3001, ⟨false, false, false, false, true, false, false⟩, 2⟩
      [.read 0x3000 0xC8, .read 0x3001 0x40] = true := by decide

/-- 95_test_vectors.md P10: the limit of 3 is reached inside `LDA $1234`, which still ends; the CPU halts after it. -/
theorem test_cycle_limit :
    (match step { boot 0x1000 [0xAD, 0x34, 0x12] [(0x1234, 0x5A)] with
        params := { Params.default with maxCycles := some 3 } } with
      | .next t => t.halted && t.a == 0x5A && t.cycles == 4 && t.pc == 0x1003
      | _ => false) = true := by decide

/-- 95_test_vectors.md P10, tick 1: the tick view after the opcode fetch. -/
theorem test_first_tick :
    (match tick (boot 0x1000 [0xAD, 0x34, 0x12] [(0x1234, 0x5A)]) with
      | .next t => t.pc == 0x1001 && t.cycles == 1 && t.queue == [.operandLo, .operandHi, .readEa .lda]
      | _ => false) = true := by decide

/-- 95_test_vectors.md P5, power-on: PC from the reset vector, no tick, I = 1. -/
theorem test_power_on :
    (match powerOn { Launch.default with
          a := 0x99, x := 0x77, y := 0x66, sp := 0, p := ⟨false, false, false, true, false, false, true⟩
          regions := [⟨0, 0x8000, .ram⟩, ⟨0x8000, 0x8000, .rom⟩], mem := [(0xFFFD, 0x80)] } with
      | .ok _ t => endOf t == ⟨0x99, 0x77, 0x66, 0, 0x8000, ⟨false, false, false, true, true, false, true⟩, 0⟩
      | _ => false) = true := by decide

/-- The default launch powers on to the reset state. -/
theorem test_reset_is_power_on : (match powerOn Launch.default with
    | .ok _ t => decide (t = State.reset)
    | _ => false) = true := by decide

/-- 30_encoding.md R103: `encode` is little-endian and refuses an unknown pair. -/
theorem test_encode_asm : encodeAsm 0x02 ⟨.lda, .abs, 0x1234⟩ = .ok [0xAD, 0x34, 0x12] ∧
    encodeAsm 0x02 ⟨.sta, .imm, 0⟩ = .error (.encodeUnsupported .sta .imm) := ⟨rfl, rfl⟩


/-! ### Witnesses

For each statement with hypotheses, a concrete state and operands that meet all of them together; where a clause has a
range, at its boundary. -/

/-- The next state of an outcome that has one. -/
def nextState (o : Host.Outcome State Fault Refusal) : State :=
  match o with
  | .next t => t
  | _ => State.reset

/-- The outcome is a next state. -/
def isNext (o : Host.Outcome State Fault Refusal) : Bool :=
  match o with
  | .next _ => true
  | _ => false

theorem next_of {o : Host.Outcome State Fault Refusal} (h : isNext o = true) : o = .next (nextState o) := by
  cases o <;> first | rfl | cases h

theorem wholeRam_hasAddress (a : Word) : Region.wholeRam.hasAddress a = true := by
  have := a.isLt
  simp [Region.hasAddress, Region.wholeRam, this]

/-- With the one region of the reset state every address is RAM. -/
theorem inRam_of_wholeRam {s : State} (h : s.regions = [Region.wholeRam]) (a : Word) : s.InRam a := by
  have hc : Region.wholeRam.hasAddress a = true := wholeRam_hasAddress a
  simp [State.InRam, State.kindAt, claimant, h, hc]
  rfl

/-- So is every address any instruction touches. -/
theorem touches_of_wholeRam {s : State} (h : s.regions = [Region.wholeRam]) (i : Instr) : s.TouchesStored i :=
  fun a _ => .inl (inRam_of_wholeRam h a)

/-- RAM everywhere, NOPs at 0x1000, a stack with room for any instruction. -/
def plain : State := { boot 0x1000 [0xEA, 0xEA, 0xEA] [(0x10, 0x34), (0x11, 0x12)] with sp := 0x80 }

theorem plain_touches (i : Instr) : plain.TouchesStored i := touches_of_wholeRam rfl i

theorem plain_inRam (a : Word) : plain.InRam a := inRam_of_wholeRam rfl a

theorem plain_stored (a : Word) : plain.Stored a := .inl (plain_inRam a)

theorem plain_boundary : plain.AtBoundary := ⟨rfl, rfl, rfl⟩

/-- Every instruction is well-formed but HLT at an assigned byte. -/
theorem witness_DecodeEncodeRoundTrip : Instr.wellFormed 0x02 (.jmpInd 0xFFFF) = true ∧
    Instr.wellFormed 0xFF .hlt = true := by decide

theorem witness_EncodeDecodeBack : decode 0x02 [0x20, 0xFF, 0xFF, 0x02] = .ok (.jsr 0xFFFF, [0x02]) := rfl

theorem witness_TableContract : hltOpcodeOk 0xFF = true ∧
    (⟨0xA9, .lda, .imm⟩ : OpcodeRow) ∈ opcodeMap ∧ (⟨0xEA, .nop, .imp⟩ : OpcodeRow) ∈ opcodeMap ∧
    (AsmInstr.mk .sta .imm 0).pairSupported = false ∧
    ((AsmInstr.mk .lda .zp 0x100).pairSupported = true ∧ (AsmInstr.mk .lda .zp 0x100).operandInRange = false) ∧
    ((AsmInstr.mk .jmp .abs 0xFFFF).pairSupported = true ∧ (AsmInstr.mk .jmp .abs 0xFFFF).operandInRange = true) := by
  decide

theorem witness_StepRunsDecodedInstruction : plain.AtBoundary ∧ interruptTaken plain = none ∧
    decode plain.params.hltOpcode [plain.byteAt plain.pc, plain.byteAt (plain.pc + 1), plain.byteAt (plain.pc + 2)] =
      .ok (.nop, [0xEA, 0xEA]) ∧ ∀ a ∈ plain.fetchAddresses (instrSize .nop), plain.Stored a :=
  ⟨plain_boundary, rfl, rfl, fun a _ => plain_stored a⟩

/-- A state whose opcode at the top of memory is unassigned. -/
def unassigned : State := boot 0xFFFF [0xFF] []

/-- A paged ROM of one bank, whose last byte is an unassigned opcode, with the PC there. -/
def pagedRom : State := { plain with regions := [⟨0, 2, .paged 0 [[0xEA, 0x12]]⟩], bankSel := [0], pc := 1 }

/-- Fetched from RAM and from a paged ROM. -/
theorem witness_UnassignedOpcodeFaults : ∀ s ∈ [unassigned, pagedRom], s.AtBoundary ∧ interruptTaken s = none ∧
    ∃ b t, busRead s.pc s = .ok b t ∧ b ∈ unassignedBytes ∧ b ≠ s.params.hltOpcode := by
  intro s hs
  simp only [List.mem_cons, List.not_mem_nil, or_false] at hs
  obtain rfl | rfl := hs
  · exact ⟨⟨rfl, rfl, rfl⟩, rfl, 0xFF, _, rfl, by decide, by decide⟩
  · exact ⟨⟨rfl, rfl, rfl⟩, rfl, 0x12, _, rfl, by decide, by decide⟩

theorem witness_HaltedAndFaultedTakeNoTick : { plain with fault := some .queueOverflow }.fault = some .queueOverflow ∧
    ({ plain with halted := true }.fault = none ∧ { plain with halted := true }.halted = true) := ⟨rfl, rfl, rfl⟩

/-- A state at a boundary with one source and I as given. -/
def sampled (irq nmi i inISR : Bool) : State := asserted irq nmi { plain with p := { plain.p with i := i }, inISR := inISR }

/-- A paged ROM without a bank where PC points: launch data that is not well-formed. -/
def bankless : State := { plain with regions := [⟨0, 65536, .paged 0 []⟩] }

theorem witness_InterruptSampling : (∀ irq nmi i isr, (sampled irq nmi i isr).AtBoundary) ∧
    ((sampled true true true false).inISR = false ∧ ∃ d ∈ (sampled true true true false).sources, d.nmi = true) ∧
    ((∀ d ∈ (sampled true false false false).sources, d.nmi = false) ∧
      (∃ d ∈ (sampled true false false false).sources, d.irq = true) ∧ (sampled true false false false).p.i = false) ∧
    (sampled true true false true).inISR = true ∧ (sampled true false true false).p.i = true ∧
    (∀ d ∈ (sampled false false false false).sources, d.irq = false) ∧
    (∃ i t, fetchDecode { plain with hookArmed := false } = .ok i t) ∧
    (∃ f t, fetchDecode { unassigned with hookArmed := false } = .fault f t) ∧
    (∃ r t, fetchDecode { bankless with hookArmed := false } = .refuse r t) ∧ bankless.AtBoundary :=
  ⟨fun _ _ _ _ => ⟨rfl, rfl, rfl⟩, ⟨rfl, _, List.mem_singleton.mpr rfl, rfl⟩,
    ⟨by decide, ⟨_, List.mem_singleton.mpr rfl, rfl⟩, rfl⟩, rfl, rfl, by decide, ⟨.nop, _, rfl⟩, ⟨_, _, rfl⟩, ⟨_, _, rfl⟩,
    ⟨rfl, rfl, rfl⟩⟩

/-- The service sequence as long as the queue, the stack at its last three bytes; and SP at zero where it wraps. -/
def service (nmi : Bool) (dummies : Nat) (bounds : SpBounds) (sp : Byte) : State :=
  { sampled true nmi false false with
    sp := sp, params := { Params.default with intEntryDummy := dummies, spBounds := bounds } }

/-- An NMI with SP at 0x80 over the given map. -/
def serviceOn (regions : List Region) : State := { service true 0 .fatal 0x80 with regions := regions }

/-- It completes at both ends of INT_ENTRY_DUMMY, and each of its stops has its state. -/
theorem witness_HardwareInterruptEntry :
    (∀ nmi n b sp a, (service nmi n b sp).AtBoundary ∧ (service nmi n b sp).Stored a ∧ (service nmi n b sp).StackInRam) ∧
    (interruptTaken (service true 11 .fatal 3) = some .nmi ∧ (service true 11 .fatal 3).params.intEntryDummy ≤ 11 ∧
      (service true 11 .fatal 3).RoomToPush 3) ∧
    (interruptTaken (service false 0 .wrap 0) = some .irq ∧ (service false 0 .wrap 0).params.intEntryDummy ≤ 11 ∧
      (service false 0 .wrap 0).RoomToPush 3) ∧
    (interruptTaken (service true 12 .fatal 3) = some .nmi ∧ 11 < (service true 12 .fatal 3).params.intEntryDummy) ∧
    (interruptTaken (service true 0 .fatal 2) = some .nmi ∧ (service true 0 .fatal 2).params.spBounds = .fatal ∧
      (service true 0 .fatal 2).sp.toNat < 3) ∧
    (∀ r, interruptTaken (serviceOn r) = some .nmi ∧ (serviceOn r).AtBoundary ∧
      (serviceOn r).params.intEntryDummy = 0) ∧
    (serviceOn [⟨0, 0x10000, .rom⟩]).ReadOnly (stackAddr 0x80) ∧ (serviceOn []).kindAt (stackAddr 0x80) = none :=
  ⟨fun _ _ _ _ a => ⟨⟨rfl, rfl, rfl⟩, .inl (inRam_of_wholeRam rfl a), fun _ => inRam_of_wholeRam rfl _⟩,
    ⟨rfl, by decide, .inr (by decide)⟩, ⟨rfl, by decide, .inl rfl⟩, ⟨rfl, by decide⟩, ⟨rfl, rfl, by decide⟩,
    fun _ => ⟨rfl, ⟨rfl, rfl, rfl⟩, rfl⟩, .inl (by decide), rfl⟩

theorem witness_TicksAgreeWithStep : plain.AtBoundary ∧ (service true 11 .fatal 3).AtBoundary :=
  ⟨plain_boundary, ⟨rfl, rfl, rfl⟩⟩

theorem plain_inv : plain.Inv := ⟨by decide, by decide, by decide, fun _ => rfl⟩

theorem witness_StepKeepsInvariant : plain.Inv ∧ ∃ t, step plain = .next t := ⟨plain_inv, _, next_of (by decide)⟩

/-- In the middle of `PHA`, whose last tick overflows the stack page. -/
def pushing : State := { plain with sp := 0, queue := [.pushA] }

theorem witness_TickKeepsInvariant : (plain.Inv ∧ ∃ t, tick plain = .next t) ∧
    pushing.Inv ∧ tick pushing = .fault (.stackBounds .overflow) :=
  ⟨⟨plain_inv, _, next_of (by decide)⟩, ⟨by decide, by decide, by decide, by decide⟩, rfl⟩

theorem witness_QuiescentHookFires : isNext (tick { plain with hookArmed := true }) = true ∧
    plain.halted = false ∧ (isNext (tick (nextState (tick plain))) = true ∧ (nextState (tick plain)).halted = false ∧
      (nextState (tick plain)).queue ≠ []) := by decide

/-- `plain` with MAX_CYCLES at `n`. -/
def limited (n : Nat) : State := { plain with params := { Params.default with maxCycles := some n } }

/-- The limit reached by `NOP`, and one tick short of it. -/
theorem witness_CycleLimitHaltsAtBoundary : ∀ n ∈ [2, 3],
    isNext (exec .nop (limited n)) = true ∧ (limited n).halted = false ∧ (limited n).haltRequested = false ∧
      (limited n).params.maxCycles = some n := by decide

theorem witness_PowerOnSeedsPc : hltOpcodeOk Launch.default.params.hltOpcode = true ∧
    Launch.default.state.Stored 0xFFFC ∧ Launch.default.state.Stored 0xFFFD ∧
    { Launch.default with regions := romMap.take 1 }.state.kindAt 0xFFFC = none := by decide

/-- In the middle of an instruction, halted, faulted and inside a service routine; the setters at a boundary and not. -/
theorem witness_HostResetRestarts : plain.queue = [] ∧ pushing.queue ≠ [] ∧
    { plain with queue := [.operandLo], halted := true, inISR := true, fault := some .queueOverflow }.Stored 0xFFFC ∧
    { plain with queue := [.operandLo], halted := true, inISR := true, fault := some .queueOverflow }.Stored 0xFFFD := by
  decide

/-- A device before the RAM behind it: the first and the last address of a region, and the one after. -/
theorem witness_FirstClaimantAnswers : let d : Region := ⟨0xFE00, 0x100, .device 0 16⟩
    (∀ q ∈ [d], q.hasAddress 0xFDFF = false) ∧ Region.wholeRam.hasAddress 0xFDFF = true ∧ d.hasAddress 0xFE00 = true ∧
    d.hasAddress 0xFEFF = true ∧ d.hasAddress 0xFF00 = false ∧ (∀ q ∈ romMap, q.hasAddress 0x8000 = false) := by decide

theorem witness_RamReadsLastWrite : Memory.wf plain.mem = true ∧ plain.InRam 0xFFFF ∧
    { plain with regions := romMap }.ReadOnly 0xC000 ∧ bankless.ReadOnly 0 :=
  ⟨by decide, plain_inRam _, .inl (by decide), .inr ⟨0, [], by decide⟩⟩

/-- The paged-ROM clauses: the last byte of the selected image, a byte past it, a bank past the last, no bank selected. -/
theorem witness_RamReadsLastWrite_paged : let r : Region := ⟨0xC000, 0x4000, .paged 1 [[0x11], [0x22, 0x33]]⟩
    claimant [Region.mk 0 0x8000 .ram, r] 0xC001 = some r ∧
    ([0, 1][1]? = some 1 ∧ [[0x11], [0x22, 0x33]][1]? = some [0x22, 0x33] ∧
      [0x22, (0x33 : Byte)][(0xC001 : Word).toNat - r.start]? = some 0x33) ∧
    [0x11].length ≤ (0xC001 : Word).toNat - r.start ∧ [0, 2][1]? = some 2 ∧ [0].length ≤ 1 := by
  decide

/-- 20_memory.md R66: a store to a device window of 16 registers is the event `writeRegister(index, v)` with the address
narrowed; 41_addressing_modes.md R184: a read-modify-write is a read and two such events. -/
theorem test_device_write_events :
    (let map := [⟨0xFE40, 32, .device 3 16⟩, Region.wholeRam]
    let newest (s : State) := ((nextState (exec (.staAbs 0xFE5F) s)).bus).head?
    newest { plain with a := 0x7E, regions := map } = some (.writeRegister 3 0x0F 0xFE5F 0x7E)) ∧
    (let map := [⟨0xFE40, 32, .device 3 16⟩, Region.wholeRam]
    let places (s : State) := ((nextState (exec (.incAbs 0xFE41) s)).bus.take 3).map fun access =>
      match access with
      | .readRegister d k _ _ => (false, d, k)
      | .writeRegister d k _ _ => (true, d, k)
      | _ => (false, 0, 0)
    places { plain with regions := map } = [(true, 3, 1), (true, 3, 1), (false, 3, 1)]) := by decide

/-- A window of 16 registers, mirrored over 32 addresses. -/
theorem witness_DeviceWindowAccess : let r : Region := ⟨0xFE40, 32, .device 3 (2 ^ 4)⟩
    claimant [r, Region.wholeRam] 0xFE5F = some r ∧ r.kind = .device 3 (2 ^ 4) ∧ r.start ≤ (0xFE5F : Word).toNat := by
  decide

theorem witness_ReadOnlyBytesNeverChange : { plain with regions := romMap }.ReadOnly 0xFFFF ∧
    isNext (step { plain with regions := romMap }) = true := ⟨.inl (by decide), by decide⟩

theorem witness_MapAndParametersFixed : ∃ t, step plain = .next t := ⟨_, next_of (by decide)⟩

theorem witness_InServiceMarkerWriters : isNext (exec .rti plain) = true ∧ isNext (exec .brk plain) = true := by decide

/-- Each flag changed by one of its writers. -/
theorem witness_FlagWriters :
    (isNext (exec .sec plain) ∧ (nextState (exec .sec plain)).p.c ≠ plain.p.c) ∧
    (isNext (exec (.ldaImm 0) plain) ∧ (nextState (exec (.ldaImm 0) plain)).p.z ≠ plain.p.z) ∧
    (isNext (exec .cli plain) ∧ (nextState (exec .cli plain)).p.i ≠ plain.p.i) ∧
    (isNext (exec .sed plain) ∧ (nextState (exec .sed plain)).p.d ≠ plain.p.d) ∧
    (isNext (exec .rti { plain with p := unpack 0xFF }) ∧ (nextState (exec .rti { plain with p := unpack 0xFF })).p.b ≠
      (unpack 0xFF).b) ∧
    (isNext (exec (.adcImm 0x7F) { plain with a := 1 }) ∧ (nextState (exec (.adcImm 0x7F) { plain with a := 1 })).p.v ≠
      plain.p.v) ∧
    (isNext (exec .dex plain) ∧ (nextState (exec .dex plain)).p.n ≠ plain.p.n) := by decide

/-- Each register changed by one of its writers, A also by a shift in mode ACC. -/
theorem witness_RegisterWriters :
    (isNext (exec (.ldaImm 1) plain) ∧ (nextState (exec (.ldaImm 1) plain)).a ≠ plain.a) ∧
    (isNext (exec .aslAcc { plain with a := 1 }) ∧ (nextState (exec .aslAcc { plain with a := 1 })).a ≠ 1) ∧
    (isNext (exec .inx plain) ∧ (nextState (exec .inx plain)).x ≠ plain.x) ∧
    (isNext (exec .dey plain) ∧ (nextState (exec .dey plain)).y ≠ plain.y) ∧
    (isNext (exec .pha plain) ∧ (nextState (exec .pha plain)).sp ≠ plain.sp) := by decide

/-- One instruction of one tick and one of seven. -/
theorem witness_InstructionFrame : isNext (exec .hlt plain) = true ∧ isNext (exec (.incAbx 0xFFFF) plain) = true ∧
    ∀ i, plain.TouchesStored i := ⟨by decide, by decide, plain_touches⟩

theorem witness_NonStoringInstructionsKeepMemory :
    (isNext (exec (.ldaIzy 0x10) plain) ∧ (Instr.ldaIzy 0x10).mnemonic.instrClass = .read) ∧
    (isNext (exec .tax plain) ∧ Instr.tax.mnemonic.instrClass = .implied) ∧
    (isNext (exec (.bpl 0x80) plain) ∧ (Instr.bpl 0x80).mnemonic.instrClass = .branch) ∧
    (isNext (exec (.jmpInd 0x10FF) plain) ∧ (Instr.jmpInd 0x10FF).mnemonic = .jmp) ∧
    (isNext (exec .rorAcc plain) ∧ Instr.rorAcc.mode = .acc) ∧
    (isNext (exec .rts plain) ∧ Instr.rts.mnemonic ∈ [.pla, .plp, .rts, .rti]) := by decide

theorem witness_StoresChangeOneByte :
    (isNext (exec (.staAbx 0xFFFF) plain) ∧ (Instr.staAbx 0xFFFF).mnemonic.instrClass = .write) ∧
    (isNext (exec (.rolZpx 0xFF) plain) ∧ (Instr.rolZpx 0xFF).mnemonic.instrClass = .readModifyWrite ∧
      (Instr.rolZpx 0xFF).mode ≠ .acc) := by decide

theorem witness_PushesChangeStackSlots : isNext (exec .pha plain) = true ∧ isNext (exec .php plain) = true ∧
    isNext (exec (.jsr 0x1006) plain) = true ∧ isNext (exec .brk plain) = true := by decide

/-- RAM everywhere but for a device window. -/
def withDevice (sp : Byte) : State :=
  { plain with sp := sp, regions := [⟨0xFC00, 0x300, .device 0 16⟩, Region.wholeRam] }

theorem withDevice_allOpen (sp : Byte) : (withDevice sp).AllOpen := by
  intro a
  have hc : Region.wholeRam.hasAddress a = true := wholeRam_hasAddress a
  by_cases hd : Region.hasAddress ⟨0xFC00, 0x300, .device 0 16⟩ a = true
  · exact .inr ⟨0, 16, by simp [State.kindAt, claimant, withDevice, hd]⟩
  · exact .inl (by simp [State.InRam, State.kindAt, claimant, withDevice, hd, hc]; rfl)

/-- The stack with exactly the room each instruction needs. -/
theorem witness_EveryInstructionCompletes : (∀ sp, (withDevice sp).AllOpen) ∧ (∀ sp, (withDevice sp).p.d = false) ∧
    (decimal .binary [] 0 false).params.decimalMode ≠ .refuse ∧
    (withDevice 1).RoomToPush 1 ∧ (withDevice 2).RoomToPush 2 ∧ (withDevice 3).RoomToPush 3 ∧
    (withDevice 254).RoomToPull 1 ∧ (withDevice 253).RoomToPull 2 ∧ (withDevice 252).RoomToPull 3 :=
  ⟨withDevice_allOpen, fun _ => rfl, by decide, .inr (by decide), .inr (by decide), .inr (by decide), .inr (by decide),
    .inr (by decide), .inr (by decide)⟩

/-- The pointer of `(0xFF),Y` wraps, the indexed address too. -/
theorem witness_LoadsComplete : plain.TouchesStored (.ldaIzy 0xFF) ∧ plain.TouchesStored (.ldxAby 0xFFFF) ∧
    plain.TouchesStored (.ldyZpx 0xFF) := ⟨plain_touches _, plain_touches _, plain_touches _⟩

theorem witness_LogicCompletes : ∀ i ∈ [Instr.andIzx 0xFF, .oraAbs 0xFFFF, .eorImm 0xFF], plain.TouchesStored i ∧
    ∃ r : Byte, (i.mnemonic = .and ∧ r = plain.a &&& plain.operandByte i ∨
      i.mnemonic = .ora ∧ r = plain.a ||| plain.operandByte i ∨ i.mnemonic = .eor ∧ r = plain.a ^^^ plain.operandByte i) := by
  intro i hi
  refine ⟨plain_touches i, ?_⟩
  simp only [List.mem_cons, List.not_mem_nil, or_false] at hi
  obtain rfl | rfl | rfl := hi
  · exact ⟨_, .inl ⟨rfl, rfl⟩⟩
  · exact ⟨_, .inr (.inl ⟨rfl, rfl⟩)⟩
  · exact ⟨_, .inr (.inr ⟨rfl, rfl⟩)⟩

theorem decimal_touches (m : DecimalMode) (i : Instr) : (decimal m [] 0 true).TouchesStored i := touches_of_wholeRam rfl i

theorem witness_AdcCompletes : (Instr.adcAbx 0xFFFF).mnemonic = .adc ∧ plain.TouchesStored (.adcAbx 0xFFFF) ∧
    plain.p.d = false ∧ (decimal .binary [] 0 true).TouchesStored (.adcAbx 0xFFFF) ∧
    (decimal .binary [] 0 true).params.decimalMode = .binary :=
  ⟨rfl, plain_touches _, rfl, decimal_touches .binary _, rfl⟩

theorem witness_SbcCompletes : (Instr.sbcImm 0xFF).mnemonic = .sbc ∧ plain.TouchesStored (.sbcImm 0xFF) ∧
    plain.p.d = false ∧ (decimal .binary [] 0 true).TouchesStored (.sbcImm 0xFF) ∧
    (decimal .binary [] 0 true).params.decimalMode = .binary :=
  ⟨rfl, plain_touches _, rfl, decimal_touches .binary _, rfl⟩

theorem witness_DecimalRefused : (Instr.adcZp 0xFF).mnemonic = .adc ∧ (Instr.sbcIzx 0).mnemonic = .sbc ∧
    (decimal .refuse [] 0 true).TouchesStored (.adcZp 0xFF) ∧ (decimal .refuse [] 0 true).TouchesStored (.sbcIzx 0) ∧
    (decimal .refuse [] 0 true).p.d = true ∧ (decimal .refuse [] 0 true).params.decimalMode = .refuse :=
  ⟨rfl, rfl, decimal_touches .refuse _, decimal_touches .refuse _, rfl, rfl⟩

theorem witness_DecimalCompletes : (Instr.adcZp 0xFF).mnemonic = .adc ∧ (Instr.sbcIzx 0).mnemonic = .sbc ∧
    (decimal .nmosBcd [] 0 true).TouchesStored (.adcZp 0xFF) ∧ (decimal .nmosBcd [] 0 true).TouchesStored (.sbcIzx 0) ∧
    (decimal .nmosBcd [] 0 true).p.d = true ∧ (decimal .nmosBcd [] 0 true).params.decimalMode = .nmosBcd :=
  ⟨rfl, rfl, decimal_touches .nmosBcd _, decimal_touches .nmosBcd _, rfl, rfl⟩

theorem witness_DecimalDigits : bcdValid 0x99 ∧ bcdValid 0x00 ∧ bcdValid 0x90 := by
  unfold bcdValid; decide

theorem witness_ComparesComplete : plain.TouchesStored (.cmpIzy 0xFF) ∧ plain.TouchesStored (.cpxImm 0) ∧
    plain.TouchesStored (.cpyAbs 0xFFFF) ∧ (Instr.cmpIzy 0xFF).mnemonic = .cmp ∧ (Instr.cpxImm 0).mnemonic = .cpx ∧
    (Instr.cpyAbs 0xFFFF).mnemonic = .cpy := ⟨plain_touches _, plain_touches _, plain_touches _, rfl, rfl, rfl⟩

theorem witness_BitCompletes : (Instr.bitAbs 0xFFFF).mnemonic = .bit ∧ plain.TouchesStored (.bitAbs 0xFFFF) :=
  ⟨rfl, plain_touches _⟩

theorem witness_StoresComplete : plain.TouchesStored (.staIzx 0xFF) ∧
    plain.effectiveAddress (Instr.staIzx 0xFF).mode (Instr.staIzx 0xFF).operand = some 0 ∧ plain.InRam 0 ∧
    plain.effectiveAddress (Instr.stxZpy 0xFF).mode (Instr.stxZpy 0xFF).operand = some 0xFF ∧
    plain.effectiveAddress (Instr.styAbs 0xFFFF).mode (Instr.styAbs 0xFFFF).operand = some 0xFFFF :=
  ⟨plain_touches _, by decide, plain_inRam _, by decide, by decide⟩

/-- RAM below, ROM above. -/
def mixed : State := { plain with regions := [⟨0, 0x8000, .ram⟩, ⟨0x8000, 0x8000, .rom⟩] }

theorem mixed_stored (a : Word) : mixed.Stored a := by
  have := a.isLt
  by_cases h : a.toNat < 0x8000
  · exact .inl (by simp [State.kindAt, claimant, mixed, Region.hasAddress, h])
  · have h' : 0x8000 ≤ a.toNat := by omega
    exact .inr (by simp [State.kindAt, claimant, mixed, Region.hasAddress, h, h', this])

/-- The first byte of the ROM, by each class of store. -/
theorem witness_StoresToRomStop :
    (∀ i, mixed.TouchesStored i) ∧ mixed.kindAt 0x8000 = some .rom ∧
    ∀ i ∈ [Instr.staAbs 0x8000, .stxAbs 0x8000, .styAbs 0x8000, .incAbs 0x8000, .rorAbx 0x8000],
      mixed.effectiveAddress i.mode i.operand = some 0x8000 :=
  ⟨fun _ a _ => mixed_stored a, by decide, by decide⟩

theorem witness_IncDecComplete : plain.TouchesStored (.incAbx 0xFFFF) ∧ plain.InRam 0xFFFF ∧
    plain.effectiveAddress (Instr.incAbx 0xFFFF).mode (Instr.incAbx 0xFFFF).operand = some 0xFFFF ∧
    (Instr.incAbx 0xFFFF).mnemonic = .inc ∧ plain.TouchesStored (.decZp 0) ∧
    plain.effectiveAddress (Instr.decZp 0).mode (Instr.decZp 0).operand = some 0 ∧ (Instr.decZp 0).mnemonic = .dec :=
  ⟨plain_touches _, plain_inRam _, by decide, rfl, plain_touches _, by decide, rfl⟩

theorem witness_MemoryShiftsComplete : plain.TouchesStored (.rolAbs 0x10) ∧ plain.InRam 0x10 ∧
    plain.effectiveAddress (Instr.rolAbs 0x10).mode (Instr.rolAbs 0x10).operand = some 0x10 ∧
    shiftResult (Instr.rolAbs 0x10).mnemonic (plain.byteAt 0x10) plain.p.c = some (0x68, false) :=
  ⟨plain_touches _, plain_inRam _, by decide, by decide⟩

theorem witness_AccumulatorShiftsComplete : Instr.rorAcc.mode = .acc ∧ plain.TouchesStored .rorAcc ∧
    shiftResult Instr.rorAcc.mnemonic plain.a plain.p.c = some (0, false) := ⟨rfl, plain_touches _, by decide⟩

theorem witness_TransfersComplete : plain.Stored plain.pc ∧ plain.Stored (plain.pc + 1) := ⟨plain_stored _, plain_stored _⟩

/-- At the top of memory the next address is 0. -/
theorem witness_IndexStepsComplete : unassigned.Stored unassigned.pc ∧ unassigned.Stored (unassigned.pc + 1) ∧
    unassigned.pc + 1 = 0 := ⟨.inl (inRam_of_wholeRam rfl _), .inl (inRam_of_wholeRam rfl _), by decide⟩

theorem witness_FlagInstructionsComplete : plain.Stored plain.pc ∧ plain.Stored (plain.pc + 1) :=
  ⟨plain_stored _, plain_stored _⟩

theorem witness_JumpsComplete : plain.TouchesStored (.jmpAbs 0xFFFF) ∧ plain.TouchesStored (.jmpInd 0x30FF) :=
  ⟨plain_touches _, plain_touches _⟩

/-- Exactly two stack bytes of room. -/
theorem witness_JsrCompletes : { plain with sp := 2 }.TouchesStored (.jsr 0xFFFF) ∧
    { plain with sp := 2 }.InRam (stackAddr 2) ∧ { plain with sp := 2 }.InRam (stackAddr (2 - 1)) ∧
    { plain with sp := 2 }.RoomToPush 2 :=
  ⟨touches_of_wholeRam rfl _, inRam_of_wholeRam rfl _, inRam_of_wholeRam rfl _, .inr (by decide)⟩

theorem witness_RtsCompletes : { plain with sp := 253 }.TouchesStored .rts ∧ { plain with sp := 253 }.RoomToPull 2 :=
  ⟨touches_of_wholeRam rfl _, .inr (by decide)⟩

/-- A branch back to itself and one across a page. -/
theorem witness_BranchesComplete : plain.TouchesStored (.bcc 0xFE) ∧ plain.TouchesStored (.bvs 0x80) :=
  ⟨plain_touches _, plain_touches _⟩

theorem witness_PushesComplete : { plain with sp := 1 }.Stored plain.pc ∧ { plain with sp := 1 }.Stored (plain.pc + 1) ∧
    { plain with sp := 1 }.InRam (stackAddr 1) ∧ { plain with sp := 1 }.RoomToPush 1 :=
  ⟨.inl (inRam_of_wholeRam rfl _), .inl (inRam_of_wholeRam rfl _), inRam_of_wholeRam rfl _, .inr (by decide)⟩

theorem witness_PullsComplete : { plain with sp := 254 }.TouchesStored .pla ∧ { plain with sp := 254 }.RoomToPull 1 :=
  ⟨touches_of_wholeRam rfl _, .inr (by decide)⟩

theorem witness_BrkCompletes : { plain with sp := 3 }.TouchesStored .brk ∧ { plain with sp := 3 }.StackInRam ∧
    { plain with sp := 3 }.RoomToPush 3 :=
  ⟨touches_of_wholeRam rfl _, fun _ => inRam_of_wholeRam rfl _, .inr (by decide)⟩

theorem witness_RtiCompletes : { plain with sp := 252 }.TouchesStored .rti ∧ { plain with sp := 252 }.RoomToPull 3 :=
  ⟨touches_of_wholeRam rfl _, .inr (by decide)⟩

theorem witness_HltCompletes : plain.Stored plain.pc := plain_stored _

/-- SP one short of what each instruction needs. -/
theorem witness_StackBoundsStop : ∀ sp ∈ [0x00#8, 0x01#8, 0x02#8, 0xFD#8, 0xFE#8, 0xFF#8],
    { plain with sp := sp }.params.spBounds = .fatal ∧ { plain with sp := sp }.AllStored ∧
    { plain with sp := sp }.StackInRam :=
  fun _ _ => ⟨rfl, fun _ => .inl (inRam_of_wholeRam rfl _), fun _ => inRam_of_wholeRam rfl _⟩

end Sys2Proof.Tests
end

section
/-! Operations in flight: the queue and the temporaries of the instruction in flight pass through every operation that
the instruction view is made of, and the peripherals do not see them. -/

namespace Sys2Proof.Machine

variable {α β : Type} {s u : State} {q : List MicroOp} {tmp : Temps}

/-- `s` with queue `q` and temporaries `tmp`: the state of the tick view that stands at `s` of the instruction view. -/
def State.inFlight (s : State) (q : List MicroOp) (tmp : Temps) : State := { s with queue := q, tmp := tmp }

/-- The same outcome, the states by `f`. -/
def Res.mapState (f : State → State) (r : Res α) : Res α :=
  match r with
  | .ok v s => .ok v (f s)
  | .fault e s => .fault e (f s)
  | .refuse e s => .refuse e (f s)

/-- `op` neither reads nor changes the queue and the temporaries. -/
def Blind (op : State → Res α) : Prop :=
  ∀ s q tmp, op (s.inFlight q tmp) = (op s).mapState fun u => u.inFlight q tmp

theorem Blind.queue {op : State → Res α} (h : Blind op) {v : α} (e : op s = .ok v u) : u.queue = s.queue := by
  have h := h s s.queue s.tmp
  rw [show s.inFlight s.queue s.tmp = s from rfl, e] at h
  injection h with _ h
  rw [h]
  rfl

theorem Blind.pure (v : α) : Blind fun s => .ok v s := fun _ _ _ => rfl

theorem Blind.bind {op : State → Res α} {k : α → State → Res β} (h : Blind op) (hk : ∀ v, Blind (k v)) :
    Blind fun s => (op s).bind k := by
  intro s q tmp
  simp only [h s q tmp]
  cases op s with
  | ok v u => exact hk v u q tmp
  | fault f u => rfl
  | refuse e u => rfl

/-- In flight, `op` answers as it does without, and what follows sees its state in flight. -/
theorem Blind.outcome_bind {op : State → Res α} (h : Blind op) {k k' : α → State → Res Unit}
    (hk : ∀ v u, op s = .ok v u → (k v (u.inFlight q tmp)).outcome = (k' v u).outcome) :
    ((op (s.inFlight q tmp)).bind k).outcome = ((op s).bind k').outcome := by
  rw [h s q tmp]
  cases e : op s with
  | ok v u => exact hk v u e
  | fault f u => rfl
  | refuse e u => rfl

/-! ### The operations -/

theorem blind_busRead (a : Word) : Blind (busRead a) := by
  intro s q tmp
  unfold busRead State.inFlight
  cases claimant s.regions a with
  | none => rfl
  | some r =>
    dsimp only
    cases r.kind with
    | ram => rfl
    | rom => rfl
    | paged slot banks => dsimp only; cases bankByte s.bankSel slot banks r.start a <;> rfl
    | device device registers => rfl

theorem blind_busWrite (a : Word) (v : Byte) : Blind (busWrite a v) := by
  intro s q tmp
  unfold busWrite State.inFlight
  cases claimant s.regions a with
  | none => rfl
  | some r => dsimp only; cases r.kind <;> rfl

theorem blind_fetchByte : Blind fetchByte := fun s => (blind_busRead s.pc).bind (fun _ _ _ _ => rfl) s

theorem blind_decSp : Blind decSp := by
  intro s q tmp
  unfold decSp State.inFlight
  dsimp only
  split
  · cases s.params.spBounds <;> rfl
  · rfl

theorem blind_incSp : Blind incSp := by
  intro s q tmp
  unfold incSp State.inFlight
  dsimp only
  split
  · cases s.params.spBounds <;> rfl
  · rfl

theorem blind_push (f : State → Byte) (hf : ∀ s q tmp, f (s.inFlight q tmp) = f s := by intros; rfl) :
    Blind fun s => push (f s) s := by
  intro s q tmp
  dsimp only
  rw [hf]
  exact (blind_busWrite (stackAddr s.sp) (f s)).bind (fun _ => blind_decSp) s q tmp

theorem blind_stackRead : Blind stackRead := fun s => blind_busRead (stackAddr s.sp) s

theorem blind_stackReadInc : Blind stackReadInc :=
  blind_stackRead.bind fun v => blind_incSp.bind fun _ => .pure v

theorem blind_pushStatusByte (soft : Bool) : Blind (pushStatusByte soft) :=
  (blind_push fun s => entryStatus soft s.p).bind fun _ _ _ _ => rfl

theorem blind_loadVectorLo (v : VectorId) : Blind (loadVectorLo v) := (blind_busRead v.addr).bind fun _ _ _ _ => rfl

theorem blind_loadVectorHi (v : VectorId) (soft : Bool) : Blind (loadVectorHi v soft) :=
  (blind_busRead (v.addr + 1)).bind fun _ _ _ _ => rfl

theorem blind_pullStatusByte : Blind pullStatusByte :=
  blind_stackRead.bind fun b s => blind_incSp { s with p := returnedFlags b }

theorem blind_pullReturnHi (lo : Byte) : Blind (pullReturnHi lo) := blind_stackRead.bind fun _ _ _ _ => rfl

theorem blind_arithmetic (binary decimal : Byte → Byte → Flags → Byte × Flags) (v : Byte) :
    Blind (arithmetic binary decimal v) := by
  intro s q tmp
  unfold arithmetic State.inFlight
  dsimp only
  split
  · cases s.params.decimalMode <;> rfl
  · rfl

theorem blind_apply (op : ReadOp) (v : Byte) : Blind (op.apply v) := by
  cases op with
  | adc => exact blind_arithmetic _ _ v
  | sbc => exact blind_arithmetic _ _ v
  | lda | ldx | ldy | and | ora | eor | cmp | cpx | cpy | bit => exact fun _ _ _ => rfl

theorem blind_readInto (op : ReadOp) (ea : Word) : Blind (readInto op ea) := (blind_busRead ea).bind (blind_apply op)

theorem blind_write (r : StoreReg) (ea : Word) : Blind fun s => busWrite ea (r.value s) s := by
  intro s
  cases r with
  | a => exact blind_busWrite ea s.a s
  | x => exact blind_busWrite ea s.x s
  | y => exact blind_busWrite ea s.y s

theorem blind_rmwWrite (op : RmwOp) (ea : Word) (v : Byte) : Blind (rmwWrite op ea v) :=
  fun s => (blind_busWrite ea (op.apply v s.p).1).bind (fun _ _ _ _ => rfl) s

theorem blind_implied (op : ImpliedOp) : Blind fun s => (busRead s.pc s).bind fun _ s => .ok () (op.apply s) :=
  fun s => (blind_busRead s.pc).bind (fun _ _ _ _ => by cases op <;> rfl) s

theorem blind_accumulator (op : RmwOp) :
    Blind fun s => (busRead s.pc s).bind fun _ s => .ok () (s.setAFlags (op.apply s.a s.p)) :=
  fun s => (blind_busRead s.pc).bind (fun _ _ _ _ => rfl) s

theorem blind_branchLand (a target : Word) : Blind (branchLand a target) := (blind_busRead a).bind fun _ _ _ _ => rfl

end Sys2Proof.Machine
end

section
/-! A queue of micro-operations against the part of the instruction view it stands for (40_execution_engine.md R142,
R149): `Runs q t s r` says that the ticks of `q` from `s` answer what `r` answers. One rule per kind of tick. -/

namespace Sys2Proof.Machine

variable {α : Type} {s u : State} {m m' : MicroOp} {q q' : List MicroOp} {t : Temps}

/-- The most ticks a micro-operation leads to, those of the micro-operations it queues included (41_addressing_modes.md
R187, R189, R190). -/
def MicroOp.mostTicks : MicroOp → Nat
  | .readUnfixed _ => 2
  | .branchOperand _ => 3
  | .branchTaken => 2
  | _ => 1

/-- The most ticks a queue leads to. -/
def ticksLeft (q : List MicroOp) : Nat := (q.map MicroOp.mostTicks).sum

theorem mostTicks_bounds (m : MicroOp) : 1 ≤ m.mostTicks ∧ m.mostTicks ≤ 3 := by
  cases m <;> simp [MicroOp.mostTicks]

theorem ticksLeft_cons (m : MicroOp) (q : List MicroOp) : ticksLeft (m :: q) = m.mostTicks + ticksLeft q := rfl

theorem ticksLeft_lt_cons (m : MicroOp) (q : List MicroOp) : ticksLeft q < ticksLeft (m :: q) := by
  have := (mostTicks_bounds m).1
  rw [ticksLeft_cons]
  omega

theorem ticksLeft_le (q : List MicroOp) : ticksLeft q ≤ 3 * q.length := by
  induction q with
  | nil => exact Nat.le_refl 0
  | cons m q ih =>
    have := (mostTicks_bounds m).2
    rw [ticksLeft_cons, List.length_cons]
    omega

/-- The ticks of queue `q`, with temporaries `t`, from `s` answer what `r` answers. -/
def Runs (q : List MicroOp) (t : Temps) (s : State) (r : Res Unit) : Prop :=
  ∀ n, ticksLeft q ≤ n → (ticksToBoundary n (s.inFlight q t)).outcome = r.outcome

theorem Runs.finishInFlight {r : Res Unit} (h : Runs q t s r) :
    (finishInFlight (s.inFlight q t)).outcome = r.outcome := h _ (ticksLeft_le q)

/-- What micro-operation `m` does with `q` behind it and temporaries `t`: the operation `r` of the instruction view,
which leaves the queue `q'` and, by its value, the temporaries `g`. -/
def Does (m : MicroOp) (q : List MicroOp) (t : Temps) (s : State) (r : Res α) (q' : List MicroOp)
    (g : α → Temps) : Prop :=
  (runMicro m (s.inFlight q t)).outcome = (r.bind fun v u => .ok () (u.inFlight q' (g v))).outcome

/-- What follows sees no more of an operation than its outcome. -/
theorem outcome_bind_congr {r r' : Res Unit} (h : r.outcome = r'.outcome) (k : Unit → State → Res Unit) :
    (r.bind k).outcome = (r'.bind k).outcome := by
  cases r <;> cases r' <;> simp_all [Res.outcome]

/-- One tick of a queue. -/
theorem tickRes_inFlight {r : Res α} {g : α → Temps} (hm : Does m q t s r q' g) (k : Unit → State → Res Unit) :
    ((tickRes (s.inFlight (m :: q) t)).bind k).outcome =
      (r.bind fun v u => (endTick (u.inFlight q' (g v))).bind k).outcome := by
  have h := outcome_bind_congr hm fun v u => (endTick u).bind k
  rw [Res.bind_assoc] at h
  rw [← show _ = (r.bind fun v u => (endTick (u.inFlight q' (g v))).bind k).outcome from h, tickRes, Res.bind_assoc]
  rfl

/-- A tick that leaves more of the instruction, what it queued itself included. -/
theorem Runs.tickLe {r : Res α} {g : α → Temps} {K : α → State → Res Unit} (hm : Does m q t s r (m' :: q') g)
    (hn : ticksLeft (m' :: q') < ticksLeft (m :: q))
    (h : ∀ v u, r = .ok v u → Runs (m' :: q') (g v) (countCycle u) (K v (countCycle u))) :
    Runs (m :: q) t s ((cycle r).bind K) := by
  intro n hle
  obtain ⟨n, rfl⟩ : ∃ k, n = k + 1 := ⟨n - 1, by omega⟩
  have hstep : ticksToBoundary (n + 1) (s.inFlight (m :: q) t) =
      (tickRes (s.inFlight (m :: q) t)).bind fun _ u => ticksToBoundary n u := rfl
  rw [hstep, tickRes_inFlight hm, cycle, Res.bind_assoc]
  cases e : r with
  | ok v u => exact h v u e n (by omega)
  | fault f u => rfl
  | refuse f u => rfl

/-- A tick after which the rest of the queue follows. -/
theorem Runs.tick {r : Res α} {g : α → Temps} {K : α → State → Res Unit} (hm : Does m (m' :: q) t s r (m' :: q) g)
    (h : ∀ v u, r = .ok v u → Runs (m' :: q) (g v) (countCycle u) (K v (countCycle u))) :
    Runs (m :: m' :: q) t s ((cycle r).bind K) := .tickLe hm (ticksLeft_lt_cons m (m' :: q)) h

/-- The end of an instruction clears the temporaries, and the queue is empty. -/
theorem endTick_inFlight_nil (h : u.queue = []) (t : Temps) :
    endTick (u.inFlight [] t) = .ok () (settle (countCycle u)) := by
  have hset : settle (countCycle (u.inFlight u.queue t)) = settle (countCycle u) := rfl
  rw [h] at hset
  rw [← hset]
  rfl

/-- The tick that empties the queue. -/
theorem Runs.last {r : Res α} {g : α → Temps} (hm : Does m [] t s r [] g) (hq : ∀ v u, r = .ok v u → u.queue = []) :
    Runs [m] t s (lastCycle r) := by
  intro n hle
  have hpos := (mostTicks_bounds m).1
  obtain ⟨n, rfl⟩ : ∃ k, n = k + 1 := ⟨n - 1, by rw [ticksLeft_cons] at hle; omega⟩
  have hstep : ticksToBoundary (n + 1) (s.inFlight [m] t) =
      (tickRes (s.inFlight [m] t)).bind fun _ u => ticksToBoundary n u := rfl
  rw [hstep, tickRes_inFlight hm, lastCycle]
  cases e : r with
  | fault f u => rfl
  | refuse f u => rfl
  | ok v u =>
    have hu := hq v u e
    simp only [Res.ok_bind, endTick_inFlight_nil hu]
    cases n with
    | zero => rfl
    | succ n => simp [ticksToBoundary, hu]

/-! ### Kinds of micro-operation -/

/-- A micro-operation that is an operation of the instruction view. -/
theorem Does.of_blind {op : State → Res Unit} (hop : Blind op)
    (hm : runMicro m (s.inFlight q t) = op (s.inFlight q t)) : Does m q t s (op s) q fun _ => t := by
  unfold Does
  rw [hm, hop s q t]
  cases op s <;> rfl

/-- A micro-operation that is an operation of the instruction view, its value used. -/
theorem Does.of_bind {op : State → Res α} {j : α → State → Res Unit} {g : α → Temps} (hop : Blind op)
    (hm : runMicro m (s.inFlight q t) = (op (s.inFlight q t)).bind j)
    (hj : ∀ v u, op s = .ok v u → (j v (u.inFlight q t)).outcome = .next (u.inFlight q' (g v))) :
    Does m q t s (op s) q' g := by
  unfold Does
  rw [hm]
  exact hop.outcome_bind hj

/-- A read into the temporaries. -/
theorem Does.of_readTmp {a : Word} {f : Byte → Temps → Temps}
    (hm : runMicro m (s.inFlight q t) = readTmp a f (s.inFlight q t)) :
    Does m q t s (busRead a s) q fun v => f v t := .of_bind (blind_busRead a) hm fun _ _ _ => rfl

/-- A fetch into the temporaries. -/
theorem Does.of_fetchTmp {f : Byte → Temps → Temps}
    (hm : runMicro m (s.inFlight q t) = fetchTmp f (s.inFlight q t)) :
    Does m q t s (fetchByte s) q fun v => f v t := .of_bind blind_fetchByte hm fun _ _ _ => rfl

/-- A read that changes the bus record only. -/
theorem busRead_record {a : Word} {v : Byte} (h : busRead a s = .ok v u) : ∃ access, u = s.record access :=
  (busRead_kept a s).1 v u h

/-! ### Kinds of tick -/

/-- A tick with a read, more of the queue behind it. -/
theorem Runs.read {a : Word} {g : Byte → Temps} {K : Byte → State → Res Unit}
    (hm : Does m (m' :: q) t s (busRead a s) (m' :: q) g)
    (h : ∀ v access, Runs (m' :: q) (g v) (countCycle (s.record access)) (K v (countCycle (s.record access)))) :
    Runs (m :: m' :: q) t s ((cycle (busRead a s)).bind K) := by
  refine .tick hm fun v u e => ?_
  obtain ⟨access, rfl⟩ := busRead_record e
  exact h v access

/-- A tick with an operation that leaves the temporaries, more of the queue behind it. -/
theorem Runs.keep {op : State → Res Unit} {K : Unit → State → Res Unit} (hs : s.queue = []) (hop : Blind op)
    (hm : runMicro m (s.inFlight (m' :: q) t) = op (s.inFlight (m' :: q) t))
    (h : ∀ u, u.queue = [] → Runs (m' :: q) t u (K () u)) :
    Runs (m :: m' :: q) t s ((cycle (op s)).bind K) :=
  .tick (.of_blind hop hm) fun _ u e => h (countCycle u) ((hop.queue e).trans hs)

/-- The last tick, with an operation of the instruction view. -/
theorem Runs.final {op : State → Res Unit} (hs : s.queue = []) (hop : Blind op)
    (hm : runMicro m (s.inFlight [] t) = op (s.inFlight [] t)) : Runs [m] t s (lastCycle (op s)) :=
  .last (.of_blind hop hm) fun _ _ e => (hop.queue e).trans hs

/-- The last tick, with a read whose byte goes to PC by the temporaries. -/
theorem Runs.finalRead {a : Word} {f : Byte → State → State} {j : Byte → State → Res Unit} (hs : s.queue = [])
    (hm : runMicro m (s.inFlight [] t) = (busRead a (s.inFlight [] t)).bind j)
    (hj : ∀ v u, j v (u.inFlight [] t) = .ok () ((f v u).inFlight [] t)) (hf : ∀ v u, (f v u).queue = u.queue) :
    Runs [m] t s (lastCycle ((busRead a s).bind fun v u => .ok () (f v u))) := by
  refine .last (g := fun _ => t) ?_ fun _ w e => ?_
  · unfold Does
    rw [hm, Res.bind_assoc]
    exact (blind_busRead a).outcome_bind fun v u _ => congrArg Res.outcome (hj v u)
  · obtain ⟨v, u, e, h⟩ := Res.bind_ok.mp e
    obtain ⟨access, rfl⟩ := busRead_record e
    cases h
    exact (hf v _).trans hs

end Sys2Proof.Machine
end

section
/-! Operand fetches, and the ticks up to the effective address, for every way the sequence can go on
(41_addressing_modes.md R184 to R189). -/

namespace Sys2Proof.Machine

variable {s u : State} {m m' : MicroOp} {q : List MicroOp} {t : Temps} {b : Byte}

/-! ### Fetches -/

/-- A fetch that completes changes PC and the bus record. -/
theorem fetchByte_record (h : fetchByte s = .ok b u) : ∃ access, u = { s.record access with pc := s.pc + 1 } := by
  obtain ⟨v, w, h, e⟩ := Res.bind_ok.mp h
  obtain ⟨access, rfl⟩ := busRead_record h
  cases e
  exact ⟨access, rfl⟩

/-- The look ahead is the fetch tick it looks at. -/
theorem peek_of_fetch (h : cycle (fetchByte s) = .ok b u) : peekByte s = b ∧ peekNext s = u := by
  constructor
  · obtain ⟨v, w, hv, e⟩ := Res.bind_ok.mp h
    cases e
    rw [peekByte, hv]
  · rw [peekNext, h]

/-- A tick with an operand fetch: its byte and its state are those the look ahead sees, the queue and the index registers
as they were. -/
theorem Runs.fetch {g : Byte → Temps} {K : Byte → State → Res Unit}
    (hm : Does m (m' :: q) t s (fetchByte s) (m' :: q) g)
    (h : (peekNext s).queue = s.queue → (∀ i : Index, i.value (peekNext s) = i.value s) →
      Runs (m' :: q) (g (peekByte s)) (peekNext s) (K (peekByte s) (peekNext s))) :
    Runs (m :: m' :: q) t s ((cycle (fetchByte s)).bind K) := by
  refine .tick hm fun v w e => ?_
  have hc : cycle (fetchByte s) = .ok v (countCycle w) := by rw [e]; rfl
  obtain ⟨hv, hw⟩ := peek_of_fetch hc
  obtain ⟨access, rfl⟩ := fetchByte_record e
  have h := h (by rw [hw]; rfl) fun i => by rw [hw]; cases i <;> rfl
  rwa [hv, hw] at h

/-- The operand the look ahead sees behind the opcode, whose fetch leaves `u` (30_encoding.md R102). -/
def aheadOperand : Nat → State → Word
  | 0, _ => 0
  | 1, u => zextWord (peekByte u)
  | _, u => mkWord (peekByte (peekNext u)) (peekByte u)

/-! ### The micro-operations that fetch or read into the temporaries -/

theorem does_operandLo : Does .operandLo q t s (fetchByte s) q fun v => { t with lo := v } :=
  .of_fetchTmp (f := fun v t => { t with lo := v }) rfl

theorem does_operandZp : Does .operandZp q t s (fetchByte s) q fun v => { t with lo := v, ea := zpAddr v } :=
  .of_fetchTmp (f := fun v t => { t with lo := v, ea := zpAddr v }) rfl

theorem does_operandHi : Does .operandHi q t s (fetchByte s) q fun v => { t with hi := v, ea := mkWord v t.lo } :=
  .of_fetchTmp (f := fun v t => { t with hi := v, ea := mkWord v t.lo }) rfl

theorem does_operandHiIndexed (i : Index) :
    Does (.operandHiIndexed i) q t s (fetchByte s) q fun v => t.indexed v (i.value s) :=
  .of_fetchTmp (f := fun v t => t.indexed v (i.value s)) rfl

theorem does_operandPointer : Does .operandPointer q t s (fetchByte s) q fun v => { t with ptr := v } :=
  .of_fetchTmp (f := fun v t => { t with ptr := v }) rfl

theorem does_skipByte : Does .skipByte q t s (fetchByte s) q fun _ => t := .of_fetchTmp (f := fun _ t => t) rfl

theorem does_zpIndex (i : Index) :
    Does (.zpIndex i) q t s (busRead (zpAddr t.lo) s) q fun _ => { t with ea := zpAddr (t.lo + i.value s) } :=
  .of_readTmp (f := fun _ t => { t with ea := zpAddr (t.lo + i.value s) }) rfl

theorem does_pointerIndex :
    Does .pointerIndex q t s (busRead (zpAddr t.lo) s) q fun _ => { t with ptr := t.lo + s.x } :=
  .of_readTmp (f := fun _ t => { t with ptr := t.lo + s.x }) rfl

theorem does_pointerLo : Does .pointerLo q t s (busRead (zpAddr t.ptr) s) q fun v => { t with lo := v } :=
  .of_readTmp (f := fun v t => { t with lo := v }) rfl

theorem does_pointerHi :
    Does .pointerHi q t s (busRead (zpAddr (t.ptr + 1)) s) q fun v => { t with hi := v, ea := mkWord v t.lo } :=
  .of_readTmp (f := fun v t => { t with hi := v, ea := mkWord v t.lo }) rfl

theorem does_pointerHiIndexed :
    Does .pointerHiIndexed q t s (busRead (zpAddr (t.ptr + 1)) s) q fun v => t.indexed v (Index.value .y s) :=
  .of_readTmp (f := fun v t => t.indexed v s.y) rfl

theorem does_discardUnfixed : Does .discardUnfixed q t s (busRead t.unfixed s) q fun _ => t :=
  .of_readTmp (f := fun _ t => t) rfl

theorem does_rmwRead : Does .rmwRead q t s (busRead t.ea s) q fun v => { t with val := v } :=
  .of_readTmp (f := fun v t => { t with val := v }) rfl

theorem does_jumpIndirectLo : Does .jumpIndirectLo q t s (busRead t.ea s) q fun v => { t with val := v } :=
  .of_readTmp (f := fun v t => { t with val := v }) rfl

theorem does_discardPc : Does .discardPc q t s (busRead s.pc s) q fun _ => t := .of_readTmp (f := fun _ t => t) rfl

theorem does_discardStack : Does .discardStack q t s (busRead (stackAddr s.sp) s) q fun _ => t :=
  .of_readTmp (f := fun _ t => t) rfl

theorem does_pullHi : Does .pullHi q t s (busRead (stackAddr s.sp) s) q fun v => { t with hi := v } :=
  .of_readTmp (f := fun v t => { t with hi := v }) rfl

/-! ### Up to the effective address -/

/-- Queue `q` ends an instruction as `K` does at the effective address in the temporaries. -/
def EndsAt (q : List MicroOp) (K : Word → State → Res Unit) : Prop :=
  ∀ t s, s.queue = [] → Runs q t s (K t.ea s)

/-- Queue `q` ends an instruction as `K` does at the indexed base in the temporaries (41_addressing_modes.md R187). -/
def EndsIndexed (q : List MicroOp) (K : Word → Index → State → Res Unit) : Prop :=
  ∀ (t : Temps) h i s, s.queue = [] → Runs q (t.indexed h (i.value s)) s (K (mkWord h t.lo) i s)

theorem loByte_indexedAddr (base : Word) (idx : Byte) : loByte (indexedAddr base idx) = loByte base + idx := by
  apply BitVec.eq_of_toNat_eq
  simp only [loByte_toNat, indexedAddr, zextWord, BitVec.toNat_add, BitVec.toNat_setWidth]
  omega

/-- `ea_nofix` of the tick view is that of the instruction view. -/
theorem unfixed_indexed (t : Temps) (h idx : Byte) : (t.indexed h idx).unfixed = unfixedAddr (mkWord h t.lo) idx := by
  simp [Temps.unfixed, Temps.indexed, unfixedAddr, loByte_indexedAddr]

/-- The discarded read of classes WRITE and READ_MODIFY_WRITE (41_addressing_modes.md R187, R189). -/
theorem discardUnfixed_ends {K : Word → State → Res Unit} (hq : EndsAt (m :: q) K) :
    EndsIndexed (.discardUnfixed :: m :: q) fun base i s =>
      (cycle (busRead (unfixedAddr base (i.value s)) s)).bind fun _ s => K (indexedAddr base (i.value s)) s := by
  intro t h i s hs
  dsimp only
  rw [← unfixed_indexed]
  exact .read does_discardUnfixed fun _ _ => hq _ _ hs

/-- ABX and ABY, up to the base and its index (41_addressing_modes.md R187). -/
theorem absIdx_runs {K : Word → Index → State → Res Unit} {i : Index} (hf : cycle (fetchByte s) = .ok b u)
    (hu : u.queue = []) (hq : EndsIndexed (m :: q) K) :
    Runs (.operandLo :: .operandHiIndexed i :: m :: q) t u
      ((fetchCycles 3 s).bind fun _ s => K (aheadOperand 2 u) i s) := by
  simp only [fetchCycles, hf, Res.bind_assoc, Res.ok_bind]
  refine .fetch does_operandLo fun h1 _ => .fetch (does_operandHiIndexed i) fun h2 hi => ?_
  rw [← hi i]
  exact hq _ _ i _ (by simp [h2, h1, hu])

/-- A tick with a read keeps the index registers. -/
theorem index_value_tick (i : Index) (s : State) (access : BusAccess) :
    i.value (countCycle (s.record access)) = i.value s := by cases i <;> rfl

/-- IZY, up to the base and its index (41_addressing_modes.md R189). -/
theorem izy_runs {K : Word → Index → State → Res Unit} (hf : cycle (fetchByte s) = .ok b u)
    (hu : u.queue = []) (hq : EndsIndexed (m :: q) K) :
    Runs (.operandPointer :: .pointerLo :: .pointerHiIndexed :: m :: q) t u
      ((baseIzy (peekByte u) s).bind fun base s => K base .y s) := by
  simp only [baseIzy, readPointer, fetchCycles, hf, Res.bind_assoc, Res.ok_bind]
  refine .fetch does_operandPointer fun h1 _ => .read does_pointerLo fun _ _ =>
    .read does_pointerHiIndexed fun h access => ?_
  rw [← index_value_tick .y _ access]
  exact hq _ h .y _ (by simp [h1, hu])

/-- The ticks up to the effective address of a store or a read-modify-write, by mode (41_addressing_modes.md R184 to
R189). -/
def eaSequence : Mode → List MicroOp
  | .zp => [.operandZp]
  | .zpx => [.operandLo, .zpIndex .x]
  | .zpy => [.operandLo, .zpIndex .y]
  | .abs => [.operandLo, .operandHi]
  | .abx => [.operandLo, .operandHiIndexed .x, .discardUnfixed]
  | .aby => [.operandLo, .operandHiIndexed .y, .discardUnfixed]
  | .izx => [.operandLo, .pointerIndex, .pointerLo, .pointerHi]
  | .izy => [.operandPointer, .pointerLo, .pointerHiIndexed, .discardUnfixed]
  | .imp | .acc | .imm | .rel | .ind => []

/-- ZPX and ZPY (41_addressing_modes.md R185). -/
theorem eaZpIdx_runs {K : Word → State → Res Unit} (i : Index) (hf : cycle (fetchByte s) = .ok b u) (hu : u.queue = [])
    (hq : EndsAt (m :: q) K) :
    Runs (.operandLo :: .zpIndex i :: m :: q) t u ((eaZpIdx i (peekByte u) s).bind K) := by
  simp only [eaZpIdx, fetchCycles, hf, Res.bind_assoc, Res.ok_bind]
  exact .fetch does_operandLo fun h1 _ => .read (does_zpIndex i) fun _ _ => hq _ _ (by simp [h1, hu])

/-- ABX and ABY of the classes that write. -/
theorem eaAbsIdx_runs {K : Word → State → Res Unit} (i : Index) (hf : cycle (fetchByte s) = .ok b u) (hu : u.queue = [])
    (hq : EndsAt (m :: q) K) :
    Runs (.operandLo :: .operandHiIndexed i :: .discardUnfixed :: m :: q) t u
      ((eaAbsIdx i (aheadOperand 2 u) s).bind K) := by
  have h := absIdx_runs (t := t) (i := i) hf hu (discardUnfixed_ends hq)
  simp only [eaAbsIdx, Res.bind_assoc, Res.ok_bind]
  exact h

/-- The effective address by mode, for every ending `q`. -/
theorem storeEa_runs {mode : Mode} {e : Res Word} {K : Word → State → Res Unit} (hf : cycle (fetchByte s) = .ok b u)
    (hu : u.queue = []) (he : storeEa mode (aheadOperand mode.operandBytes u) s = some e) (hq : EndsAt (m :: q) K) :
    Runs (eaSequence mode ++ m :: q) t u (e.bind K) := by
  cases mode <;> simp only [storeEa, Option.some.injEq, reduceCtorEq] at he <;> subst he <;>
    simp only [Mode.operandBytes, aheadOperand, loByte_zextWord]
  case zp =>
    simp only [eaZp, fetchCycles, hf, Res.bind_assoc, Res.ok_bind]
    exact .fetch does_operandZp fun h1 _ => hq _ _ (by simp [h1, hu])
  case zpx => exact eaZpIdx_runs .x hf hu hq
  case zpy => exact eaZpIdx_runs .y hf hu hq
  case abs =>
    simp only [eaAbs, fetchCycles, hf, Res.bind_assoc, Res.ok_bind]
    exact .fetch does_operandLo fun h1 _ => .fetch does_operandHi fun h2 _ => hq _ _ (by simp [h2, h1, hu])
  case abx => exact eaAbsIdx_runs .x hf hu hq
  case aby => exact eaAbsIdx_runs .y hf hu hq
  case izx =>
    simp only [eaIzx, readPointer, fetchCycles, hf, Res.bind_assoc, Res.ok_bind]
    exact .fetch does_operandLo fun h1 _ => .read does_pointerIndex fun _ _ => .read does_pointerLo fun _ _ =>
      .read does_pointerHi fun _ _ => hq _ _ (by simp [h1, hu])
  case izy =>
    have h := izy_runs (t := t) hf hu (discardUnfixed_ends hq)
    simp only [eaIzy, Res.bind_assoc, Res.ok_bind]
    exact h

end Sys2Proof.Machine
end

section
/-! The classes READ, WRITE, READ_MODIFY_WRITE, IMPLIED and BRANCH: how their sequences end, and each class as a whole
(40_execution_engine.md R149, 41_addressing_modes.md R181 to R190). -/

namespace Sys2Proof.Machine

variable {s u : State} {q ms : List MicroOp} {t : Temps} {b : Byte} {mode : Mode}

/-! ### Endings, and the classes that reach memory -/

theorem readEa_ends (op : ReadOp) : EndsAt [.readEa op] (readAt op) :=
  fun t _ hs => .final hs (blind_readInto op t.ea) rfl

theorem writeEa_ends (r : StoreReg) : EndsAt [.writeEa r] (writeAt r) :=
  fun t _ hs => .final (op := fun s => busWrite t.ea (r.value s) s) hs (blind_write r t.ea) rfl

theorem does_rmwWriteOld : Does .rmwWriteOld q t s (busWrite t.ea t.val s) q fun _ => t :=
  .of_blind (blind_busWrite t.ea t.val) rfl

/-- A read-modify-write: read, write the old value, write the new one (41_addressing_modes.md R184). -/
theorem rmw_ends (op : RmwOp) : EndsAt [.rmwRead, .rmwWriteOld, .rmwWriteNew op] (rmwAt op) := by
  intro t s hs
  refine .read does_rmwRead fun v access => .tick does_rmwWriteOld fun _ w e => ?_
  exact .final (((blind_busWrite t.ea v).queue e).trans hs) (blind_rmwWrite op t.ea v) rfl

/-- A read at an indexed address: over when the page is not crossed, else one tick more (41_addressing_modes.md R187,
R189). -/
theorem readUnfixed_ends (op : ReadOp) :
    EndsIndexed [.readUnfixed op] fun base i s => readIndexed op base (i.value s) s := by
  intro t h i s hs
  dsimp only
  have hm : ∀ q, runMicro (.readUnfixed op) (s.inFlight q (t.indexed h (i.value s))) =
      if pageCrossed (mkWord h t.lo) (i.value s) then
        (busRead (unfixedAddr (mkWord h t.lo) (i.value s)) (s.inFlight q (t.indexed h (i.value s)))).bind
          fun _ s => enqueue (.readEa op) s
      else readInto op (unfixedAddr (mkWord h t.lo) (i.value s)) (s.inFlight q (t.indexed h (i.value s))) := by
    intro q
    rw [← unfixed_indexed]
    rfl
  unfold readIndexed
  cases hc : pageCrossed (mkWord h t.lo) (i.value s) with
  | false => exact .final hs (blind_readInto op _) (by rw [hm, hc]; rfl)
  | true =>
    refine .tickLe (m' := .readEa op) (q' := []) (g := fun _ => t.indexed h (i.value s)) ?_ (Nat.lt_succ_self 1)
      fun v w e => ?_
    · exact .of_bind (blind_busRead _) (by rw [hm, hc]; rfl) fun _ _ _ => rfl
    · obtain ⟨access, rfl⟩ := busRead_record e
      exact readEa_ends op _ _ hs

/-! ### The classes READ, WRITE and READ_MODIFY_WRITE -/

/-- Immediate: the byte fetched is the operand (41_addressing_modes.md R183). -/
theorem readImm_runs (op : ReadOp) (hf : cycle (fetchByte s) = .ok b u) (hu : u.queue = []) :
    Runs [.immediate op] t u (readImm op (peekByte u) s) := by
  have hpeek : (fetchByte u).bind (fun _ s => op.apply (peekByte u) s) =
      (fetchByte u).bind fun v s => op.apply v s := by
    unfold peekByte
    cases fetchByte u <;> rfl
  simp only [readImm, fetchCycles, hf, Res.ok_bind, hpeek]
  exact .final (op := fun s => (fetchByte s).bind fun v s => op.apply v s) hu
    (blind_fetchByte.bind (blind_apply op)) rfl

/-- Class READ, every mode with a sequence. -/
theorem readForm_runs {op : ReadOp} (hf : cycle (fetchByte s) = .ok b u) (hu : u.queue = [])
    (hseq : sequenceOf (.read op) mode = some ms) :
    Runs ms t u (readForm op mode (aheadOperand mode.operandBytes u) s) := by
  have hea : ∀ e, storeEa mode (aheadOperand mode.operandBytes u) s = some e →
      Runs (eaSequence mode ++ [.readEa op]) t u (e.bind (readAt op)) := fun e he =>
    storeEa_runs hf hu he (readEa_ends op)
  cases mode <;> simp only [sequenceOf, Option.some.injEq, reduceCtorEq] at hseq <;> subst hseq <;>
    simp only [readForm, Mode.operandBytes]
  case imm => simpa [aheadOperand] using readImm_runs op hf hu
  case zp => exact hea _ rfl
  case zpx => exact hea _ rfl
  case zpy => exact hea _ rfl
  case abs => exact hea _ rfl
  case izx => exact hea _ rfl
  case abx => exact absIdx_runs hf hu (readUnfixed_ends op)
  case aby => exact absIdx_runs hf hu (readUnfixed_ends op)
  case izy =>
    rw [aheadOperand, loByte_zextWord]
    exact izy_runs hf hu (readUnfixed_ends op)

/-- Class WRITE, every mode with a sequence. -/
theorem writeForm_runs {r : StoreReg} (hf : cycle (fetchByte s) = .ok b u) (hu : u.queue = [])
    (hseq : sequenceOf (.write r) mode = some ms) :
    Runs ms t u (writeForm r mode (aheadOperand mode.operandBytes u) s) := by
  have hms : ms = eaSequence mode ++ [.writeEa r] := by
    cases mode <;> simp only [sequenceOf, Option.some.injEq, reduceCtorEq] at hseq <;> exact hseq.symm
  unfold writeForm
  split
  next e he => rw [hms]; exact storeEa_runs hf hu he (writeEa_ends r)
  next he => cases mode <;> simp_all [sequenceOf, storeEa]

/-- Mode ACC (41_addressing_modes.md R182). -/
theorem rmwAcc_runs (op : RmwOp) (hf : cycle (fetchByte s) = .ok b u) (hu : u.queue = []) :
    Runs [.accumulator op] t u (rmwAcc op s) := by
  simp only [rmwAcc, fetchCycles, hf, Res.ok_bind]
  exact .final hu (blind_accumulator op) rfl

/-- Class READ_MODIFY_WRITE, every mode with a sequence. -/
theorem rmwForm_runs {op : RmwOp} (hf : cycle (fetchByte s) = .ok b u) (hu : u.queue = [])
    (hseq : sequenceOf (.rmw op) mode = some ms) :
    Runs ms t u (rmwForm op mode (aheadOperand mode.operandBytes u) s) := by
  have hea : ∀ e, storeEa mode (aheadOperand mode.operandBytes u) s = some e →
      Runs (eaSequence mode ++ [.rmwRead, .rmwWriteOld, .rmwWriteNew op]) t u (e.bind (rmwAt op)) := fun e he =>
    storeEa_runs hf hu he (rmw_ends op)
  cases mode <;> simp only [sequenceOf, Option.some.injEq, reduceCtorEq] at hseq <;> subst hseq
  case acc => exact rmwAcc_runs op hf hu
  case zp => exact hea _ rfl
  case zpx => exact hea _ rfl
  case abs => exact hea _ rfl
  case abx => exact hea _ rfl

/-! ### The classes IMPLIED and BRANCH -/

theorem implied_runs (op : ImpliedOp) (hf : cycle (fetchByte s) = .ok b u) (hu : u.queue = []) :
    Runs [.implied op] t u (implied op s) := by
  simp only [implied, fetchCycles, hf, Res.ok_bind]
  exact .final hu (blind_implied op) rfl

theorem does_branchOperand (c : Cond) : Does (.branchOperand c) [] t s (fetchByte s)
    (if c.holds s.p then [.branchTaken] else []) fun v => { t with lo := v } := by
  refine .of_bind (j := fun v u => if c.holds u.p then enqueue .branchTaken (u.setTmp { u.tmp with lo := v })
    else .ok () (u.setTmp { u.tmp with lo := v })) blind_fetchByte ?_ fun v u e => ?_
  · simp only [runMicro, fetchTmp, Res.bind_assoc, Res.ok_bind]
    rfl
  · obtain ⟨access, rfl⟩ := fetchByte_record e
    cases hc : c.holds s.p <;> simp only [State.inFlight, record_p, hc] <;> rfl

/-- A branch taken, after its operand: the target in the same page ends it, another page takes one tick more
(41_addressing_modes.md R190). -/
theorem branchTaken_runs (hs : s.queue = []) : Runs [.branchTaken] t s
    (if hiByte (branchTarget s.pc t.lo) = hiByte s.pc then lastCycle (branchLand s.pc (branchTarget s.pc t.lo) s)
    else (cycle (busRead s.pc s)).bind fun _ u =>
      lastCycle (branchLand (mkWord (hiByte u.pc) (loByte (branchTarget s.pc t.lo))) (branchTarget s.pc t.lo) u)) := by
  have hm : ∀ q, runMicro .branchTaken (s.inFlight q t) =
      if hiByte (branchTarget s.pc t.lo) = hiByte s.pc then branchLand s.pc (branchTarget s.pc t.lo) (s.inFlight q t)
      else (busRead s.pc (s.inFlight q t)).bind fun _ u =>
        enqueue .branchFix (u.setTmp { u.tmp with ea := branchTarget s.pc t.lo, crossed := true }) := by
    intro q
    simp only [runMicro, readTmp, Res.bind_assoc, Res.ok_bind]
    rfl
  split
  next hp => exact .final hs (blind_branchLand _ _) (by rw [hm, if_pos hp])
  next hp =>
    refine .tickLe (m' := .branchFix) (q' := [])
      (g := fun _ => { t with ea := branchTarget s.pc t.lo, crossed := true })
      (.of_bind (blind_busRead _) (by rw [hm, if_neg hp]) fun _ _ _ => rfl) (Nat.lt_succ_self 1) fun v u e => ?_
    obtain ⟨access, rfl⟩ := busRead_record e
    exact .final hs (blind_branchLand _ _) rfl

/-- A conditional branch (41_addressing_modes.md R190). -/
theorem branchRel_runs (c : Cond) (hf : cycle (fetchByte s) = .ok b u) (hu : u.queue = []) :
    Runs [.branchOperand c] t u (branchRel c (peekByte u) s) := by
  have hm := does_branchOperand (t := t) (s := u) c
  simp only [branchRel, fetchCycles, hf, Res.ok_bind]
  split
  next hc =>
    rw [if_pos hc] at hm
    refine .tickLe hm (Nat.lt_succ_self 2) fun v w e => ?_
    have hv : peekByte u = v := by rw [peekByte, e]
    obtain ⟨access, rfl⟩ := fetchByte_record e
    rw [hv]
    exact branchTaken_runs (t := { t with lo := v }) hu
  next hc =>
    rw [if_neg hc] at hm
    exact .last hm fun v w e => (blind_fetchByte.queue e).trans hu

end Sys2Proof.Machine
end

section
/-! The sequences of the instructions that have their own, and of taking an exception, against the instruction view
(41_addressing_modes.md R191 to R194, 60_exceptions.md R408). -/

namespace Sys2Proof.Machine

variable {s u : State} {m : MicroOp} {q : List MicroOp} {t : Temps} {b : Byte}

/-! ### Jumps -/

/-- The last tick of JMP and JSR: the high byte is read where PC stands. -/
theorem jumpHi_runs (hs : s.queue = []) :
    Runs [.jumpHi] t s (lastCycle ((busRead s.pc s).bind fun h s => .ok () { s with pc := mkWord h t.lo })) :=
  .finalRead (f := fun h s => { s with pc := mkWord h t.lo }) hs rfl (fun _ _ => rfl) fun _ _ => rfl

/-- A read of PC whose value the look ahead has seen. -/
theorem busRead_pc_peek {α : Type} (k : Byte → State → Res α) :
    (busRead s.pc s).bind (fun _ w => k (peekByte s) w) = (busRead s.pc s).bind k := by
  unfold peekByte fetchByte
  cases busRead s.pc s <;> rfl

theorem jmpAbs_runs (hf : cycle (fetchByte s) = .ok b u) (hu : u.queue = []) :
    Runs [.operandLo, .jumpHi] t u ((fetchCycles 2 s).bind fun _ s =>
      lastCycle ((busRead s.pc s).bind fun _ s => .ok () { s with pc := aheadOperand 2 u })) := by
  simp only [fetchCycles, hf, Res.bind_assoc, Res.ok_bind, aheadOperand]
  refine .fetch does_operandLo fun h1 _ => ?_
  rw [busRead_pc_peek fun h s => Res.ok () { s with pc := mkWord h (peekByte u) }]
  exact jumpHi_runs (by simp [h1, hu])

theorem jmpInd_runs (hf : cycle (fetchByte s) = .ok b u) (hu : u.queue = []) :
    Runs [.operandLo, .operandHi, .jumpIndirectLo, .jumpIndirectHi] t u ((fetchCycles 3 s).bind fun _ s =>
      (cycle (busRead (aheadOperand 2 u) s)).bind fun tlo s =>
      lastCycle ((busRead (indirectHiAddr (aheadOperand 2 u)) s).bind fun thi s =>
        .ok () { s with pc := mkWord thi tlo })) := by
  simp only [fetchCycles, hf, Res.bind_assoc, Res.ok_bind, aheadOperand]
  refine .fetch does_operandLo fun h1 _ => .fetch does_operandHi fun h2 _ => .read does_jumpIndirectLo fun tlo _ => ?_
  exact .finalRead (f := fun thi s => { s with pc := mkWord thi tlo }) (by simp [h2, h1, hu]) rfl (fun _ _ => rfl)
    fun _ _ => rfl

/-! ### The stack -/

theorem Runs.pushPcHi {K : Unit → State → Res Unit} {m' : MicroOp} (hs : s.queue = [])
    (h : ∀ u, u.queue = [] → Runs (m' :: q) t u (K () u)) :
    Runs (.pushPcHi :: m' :: q) t s ((cycle (push (hiByte s.pc) s)).bind K) :=
  .keep (op := fun s => push (hiByte s.pc) s) hs (blind_push fun s => hiByte s.pc) rfl h

theorem Runs.pushPcLo {K : Unit → State → Res Unit} {m' : MicroOp} (hs : s.queue = [])
    (h : ∀ u, u.queue = [] → Runs (m' :: q) t u (K () u)) :
    Runs (.pushPcLo :: m' :: q) t s ((cycle (push (loByte s.pc) s)).bind K) :=
  .keep (op := fun s => push (loByte s.pc) s) hs (blind_push fun s => loByte s.pc) rfl h

theorem jsr_runs (hf : cycle (fetchByte s) = .ok b u) (hu : u.queue = []) :
    Runs [.operandLo, .discardStack, .pushPcHi, .pushPcLo, .jumpHi] t u ((fetchCycles 2 s).bind fun _ s =>
      (cycle (stackRead s)).bind fun _ s =>
      (cycle (push (hiByte s.pc) s)).bind fun _ s =>
      (cycle (push (loByte s.pc) s)).bind fun _ s =>
      lastCycle ((busRead s.pc s).bind fun hi s => .ok () { s with pc := mkWord hi (loByte (aheadOperand 2 u)) })) := by
  simp only [fetchCycles, hf, Res.bind_assoc, Res.ok_bind, aheadOperand, loByte_mkWord]
  refine .fetch does_operandLo fun h1 _ => .read does_discardStack fun _ _ => ?_
  exact .pushPcHi (by simp [h1, hu]) fun v hv => .pushPcLo hv fun w hw => jumpHi_runs hw

/-- The first two ticks of the stack instructions. -/
theorem stackHead_runs {K : State → Res Unit} (hf : cycle (fetchByte s) = .ok b u) (hu : u.queue = [])
    (h : ∀ w, w.queue = [] → Runs (m :: q) t w (K w)) :
    Runs (.discardPc :: m :: q) t u ((stackHead s).bind fun _ s => K s) := by
  simp only [stackHead, fetchCycles, hf, Res.bind_assoc, Res.ok_bind]
  exact .read does_discardPc fun _ _ => h _ hu

theorem does_pullStart : Does .pullStart q t s (stackReadInc s) q fun _ => t :=
  .of_bind blind_stackReadInc rfl fun _ _ _ => rfl

theorem does_pullLo : Does .pullLo q t s (stackReadInc s) q fun v => { t with lo := v } := by
  unfold Does stackReadInc
  simp only [runMicro, Res.bind_assoc]
  refine blind_stackRead.outcome_bind fun v u _ => ?_
  rw [show (u.inFlight q t).setTmp { (u.inFlight q t).tmp with lo := v } = u.inFlight q { t with lo := v } from rfl,
    blind_incSp u q _]
  cases incSp u <;> rfl

/-- A tick that pulls a byte. -/
theorem Runs.pull {g : Byte → Temps} {K : Byte → State → Res Unit} {m' : MicroOp} (hs : s.queue = [])
    (hm : Does m (m' :: q) t s (stackReadInc s) (m' :: q) g)
    (h : ∀ v u, u.queue = [] → Runs (m' :: q) (g v) u (K v u)) :
    Runs (m :: m' :: q) t s ((cycle (stackReadInc s)).bind K) :=
  .tick hm fun v u e => h v (countCycle u) ((blind_stackReadInc.queue e).trans hs)

theorem rts_runs (hf : cycle (fetchByte s) = .ok b u) (hu : u.queue = []) :
    Runs [.discardPc, .pullStart, .pullLo, .pullHi, .returnIncrement] t u ((stackHead s).bind fun _ s =>
      (cycle (stackReadInc s)).bind fun _ s =>
      (cycle (stackReadInc s)).bind fun lo s =>
      (cycle (stackRead s)).bind fun hi s =>
      lastCycle ((busRead (mkWord hi lo) s).bind fun _ s => .ok () { s with pc := mkWord hi lo + 1 })) := by
  refine stackHead_runs hf hu fun w hw => .pull hw does_pullStart fun _ v hv => .pull hv does_pullLo fun lo x hx =>
    .read does_pullHi fun hi _ => ?_
  exact .finalRead (f := fun _ s => { s with pc := mkWord hi lo + 1 }) hx rfl (fun _ _ => rfl) fun _ _ => rfl

/-- PHA and PHP. -/
theorem pushInstr_runs {f : State → Byte} (hb : Blind fun s => push (f s) s) (hf : cycle (fetchByte s) = .ok b u)
    (hu : u.queue = []) (hm : ∀ s, runMicro m s = push (f s) s) :
    Runs [.discardPc, m] t u ((stackHead s).bind fun _ s => lastCycle (push (f s) s)) :=
  stackHead_runs hf hu fun _ hw => .final (op := fun s => push (f s) s) hw hb (hm _)

/-- PLA and PLP. -/
theorem pullInstr_runs {f : Byte → State → State} (hb : ∀ v, Blind fun s => .ok () (f v s))
    (hf : cycle (fetchByte s) = .ok b u) (hu : u.queue = [])
    (hm : ∀ s, runMicro m s = (stackRead s).bind fun v s => .ok () (f v s)) :
    Runs [.discardPc, .pullStart, m] t u ((stackHead s).bind fun _ s =>
      (cycle (stackReadInc s)).bind fun _ s => lastCycle ((stackRead s).bind fun v s => .ok () (f v s))) :=
  stackHead_runs hf hu fun _ hw => .pull hw does_pullStart fun _ _ hv =>
    .final (op := fun s => (stackRead s).bind fun v s => .ok () (f v s)) hv (blind_stackRead.bind hb) (hm _)

theorem rti_runs (hf : cycle (fetchByte s) = .ok b u) (hu : u.queue = []) :
    Runs [.discardPc, .pullStart, .pullStatus, .pullLo, .pullHiReturn] t u
      ((stackHead s).bind fun _ s => returnFromException s) :=
  stackHead_runs hf hu fun _ hw => .pull hw does_pullStart fun _ _ hv => .keep hv blind_pullStatusByte rfl
    fun _ hx => .pull hx does_pullLo fun lo _ hy => .final hy (blind_pullReturnHi lo) rfl

/-! ### Exceptions -/

/-- Taking an exception, by BRK or a hardware interrupt. -/
theorem takeException_runs (v : VectorId) (soft : Bool) (hs : s.queue = []) :
    Runs [.pushPcHi, .pushPcLo, .pushStatus soft, .vectorLo v, .vectorHi v soft] t s (takeException v soft s) :=
  .pushPcHi hs fun _ h1 => .pushPcLo h1 fun _ h2 =>
    .keep h2 (blind_pushStatusByte soft) rfl fun _ h3 => .keep h3 (blind_loadVectorLo v) rfl fun _ h4 =>
      .final h4 (blind_loadVectorHi v soft) rfl

theorem brk_runs (hf : cycle (fetchByte s) = .ok b u) (hu : u.queue = []) :
    Runs [.skipByte, .pushPcHi, .pushPcLo, .pushStatus true, .vectorLo .irq, .vectorHi .irq true] t u
      ((fetchCycles 2 s).bind fun _ s => takeException .irq true s) := by
  simp only [fetchCycles, hf, Res.bind_assoc, Res.ok_bind]
  exact .fetch does_skipByte fun h1 _ => takeException_runs .irq true (by simp [h1, hu])

/-- The dummy ticks of a hardware interrupt, then the exception (60_exceptions.md R408). -/
theorem serviceSequence_runs (v : VectorId) (n : Nat) (hs : s.queue = []) :
    Runs (serviceSequence v n) t s ((dummyCycles n s).bind fun _ s => takeException v false s) := by
  induction n generalizing s with
  | zero => exact takeException_runs v false hs
  | succ n ih =>
    obtain ⟨m', q', hq⟩ : ∃ m' q', serviceSequence v n = m' :: q' := by cases n <;> exact ⟨_, _, rfl⟩
    have hcons : serviceSequence v (n + 1) = .discardPc :: serviceSequence v n := rfl
    rw [hcons, hq, dummyCycles, Res.bind_assoc]
    exact .read does_discardPc fun _ _ => hq ▸ ih hs

end Sys2Proof.Machine
end

section
/-! Every instruction after its opcode fetch, and the fetch and the decoder in both views (30_encoding.md R102, R105,
40_execution_engine.md R144). -/

namespace Sys2Proof.Machine

variable {s u w : State} {ms : List MicroOp} {t : Temps} {b hlt : Byte} {mn : Mnemonic} {mode : Mode} {i : Instr}

/-! ### Every instruction -/

/-- After the opcode fetch, the queue of an instruction's sequence ends as its meaning does. -/
theorem finishInFlight_exec (hf : cycle (fetchByte s) = .ok b u) (hu : u.queue = [])
    (hopnd : i.operand = aheadOperand i.mode.operandBytes u) (hne : operationOf i.mnemonic ≠ .hlt)
    (hseq : sequenceOf (operationOf i.mnemonic) i.mode = some ms) :
    (finishInFlight (u.inFlight ms t)).outcome = exec i s := by
  cases ho : operationOf i.mnemonic with
  | read op =>
    rw [ho] at hseq
    rw [exec_read ho, hopnd]
    exact (readForm_runs hf hu hseq).finishInFlight
  | write r =>
    rw [ho] at hseq
    rw [exec_write ho, hopnd]
    exact (writeForm_runs hf hu hseq).finishInFlight
  | rmw op =>
    rw [ho] at hseq
    rw [exec_rmw ho, hopnd]
    exact (rmwForm_runs hf hu hseq).finishInFlight
  | implied op =>
    obtain rfl : [.implied op] = ms := by
      rw [ho] at hseq
      cases hm : i.mode <;> simp only [hm, sequenceOf, Option.some.injEq, reduceCtorEq] at hseq
      exact hseq
    rw [exec_implied ho]
    exact (implied_runs op hf hu).finishInFlight
  | branch c =>
    obtain ⟨hm, rfl⟩ : i.mode = .rel ∧ [.branchOperand c] = ms := by
      rw [ho] at hseq
      cases hm : i.mode <;> simp only [hm, sequenceOf, Option.some.injEq, reduceCtorEq] at hseq
      exact ⟨rfl, hseq⟩
    rw [exec_branch ho, hopnd, hm, Mode.operandBytes, aheadOperand, loByte_zextWord]
    exact (branchRel_runs c hf hu).finishInFlight
  | jmp =>
    cases i <;> first | (cases ho; done) | skip
    case jmpAbs a => cases hseq; cases hopnd; exact (jmpAbs_runs hf hu).finishInFlight
    case jmpInd a => cases hseq; cases hopnd; exact (jmpInd_runs hf hu).finishInFlight
  | jsr =>
    cases i <;> first | (cases ho; done) | skip
    case jsr a => cases hseq; cases hopnd; exact (jsr_runs hf hu).finishInFlight
  | rts =>
    obtain rfl : i = .rts := by cases i <;> first | (cases ho; done) | rfl
    cases hseq
    exact (rts_runs hf hu).finishInFlight
  | pha =>
    obtain rfl : i = .pha := by cases i <;> first | (cases ho; done) | rfl
    cases hseq
    exact (pushInstr_runs (blind_push fun s => s.a) hf hu fun _ => rfl).finishInFlight
  | php =>
    obtain rfl : i = .php := by cases i <;> first | (cases ho; done) | rfl
    cases hseq
    exact (pushInstr_runs (blind_push fun s => packBreak s.p) hf hu fun _ => rfl).finishInFlight
  | pla =>
    obtain rfl : i = .pla := by cases i <;> first | (cases ho; done) | rfl
    cases hseq
    exact (pullInstr_runs (f := fun v s => s.setA v) (fun _ _ _ _ => rfl) hf hu fun _ => rfl).finishInFlight
  | plp =>
    obtain rfl : i = .plp := by cases i <;> first | (cases ho; done) | rfl
    cases hseq
    exact (pullInstr_runs (f := fun v s => { s with p := pulledFlags v s.p }) (fun _ _ _ _ => rfl) hf hu
      fun _ => rfl).finishInFlight
  | brk =>
    obtain rfl : i = .brk := by cases i <;> first | (cases ho; done) | rfl
    cases hseq
    exact (brk_runs hf hu).finishInFlight
  | rti =>
    obtain rfl : i = .rti := by cases i <;> first | (cases ho; done) | rfl
    cases hseq
    exact (rti_runs hf hu).finishInFlight
  | hlt => exact absurd ho hne

/-! ### Fetch and decode in both views -/

/-- The part of an operand that its bytes can hold, none of it where the mode has no operand byte. -/
def keptOperand : Nat → Word → Word
  | 0, _ => 0
  | 1, opnd => zextWord (loByte opnd)
  | _, opnd => opnd

/-- Each row of the table builds an instruction of its pair, with its operand, and has a sequence (30_encoding.md
R112). -/
theorem instructionSet_supported (hlt : Byte) (opnd : Word) :
    ((instructionSet hlt).map fun r => ((Instr.build r.mnemonic r.mode opnd).map fun i =>
        (i.mnemonic, i.mode, i.operand), (sequenceOf (operationOf r.mnemonic) r.mode).isSome)) =
      (instructionSet hlt).map fun r =>
        (some (r.mnemonic, r.mode, keptOperand r.mode.operandBytes opnd), true) := by rfl

theorem keptOperand_ahead (mode : Mode) (u : State) :
    keptOperand mode.operandBytes (aheadOperand mode.operandBytes u) = aheadOperand mode.operandBytes u := by
  cases mode <;> simp [keptOperand, aheadOperand, Mode.operandBytes]

/-- A decoded pair has a sequence, and the instruction built from the look ahead has its pair and its operand. -/
theorem decodeOpcode_supported (h : decodeOpcode hlt b = some (mn, mode)) (u : State) :
    (∃ ms, sequenceOf (operationOf mn) mode = some ms) ∧
      ∃ i, Instr.build mn mode (aheadOperand mode.operandBytes u) = some i ∧
        i.mnemonic = mn ∧ i.mode = mode ∧ i.operand = aheadOperand mode.operandBytes u := by
  obtain ⟨r, hr, e⟩ := Option.map_eq_some_iff.mp h
  cases e
  have hrow := List.map_eq_map_iff.mp (instructionSet_supported hlt (aheadOperand r.mode.operandBytes u)) r
    (List.mem_of_find?_eq_some hr)
  simp only [Prod.mk.injEq, Option.map_eq_some_iff, Option.isSome_iff_exists, keptOperand_ahead] at hrow
  obtain ⟨⟨i, hi, hmn, hmode, hopnd⟩, hms⟩ := hrow
  exact ⟨hms, i, hi, hmn, hmode, hopnd⟩

/-- A sequence fits the queue, and only HLT's is empty. -/
theorem sequenceOf_bounds {o : Operation} (h : sequenceOf o mode = some ms) :
    ms.length ≤ queueCapacity ∧ (ms = [] → o = .hlt) := by
  unfold sequenceOf at h
  split at h <;> cases h <;> simp [queueCapacity]

/-- The three bytes looked ahead. -/
theorem peekBytes_of_fetch (hf : cycle (fetchByte s) = .ok b u) :
    peekBytes s = [b, peekByte u, peekByte (peekNext u)] := by
  obtain ⟨hb, hu⟩ := peek_of_fetch hf
  rw [peekBytes, hb, hu]

theorem fetchDecode_unassigned (hf : fetchByte s = .ok b w) (hd : decodeOpcode s.params.hltOpcode b = none) :
    fetchDecode s = .fault (.unassignedOpcode b s.pc) w := by
  have hc : cycle (fetchByte s) = .ok b (countCycle w) := by rw [hf]; rfl
  simp only [fetchDecode, hf, Res.ok_bind, peekBytes_of_fetch hc, decode, hd]

theorem fetchDecode_assigned (hf : fetchByte s = .ok b w) (hd : decodeOpcode s.params.hltOpcode b = some (mn, mode))
    (hi : Instr.build mn mode (aheadOperand mode.operandBytes (countCycle w)) = some i) :
    fetchDecode s = .ok i s := by
  have hc : cycle (fetchByte s) = .ok b (countCycle w) := by rw [hf]; rfl
  obtain ⟨rest, ht⟩ : ∃ rest, takeOperand mode.operandBytes
      [peekByte (countCycle w), peekByte (peekNext (countCycle w))] =
        some (aheadOperand mode.operandBytes (countCycle w), rest) := by cases mode <;> exact ⟨_, rfl⟩
  simp only [fetchDecode, hf, Res.ok_bind, peekBytes_of_fetch hc, decode, hd, ht, hi]

theorem fetchDecodeDispatch_unassigned (hf : fetchByte s = .ok b w) (hd : decodeOpcode s.params.hltOpcode b = none) :
    fetchDecodeDispatch s = .fault (.unassignedOpcode b s.pc) w := by
  obtain ⟨access, rfl⟩ := fetchByte_record hf
  simp only [fetchDecodeDispatch, hf, Res.ok_bind, record_params, hd]

theorem fetchDecodeDispatch_assigned (hf : fetchByte s = .ok b w)
    (hd : decodeOpcode s.params.hltOpcode b = some (mn, mode)) (hseq : sequenceOf (operationOf mn) mode = some ms) :
    fetchDecodeDispatch s = enqueueAll ms (if mn = .hlt then { w with halted := true } else w) := by
  obtain ⟨access, rfl⟩ := fetchByte_record hf
  simp only [fetchDecodeDispatch, hf, Res.ok_bind, record_params, hd, hseq]

/-- A sequence that fits goes into the empty queue. -/
theorem enqueueAll_fits (hs : s.queue = []) (h : ms.length ≤ queueCapacity) :
    enqueueAll ms s = .ok () (s.inFlight ms s.tmp) := by
  have hspec := enqueueAll_spec ms s (by rw [hs]; exact Nat.zero_le _)
  obtain ⟨_, v, e⟩ := hspec.2 (by simpa [hs] using h)
  obtain ⟨rfl, -⟩ := hspec.1 _ _ e
  rw [e, hs]
  rfl

/-- A sequence that does not fit is the fault of its first micro-operation too many (40_execution_engine.md R148). -/
theorem enqueueAll_overflow (hs : s.queue.length ≤ queueCapacity) (h : queueCapacity < s.queue.length + ms.length) :
    (enqueueAll ms s).outcome = .fault .queueOverflow := by
  induction ms generalizing s with
  | nil => simp only [List.length_nil] at h; omega
  | cons m ms ih =>
    unfold enqueueAll enqueue
    split
    next hlt =>
      refine ih ?_ ?_
      · simpa using hlt
      · simp only [List.length_append, List.length_cons, List.length_nil] at h ⊢; omega
    next => rfl

end Sys2Proof.Machine
end

section
/-! The step from a boundary against the boundary tick and the ticks it queued (00_scope.md R12, 40_execution_engine.md
R156). -/

namespace Sys2Proof.Machine

variable {s w : State} {b : Byte} {mn : Mnemonic}

/-- The boundary tick, when an instruction is fetched. -/
theorem tickRes_fetch (hq : s.queue = []) (hi : interruptTaken s = none) :
    tickRes s = (fetchDecodeDispatch (fireHook s)).bind fun _ u => endTick u := by
  simp only [tickRes, hq, boundaryTick, hi]

/-- The boundary tick, when an interrupt is taken. -/
theorem tickRes_service {v : VectorId} (hq : s.queue = []) (hi : interruptTaken s = some v) :
    tickRes s = (enqueueAll (serviceSequence v s.params.intEntryDummy) s).bind fun _ u => endTick u := by
  simp only [tickRes, hq, boundaryTick, hi]

/-- What a fetched and decoded instruction answers. -/
def execFetched (r : Res Instr) : Host.Outcome State Fault Refusal :=
  match r with
  | .ok i t => exec i t
  | .fault f _ => .fault f
  | .refuse e _ => .refused e

theorem step_fetch (hs : s.AtBoundary) (hi : interruptTaken s = none) :
    step s = execFetched (fetchDecode (fireHook s)) := by
  obtain ⟨hf, hh, hq⟩ := hs
  simp only [step, hf, hh, hq, hi]
  rfl

theorem step_service {v : VectorId} (hs : s.AtBoundary) (hi : interruptTaken s = some v) :
    step s = (serviceInterrupt v s).outcome := by
  obtain ⟨hf, hh, hq⟩ := hs
  simp only [step, hf, hh, hq, hi]
  rfl

theorem serviceSequence_length (v : VectorId) (n : Nat) : (serviceSequence v n).length = n + 5 := by
  simp [serviceSequence]

/-- A hardware interrupt entry (60_exceptions.md R408), with the queue overflow of one that does not fit. -/
theorem serviceInterrupt_ticks {v : VectorId} (hq : s.queue = []) (hi : interruptTaken s = some v) :
    ((tickRes s).bind fun _ t => finishInFlight t).outcome = (serviceInterrupt v s).outcome := by
  rw [tickRes_service hq hi, serviceInterrupt]
  have hlen := serviceSequence_length v s.params.intEntryDummy
  split
  next hfit =>
    have hfit : s.params.intEntryDummy + 5 ≤ queueCapacity := of_decide_eq_true hfit
    rw [enqueueAll_fits hq (hlen ▸ hfit), Res.ok_bind]
    have hrun := (serviceSequence_runs (t := s.tmp) v s.params.intEntryDummy (s := countCycle s) hq).finishInFlight
    obtain ⟨m, q, hms⟩ : ∃ m q, serviceSequence v s.params.intEntryDummy = m :: q :=
      List.exists_cons_of_length_eq_add_one hlen
    rw [hms] at hrun ⊢
    exact hrun
  next hfit =>
    have hfit : ¬ s.params.intEntryDummy + 5 ≤ queueCapacity := fun h => hfit (decide_eq_true h)
    have hover : (enqueueAll (serviceSequence v s.params.intEntryDummy) s).outcome =
        (Res.fault .queueOverflow s : Res Unit).outcome :=
      enqueueAll_overflow (by simp [hq]) (by rw [hq, hlen, List.length_nil]; omega)
    rw [Res.bind_assoc]
    exact outcome_bind_congr hover fun _ u => (endTick u).bind fun _ t => finishInFlight t

theorem operationOf_eq_hlt (h : operationOf mn = .hlt) : mn = .hlt := by
  cases mn <;> first | rfl | cases h

/-- HLT: the fetch is its only tick (46_stack_flags_system.md R365). -/
theorem hlt_ticks (hf : fetchByte s = .ok b w) (hw : w.queue = []) :
    ((endTick { w with halted := true }).bind fun _ t => finishInFlight t).outcome = exec .hlt s := by
  have he : endTick { w with halted := true } = .ok () (settle (countCycle { w with halted := true })) := by
    simp only [endTick, countCycle_queue, hw, List.isEmpty_nil, if_true]
  rw [he]
  simp only [Res.ok_bind, finishInFlight, settle_queue, countCycle_queue, hw, List.length_nil, Nat.mul_zero,
    ticksToBoundary, exec, execHlt, hf, lastCycle]

/-- An instruction, from its opcode fetch to its end, or the stop of the fetch. -/
theorem fetchDecode_ticks (hq : s.queue = []) :
    ((fetchDecodeDispatch s).bind fun _ u => (endTick u).bind fun _ t => finishInFlight t).outcome =
      execFetched (fetchDecode s) := by
  cases hf : fetchByte s with
  | fault f w => simp only [fetchDecodeDispatch, fetchDecode, execFetched, hf, Res.fault_bind, Res.outcome_fault]
  | refuse r w => simp only [fetchDecodeDispatch, fetchDecode, execFetched, hf, Res.refuse_bind, Res.outcome_refuse]
  | ok b w =>
    have hw : w.queue = [] := (blind_fetchByte.queue hf).trans hq
    cases hd : decodeOpcode s.params.hltOpcode b with
    | none =>
      rw [fetchDecodeDispatch_unassigned hf hd, fetchDecode_unassigned hf hd]
      rfl
    | some pair =>
      obtain ⟨mn, mode⟩ := pair
      obtain ⟨⟨ms, hms⟩, i, hi, rfl, rfl, hopnd⟩ := decodeOpcode_supported hd (countCycle w)
      obtain ⟨hlen, hempty⟩ := sequenceOf_bounds hms
      rw [fetchDecodeDispatch_assigned hf hd hms, fetchDecode_assigned hf hd hi]
      by_cases hhlt : i.mnemonic = .hlt
      · obtain rfl : i = .hlt := by cases i <;> first | rfl | cases hhlt
        cases hms
        exact hlt_ticks hf hw
      · rw [if_neg hhlt, enqueueAll_fits hw hlen, Res.ok_bind]
        have hc : cycle (fetchByte s) = .ok b (countCycle w) := by rw [hf]; rfl
        have hne : operationOf i.mnemonic ≠ .hlt := fun h => hhlt (operationOf_eq_hlt h)
        have hrun := finishInFlight_exec (t := w.tmp) hc hw hopnd hne hms
        obtain ⟨m, q, rfl⟩ := List.exists_cons_of_ne_nil fun h => hne (hempty h)
        exact hrun

/-- Settles O11: each micro-operation is an operation of the instruction view that does not see the queue and the
temporaries, and the temporaries hold what the instruction view carries along. -/
theorem ticksAgreeWithStep : Obligations.TicksAgreeWithStep := by
  unfold Obligations.TicksAgreeWithStep
  intro s hs
  have ⟨_, _, hq⟩ := hs
  cases hi : interruptTaken s with
  | some v => rw [step_service hs hi]; exact (serviceInterrupt_ticks hq hi).symm
  | none =>
    rw [step_fetch hs hi, tickRes_fetch hq hi, Res.bind_assoc]
    exact (fetchDecode_ticks (s := fireHook s) hq).symm

end Sys2Proof.Machine
end

section
/-! The invariant of the machine through the ticks of the tick view, and from there through a step (10_state.md R30, R31,
R40, 40_execution_engine.md R145). -/

namespace Sys2Proof.Machine

variable {s t u : State}

/-- A CPU with work in its queue is not halted. -/
theorem State.Inv.running (h : s.Inv) (hq : s.queue ≠ []) : s.halted = false := by
  obtain ⟨-, -, hhalt, -⟩ := h
  exact Bool.eq_false_iff.mpr fun hh => hq (hhalt hh)

/-- Step 3 of the tick restores the invariant: with the queue empty the halt may fall and the temporaries are cleared,
with work left the CPU still runs. -/
theorem endOfTick_inv (hs : s.Inv) (hh : s.halted = false) (hu : TickPost s u) :
    State.Inv (if (countCycle u).queue.isEmpty then settle (countCycle u) else countCycle u) := by
  obtain ⟨hmem, -, -, -⟩ := hs
  obtain ⟨hkept, -, -, hlen, hhalt, -⟩ := hu
  cases hq : u.queue with
  | nil =>
    simp only [countCycle_queue, hq, List.isEmpty_nil, if_true]
    exact ⟨hkept.mem_wf hmem, hlen, fun _ => hq, fun _ => rfl⟩
  | cons m q =>
    have hne : u.queue ≠ [] := hq ▸ List.cons_ne_nil m q
    have hrun : u.halted = false := (hhalt.resolve_right hne).trans hh
    simp only [countCycle_queue, hq, List.isEmpty_cons, Bool.false_eq_true, if_false]
    exact ⟨hkept.mem_wf hmem, hlen, fun h => absurd (hrun.symm.trans h) Bool.false_ne_true, fun h => absurd h hne⟩

/-- A tick that completes keeps the invariant. -/
theorem tickRes_inv (hs : s.Inv) (hh : s.halted = false) : Res.Spec False (tickRes s) fun _ t => t.Inv := by
  have ⟨_, hlen, _, _⟩ := hs
  exact (tickRes_post hlen).mono fun _ _ ⟨_, hu, ht⟩ => ht ▸ endOfTick_inv hs hh hu

/-- So do the ticks to the next boundary. -/
theorem ticksToBoundary_inv (n : Nat) (hs : s.Inv) : Res.Spec False (ticksToBoundary n s) fun _ t => t.Inv := by
  induction n generalizing s with
  | zero => exact .ok hs
  | succ n ih =>
    cases hq : s.queue with
    | nil =>
      simp only [ticksToBoundary, hq]
      exact .ok hs
    | cons m q =>
      simp only [ticksToBoundary, hq]
      exact (tickRes_inv hs (hs.running (hq ▸ List.cons_ne_nil m q))).bind fun _ _ hu => ih hu

theorem finishInFlight_inv (hs : s.Inv) : Res.Spec False (finishInFlight s) fun _ t => t.Inv :=
  ticksToBoundary_inv _ hs

/-- A step of a machine that is neither faulted nor halted is a run of ticks: those in flight, or at a boundary the
boundary tick and those it queues. -/
theorem step_ticks (hf : s.fault = none) (hh : s.halted = false) :
    step s = (if s.queue = [] then (tickRes s).bind fun _ t => finishInFlight t else finishInFlight s).outcome := by
  cases hq : s.queue with
  | nil => exact ticksAgreeWithStep s ⟨hf, hh, hq⟩
  | cons m q => simp [step, hf, hh, hq]

theorem step_halted (hf : s.fault = none) (hh : s.halted = true) : step s = .next s := by simp [step, hf, hh]

theorem step_faulted {f : Fault} (hf : s.fault = some f) : step s = .fault f := by simp [step, hf]

/-- Settles O12: a step is a run of ticks, and every tick keeps the invariant. -/
theorem stepKeepsInvariant : Obligations.StepKeepsInvariant := by
  unfold Obligations.StepKeepsInvariant
  intro s t hs h
  cases hf : s.fault with
  | some f => rw [step_faulted hf] at h; cases h
  | none =>
    cases hh : s.halted with
    | true => rw [step_halted hf hh] at h; cases h; exact hs
    | false =>
      rw [step_ticks hf hh] at h
      split at h
      · exact ((tickRes_inv hs hh).bind fun _ _ hu => finishInFlight_inv hu).outcome h
      · exact (finishInFlight_inv hs).outcome h

end Sys2Proof.Machine
end

section
/-! What a tick leaves wherever it ends, in the middle of its work too (10_state.md R35, 40_execution_engine.md R153):
until its end it counts nothing, keeps the canonical form of storage and the bound of the queue, and halts no CPU but
by HLT, which completes. -/

namespace Sys2Proof.Machine

variable {α β : Type} {s t u : State} {c : Nat}

/-- The state an operation leaves, that of a fault or a refusal included. -/
def Res.state (r : Res α) : State :=
  match r with
  | .ok _ s => s
  | .fault _ s => s
  | .refuse _ s => s

/-- A state before the end of the tick that follows `c` counted ones. -/
def MidTick (c : Nat) (s : State) : Prop :=
  s.cycles = c ∧ Memory.wf s.mem = true ∧ s.queue.length ≤ queueCapacity ∧ s.halted = false

/-- A sequence stops in the state of its first operation or in one of what follows. -/
theorem MidTick.bind {r : Res α} {k : α → State → Res β} (h : MidTick c r.state)
    (hk : ∀ v u, MidTick c u → MidTick c (k v u).state) : MidTick c (r.bind k).state := by
  cases r with
  | ok v u => exact hk v u h
  | fault f u => exact h
  | refuse e u => exact h

theorem MidTick.of_fault {r : Res α} {f : Fault} (h : MidTick c r.state) (e : r = .fault f u) : MidTick c u := by
  rw [e] at h
  exact h

/-! ### The operations -/

theorem busRead_midTick (a : Word) (h : MidTick c s) : MidTick c (busRead a s).state := by
  unfold busRead
  cases claimant s.regions a with
  | none => exact h
  | some r =>
    dsimp only
    cases r.kind with
    | ram | rom | device => exact h
    | paged slot banks => dsimp only; cases bankByte s.bankSel slot banks r.start a <;> exact h

theorem busWrite_midTick (a : Word) (v : Byte) (h : MidTick c s) : MidTick c (busWrite a v s).state := by
  unfold busWrite
  cases claimant s.regions a with
  | none => exact h
  | some r =>
    dsimp only
    cases r.kind with
    | ram =>
      obtain ⟨hc, hm, hq, hh⟩ := h
      exact ⟨hc, Memory.wf_write hm a v, hq, hh⟩
    | rom | paged | device => exact h

theorem fetchByte_midTick (h : MidTick c s) : MidTick c (fetchByte s).state :=
  (busRead_midTick s.pc h).bind fun _ _ hu => hu

theorem decSp_midTick (h : MidTick c s) : MidTick c (decSp s).state := by
  unfold decSp
  split
  · cases s.params.spBounds <;> exact h
  · exact h

theorem incSp_midTick (h : MidTick c s) : MidTick c (incSp s).state := by
  unfold incSp
  split
  · cases s.params.spBounds <;> exact h
  · exact h

theorem push_midTick (v : Byte) (h : MidTick c s) : MidTick c (push v s).state :=
  (busWrite_midTick _ v h).bind fun _ _ hu => decSp_midTick hu

theorem stackReadInc_midTick (h : MidTick c s) : MidTick c (stackReadInc s).state :=
  (busRead_midTick _ h).bind fun _ _ hu => (incSp_midTick hu).bind fun _ _ hw => hw

theorem enqueue_midTick (m : MicroOp) (h : MidTick c s) : MidTick c (enqueue m s).state := by
  unfold enqueue
  split
  next hlt =>
    obtain ⟨hc, hm, -, hh⟩ := h
    exact ⟨hc, hm, by simpa [Res.state] using hlt, hh⟩
  next => exact h

theorem enqueueAll_midTick (ms : List MicroOp) (h : MidTick c s) : MidTick c (enqueueAll ms s).state := by
  induction ms generalizing s with
  | nil => exact h
  | cons m ms ih => exact (enqueue_midTick m h).bind fun _ _ hu => ih hu

theorem arithmetic_midTick (binary decimal : Byte → Byte → Flags → Byte × Flags) (v : Byte) (h : MidTick c s) :
    MidTick c (arithmetic binary decimal v s).state := by
  unfold arithmetic
  split
  · cases s.params.decimalMode <;> exact h
  · exact h

theorem readOp_midTick (op : ReadOp) (v : Byte) (h : MidTick c s) : MidTick c (op.apply v s).state := by
  cases op with
  | adc | sbc => exact arithmetic_midTick _ _ v h
  | lda | ldx | ldy | and | ora | eor | cmp | cpx | cpy | bit => exact h

theorem impliedOp_midTick (op : ImpliedOp) (h : MidTick c s) : MidTick c (op.apply s) := by
  cases op <;> exact h

theorem readInto_midTick (op : ReadOp) (a : Word) (h : MidTick c s) : MidTick c (readInto op a s).state :=
  (busRead_midTick a h).bind fun v _ hu => readOp_midTick op v hu

/-- A micro-operation, wherever it stops. -/
theorem runMicro_midTick (m : MicroOp) (h : MidTick c s) : MidTick c (runMicro m s).state := by
  cases m with
  | implied op => exact (busRead_midTick _ h).bind fun _ _ hu => impliedOp_midTick op hu
  | accumulator | zpIndex | pointerIndex | pointerLo | pointerHi | pointerHiIndexed | discardUnfixed | rmwRead
  | branchFix | jumpHi | jumpIndirectLo | jumpIndirectHi | discardPc | discardStack | pullHi | returnIncrement | pullA
  | pullP | vectorLo | vectorHi | pullHiReturn => exact (busRead_midTick _ h).bind fun _ _ hu => hu
  | operandLo | operandZp | operandHi | operandHiIndexed | operandPointer | skipByte =>
    exact (fetchByte_midTick h).bind fun _ _ hu => hu
  | immediate op => exact (fetchByte_midTick h).bind fun v _ hu => readOp_midTick op v hu
  | readEa op => exact readInto_midTick op _ h
  | readUnfixed op =>
    rw [runMicro]
    split
    · exact (busRead_midTick _ h).bind fun _ _ hu => enqueue_midTick _ hu
    · exact readInto_midTick op _ h
  | writeEa | rmwWriteOld => exact busWrite_midTick _ _ h
  | rmwWriteNew op => exact (busWrite_midTick _ _ h).bind fun _ _ hu => hu
  | branchOperand cond =>
    refine MidTick.bind ((fetchByte_midTick h).bind fun _ _ hu => hu) fun _ _ hu => ?_
    split
    · exact enqueue_midTick _ hu
    · exact hu
  | branchTaken =>
    rw [runMicro]
    split
    · exact (busRead_midTick _ h).bind fun _ _ hu => hu
    · exact MidTick.bind ((busRead_midTick _ h).bind fun _ _ hu => hu) fun _ _ hu => enqueue_midTick _ hu
  | pullStart => exact (stackReadInc_midTick h).bind fun _ _ hu => hu
  | pullLo | pullStatus => exact (busRead_midTick _ h).bind fun _ _ hu => incSp_midTick hu
  | pushPcHi | pushPcLo | pushA | pushP => exact push_midTick _ h
  | pushStatus => exact (push_midTick _ h).bind fun _ _ hu => hu

/-! ### The tick -/

/-- HLT queues nothing. -/
theorem sequenceOf_hlt {mode : Mode} {ms : List MicroOp} (h : sequenceOf (operationOf .hlt) mode = some ms) :
    ms = [] := by
  cases mode <;> simp [sequenceOf, operationOf] at h
  exact h

/-- A fatal fetch: HLT, which alone halts the CPU in this tick, has nothing left to stop at. -/
theorem fetchDecodeDispatch_fault {f : Fault} (h : MidTick c s) (e : fetchDecodeDispatch s = .fault f u) :
    MidTick c u := by
  have hfetch := fetchByte_midTick h
  cases hf : fetchByte s with
  | refuse => rw [fetchDecodeDispatch, hf] at e; cases e
  | fault f w =>
    rw [hf] at hfetch
    rw [fetchDecodeDispatch, hf] at e
    cases e
    exact hfetch
  | ok b w =>
    rw [hf] at hfetch
    cases hd : decodeOpcode s.params.hltOpcode b with
    | none =>
      rw [fetchDecodeDispatch_unassigned hf hd] at e
      cases e
      exact hfetch
    | some pair =>
      obtain ⟨⟨ms, hms⟩, -⟩ := decodeOpcode_supported hd w
      rw [fetchDecodeDispatch_assigned hf hd hms] at e
      split at e
      next hhlt =>
        rw [hhlt] at hms
        rw [sequenceOf_hlt hms] at e
        cases e
      next =>
        exact (enqueueAll_midTick ms hfetch).of_fault e

theorem boundaryTick_fault {f : Fault} (h : MidTick c s) (e : boundaryTick s = .fault f u) : MidTick c u := by
  unfold boundaryTick at e
  split at e
  next v _ =>
    exact (enqueueAll_midTick (serviceSequence v s.params.intEntryDummy) h).of_fault e
  next => exact fetchDecodeDispatch_fault (s := fireHook s) h e

/-- The end of a tick stops nothing. -/
theorem endTick_fault {r : Res Unit} {f : Fault} (e : (r.bind fun _ s => endTick s) = .fault f u) : r = .fault f u := by
  cases r with
  | ok v s => cases e
  | fault f s | refuse f s => exact e

/-- A fatal tick. -/
theorem tickRes_fault {f : Fault} (h : MidTick c s) (e : tickRes s = .fault f u) : MidTick c u := by
  have e := endTick_fault e
  split at e
  next m q hq =>
    have hrest : MidTick c { s with queue := q } := by
      obtain ⟨hc, hm, hlen, hh⟩ := h
      rw [hq, List.length_cons] at hlen
      exact ⟨hc, hm, Nat.le_of_succ_le hlen, hh⟩
    exact (runMicro_midTick m hrest).of_fault e
  next => exact boundaryTick_fault h e

/-- How `tick()` completes: a halted CPU takes no tick. -/
theorem tick_next (h : tick s = .next t) :
    s.halted = true ∧ t = s ∨ s.halted = false ∧ tickRes s = .ok () t := by
  unfold tick at h
  cases hf : s.fault with
  | some f => rw [hf] at h; cases h
  | none =>
    rw [hf] at h
    cases hh : s.halted with
    | true => rw [hh] at h; cases h; exact .inl ⟨rfl, rfl⟩
    | false => rw [hh] at h; exact .inr ⟨rfl, Res.outcome_next.mp h⟩

/-- How `tick()` is fatal, and what it leaves: the recorded fault again, or the fault of this tick, recorded. -/
theorem tick_fault {f : Fault} (h : tick s = .fault f) :
    s.fault = some f ∧ afterTick s = s ∨
      s.halted = false ∧ ∃ u, tickRes s = .fault f u ∧ afterTick s = { u with fault := some f } := by
  unfold tick at h
  cases hf : s.fault with
  | some f' => rw [hf] at h; cases h; exact .inl ⟨rfl, by simp [afterTick, hf]⟩
  | none =>
    rw [hf] at h
    cases hh : s.halted with
    | true => rw [hh] at h; cases h
    | false =>
      rw [hh] at h
      cases hr : tickRes s with
      | ok v u | refuse v u => rw [hr] at h; cases h
      | fault f' u => rw [hr] at h; cases h; exact .inr ⟨rfl, u, rfl, by simp [afterTick, hf, hh, hr]⟩

/-- Settles O13: a tick that completes ends by restoring the invariant, and one that is fatal never comes to its end. -/
theorem tickKeepsInvariant : Obligations.TickKeepsInvariant := by
  unfold Obligations.TickKeepsInvariant
  refine ⟨fun s t hs h => ?_, fun s f hs h => ?_⟩
  · rcases tick_next h with ⟨-, rfl⟩ | ⟨hh, hr⟩
    · exact hs
    · exact (tickRes_inv hs hh).1 _ _ hr
  · obtain ⟨hmem, hlen, hhalt, -⟩ := hs
    rcases tick_fault h with ⟨hf, ha⟩ | ⟨hh, u, hr, ha⟩
    · rw [ha]
      exact ⟨hf, rfl, hmem, hlen, hhalt⟩
    · obtain ⟨hc, hm, hq, hrun⟩ := tickRes_fault ⟨rfl, hmem, hlen, hh⟩ hr
      rw [ha]
      exact ⟨rfl, hc, hm, hq, fun h => absurd (hrun.symm.trans h) Bool.false_ne_true⟩

end Sys2Proof.Machine
end

section
/-! Which registers and flags each instruction writes: a table by operation, tied to `exec` by `exec_changes`
(10_state.md R20 to R28). -/

namespace Sys2Proof.Machine

variable {s t r : State} {i : Instr}

/-! ### Fields -/

/-- A, X, Y, SP and the seven flags, by name. -/
inductive Field where
  | a | x | y | sp | n | v | b | d | i | z | c
  deriving DecidableEq

/-- A, X, Y, SP and the flags together (10_state.md R20, R21, R22, R25, R26). -/
structure Registers where
  a  : Byte
  x  : Byte
  y  : Byte
  sp : Byte
  p  : Flags

/-- The registers of a state. -/
def State.registers (s : State) : Registers := ⟨s.a, s.x, s.y, s.sp, s.p⟩

/-- The field `f` is not as it was. -/
def Field.Changed (f : Field) (s t : State) : Prop :=
  match f with
  | .a => t.a ≠ s.a
  | .x => t.x ≠ s.x
  | .y => t.y ≠ s.y
  | .sp => t.sp ≠ s.sp
  | .n => t.p.n ≠ s.p.n
  | .v => t.p.v ≠ s.p.v
  | .b => t.p.b ≠ s.p.b
  | .d => t.p.d ≠ s.p.d
  | .i => t.p.i ≠ s.p.i
  | .z => t.p.z ≠ s.p.z
  | .c => t.p.c ≠ s.p.c

/-- The registers `g` with the fields named in `ws` from `g'`. -/
def Registers.overlay (ws : List Field) (g g' : Registers) : Registers where
  a := if .a ∈ ws then g'.a else g.a
  x := if .x ∈ ws then g'.x else g.x
  y := if .y ∈ ws then g'.y else g.y
  sp := if .sp ∈ ws then g'.sp else g.sp
  p :=
    { n := if .n ∈ ws then g'.p.n else g.p.n
      v := if .v ∈ ws then g'.p.v else g.p.v
      b := if .b ∈ ws then g'.p.b else g.p.b
      d := if .d ∈ ws then g'.p.d else g.p.d
      i := if .i ∈ ws then g'.p.i else g.p.i
      z := if .z ∈ ws then g'.p.z else g.p.z
      c := if .c ∈ ws then g'.p.c else g.p.c }

/-- The registers of `t` are those of `s` but for the fields named in `ws`: an equation that computes, where `ws` is
given. -/
def ChangesOnly (ws : List Field) (s t : State) : Prop := t.registers = s.registers.overlay ws t.registers

theorem ChangesOnly.mem {ws : List Field} {f : Field} (h : ChangesOnly ws s t) (e : f.Changed s t) : f ∈ ws := by
  by_contra hn
  cases f with
  | a => exact e ((congrArg (fun g => g.a) h).trans (if_neg hn))
  | x => exact e ((congrArg (fun g => g.x) h).trans (if_neg hn))
  | y => exact e ((congrArg (fun g => g.y) h).trans (if_neg hn))
  | sp => exact e ((congrArg (fun g => g.sp) h).trans (if_neg hn))
  | n => exact e ((congrArg (fun g => g.p.n) h).trans (if_neg hn))
  | v => exact e ((congrArg (fun g => g.p.v) h).trans (if_neg hn))
  | b => exact e ((congrArg (fun g => g.p.b) h).trans (if_neg hn))
  | d => exact e ((congrArg (fun g => g.p.d) h).trans (if_neg hn))
  | i => exact e ((congrArg (fun g => g.p.i) h).trans (if_neg hn))
  | z => exact e ((congrArg (fun g => g.p.z) h).trans (if_neg hn))
  | c => exact e ((congrArg (fun g => g.p.c) h).trans (if_neg hn))

theorem Ended.registers (h : Ended r t) : t.registers = r.registers := by
  rw [State.registers, h.a, h.x, h.y, h.sp, h.p]
  rfl

/-- The ticks of an instruction change no register. -/
theorem Ended.changesOnly {ws : List Field} (h : Ended r t) (hr : ChangesOnly ws s r) : ChangesOnly ws s t := by
  rw [ChangesOnly, h.registers]
  exact hr

/-! ### What each operation writes -/

/-- What `op(val)` of class READ writes. -/
def ReadOp.writes : ReadOp → List Field
  | .lda | .and | .ora | .eor => [.a, .n, .z]
  | .ldx => [.x, .n, .z]
  | .ldy => [.y, .n, .z]
  | .adc | .sbc => [.a, .n, .v, .z, .c]
  | .cmp | .cpx | .cpy => [.n, .z, .c]
  | .bit => [.n, .v, .z]

/-- What `f(val)` of class READ_MODIFY_WRITE writes besides its value. -/
def RmwOp.writes : RmwOp → List Field
  | .asl | .lsr | .rol | .ror => [.n, .z, .c]
  | .inc | .dec => [.n, .z]

/-- What an operation of class IMPLIED writes. -/
def ImpliedOp.writes : ImpliedOp → List Field
  | .tax | .tsx | .inx | .dex => [.x, .n, .z]
  | .tay | .iny | .dey => [.y, .n, .z]
  | .txa | .tya => [.a, .n, .z]
  | .txs => [.sp]
  | .clc | .sec => [.c]
  | .cli | .sei => [.i]
  | .cld | .sed => [.d]
  | .clv => [.v]
  | .nop => []

/-- What an operation writes; a READ_MODIFY_WRITE writes A in mode ACC only (`acc`). -/
def Operation.writes (acc : Bool) : Operation → List Field
  | .read op => op.writes
  | .rmw op => if acc then .a :: op.writes else op.writes
  | .implied op => op.writes
  | .write _ | .branch _ | .jmp | .hlt => []
  | .jsr | .rts | .pha | .php => [.sp]
  | .pla => [.a, .sp, .n, .z]
  | .plp => [.sp, .n, .v, .d, .i, .z, .c]
  | .brk => [.sp, .i]
  | .rti => [.sp, .n, .v, .b, .d, .i, .z, .c]

/-- What an instruction writes. -/
def writtenBy (i : Instr) : List Field := (operationOf i.mnemonic).writes (decide (i.mode = .acc))

theorem arithmetic_changes {binary decimal : Byte → Byte → Flags → Byte × Flags} {v : Byte}
    (h : arithmetic binary decimal v s = .ok () r)
    (hb : ChangesOnly [.a, .n, .v, .z, .c] s (s.setAFlags (binary s.a v s.p)))
    (hd : ChangesOnly [.a, .n, .v, .z, .c] s (s.setAFlags (decimal s.a v s.p))) :
    ChangesOnly [.a, .n, .v, .z, .c] s r := by
  unfold arithmetic at h
  split at h
  · split at h <;> cases h
    · exact hb
    · exact hd
  · cases h
    exact hb

theorem readOp_changes {op : ReadOp} {v : Byte} (h : op.apply v s = .ok () r) : ChangesOnly op.writes s r := by
  cases op with
  | adc | sbc => exact arithmetic_changes h rfl rfl
  | lda | ldx | ldy | and | ora | eor | cmp | cpx | cpy | bit => cases h; rfl

theorem rmwOp_changes (op : RmwOp) (v : Byte) (m : List Host.Cell) :
    ChangesOnly op.writes s { s with mem := m, p := (op.apply v s.p).2 } := by
  cases op <;> rfl

theorem rmwOp_acc_changes (op : RmwOp) : ChangesOnly (.a :: op.writes) s (s.setAFlags (op.apply s.a s.p)) := by
  cases op <;> rfl

theorem impliedOp_changes (op : ImpliedOp) : ChangesOnly op.writes s (op.apply s) := by
  cases op <;> rfl

/-- What an instruction that answers changes. -/
theorem exec_changes (h : exec i s = .next t) : ChangesOnly (writtenBy i) s t := by
  have hp := exec_post h
  unfold ExecPost at hp
  unfold writtenBy
  split at hp
  next op hop =>
    obtain ⟨v, r, hr, ht⟩ := hp
    rw [hop]
    exact ht.changesOnly (s := s) (readOp_changes (s := s.advanced i) hr)
  next r hop =>
    obtain ⟨ea, m, -, -, ht⟩ := hp
    rw [hop]
    exact ht.changesOnly rfl
  next op hop =>
    rw [hop]
    split at hp
    next hm =>
      rw [decide_eq_true hm]
      exact hp.changesOnly (rmwOp_acc_changes (s := { s with pc := s.pc + 1 }) op)
    next hm =>
      obtain ⟨ea, v, m, -, -, ht⟩ := hp
      rw [decide_eq_false hm]
      exact ht.changesOnly (rmwOp_changes (s := s.advanced i) op v m)
  next op hop =>
    rw [hop]
    exact hp.changesOnly (impliedOp_changes (s := { s with pc := s.pc + 1 }) op)
  next c hop => obtain ⟨pc, ht⟩ := hp; rw [hop]; exact ht.changesOnly rfl
  next hop => obtain ⟨pc, ht⟩ := hp; rw [hop]; exact ht.changesOnly rfl
  next hop => obtain ⟨pc, m1, m2, -, -, ht⟩ := hp; rw [hop]; exact ht.changesOnly rfl
  next hop => obtain ⟨pc, ht⟩ := hp; rw [hop]; exact ht.changesOnly rfl
  next hop => obtain ⟨m, -, ht⟩ := hp; rw [hop]; exact ht.changesOnly rfl
  next hop => obtain ⟨m, -, ht⟩ := hp; rw [hop]; exact ht.changesOnly rfl
  next hop => obtain ⟨v, ht⟩ := hp; rw [hop]; exact ht.changesOnly rfl
  next hop => obtain ⟨v, ht⟩ := hp; rw [hop]; exact ht.changesOnly rfl
  next hop => obtain ⟨pc, m, -, ht⟩ := hp; rw [hop]; exact ht.changesOnly rfl
  next hop => obtain ⟨b, pc, ht⟩ := hp; rw [hop]; exact ht.changesOnly rfl
  next hop => rw [hop]; exact hp.changesOnly rfl

/-! ### The mnemonics that write a field -/

/-- The 57 mnemonics (30_encoding.md R104). -/
def allMnemonics : List Mnemonic :=
  [.lda, .ldx, .ldy, .sta, .stx, .sty, .tax, .tay, .txa, .tya, .tsx, .txs, .adc, .sbc, .and, .ora, .eor, .cmp, .cpx,
    .cpy, .bit, .inc, .dec, .inx, .iny, .dex, .dey, .asl, .lsr, .rol, .ror, .jmp, .jsr, .rts, .bcc, .bcs, .beq, .bne,
    .bmi, .bpl, .bvc, .bvs, .pha, .pla, .php, .plp, .clc, .sec, .cli, .sei, .cld, .sed, .clv, .nop, .brk, .rti, .hlt]

theorem mem_allMnemonics (mn : Mnemonic) : mn ∈ allMnemonics := by cases mn <;> decide

/-- A changed field by the mnemonics whose operation writes it, in whichever mode. -/
theorem mnemonic_of_changed {f : Field} {l : List Mnemonic} (h : exec i s = .next t) (e : f.Changed s t)
    (table : ∀ mn ∈ allMnemonics, ∀ acc, f ∈ (operationOf mn).writes acc → mn ∈ l) : i.mnemonic ∈ l :=
  table _ (mem_allMnemonics _) _ ((exec_changes h).mem e)

/-- Mode ACC is that of the shifts alone (41_addressing_modes.md R182). -/
theorem mnemonic_of_acc (h : i.mode = .acc) : i.mnemonic ∈ [.asl, .lsr, .rol, .ror] := by
  cases i <;> first | (cases h; done) | decide

/-- RTI clears B (46_stack_flags_system.md R364). -/
theorem exec_rti_b (h : exec .rti s = .next t) : t.p.b = false := by
  obtain ⟨b, pc, ht⟩ := exec_post h
  rw [ht.p]
  rfl

/-- Settles O26: the table of what each operation writes, read flag by flag. -/
theorem flagWriters : Obligations.FlagWriters := by
  unfold Obligations.FlagWriters
  intro i s t h
  refine ⟨fun e => ?c, fun e => ?z, fun e => ?i, fun e => ?d, fun e => ?b, fun e => ?v, fun e => ?n⟩
  case c => exact mnemonic_of_changed (f := .c) h e (by decide)
  case z => exact mnemonic_of_changed (f := .z) h e (by decide)
  case i => exact mnemonic_of_changed (f := .i) h e (by decide)
  case d => exact mnemonic_of_changed (f := .d) h e (by decide)
  case b =>
    have hmn : i.mnemonic = .rti := List.mem_singleton.mp (mnemonic_of_changed (f := .b) h e (by decide))
    obtain rfl : i = .rti := by cases i <;> first | (cases hmn; done) | rfl
    exact ⟨rfl, exec_rti_b h⟩
  case v => exact mnemonic_of_changed (f := .v) h e (by decide)
  case n => exact mnemonic_of_changed (f := .n) h e (by decide)

/-- Settles O27: the same table, read register by register; in mode ACC, A is written by the shifts. -/
theorem registerWriters : Obligations.RegisterWriters := by
  unfold Obligations.RegisterWriters
  intro i s t h
  refine ⟨fun e => ?a, fun e => ?x, fun e => ?y, fun e => ?sp⟩
  case a =>
    by_cases hm : i.mode = .acc
    · exact .inr ⟨mnemonic_of_acc hm, hm⟩
    · have hw : Field.a ∈ writtenBy i := (exec_changes h).mem e
      have table : ∀ mn ∈ allMnemonics, Field.a ∈ (operationOf mn).writes false →
          mn ∈ [.lda, .pla, .txa, .tya, .adc, .sbc, .and, .ora, .eor] := by decide
      rw [writtenBy, decide_eq_false hm] at hw
      exact .inl (table _ (mem_allMnemonics _) hw)
  case x => exact mnemonic_of_changed (f := .x) h e (by decide)
  case y => exact mnemonic_of_changed (f := .y) h e (by decide)
  case sp => exact mnemonic_of_changed (f := .sp) h e (by decide)

end Sys2Proof.Machine
end

section
/-! The packed status byte bit by bit (10_state.md R26, R27), and the reset state (R42). -/

namespace Sys2Proof.Machine

/-! ### The status byte -/

/-- A flag alone in a byte. -/
theorem flagBit_getLsbD (f : Bool) {k i : Nat} (hi : i < 8) : (flagBit f k).getLsbD i = (f && decide (i = k)) := by
  cases f with
  | false => simp [flagBit]
  | true => simp [flagBit, ← BitVec.twoPow_eq, hi, eq_comm]

/-- Bit `i` of the packed flags. -/
theorem pack_getLsbD (p : Flags) {i : Nat} (hi : i < 8) :
    (pack p).getLsbD i = (p.n && decide (i = 7) || p.v && decide (i = 6) || decide (i = 5) || p.b && decide (i = 4) ||
      p.d && decide (i = 3) || p.i && decide (i = 2) || p.z && decide (i = 1) || p.c && decide (i = 0)) := by
  simp only [pack, BitVec.getLsbD_or, flagBit_getLsbD _ hi, Bool.true_and]

/-- Each flag at its own bit, and bit 5 set. -/
theorem pack_bits (p : Flags) :
    (pack p).getLsbD 7 = p.n ∧ (pack p).getLsbD 6 = p.v ∧ (pack p).getLsbD 5 = true ∧ (pack p).getLsbD 4 = p.b ∧
      (pack p).getLsbD 3 = p.d ∧ (pack p).getLsbD 2 = p.i ∧ (pack p).getLsbD 1 = p.z ∧ (pack p).getLsbD 0 = p.c := by
  simp [pack_getLsbD, -BitVec.getLsbD_eq_getElem]

theorem unpack_pack (p : Flags) : unpack (pack p) = p := by
  obtain ⟨h7, h6, -, h4, h3, h2, h1, h0⟩ := pack_bits p
  rw [unpack, h7, h6, h4, h3, h2, h1, h0]

/-- Unpacking loses bit 5 only, and packing sets it. -/
theorem pack_unpack (b : Byte) : pack (unpack b) = b ||| 0x20 := by
  apply BitVec.eq_of_getLsbD_eq
  intro i hi
  rw [pack_getLsbD _ hi, BitVec.getLsbD_or]
  interval_cases i <;> simp [unpack]

/-- Settles O60: each bit of the packed byte is the one flag that stands there. -/
theorem statusPacking : Obligations.StatusPacking := by
  unfold Obligations.StatusPacking
  exact ⟨pack_bits, unpack_pack, pack_unpack⟩

/-! ### Reset -/

/-- Settles O14: nothing is stored, queued or in flight, and neither a halt nor a fault stands. -/
theorem resetMeetsInvariant : Obligations.ResetMeetsInvariant := by
  unfold Obligations.ResetMeetsInvariant
  exact ⟨⟨reset_mem_wf, Nat.zero_le _, fun _ => rfl, fun _ => rfl⟩, rfl, rfl, rfl⟩

/-- Settles O17: the two bytes of the reset vector are unlisted, so both read as zero. -/
theorem resetValues : Obligations.ResetValues := by
  unfold Obligations.ResetValues
  have hvector (a : Word) : State.reset.byteAt a = 0 := rfl
  rw [hvector, hvector]
  exact ⟨rfl, rfl, rfl, rfl, rfl, rfl, rfl, rfl⟩

end Sys2Proof.Machine
end

section
/-! What a step keeps, from any state and on any memory map: a step is a run of ticks, and every tick is `Kept`
(20_memory.md R64, R65, R70, 10_state.md R38). -/

namespace Sys2Proof.Machine

variable {s t : State}

theorem Kept.refl (s : State) : Kept s s := .of_eq

/-- Step 3 of the tick counts, halts and clears the temporaries, and what the peripherals change are the inputs. -/
theorem endOfTick_kept (u : State) :
    Kept u (if (countCycle u).queue.isEmpty then settle (countCycle u) else countCycle u) := by
  split
  · exact (Kept.countCycle u).trans (Kept.settle _)
  · exact Kept.countCycle u

/-- A tick, whatever the length of the queue. -/
theorem tickRes_kept (s : State) : Res.Spec False (tickRes s) fun _ t => Kept s t := by
  cases hq : s.queue with
  | nil =>
    have hlen : s.queue.length ≤ queueCapacity := by simp [hq]
    exact (tickRes_post hlen).mono fun _ _ ⟨u, ⟨hu, _⟩, ht⟩ => ht ▸ hu.trans (endOfTick_kept u)
  | cons m q =>
    simp only [tickRes, hq]
    exact (runMicro_post m { s with queue := q }).bind fun _ u ⟨hu, _⟩ =>
      .ok (Kept.trans (s := s) hu (endOfTick_kept u))

theorem ticksToBoundary_kept (n : Nat) (s : State) : Res.Spec False (ticksToBoundary n s) fun _ t => Kept s t := by
  induction n generalizing s with
  | zero => exact .ok (.refl s)
  | succ n ih =>
    cases hq : s.queue with
    | nil =>
      simp only [ticksToBoundary, hq]
      exact .ok (.refl s)
    | cons m q =>
      simp only [ticksToBoundary, hq]
      exact (tickRes_kept s).bind fun _ u hu => (ih u).mono fun _ _ ht => hu.trans ht

theorem finishInFlight_kept (s : State) : Res.Spec False (finishInFlight s) fun _ t => Kept s t :=
  ticksToBoundary_kept _ s

/-- A step keeps the map, the parameters, the number of inputs and everything in storage but RAM. -/
theorem step_kept (h : step s = .next t) : Kept s t := by
  cases hf : s.fault with
  | some f => rw [step_faulted hf] at h; cases h
  | none =>
    cases hh : s.halted with
    | true => rw [step_halted hf hh] at h; cases h; exact .refl s
    | false =>
      rw [step_ticks hf hh] at h
      split at h
      · exact ((tickRes_kept s).bind fun _ u hu =>
          (finishInFlight_kept u).mono fun _ _ hw => hu.trans hw).outcome h
      · exact (finishInFlight_kept s).outcome h

/-- Read-only storage is not RAM. -/
theorem State.ReadOnly.not_inRam {a : Word} (h : s.ReadOnly a) : ¬ s.InRam a := by
  intro hr
  rcases h with h | ⟨k, b, h⟩ <;> rw [hr] at h <;> cases h

theorem Kept.readOnly (h : Kept s t) {a : Word} (ha : s.ReadOnly a) : t.ReadOnly a := by
  rw [State.ReadOnly, h.kindAt a]
  exact ha

/-- Settles O23: a step writes to RAM alone, and the map that says what is RAM stays. -/
theorem readOnlyBytesNeverChange : Obligations.ReadOnlyBytesNeverChange := by
  unfold Obligations.ReadOnlyBytesNeverChange
  intro s t a ha h
  have hk := step_kept h
  exact ⟨hk.byteAt ha.not_inRam, hk.readOnly ha⟩

/-- Settles O24: these are parts of what a step keeps. -/
theorem mapAndParametersFixed : Obligations.MapAndParametersFixed := by
  unfold Obligations.MapAndParametersFixed
  intro s t h
  obtain ⟨-, hregions, hparams, hbanks, hsources, -⟩ := step_kept h
  exact ⟨hregions, hparams, hsources, hbanks⟩

end Sys2Proof.Machine
end

section
/-! Every instruction on a map of RAM and device windows (20_memory.md R86): no access stops there, so what is left to
stop at is the stack's bounds and decimal arithmetic (40_execution_engine.md R157, R158, 43_arithmetic_logic.md R261). -/

namespace Sys2Proof.Machine

variable {s : State} {i : Instr}

/-! ### The accesses -/

theorem State.AllOpen.canFetch (h : s.AllOpen) (k : Nat) : s.CanFetch k := fun _ _ => h.readable _

theorem State.AllOpen.reaches (h : s.AllOpen) (i : Instr) : s.Reaches i := .inl h.readable

/-! ### The stack -/

theorem State.RoomToPush.canPush_first {n : Nat} (h : s.RoomToPush n) (h0 : 0 < n) (hn : n ≤ 255) : s.CanPush := by
  simpa using h.canPush (k := 0) h0 hn

/-- JSR pushes two bytes. -/
theorem State.RoomToPush.canPush_two (h : s.RoomToPush 2) : s.CanPush ∧ { s with sp := s.sp - 1 }.CanPush :=
  ⟨h.canPush_first (by decide) (by decide), h.canPush (k := 1) (by decide) (by decide)⟩

/-- Taking an exception pushes three. -/
theorem State.RoomToPush.canPush3 (h : s.RoomToPush 3) : s.CanPush3 :=
  ⟨h.canPush_first (by decide) (by decide), h.canPush (k := 1) (by decide) (by decide),
    h.canPush (k := 2) (by decide) (by decide)⟩

theorem State.RoomToPull.canPull_first {n : Nat} (h : s.RoomToPull n) (h0 : 0 < n) : s.CanPull := by
  simpa using h.canPull (k := 0) h0

/-- RTS pulls two bytes. -/
theorem State.RoomToPull.canPull_two (h : s.RoomToPull 2) : s.CanPull ∧ { s with sp := s.sp + 1 }.CanPull :=
  ⟨h.canPull_first (by decide), h.canPull (k := 1) (by decide)⟩

/-- Returning from an exception pulls three. -/
theorem State.RoomToPull.canPull3 (h : s.RoomToPull 3) : s.CanPull3 :=
  ⟨h.canPull_first (by decide), h.canPull (k := 1) (by decide), h.canPull (k := 2) (by decide)⟩

/-! ### Decimal arithmetic -/

/-- ADC and SBC answer unless decimal arithmetic is asked for and refused (43_arithmetic_logic.md R261). -/
theorem arithmetic_answers {binary decimal : Byte → Byte → Flags → Byte × Flags} (v : Byte)
    (h : s.p.d = false ∨ s.params.decimalMode ≠ .refuse) : ∃ r, arithmetic binary decimal v s = .ok () r := by
  unfold arithmetic
  cases hd : s.p.d with
  | false => exact ⟨_, rfl⟩
  | true =>
    have hm : s.params.decimalMode ≠ .refuse := h.resolve_left (by simp [hd])
    cases hmode : s.params.decimalMode with
    | refuse => exact absurd hmode hm
    | binary | nmosBcd => exact ⟨_, rfl⟩

theorem operationOf_eq_adc {mn : Mnemonic} (h : operationOf mn = .read .adc) : mn = .adc := by
  cases mn <;> first | rfl | cases h

theorem operationOf_eq_sbc {mn : Mnemonic} (h : operationOf mn = .read .sbc) : mn = .sbc := by
  cases mn <;> first | rfl | cases h

/-- The operation of a class READ instruction answers. -/
theorem readOp_answers {op : ReadOp} {mn : Mnemonic} (hop : operationOf mn = .read op) (v : Byte)
    (h : mn = .adc ∨ mn = .sbc → s.p.d = false ∨ s.params.decimalMode ≠ .refuse) : ∃ r, op.apply v s = .ok () r := by
  cases op with
  | adc => exact arithmetic_answers v (h (.inl (operationOf_eq_adc hop)))
  | sbc => exact arithmetic_answers v (h (.inr (operationOf_eq_sbc hop)))
  | lda | ldx | ldy | and | ora | eor | cmp | cpx | cpy | bit => exact ⟨_, rfl⟩

/-! ### Every instruction -/

/-- What `r` answers, its outcome answers. -/
theorem Res.Spec.next {r : Res Unit} {P : Unit → State → Prop} (h : Res.Spec True r P) : ∃ t, r.outcome = .next t :=
  let ⟨t, ht, _⟩ := h.completes trivial
  ⟨t, ht⟩

theorem jmp_completes (hs : s.AllOpen) (hop : operationOf i.mnemonic = .jmp) : ∃ t, exec i s = .next t := by
  cases i <;> first | (cases hop; done) | skip
  case jmpAbs w => exact (jmpAbs_spec w fun _ => hs.canFetch 3).next
  case jmpInd w => exact (jmpInd_spec w fun _ => ⟨hs.canFetch 3, hs.readable _, hs.readable _⟩).next

theorem rmw_completes {op : RmwOp} (hs : s.AllOpen) (hop : operationOf i.mnemonic = .rmw op) :
    ∃ t, exec i s = .next t := by
  rw [exec_rmw hop]
  by_cases hm : i.mode = .acc
  · rw [hm]
    exact (rmwAcc_spec op fun _ => hs.canFetch 2).next
  · exact (rmw_form_spec hop hm fun _ => .inl fun a => ⟨hs.readable a, hs.writable a⟩).next

/-- Settles O32: the specification of each operation completes, its accesses on such a map, its pushes and pulls with the
room given, its arithmetic where it is not refused. -/
theorem everyInstructionCompletes : Obligations.EveryInstructionCompletes := by
  unfold Obligations.EveryInstructionCompletes
  intro i s hs hdec hpush hjsr hbrk hpull hrts hrti
  have hr : ∀ a, s.Readable a := hs.readable
  have hw : ∀ a, s.Writable a := hs.writable
  have hf : ∀ k, s.CanFetch k := hs.canFetch
  cases hop : operationOf i.mnemonic with
  | read op =>
    rw [exec_read hop]
    exact (read_form_spec hop (fun _ => hs.reaches i) fun _ v _ => readOp_answers hop v hdec).next
  | write r =>
    rw [exec_write hop]
    exact (write_form_spec hop fun _ => .inl fun a => ⟨hr a, hw a⟩).next
  | rmw op => exact rmw_completes hs hop
  | branch c =>
    rw [exec_branch hop]
    exact (branchRel_spec c _ (fun _ => hf 2) fun _ a _ => hr a).next
  | implied op =>
    rw [exec_implied hop]
    exact (implied_spec op fun _ => hf 2).next
  | jmp => exact jmp_completes hs hop
  | jsr =>
    obtain ⟨w, rfl⟩ : ∃ w, i = .jsr w := by cases i <;> first | (cases hop; done) | exact ⟨_, rfl⟩
    exact (jsr_spec w fun _ => ⟨hf 3, hr _, hw _, hw _, (hjsr rfl).canPush_two⟩).next
  | rts =>
    obtain rfl : i = .rts := by cases i <;> first | (cases hop; done) | rfl
    obtain ⟨hp1, hp2⟩ := (hrts rfl).canPull_two
    exact (rts_spec fun _ => ⟨hf 2, hr _, hr _, hr _, hp1, hp2, fun _ _ _ _ => hr _⟩).next
  | pha =>
    obtain rfl : i = .pha := by cases i <;> first | (cases hop; done) | rfl
    exact (pushInstr_spec (fun s => s.a) (fun h => h.a) (fun _ _ => rfl)
      fun _ => ⟨hf 2, hw _, (hpush (.inl rfl)).canPush_first (by decide) (by decide)⟩).next
  | php =>
    obtain rfl : i = .php := by cases i <;> first | (cases hop; done) | rfl
    exact (pushInstr_spec (fun s => packBreak s.p) (fun h => by rw [h.p]) (fun _ _ => rfl)
      fun _ => ⟨hf 2, hw _, (hpush (.inr rfl)).canPush_first (by decide) (by decide)⟩).next
  | pla =>
    obtain rfl : i = .pla := by cases i <;> first | (cases hop; done) | rfl
    exact (pullInstr_spec (fun v s => s.setA v) (by intros; rfl) (fun _ _ => ⟨rfl, rfl, rfl, rfl, rfl⟩)
      fun _ => ⟨hf 2, hr _, hr _, (hpull (.inl rfl)).canPull_first (by decide)⟩).next
  | plp =>
    obtain rfl : i = .plp := by cases i <;> first | (cases hop; done) | rfl
    exact (pullInstr_spec (fun b s => { s with p := pulledFlags b s.p }) (by intros; rfl)
      (fun _ _ => ⟨rfl, rfl, rfl, rfl, rfl⟩) fun _ => ⟨hf 2, hr _, hr _, (hpull (.inr rfl)).canPull_first (by decide)⟩).next
  | brk =>
    obtain rfl : i = .brk := by cases i <;> first | (cases hop; done) | rfl
    exact (brk_spec fun _ => ⟨hf 2, fun _ => hw _, (hbrk rfl).canPush3, hr _, hr _⟩).next
  | rti =>
    obtain rfl : i = .rti := by cases i <;> first | (cases hop; done) | rfl
    exact (rti_spec fun _ => ⟨hf 2, fun _ => hr _, (hrti rfl).canPull3⟩).next
  | hlt =>
    obtain rfl : i = .hlt := by cases i <;> first | (cases hop; done) | rfl
    exact (hlt_spec fun _ => hr _).next

end Sys2Proof.Machine
end

section
/-! The dispatcher (20_memory.md R62 to R68): which region takes an access, and what each kind of region answers. -/

namespace Sys2Proof.Machine

variable {s : State} {r : Region} {a : Word}

/-! ### The claimant -/

theorem hasAddress_iff : r.hasAddress a = true ↔ r.start ≤ a.toNat ∧ a.toNat < r.start + r.length := by
  simp [Region.hasAddress]

/-- No region claims the address (20_memory.md R68). -/
theorem claimant_eq_none {regions : List Region} :
    claimant regions a = none ↔ ∀ q ∈ regions, q.hasAddress a = false := by
  simp [claimant, List.find?_eq_none]

/-- Regions that do not claim an address are passed over (20_memory.md R67). -/
theorem claimant_append {before : List Region} (h : ∀ q ∈ before, q.hasAddress a = false) (after : List Region) :
    claimant (before ++ after) a = claimant after a := by
  have hnone : before.find? (fun q => q.hasAddress a) = none := claimant_eq_none.mpr h
  rw [claimant, List.find?_append, hnone]
  rfl

theorem claimant_cons (h : r.hasAddress a = true) (after : List Region) : claimant (r :: after) a = some r :=
  List.find?_cons_of_pos h

theorem busRead_unclaimed (h : claimant s.regions a = none) : busRead a s = .fault (.noRegion a .read) s := by
  rw [busRead, h]

theorem busWrite_unclaimed (v : Byte) (h : claimant s.regions a = none) :
    busWrite a v s = .fault (.noRegion a (.write v)) s := by
  rw [busWrite, h]

/-- Settles O20: the search takes the first region that claims the address, and without one the access is fatal. -/
theorem firstClaimantAnswers : Obligations.FirstClaimantAnswers := by
  unfold Obligations.FirstClaimantAnswers
  refine ⟨fun before after r a hb hr => ?_, fun r a => hasAddress_iff, fun s a v h => ?_⟩
  · rw [claimant_append hb, claimant_cons hr]
  · have hnone : claimant s.regions a = none := claimant_eq_none.mpr h
    exact ⟨busRead_unclaimed hnone, busWrite_unclaimed v hnone⟩

/-! ### RAM -/

theorem byteAt_write_self (hm : Memory.wf s.mem = true) (v : Byte) :
    State.byteAt { s with mem := Memory.write s.mem a.toNat v } a = v :=
  Memory.read_write_self hm a.toNat v

theorem byteAt_write_of_ne {b : Word} (v : Byte) (h : b ≠ a) :
    State.byteAt { s with mem := Memory.write s.mem a.toNat v } b = s.byteAt b :=
  Memory.read_write_of_ne s.mem v fun e => h (BitVec.eq_of_toNat_eq e)

/-- A read of a stored byte whose value is known. -/
theorem busRead_of_byteAt {v : Byte} (h : s.Stored a) (hv : s.byteAt a = v) :
    busRead a s = .ok v (s.record (.read a v)) :=
  hv ▸ busRead_stored h

/-! ### Paged ROM -/

section Paged

variable {slot sel : Nat} {banks : List (List Byte)}

/-- A read of a paged ROM answers the byte of the selected image (20_memory.md R65). -/
theorem busRead_paged {b : Byte} (hc : claimant s.regions a = some r) (hk : r.kind = .paged slot banks)
    (hb : bankByte s.bankSel slot banks r.start a = some b) : busRead a s = .ok b (s.record (.read a b)) := by
  simp only [busRead, hc, hk, hb, answerRead]

/-- A read of a byte that does not exist is refused (log 25). -/
theorem busRead_paged_noBank (hc : claimant s.regions a = some r) (hk : r.kind = .paged slot banks)
    (hb : bankByte s.bankSel slot banks r.start a = none) : busRead a s = .refuse .noBank s := by
  simp only [busRead, hc, hk, hb]

theorem bankByte_of_image {image : List Byte} {start : Nat} (hs : s.bankSel[slot]? = some sel)
    (hi : banks[sel]? = some image) : bankByte s.bankSel slot banks start a = image[a.toNat - start]? := by
  simp [bankByte, hs, hi]

/-- The selected image does not exist. -/
theorem bankByte_of_no_image {start : Nat} (hs : s.bankSel[slot]? = some sel) (hi : banks.length ≤ sel) :
    bankByte s.bankSel slot banks start a = none := by
  simp [bankByte, hs, List.getElem?_eq_none hi]

/-- No image is selected. -/
theorem bankByte_of_no_selection {start : Nat} (hs : s.bankSel.length ≤ slot) :
    bankByte s.bankSel slot banks start a = none := by
  simp [bankByte, List.getElem?_eq_none hs]

end Paged

/-- Settles O21: a write to RAM is a write to storage, one to read-only storage has no effect, and a paged ROM answers from
its images. -/
theorem ramReadsLastWrite : Obligations.RamReadsLastWrite := by
  unfold Obligations.RamReadsLastWrite
  refine fun s a v => ⟨fun hm hr => ?ram, fun hro => busWrite_readOnly v hro, fun r slot banks hc hk => ?paged⟩
  case ram =>
    exact ⟨_, busWrite_inRam v hr, busRead_of_byteAt (.inl hr) (byteAt_write_self hm v),
      fun b hb => byteAt_write_of_ne v hb⟩
  case paged =>
    refine ⟨fun sel image hs hi => ⟨fun b hb => busRead_paged hc hk ?_, fun hlen => busRead_paged_noBank hc hk ?_⟩,
      fun sel hs hi => busRead_paged_noBank hc hk (bankByte_of_no_image hs hi),
      fun hs => busRead_paged_noBank hc hk (bankByte_of_no_selection hs)⟩
    · rw [bankByte_of_image hs hi, hb]
    · rw [bankByte_of_image hs hi, List.getElem?_eq_none hlen]

/-! ### Devices -/

/-- The register count is a power of two, so the mask is a remainder (20_memory.md R66). -/
theorem deviceIndex_two_pow (start k : Nat) (a : Word) : deviceIndex start (2 ^ k) a = (a.toNat - start) % 2 ^ k :=
  Nat.and_two_pow_sub_one_eq_mod _ k

theorem busRead_device {d n : Nat} (hc : claimant s.regions a = some r) (hk : r.kind = .device d n) :
    busRead a s = readDevice d (deviceIndex r.start n a) a s := by
  simp only [busRead, hc, hk]

theorem busWrite_device {d n : Nat} (v : Byte) (hc : claimant s.regions a = some r) (hk : r.kind = .device d n) :
    busWrite a v s = writeDevice d (deviceIndex r.start n a) a v s := by
  simp only [busWrite, hc, hk]

/-- Settles O22: the access goes to the device, at the index the mask gives. -/
theorem deviceWindowAccess : Obligations.DeviceWindowAccess := by
  unfold Obligations.DeviceWindowAccess
  intro s r a d k hc hk _
  rw [← deviceIndex_two_pow]
  exact ⟨rfl, busRead_device hc hk, fun v => busWrite_device v hc hk⟩

end Sys2Proof.Machine
end

section
/-! The opcode table (30_encoding.md R103 to R106): neither an opcode nor a pair stands in it twice, and the bytes it leaves
out are those of R105. What `decodeOpcode`, `opcodeOf`, `registerAll` and `encodeAsm` answer is read off that. -/

namespace Sys2Proof

variable {hlt b : Byte} {mn : Mnemonic} {mode : Mode} {r q : OpcodeRow} {table rows : List OpcodeRow}

/-! ### What stands in the table -/

/-- The rows of the map stand in the order of their opcodes, which are all the bytes but those of R105. -/
theorem opcodeMap_opcodes : opcodeMap.map (fun r => r.opcode) =
    ((List.range 256).map (BitVec.ofNat 8)).filter fun b => !unassignedBytes.contains b := by decide +kernel

theorem mem_allBytes (b : Byte) : b ∈ (List.range 256).map (BitVec.ofNat 8) :=
  List.mem_map.mpr ⟨b.toNat, List.mem_range.mpr b.isLt, by simp⟩

theorem mem_opcodeMap_opcodes : b ∈ opcodeMap.map (fun r => r.opcode) ↔ b ∉ unassignedBytes := by
  simp [opcodeMap_opcodes, List.mem_filter, mem_allBytes]

theorem opcodeMap_opcodes_nodup : (opcodeMap.map fun r => r.opcode).Nodup := by
  have hsorted : (opcodeMap.map fun r => r.opcode).IsChain (· < ·) := by decide +kernel
  exact (List.isChain_iff_pairwise.mp hsorted).nodup

theorem unassignedBytes_nodup : unassignedBytes.Nodup := by
  have hsorted : unassignedBytes.IsChain (· < ·) := by decide +kernel
  exact (List.isChain_iff_pairwise.mp hsorted).nodup

theorem hltOpcodeOk_iff : hltOpcodeOk hlt = true ↔ hlt ∈ unassignedBytes := List.contains_iff_mem

theorem mem_instructionSet : r ∈ instructionSet hlt ↔ r ∈ opcodeMap ∨ r = ⟨hlt, .hlt, .imp⟩ := by
  simp [instructionSet]

/-- With HLT at a byte of R105 no opcode stands twice (R106). -/
theorem instructionSet_opcodes_nodup (h : hltOpcodeOk hlt = true) :
    ((instructionSet hlt).map fun r => r.opcode).Nodup := by
  rw [instructionSet, List.map_append]
  refine List.nodup_append.mpr ⟨opcodeMap_opcodes_nodup, List.nodup_singleton _, fun b hb c hc e => ?_⟩
  rw [e, List.mem_singleton.mp hc] at hb
  exact mem_opcodeMap_opcodes.mp hb (hltOpcodeOk_iff.mp h)

/-- The modes the table has for a mnemonic are the mode column of R104; each stands once. -/
theorem instructionSet_modes (hlt : Byte) (mn : Mnemonic) :
    (((instructionSet hlt).filter fun r => r.mnemonic == mn).map fun r => r.mode).Perm mn.modes := by
  have hzero : (getSupportedAddressModes mn).Perm mn.modes := by cases mn <;> decide
  have hbyte : getSupportedAddressModes mn =
      ((instructionSet hlt).filter fun r => r.mnemonic == mn).map fun r => r.mode := by cases mn <;> rfl
  exact hbyte ▸ hzero

theorem modes_nodup (mn : Mnemonic) : mn.modes.Nodup := by cases mn <;> decide

/-- A pair stands in the table when R104 has it. -/
theorem exists_row_iff : (∃ b, (⟨b, mn, mode⟩ : OpcodeRow) ∈ instructionSet hlt) ↔ mode ∈ mn.modes := by
  rw [← (instructionSet_modes hlt mn).mem_iff, List.mem_map]
  constructor
  · rintro ⟨b, h⟩
    exact ⟨_, List.mem_filter.mpr ⟨h, beq_self_eq_true mn⟩, rfl⟩
  · rintro ⟨r, h, rfl⟩
    obtain ⟨h, hmn⟩ := List.mem_filter.mp h
    exact ⟨r.opcode, beq_iff_eq.mp hmn ▸ h⟩

/-- No pair stands twice, whatever byte HLT has. -/
theorem row_unique (hq : q ∈ instructionSet hlt) (hr : r ∈ instructionSet hlt) (hmn : q.mnemonic = r.mnemonic)
    (hmode : q.mode = r.mode) : q = r :=
  List.inj_on_of_nodup_map ((instructionSet_modes hlt r.mnemonic).nodup_iff.mpr (modes_nodup _))
    (List.mem_filter.mpr ⟨hq, beq_iff_eq.mpr hmn⟩) (List.mem_filter.mpr ⟨hr, beq_self_eq_true _⟩) hmode

/-! ### Lookups -/

theorem exists_find?_of_mem {p : OpcodeRow → Bool} (h : r ∈ rows) (hp : p r = true) :
    ∃ q, rows.find? p = some q ∧ q ∈ rows ∧ p q = true := by
  obtain ⟨q, hq⟩ := Option.isSome_iff_exists.mp (List.find?_isSome.mpr ⟨r, h, hp⟩)
  exact ⟨q, hq, List.mem_of_find?_eq_some hq, List.find?_some hq⟩

theorem opcodeOf_eq_some : opcodeOf hlt mn mode = some b ↔ ⟨b, mn, mode⟩ ∈ instructionSet hlt := by
  rw [opcodeOf, Option.map_eq_some_iff]
  constructor
  · rintro ⟨q, hq, rfl⟩
    obtain ⟨rfl, rfl⟩ : q.mnemonic = mn ∧ q.mode = mode := by simpa using List.find?_some hq
    exact List.mem_of_find?_eq_some hq
  · intro hr
    obtain ⟨q, hq, hmem, hp⟩ := exists_find?_of_mem (p := fun r => r.mnemonic == mn && r.mode == mode) hr (by simp)
    obtain ⟨hmn, hmode⟩ : q.mnemonic = mn ∧ q.mode = mode := by simpa using hp
    exact ⟨q, hq, congrArg OpcodeRow.opcode (row_unique hmem hr hmn hmode)⟩

theorem exists_opcodeOf_iff : (∃ b, opcodeOf hlt mn mode = some b) ↔ mode ∈ mn.modes := by
  simp only [opcodeOf_eq_some, exists_row_iff]

theorem decodeOpcode_eq_none : decodeOpcode hlt b = none ↔ b ∈ unassignedBytes ∧ b ≠ hlt := by
  have hmap : b ∈ unassignedBytes ↔ ∀ r ∈ opcodeMap, r.opcode ≠ b := by
    rw [← not_iff_not, ← mem_opcodeMap_opcodes]
    simp
  simp [decodeOpcode, instructionSet, hmap, eq_comm (a := b)]

/-- A row of the map is found by its opcode, whatever byte HLT has. -/
theorem decodeOpcode_of_mem (h : r ∈ opcodeMap) : decodeOpcode hlt r.opcode = some (r.mnemonic, r.mode) := by
  obtain ⟨q, hq, hmem, hop⟩ := exists_find?_of_mem (p := fun q => q.opcode == r.opcode) h (beq_self_eq_true _)
  obtain rfl : q = r := List.inj_on_of_nodup_map opcodeMap_opcodes_nodup hmem h (beq_iff_eq.mp hop)
  rw [decodeOpcode, instructionSet, List.find?_append, hq]
  rfl

/-- HLT is found at its byte, when that is one of R105 (R106). -/
theorem decodeOpcode_hlt (h : hltOpcodeOk hlt = true) : decodeOpcode hlt hlt = some (.hlt, .imp) := by
  have hnone : opcodeMap.find? (fun r => r.opcode == hlt) = none := by
    refine List.find?_eq_none.mpr fun r hr e => mem_opcodeMap_opcodes.mp (List.mem_map_of_mem hr) ?_
    rw [beq_iff_eq.mp e]
    exact hltOpcodeOk_iff.mp h
  rw [decodeOpcode, instructionSet, List.find?_append, hnone]
  simp

theorem opcodeMap_ne_hlt : ∀ r ∈ opcodeMap, r.mnemonic ≠ .hlt := by decide +kernel

/-- The decoder finds the rows of the table, but HLT at a byte of R105 only. -/
theorem decodeOpcode_eq_some : decodeOpcode hlt b = some (mn, mode) ↔
    ⟨b, mn, mode⟩ ∈ instructionSet hlt ∧ (mn = .hlt → hltOpcodeOk hlt = true) := by
  rw [mem_instructionSet]
  constructor
  · intro h
    by_cases hb : b ∈ unassignedBytes
    · obtain rfl : b = hlt := by
        by_contra hne
        rw [decodeOpcode_eq_none.mpr ⟨hb, hne⟩] at h
        cases h
      have hok := hltOpcodeOk_iff.mpr hb
      cases (decodeOpcode_hlt hok).symm.trans h
      exact ⟨.inr rfl, fun _ => hok⟩
    · obtain ⟨r, hr, rfl⟩ := List.mem_map.mp (mem_opcodeMap_opcodes.mpr hb)
      cases (decodeOpcode_of_mem hr).symm.trans h
      exact ⟨.inl hr, fun e => absurd e (opcodeMap_ne_hlt r hr)⟩
  · rintro ⟨hr | hr, hok⟩
    · exact decodeOpcode_of_mem hr
    · cases hr
      exact decodeOpcode_hlt (hok rfl)

/-! ### Registration and encoding (R103) -/

theorem registerRow_fresh (h : ∀ q ∈ table, q.opcode ≠ r.opcode ∧ ¬ (q.mnemonic = r.mnemonic ∧ q.mode = r.mode)) :
    registerRow table r = .ok (table ++ [r]) := by
  refine if_neg fun hany => ?_
  obtain ⟨q, hq, hc⟩ := List.any_eq_true.mp hany
  obtain ⟨hop, hpair⟩ := h q hq
  exact hpair (by simpa [hop] using hc)

theorem registerRow_duplicate (hq : q ∈ table)
    (h : q.opcode = r.opcode ∨ (q.mnemonic = r.mnemonic ∧ q.mode = r.mode)) :
    registerRow table r = .error (.duplicate r.mnemonic r.mode r.opcode) :=
  if_pos (List.any_eq_true.mpr ⟨q, hq, by simpa using h⟩)

/-- Rows that clash neither with each other nor with the table are all registered, in order. -/
theorem registerAll_fresh (h : (table ++ rows).Pairwise fun q r =>
    q.opcode ≠ r.opcode ∧ ¬ (q.mnemonic = r.mnemonic ∧ q.mode = r.mode)) :
    registerAll table rows = .ok (table ++ rows) := by
  induction rows generalizing table with
  | nil => simp [registerAll]
  | cons r rows ih =>
    obtain ⟨-, -, hcross⟩ := List.pairwise_append.mp h
    rw [registerAll, registerRow_fresh fun q hq => hcross q hq r List.mem_cons_self]
    rw [List.append_cons table r rows] at h ⊢
    exact ih h

theorem registerAll_instructionSet (h : hltOpcodeOk hlt = true) :
    registerAll [] (instructionSet hlt) = .ok (instructionSet hlt) := by
  have hops : (instructionSet hlt).Pairwise fun q r => q.opcode ≠ r.opcode :=
    List.pairwise_map.mp (instructionSet_opcodes_nodup h)
  refine registerAll_fresh (hops.imp_of_mem fun hq hr hop => ⟨hop, ?_⟩)
  rintro ⟨hmn, hmode⟩
  exact hop (congrArg OpcodeRow.opcode (row_unique hq hr hmn hmode))

theorem pairSupported_iff {i : AsmInstr} : i.pairSupported = true ↔ i.mode ∈ i.mnemonic.modes := List.contains_iff_mem

theorem operandBytesOf_length (mode : Mode) (opnd : Word) :
    (operandBytesOf mode.operandBytes opnd).length = mode.operandBytes := by
  cases mode <;> rfl

/-- What host tooling may encode becomes an opcode and the mode's operand bytes. -/
theorem encodeAsm_ok {i : AsmInstr} (hp : i.pairSupported = true) (hr : i.operandInRange = true) :
    ∃ bytes, encodeAsm hlt i = .ok bytes ∧ bytes.length = 1 + i.mode.operandBytes := by
  obtain ⟨op, hop⟩ := (exists_opcodeOf_iff (hlt := hlt)).mpr (pairSupported_iff.mp hp)
  refine ⟨op :: operandBytesOf i.mode.operandBytes (BitVec.ofNat 16 i.operand), ?_, ?_⟩
  · simp [encodeAsm, hop, hr]
  · rw [List.length_cons, operandBytesOf_length, Nat.add_comm]

theorem encodeAsm_range {i : AsmInstr} (hp : i.pairSupported = true) (hr : i.operandInRange = false) :
    encodeAsm hlt i = .error (.encodeRange i.operand) := by
  obtain ⟨op, hop⟩ := (exists_opcodeOf_iff (hlt := hlt)).mpr (pairSupported_iff.mp hp)
  simp [encodeAsm, hop, hr]

theorem encodeAsm_unsupported {i : AsmInstr} (hp : i.pairSupported = false) :
    encodeAsm hlt i = .error (.encodeUnsupported i.mnemonic i.mode) := by
  cases hop : opcodeOf hlt i.mnemonic i.mode with
  | none => simp [encodeAsm, hop]
  | some op =>
    rw [pairSupported_iff.mpr (exists_opcodeOf_iff.mp ⟨op, hop⟩)] at hp
    cases hp

/-- Settles O4: the map holds the bytes R105 does not list, and HLT adds its own. -/
theorem assignedOpcodes : Obligations.AssignedOpcodes := by
  unfold Obligations.AssignedOpcodes
  exact ⟨rfl, unassignedBytes_nodup, fun _ _ => decodeOpcode_eq_none⟩

/-- Settles O5: no opcode and no pair stands in the table twice, and a pair stands there when R104 has it. -/
theorem tableContract : Obligations.TableContract := by
  unfold Obligations.TableContract
  exact ⟨fun _ h => ⟨registerAll_instructionSet h, rfl⟩, fun _ _ _ hq h => registerRow_duplicate hq h,
    fun _ _ => ⟨encodeAsm_unsupported, encodeAsm_range, encodeAsm_ok⟩⟩

end Sys2Proof
end

section
/-! The decoder against the encoder (30_encoding.md R100, R102, R111): operand bytes, instructions and whole encodings. -/

namespace Sys2Proof

open Machine (keptOperand loByte_zextWord mkWord_hi_lo loByte_mkWord hiByte_mkWord instructionSet_supported)

variable {hlt b : Byte} {bs rest : List Byte} {mn : Mnemonic} {mode : Mode} {opnd : Word} {i : Instr}

/-! ### Operand bytes (R102) -/

theorem takeOperand_operandBytesOf (mode : Mode) (opnd : Word) (rest : List Byte) :
    takeOperand mode.operandBytes (operandBytesOf mode.operandBytes opnd ++ rest) =
      some (keptOperand mode.operandBytes opnd, rest) := by
  cases mode <;> simp [Mode.operandBytes, operandBytesOf, takeOperand, keptOperand]

/-- Operand bytes taken are the operand's own, and hold all of it. -/
theorem operandBytesOf_of_takeOperand (h : takeOperand mode.operandBytes bs = some (opnd, rest)) :
    operandBytesOf mode.operandBytes opnd ++ rest = bs ∧ keptOperand mode.operandBytes opnd = opnd := by
  generalize mode.operandBytes = n at h
  unfold takeOperand at h
  split at h <;> cases h <;> simp [operandBytesOf, keptOperand]

/-! ### Instructions -/

theorem pair_supported (i : Instr) : i.mode ∈ i.mnemonic.modes :=
  List.contains_iff_mem.mp (by cases i <;> rfl)

/-- An instruction is built again from its pair and its operand; a one-byte operand is the low byte of its word. -/
theorem build_self (i : Instr) : Instr.build i.mnemonic i.mode i.operand = some i := by
  cases i <;> first | rfl | exact congrArg some (congrArg _ (loByte_zextWord _))

/-- A row of the table builds an instruction of its pair, with the part of the operand that its bytes can hold. -/
theorem build_row (hr : ⟨b, mn, mode⟩ ∈ instructionSet hlt) (h : Instr.build mn mode opnd = some i) :
    i.mnemonic = mn ∧ i.mode = mode ∧ i.operand = keptOperand mode.operandBytes opnd := by
  have hrow := congrArg Prod.fst (List.map_eq_map_iff.mp (instructionSet_supported hlt opnd) _ hr)
  simpa [h] using hrow

/-- The row of an instruction. -/
theorem exists_instr_row (hlt : Byte) (i : Instr) : ∃ b, ⟨b, i.mnemonic, i.mode⟩ ∈ instructionSet hlt :=
  exists_row_iff.mpr (pair_supported i)

theorem keptOperand_operand (i : Instr) : keptOperand i.mode.operandBytes i.operand = i.operand := by
  obtain ⟨b, hr⟩ := exists_instr_row 0 i
  obtain ⟨-, -, hopnd⟩ := build_row hr (build_self i)
  exact hopnd.symm

theorem eq_hlt_of_mnemonic (h : i.mnemonic = .hlt) : i = .hlt := by
  cases i <;> first | rfl | cases h

theorem wellFormed_iff : i.wellFormed hlt = true ↔ (i.mnemonic = .hlt → hltOpcodeOk hlt = true) := by
  have hmn : i.mnemonic = .hlt ↔ i = .hlt := ⟨eq_hlt_of_mnemonic, fun h => h ▸ rfl⟩
  simp [Instr.wellFormed, hmn, imp_iff_not_or]

/-! ### Encodings -/

/-- The encoding of an instruction, by its row. -/
theorem encode_of_row (hr : ⟨b, i.mnemonic, i.mode⟩ ∈ instructionSet hlt) :
    encode hlt i = b :: operandBytesOf i.mode.operandBytes i.operand := by
  rw [encode, opcodeOf_eq_some.mpr hr, Option.getD_some]

/-- What the decoder accepts: an opcode byte with an entry, then the operand bytes of its mode. -/
theorem decode_eq_ok : decode hlt bs = .ok (i, rest) ↔ ∃ b tail mn mode opnd, bs = b :: tail ∧
    decodeOpcode hlt b = some (mn, mode) ∧ takeOperand mode.operandBytes tail = some (opnd, rest) ∧
    Instr.build mn mode opnd = some i := by
  constructor
  · intro h
    cases bs with
    | nil => cases h
    | cons b tail =>
      rw [decode] at h
      split at h
      next => cases h
      next mn mode hd =>
        split at h
        next => cases h
        next opnd rest' ht =>
          split at h <;> cases h
          next hb => exact ⟨b, tail, mn, mode, opnd, rfl, hd, ht, hb⟩
  · rintro ⟨b, tail, mn, mode, opnd, rfl, hd, ht, hb⟩
    simp only [decode, hd, ht, hb]

/-- Settles O1: the opcode finds the row it came from, the operand bytes give the operand back, and the pair and the operand
build the instruction again. -/
theorem decodeEncodeRoundTrip : Obligations.DecodeEncodeRoundTrip := by
  unfold Obligations.DecodeEncodeRoundTrip
  intro hlt i rest hwf
  obtain ⟨b, hr⟩ := exists_instr_row hlt i
  have hoperand : takeOperand i.mode.operandBytes (operandBytesOf i.mode.operandBytes i.operand ++ rest) =
      some (i.operand, rest) := by rw [takeOperand_operandBytesOf, keptOperand_operand]
  exact decode_eq_ok.mpr ⟨b, _, i.mnemonic, i.mode, i.operand, by rw [encode_of_row hr, List.cons_append],
    decodeOpcode_eq_some.mpr ⟨hr, wellFormed_iff.mp hwf⟩, hoperand, build_self i⟩

/-- Settles O2: the row found by the opcode byte is the row of the instruction built, so its encoding starts with that
byte and goes on with the operand bytes taken. -/
theorem encodeDecodeBack : Obligations.EncodeDecodeBack := by
  unfold Obligations.EncodeDecodeBack
  intro hlt bs i rest h
  obtain ⟨b, tail, mn, mode, opnd, rfl, hd, ht, hb⟩ := decode_eq_ok.mp h
  obtain ⟨hr, hok⟩ := decodeOpcode_eq_some.mp hd
  obtain ⟨rfl, rfl, hopnd⟩ := build_row hr hb
  obtain ⟨hbytes, hkept⟩ := operandBytesOf_of_takeOperand ht
  rw [encode_of_row hr, hopnd, hkept, List.cons_append, hbytes]
  exact ⟨rfl, wellFormed_iff.mpr hok⟩

/-- Settles O3: each word is its opcode's row of R104 and the operand of R102, computed. -/
theorem specWordsDecode : Obligations.SpecWordsDecode := by
  unfold Obligations.SpecWordsDecode
  exact ⟨rfl, rfl, rfl, rfl, rfl, rfl, rfl, rfl, rfl, rfl, rfl, rfl, rfl, rfl, rfl, rfl, rfl, rfl⟩

end Sys2Proof
end

section
/-! Instructions that store nothing (30_encoding.md R112), and the fetch of an unassigned opcode (R105,
40_execution_engine.md R144, R153). -/

namespace Sys2Proof.Machine

variable {s t r : State} {i : Instr} {a : Word} {b : Byte}

/-! ### Memory is kept -/

theorem readOp_mem {op : ReadOp} {v : Byte} (h : op.apply v s = .ok () r) : r.mem = s.mem := by
  cases op
  case adc | sbc =>
    simp only [ReadOp.apply, arithmetic] at h
    split at h
    · split at h <;> cases h <;> rfl
    · cases h; rfl
  all_goals cases h; rfl

theorem impliedOp_mem (op : ImpliedOp) (s : State) : (op.apply s).mem = s.mem := by
  cases op <;> rfl

/-- No write, no push and no read-modify-write on memory. -/
def Operation.storesNothing (acc : Bool) : Operation → Bool
  | .write _ | .jsr | .pha | .php | .brk => false
  | .rmw _ => acc
  | .read _ | .implied _ | .branch _ | .jmp | .rts | .pla | .plp | .rti | .hlt => true

theorem exec_mem (h : exec i s = .next t)
    (hkeep : (operationOf i.mnemonic).storesNothing (decide (i.mode = .acc)) = true) : t.mem = s.mem := by
  have hp := exec_post h
  unfold ExecPost at hp
  split at hp
  next op hop => obtain ⟨v, r, hr, ht⟩ := hp; exact ht.mem.trans (readOp_mem (s := s.advanced i) hr)
  next r hop => rw [hop] at hkeep; cases hkeep
  next op hop =>
    rw [hop] at hkeep
    rw [if_pos (of_decide_eq_true hkeep)] at hp
    exact hp.mem
  next op hop => exact hp.mem.trans (impliedOp_mem op _)
  next c hop => obtain ⟨pc, ht⟩ := hp; exact ht.mem
  next hop => obtain ⟨pc, ht⟩ := hp; exact ht.mem
  next hop => rw [hop] at hkeep; cases hkeep
  next hop => obtain ⟨pc, ht⟩ := hp; exact ht.mem
  next hop => rw [hop] at hkeep; cases hkeep
  next hop => rw [hop] at hkeep; cases hkeep
  next hop => obtain ⟨v, ht⟩ := hp; exact ht.mem
  next hop => obtain ⟨v, ht⟩ := hp; exact ht.mem
  next hop => rw [hop] at hkeep; cases hkeep
  next hop => obtain ⟨b, pc, ht⟩ := hp; exact ht.mem
  next hop => exact hp.mem

/-- Settles O29: none of these instructions has an operation that stores, and one that does not store leaves memory. -/
theorem nonStoringInstructionsKeepMemory : Obligations.NonStoringInstructionsKeepMemory := by
  unfold Obligations.NonStoringInstructionsKeepMemory
  intro i s t h hi
  have hclasses : ∀ mn ∈ allMnemonics, (mn.instrClass = .read ∨ mn.instrClass = .implied ∨ mn.instrClass = .branch ∨
      mn = .jmp ∨ mn ∈ [.pla, .plp, .rts, .rti]) → ∀ acc, (operationOf mn).storesNothing acc = true := by decide
  have hshifts : ∀ mn ∈ [Mnemonic.asl, .lsr, .rol, .ror], (operationOf mn).storesNothing true = true := by decide
  have hmem : t.mem = s.mem := by
    refine exec_mem h ?_
    by_cases hacc : i.mode = .acc
    · rw [decide_eq_true hacc]
      exact hshifts _ (mnemonic_of_acc hacc)
    · exact hclasses _ (mem_allMnemonics _) (by simpa [hacc] using hi) _
  exact ⟨hmem, fun a => congrArg (fun m => Memory.read m a.toNat) hmem⟩

/-! ### An unassigned opcode -/

/-- A read does not see the hook. -/
theorem busRead_fireHook (h : busRead a s = .ok b t) : busRead a (fireHook s) = .ok b (fireHook t) := by
  unfold busRead at h ⊢
  cases hc : claimant s.regions a with
  | none => simp [hc] at h
  | some r =>
    rw [hc] at h
    simp only [fireHook, hc]
    cases hk : r.kind with
    | ram | rom | device d k => simp only [hk] at h ⊢; cases h; rfl
    | paged slot banks =>
      simp only [hk] at h ⊢
      split at h
      · cases h; rfl
      · cases h

theorem busRead_line (h : busRead a s = .ok b t) : ∃ access, access.line = (false, a, b) ∧ t = s.record access :=
  ((busRead_spec (g := False) fun f => f.elim).1 b t h).1

/-- Settles O7: both views fetch the byte, whatever answers it, and stop where it has no entry. -/
theorem unassignedOpcodeFaults : Obligations.UnassignedOpcodeFaults := by
  unfold Obligations.UnassignedOpcodeFaults
  intro s t b hs hi hread hb hne
  have ⟨hf, hh, hq⟩ := hs
  have hfetch : fetchByte (fireHook s) = .ok b { fireHook t with pc := (fireHook t).pc + 1 } :=
    congrArg (Res.bind · _) (busRead_fireHook hread)
  have hdecode : decodeOpcode (fireHook s).params.hltOpcode b = none := decodeOpcode_eq_none.mpr ⟨hb, hne⟩
  obtain ⟨access, hline, rfl⟩ := busRead_line hread
  have htick : tickRes s = .fault (.unassignedOpcode b s.pc) { fireHook (s.record access) with pc := s.pc + 1 } := by
    rw [tickRes_fetch hq hi, fetchDecodeDispatch_unassigned hfetch hdecode]
    rfl
  refine ⟨?step, ?tick, ?after, rfl, access, hline, rfl⟩
  case step =>
    rw [step_fetch hs hi, fetchDecode_unassigned hfetch hdecode]
    rfl
  case tick => simp [tick, hf, hh, htick]
  case after => simp [afterTick, hf, hh, htick, fireHook]

end Sys2Proof.Machine
end

section
/-! When the CPU takes no tick (40_execution_engine.md R140), where the hook is disarmed (R151), and when a completed
instruction leaves the CPU halted (R145). -/

namespace Sys2Proof.Machine

variable {s t r : State} {i : Instr}

/-! ### A CPU that is faulted or halted -/

theorem tick_faulted {f : Fault} (hf : s.fault = some f) : tick s = .fault f := by simp [tick, hf]

theorem tick_halted (hf : s.fault = none) (hh : s.halted = true) : tick s = .next s := by simp [tick, hf, hh]

theorem afterTick_stopped (h : s.fault.isSome = true ∨ s.halted = true) : afterTick s = s := by simp [afterTick, h]

/-- Settles O8: each view looks at the recorded fault first and at the halt next, before it does anything. -/
theorem haltedAndFaultedTakeNoTick : Obligations.HaltedAndFaultedTakeNoTick := by
  unfold Obligations.HaltedAndFaultedTakeNoTick
  exact fun s =>
    ⟨fun f hf => ⟨step_faulted hf, tick_faulted hf, afterTick_stopped (.inl (by simp [hf]))⟩,
      fun hf hh => ⟨step_halted hf hh, tick_halted hf hh, afterTick_stopped (.inr hh)⟩⟩

/-! ### The quiescent hook -/

theorem endOfTick_hookArmed (u : State) :
    (if (countCycle u).queue.isEmpty then settle (countCycle u) else countCycle u).hookArmed = u.hookArmed := by
  split <;> rfl

/-- A queued micro-operation leaves the hook, however long the queue. -/
theorem tickRes_hookArmed_queued (hq : s.queue ≠ []) :
    Res.Spec False (tickRes s) fun _ t => t.hookArmed = s.hookArmed := by
  obtain ⟨m, q, hq⟩ := List.exists_cons_of_ne_nil hq
  simp only [tickRes, hq]
  exact (runMicro_post m { s with queue := q }).bind fun _ u ⟨_, _, hhook, _⟩ =>
    .ok ((endOfTick_hookArmed u).trans hhook)

/-- Settles O15: a boundary tick disarms the hook where it fetches, and the ticks of a queue do not reach it. -/
theorem quiescentHookFires : Obligations.QuiescentHookFires := by
  unfold Obligations.QuiescentHookFires
  intro s t h hrun
  have ⟨_, htick⟩ := (tick_next h).resolve_left fun hhalt => Bool.false_ne_true (hrun.symm.trans hhalt.1)
  by_cases hq : s.queue = []
  · obtain ⟨u, ⟨-, -, -, -, -, hhook⟩, rfl⟩ := (tickRes_post (by simp [hq])).1 _ _ htick
    exact (endOfTick_hookArmed u).trans hhook
  · rw [if_neg fun hfetch => hq hfetch.1]
    exact (tickRes_hookArmed_queued hq).1 _ _ htick

/-! ### The cycle limit -/

/-- `r` differs from `s` in registers, flags, the in-ISR marker and storage only, and is halted if `s` is or if
`stop`. -/
def Operated (stop : Bool) (s r : State) : Prop :=
  r = { s with
    a := r.a, x := r.x, y := r.y, pc := r.pc, sp := r.sp, p := r.p, inISR := r.inISR, mem := r.mem
    halted := stop || s.halted }

theorem Operated.cycles {stop : Bool} (h : Operated stop s r) : r.cycles = s.cycles :=
  (congrArg (fun u => u.cycles) h).trans rfl

theorem Operated.haltRequested {stop : Bool} (h : Operated stop s r) : r.haltRequested = s.haltRequested :=
  (congrArg (fun u => u.haltRequested) h).trans rfl

theorem Operated.halted {stop : Bool} (h : Operated stop s r) : r.halted = (stop || s.halted) :=
  (congrArg (fun u => u.halted) h).trans rfl

theorem Operated.params {stop : Bool} (h : Operated stop s r) : r.params = s.params :=
  (congrArg (fun u => u.params) h).trans rfl

theorem readOp_operated {op : ReadOp} {v : Byte} (h : op.apply v s = .ok () r) : Operated false s r := by
  cases op
  case adc | sbc =>
    simp only [ReadOp.apply, arithmetic] at h
    split at h
    · split at h <;> cases h <;> rfl
    · cases h; rfl
  all_goals cases h; rfl

theorem impliedOp_operated (op : ImpliedOp) (s : State) : Operated false s (op.apply s) := by cases op <;> rfl

/-- An instruction that answers is a change of registers, flags and storage, by HLT the halt, and its ticks. -/
theorem exec_operated (h : exec i s = .next t) :
    ∃ r, Ended r t ∧ Operated (decide (operationOf i.mnemonic = .hlt)) s r := by
  have hp := exec_post h
  unfold ExecPost at hp
  split at hp
  next op hop => obtain ⟨v, r, hr, ht⟩ := hp; rw [hop]; exact ⟨r, ht, readOp_operated (s := s.advanced i) hr⟩
  next r hop => obtain ⟨ea, m, -, -, ht⟩ := hp; rw [hop]; exact ⟨_, ht, rfl⟩
  next op hop =>
    rw [hop]
    split at hp
    · exact ⟨_, hp, rfl⟩
    · obtain ⟨ea, v, m, -, -, ht⟩ := hp
      exact ⟨_, ht, rfl⟩
  next op hop => rw [hop]; exact ⟨_, hp, impliedOp_operated op { s with pc := s.pc + 1 }⟩
  next c hop => obtain ⟨pc, ht⟩ := hp; rw [hop]; exact ⟨_, ht, rfl⟩
  next hop => obtain ⟨pc, ht⟩ := hp; rw [hop]; exact ⟨_, ht, rfl⟩
  next hop => obtain ⟨pc, m1, m2, -, -, ht⟩ := hp; rw [hop]; exact ⟨_, ht, rfl⟩
  next hop => obtain ⟨pc, ht⟩ := hp; rw [hop]; exact ⟨_, ht, rfl⟩
  next hop => obtain ⟨m, -, ht⟩ := hp; rw [hop]; exact ⟨_, ht, rfl⟩
  next hop => obtain ⟨m, -, ht⟩ := hp; rw [hop]; exact ⟨_, ht, rfl⟩
  next hop => obtain ⟨v, ht⟩ := hp; rw [hop]; exact ⟨_, ht, rfl⟩
  next hop => obtain ⟨v, ht⟩ := hp; rw [hop]; exact ⟨_, ht, rfl⟩
  next hop => obtain ⟨pc, m, -, ht⟩ := hp; rw [hop]; exact ⟨_, ht, rfl⟩
  next hop => obtain ⟨b, pc, ht⟩ := hp; rw [hop]; exact ⟨_, ht, rfl⟩
  next hop => rw [hop]; exact ⟨_, hp, rfl⟩

/-- The limit is compared with the count at the end of the instruction, whatever number of ticks it took. -/
theorem exec_halted (h : exec i s = .next t) :
    t.halted = ((decide (operationOf i.mnemonic = .hlt) || s.halted) ||
      (s.haltRequested || limitReached s.params.maxCycles t.cycles)) := by
  obtain ⟨r, ht, hr⟩ := exec_operated h
  have hcount : s.cycles + (t.cycles - s.cycles) = t.cycles := by
    have := ht.cycles.1
    rw [hr.cycles] at this
    omega
  rw [ht.halted, ht.haltRequested, State.haltAfter, hr.halted, hr.haltRequested, hr.params, hr.cycles, hcount]

/-- Settles O16: without HLT, a halt or a request, what is left to halt the CPU is the limit. -/
theorem cycleLimitHaltsAtBoundary : Obligations.CycleLimitHaltsAtBoundary := by
  unfold Obligations.CycleLimitHaltsAtBoundary
  intro s t i n h hi hrun hreq hmax
  have hop : operationOf i.mnemonic ≠ .hlt := fun h => hi (eq_hlt_of_mnemonic (operationOf_eq_hlt h))
  rw [exec_halted h, decide_eq_false hop, hrun, hreq, hmax]
  exact decide_eq_true_iff

end Sys2Proof.Machine
end

section
/-! The instruction at PC over stored memory: the bytes its fetch ticks read are those of storage, so the step runs what
they decode to (40_execution_engine.md R141, R144). -/

namespace Sys2Proof.Machine

variable {s u : State} {n k : Nat} {opnd : Word} {rest : List Byte}

theorem fetchByte_stored (h : s.Stored s.pc) :
    fetchByte s = .ok (s.byteAt s.pc) { s.record (.read s.pc (s.byteAt s.pc)) with pc := s.pc + 1 } := by
  rw [fetchByte, busRead_stored h]
  rfl

/-- The look ahead, some ticks later, at a stored byte. -/
theorem peek_stored (hT : Ticked n s u) (h : s.Stored s.pc) :
    peekByte u = s.byteAt s.pc ∧ Ticked (n + 1) { s with pc := s.pc + 1 } (peekNext u) := by
  have hfetch : Res.Spec True (cycle (fetchByte u)) fun v w =>
      v = s.byteAt s.pc ∧ Ticked (n + 1) { s with pc := s.pc + 1 } w :=
    cycle_spec (fetchByte_spec hT fun _ => .inl h) fun _ _ hw => ⟨hw.2 h, hw.1.count⟩
  obtain ⟨v, w, e⟩ := hfetch.2 trivial
  obtain ⟨hv, hw⟩ := peek_of_fetch e
  rw [hv, hw]
  exact hfetch.1 v w e

/-- The look ahead takes the operand the decoder takes from the stored bytes (30_encoding.md R102). -/
theorem aheadOperand_stored (hT : Ticked n s u) (hst : ∀ j < k, s.Stored (s.pc + BitVec.ofNat 16 j))
    (h : takeOperand k [s.byteAt s.pc, s.byteAt (s.pc + 1)] = some (opnd, rest)) : aheadOperand k u = opnd := by
  match k with
  | 0 => cases h; rfl
  | 1 =>
    obtain ⟨hlo, -⟩ := peek_stored hT (by simpa using hst 0 (by decide))
    cases h
    exact congrArg zextWord hlo
  | 2 =>
    obtain ⟨hlo, hT1⟩ := peek_stored hT (by simpa using hst 0 (by decide))
    obtain ⟨hhi, -⟩ := peek_stored hT1 (hst 1 (by decide))
    cases h
    exact congrArg₂ mkWord hhi hlo
  | _ + 3 => cases h

/-- The bytes of the instruction are stored, the one at PC and those of the operand. -/
theorem stored_of_fetchAddresses (h : ∀ a ∈ s.fetchAddresses k, s.Stored a) {j : Nat} (hj : j < k) :
    s.Stored (s.pc + BitVec.ofNat 16 j) :=
  h _ (List.mem_map_of_mem (List.mem_range.mpr hj))

/-- Settles O6: the decoder takes from the look ahead what it takes from the stored bytes. -/
theorem stepRunsDecodedInstruction : Obligations.StepRunsDecodedInstruction := by
  unfold Obligations.StepRunsDecodedInstruction
  intro s i rest hs hint hdec hstored
  obtain ⟨b, tail, mn, mode, opnd, hbytes, hd, htake, hbuild⟩ := decode_eq_ok.mp hdec
  cases hbytes
  obtain ⟨-, rfl, -⟩ := build_row (decodeOpcode_eq_some.mp hd).1 hbuild
  have hpc : s.Stored s.pc := by simpa using stored_of_fetchAddresses hstored (j := 0) (by simp [instrSize])
  have hfetch := fetchByte_stored (s := fireHook s) hpc
  have hT := ((Ticked.refl { fireHook s with pc := s.pc + 1 }).record (.read s.pc (s.byteAt s.pc))).count
  have hoperand : ∀ j < i.mode.operandBytes, s.Stored (s.pc + 1 + BitVec.ofNat 16 j) := fun j hj => by
    rw [BitVec.add_assoc, show (1 : Word) + BitVec.ofNat 16 j = BitVec.ofNat 16 (1 + j) from
      (BitVec.ofNat_add 1 j).symm]
    exact stored_of_fetchAddresses hstored (by rw [instrSize]; omega)
  rw [show s.pc + 2 = s.pc + 1 + 1 by rw [BitVec.add_assoc]; rfl] at htake
  have hahead := aheadOperand_stored hT hoperand htake
  rw [step_fetch hs hint, fetchDecode_assigned hfetch hd ((congrArg _ hahead).trans hbuild)]
  rfl

end Sys2Proof.Machine
end

section
/-! The stack slots the pushing instructions write, and the bounds of the stack page (40_execution_engine.md R157 to
R159). -/

namespace Sys2Proof.Machine

variable {α : Type} {s t r : State} {n : Nat} {a b : Word} {v : Byte} {m : List Host.Cell}

/-! ### The slots written -/

theorem Ended.byteAt (h : Ended r t) (a : Word) : t.byteAt a = r.byteAt a := by simp [State.byteAt, h.mem]

/-- A write leaves every other byte, to RAM or to a device. -/
theorem Wrote.byteAt_of_ne (h : Wrote s a v m) (hb : b ≠ a) : { s with mem := m }.byteAt b = s.byteAt b := by
  obtain ⟨hram, hram' | ⟨rfl, -⟩⟩ := h
  · rw [hram hram']
    exact byteAt_write_of_ne v hb
  · rfl

/-- Settles O31: each push writes the slot SP names and no other byte, and the ticks around it write nothing. -/
theorem pushesChangeStackSlots : Obligations.PushesChangeStackSlots := by
  unfold Obligations.PushesChangeStackSlots
  intro i s t h
  refine ⟨?one, ?jsr, ?brk, ?registers⟩
  case one =>
    rintro (rfl | rfl) <;>
    · obtain ⟨m, hw, ht⟩ := exec_post h
      exact ⟨ht.sp, fun a ha => (ht.byteAt a).trans (hw.byteAt_of_ne ha)⟩
  case jsr =>
    rintro w rfl
    obtain ⟨pc, m1, m2, hw1, hw2, ht⟩ := exec_post h
    exact ⟨ht.sp, fun a ha1 ha2 => (ht.byteAt a).trans ((hw2.byteAt_of_ne ha2).trans (hw1.byteAt_of_ne ha1))⟩
  case brk =>
    rintro rfl
    obtain ⟨pc, m, ⟨m1, m2, hw1, hw2, hw3⟩, ht⟩ := exec_post h
    exact ⟨ht.sp, fun a ha1 ha2 ha3 => (ht.byteAt a).trans
      ((hw3.byteAt_of_ne ha3).trans ((hw2.byteAt_of_ne ha2).trans (hw1.byteAt_of_ne ha1)))⟩
  case registers =>
    rintro (rfl | rfl | ⟨w, rfl⟩ | rfl)
    · obtain ⟨m, -, ht⟩ := exec_post h; exact ⟨ht.a, ht.x, ht.y⟩
    · obtain ⟨m, -, ht⟩ := exec_post h; exact ⟨ht.a, ht.x, ht.y⟩
    · obtain ⟨pc, m1, m2, -, -, ht⟩ := exec_post h; exact ⟨ht.a, ht.x, ht.y⟩
    · obtain ⟨pc, m, -, ht⟩ := exec_post h; exact ⟨ht.a, ht.x, ht.y⟩

/-! ### The bounds of the stack page -/

/-- What follows an operation that completes decides the outcome. -/
theorem Res.Spec.outcome_bind {r : Res α} {k : α → State → Res Unit} {P : α → State → Prop}
    {o : Host.Outcome State Fault Refusal} (h : Res.Spec True r P) (hk : ∀ v u, P v u → (k v u).outcome = o) :
    (r.bind k).outcome = o := by
  obtain ⟨v, u, e⟩ := h.2 trivial
  rw [e]
  exact hk v u (h.1 v u e)

section Pushes

variable {p : Nat} (hT : Ticked n s t) (hb : s.params.spBounds = .fatal) (hstack : s.StackInRam)
  (hp : s.sp.toNat < p + 1)
include hT hb hp

/-- With one more push to come than `p`, and no room for them: the decrement stops, or there is no room for the `p`. -/
theorem decSp_stops {k : Unit → State → Res Unit} (hk : (s.sp - 1).toNat < p → ∀ u,
      Ticked n { s with sp := s.sp - 1 } u → (k () u).outcome = .fault (.stackBounds .overflow)) :
    ((decSp t).bind k).outcome = .fault (.stackBounds .overflow) := by
  by_cases h0 : s.sp = 0x00#8
  · simp [decSp, hT.sp, hT.params, hb, h0]
  · exact (decSp_spec hT fun _ => .inl h0).outcome_bind fun _ u hu => hk (by bv_omega) u hu.2

include hstack

theorem push_stops {k : Unit → State → Res Unit} (hk : (s.sp - 1).toNat < p → ∀ m u,
      Ticked n { s with mem := m, sp := s.sp - 1 } u → (k () u).outcome = .fault (.stackBounds .overflow)) :
    ((push v t).bind k).outcome = .fault (.stackBounds .overflow) := by
  rw [push, Res.bind_assoc, hT.sp]
  refine (write_spec hT fun _ => .inl (hstack s.sp)).outcome_bind fun _ u ⟨m, hu, _⟩ => ?_
  exact decSp_stops hu hb hp fun h => hk h m

theorem cyclePush_stops {k : Unit → State → Res Unit} (hk : (s.sp - 1).toNat < p → ∀ m u,
      Ticked (n + 1) { s with mem := m, sp := s.sp - 1 } u → (k () u).outcome = .fault (.stackBounds .overflow)) :
    ((cycle (push v t)).bind k).outcome = .fault (.stackBounds .overflow) := by
  rw [cycle, Res.bind_assoc]
  exact push_stops hT hb hstack hp fun h m u hu => hk h m _ hu.count

end Pushes

section Pulls

variable {p : Nat} (hT : Ticked n s t) (hb : s.params.spBounds = .fatal) (hstack : s.StackInRam)
  (hp : 255 < s.sp.toNat + (p + 1))
include hT hb hp

/-- With one more pull to come than `p`, and no room for them: the increment stops, or there is no room for the `p`. -/
theorem incSp_stops {k : Unit → State → Res Unit} (hk : 255 < (s.sp + 1).toNat + p → ∀ u,
      Ticked n { s with sp := s.sp + 1 } u → (k () u).outcome = .fault (.stackBounds .underflow)) :
    ((incSp t).bind k).outcome = .fault (.stackBounds .underflow) := by
  by_cases h0 : s.sp = 0xFF#8
  · simp [incSp, hT.sp, hT.params, hb, h0]
  · exact (incSp_spec hT fun _ => .inl h0).outcome_bind fun _ u hu => hk (by bv_omega) u hu.2

include hstack

theorem cyclePull_stops {k : Byte → State → Res Unit} (hk : 255 < (s.sp + 1).toNat + p → ∀ v u,
      Ticked (n + 1) { s with sp := s.sp + 1 } u → (k v u).outcome = .fault (.stackBounds .underflow)) :
    ((cycle (stackReadInc t)).bind k).outcome = .fault (.stackBounds .underflow) := by
  rw [cycle, Res.bind_assoc, stackReadInc, Res.bind_assoc]
  refine (stackRead_spec hT fun _ => .inl (.inl (hstack s.sp))).outcome_bind fun v u ⟨hu, _⟩ => ?_
  rw [Res.bind_assoc]
  exact incSp_stops hu hb hp fun h w hw => hk h v _ hw.count

theorem cyclePullStatus_stops {k : Unit → State → Res Unit} (hk : 255 < (s.sp + 1).toNat + p → ∀ flags u,
      Ticked (n + 1) { s with sp := s.sp + 1, p := flags } u → (k () u).outcome = .fault (.stackBounds .underflow)) :
    ((cycle (pullStatusByte t)).bind k).outcome = .fault (.stackBounds .underflow) := by
  rw [cycle, Res.bind_assoc, pullStatusByte, Res.bind_assoc]
  refine (stackRead_spec hT fun _ => .inl (.inl (hstack s.sp))).outcome_bind fun b u ⟨hu, _⟩ => ?_
  have hflags := hu.update fun x => { x with p := returnedFlags b }
  exact incSp_stops hflags hb hp fun h w hw => hk h _ _ hw.count

end Pulls

/-- There is always room for no push. -/
theorem no_push_left {sp : Byte} {P : Prop} (h : sp.toNat < 0) : P := absurd h (Nat.not_lt_zero _)

/-- There is always room for no pull. -/
theorem no_pull_left {sp : Byte} {P : Prop} (h : 255 < sp.toNat + 0) : P := absurd sp.isLt (Nat.not_lt.mpr h)

/-- Taking an exception pushes three bytes (46_stack_flags_system.md R362, 60_exceptions.md R408). -/
theorem takeException_stops (vec : VectorId) (soft : Bool) (hT : Ticked n s t) (hb : s.params.spBounds = .fatal)
    (hstack : s.StackInRam) (hp : s.sp.toNat < 3) :
    (takeException vec soft t).outcome = .fault (.stackBounds .overflow) := by
  refine cyclePush_stops hT hb hstack hp fun hp _ _ hT => cyclePush_stops hT hb hstack hp fun hp _ _ hT => ?_
  rw [cycle, Res.bind_assoc, pushStatusByte, Res.bind_assoc]
  exact push_stops hT hb hstack hp no_push_left

/-- Returning from an exception pulls three (46_stack_flags_system.md R364). -/
theorem returnFromException_stops (hT : Ticked n s t) (hb : s.params.spBounds = .fatal) (hstack : s.StackInRam)
    (hp : 255 < s.sp.toNat + 3) : (returnFromException t).outcome = .fault (.stackBounds .underflow) :=
  cyclePull_stops hT hb hstack hp fun hp _ _ hT => cyclePullStatus_stops hT hb hstack hp fun hp _ _ hT =>
    cyclePull_stops hT hb hstack hp no_pull_left

/-- Settles O59: each push or pull either stops or leaves too little room for those to come. -/
theorem stackBoundsStop : Obligations.StackBoundsStop := by
  unfold Obligations.StackBoundsStop
  intro s hb hall hstack
  have hread : ∀ a, s.Readable a := fun a => .inl (hall a)
  have hhead := stackHead_spec (g := True) (s := s) fun _ _ _ => hread _
  have hfetch := fetchCycles_spec (g := True) 2 (Ticked.refl s) fun _ _ _ => hread _
  refine ⟨fun hp => ?push, fun hp w => ?jsr, fun hp => ?brk, fun hp => ?pull, fun hp => ?rts, fun hp => ?rti⟩
  case push =>
    constructor <;> exact hhead.outcome_bind fun _ _ hT => push_stops hT hb hstack hp no_push_left
  case jsr =>
    refine hfetch.outcome_bind fun _ u hT => ?_
    rw [stackRead, hT.sp]
    refine (cycleRead_spec hT fun _ => hread _).outcome_bind fun _ _ ⟨hT, _⟩ => ?_
    exact cyclePush_stops hT hb hstack hp fun hp _ _ hT =>
      cyclePush_stops hT hb hstack hp no_push_left
  case brk => exact hfetch.outcome_bind fun _ _ hT => takeException_stops .irq true hT hb hstack hp
  case pull =>
    have hp : 255 < s.sp.toNat + 1 := by omega
    constructor <;> exact hhead.outcome_bind fun _ _ hT => cyclePull_stops hT hb hstack hp no_pull_left
  case rts =>
    have hp : 255 < s.sp.toNat + 2 := by omega
    exact hhead.outcome_bind fun _ _ hT => cyclePull_stops hT hb hstack hp fun hp _ _ hT =>
      cyclePull_stops hT hb hstack hp no_pull_left
  case rti =>
    have hp : 255 < s.sp.toNat + 3 := by omega
    exact hhead.outcome_bind fun _ _ hT => returnFromException_stops hT hb hstack hp

end Sys2Proof.Machine
end

section
/-! Stores and read-modify-writes on memory: the byte they write last in numbers, the accesses they end with, and the
one byte they change (41_addressing_modes.md R184 to R189, 20_memory.md R76). -/

namespace Sys2Proof.Machine

variable {s t u : State} {i : Instr} {mn : Mnemonic} {r : StoreReg} {op : RmwOp} {ea b : Word}

/-! ### The byte written last -/

theorem aslByte_fst (v : Byte) : (aslByte v).1 = BitVec.ofNat 8 (2 * v.toNat) := by
  apply BitVec.eq_of_toNat_eq
  simp [aslByte, Nat.shiftLeft_eq, Nat.mul_comm]

theorem lsrByte_fst (v : Byte) : (lsrByte v).1 = BitVec.ofNat 8 (v.toNat / 2) := by
  apply BitVec.eq_of_toNat_eq
  simp [lsrByte, Nat.shiftRight_eq_div_pow]
  omega

/-- The carry comes into a bit the shift has cleared, so it is added. -/
theorem rolByte_fst (v : Byte) (c : Bool) : (rolByte v c).1 = BitVec.ofNat 8 (2 * v.toNat + c.toNat) := by
  have hfree : v <<< 1 &&& flagBit c 0 = 0#8 := by
    cases c
    · simp [flagBit]
    · ext k hk; simp [flagBit]; omega
  rw [rolByte, ← BitVec.add_eq_or_of_and_eq_zero _ _ hfree]
  apply BitVec.eq_of_toNat_eq
  cases c <;> simp [flagBit, Nat.shiftLeft_eq] <;> omega

/-- The carry comes into a bit the shift has cleared, so it is added. -/
theorem rorByte_fst (v : Byte) (c : Bool) : (rorByte v c).1 = BitVec.ofNat 8 (v.toNat / 2 + 128 * c.toNat) := by
  have hfree : v >>> 1 &&& flagBit c 7 = 0#8 := by
    cases c
    · simp [flagBit]
    · rw [show flagBit true 7 = BitVec.twoPow 8 7 from rfl]
      ext k hk
      simp only [BitVec.getElem_and, BitVec.getElem_ushiftRight, BitVec.getElem_twoPow]
      grind
  rw [rorByte, ← BitVec.add_eq_or_of_and_eq_zero _ _ hfree]
  apply BitVec.eq_of_toNat_eq
  cases c
  · simp [flagBit, Nat.shiftRight_eq_div_pow]; omega
  · simp [flagBit, Nat.shiftRight_eq_div_pow]

/-- `f(val)` in numbers (43_arithmetic_logic.md R272, R273, 44_shift_rotate.md R300). -/
theorem rmwResult_of_operation (hop : operationOf mn = .rmw op) (v : Byte) (p : Flags) :
    rmwResult mn v p.c = some (op.apply v p).1 := by
  cases mn <;> cases hop
  case inc => simp [rmwResult, RmwOp.apply, BitVec.ofNat_add]
  case dec => simp [rmwResult, RmwOp.apply, BitVec.ofNat_add, BitVec.sub_eq_add_neg]
  case asl => exact congrArg some (aslByte_fst v).symm
  case lsr => exact congrArg some (lsrByte_fst v).symm
  case rol => exact congrArg some (rolByte_fst v p.c).symm
  case ror => exact congrArg some (rorByte_fst v p.c).symm

/-! ### The two classes -/

/-- Class WRITE stores a register (42_load_store_transfer.md R233 to R235). -/
theorem operation_of_write (h : mn.instrClass = .write) (s : State) :
    ∃ r, operationOf mn = .write r ∧ s.storedByte mn = some (r.value s) := by
  cases mn <;> first | exact ⟨_, rfl, rfl⟩ | cases h

theorem operation_of_rmw (h : mn.instrClass = .readModifyWrite) : ∃ op, operationOf mn = .rmw op := by
  cases mn <;> first | exact ⟨_, rfl⟩ | cases h

/-- The operand's ticks change nothing but PC. -/
theorem storeEa_ticked {mode : Mode} {opnd : Word} (h : storeEa mode opnd s = some (.ok ea u)) :
    ∃ n pc, Ticked n { s with pc := pc } u :=
  ⟨_, _, ((storeEa_spec (g := False) h (fun f => f.elim) fun f => f.elim).1 ea u rfl).1⟩

/-! ### The accesses at the end -/

/-- `t` has the flags of `s`, and on its bus record the accesses `l`, newest first, besides. -/
def Accessed (l : List (Bool × Word × Byte)) (s t : State) : Prop :=
  t.p = s.p ∧ t.bus.map BusAccess.line = l ++ s.bus.map BusAccess.line

theorem Accessed.trans {l k : List (Bool × Word × Byte)} (h : Accessed l s t) (h' : Accessed k t u) :
    Accessed (k ++ l) s u := ⟨h'.1.trans h.1, by rw [h'.2, h.2, List.append_assoc]⟩

theorem busRead_accessed (a : Word) (s : State) :
    Res.Spec False (busRead a s) fun v t => Accessed [(false, a, v)] s t :=
  (busRead_spec fun f => f.elim).mono fun _ _ h => by
    obtain ⟨⟨access, hline, rfl⟩, -⟩ := h
    exact ⟨rfl, by simp [hline]⟩

theorem busWrite_accessed (a : Word) (v : Byte) (s : State) :
    Res.Spec False (busWrite a v s) fun _ t => Accessed [(true, a, v)] s t :=
  (busWrite_spec fun f => f.elim).mono fun _ t h => by
    obtain ⟨⟨access, hline, ht⟩, -⟩ := h
    rw [ht]
    exact ⟨rfl, by simp [hline]⟩

/-- The end of a tick makes no access. -/
theorem Res.Spec.cycle {α : Type} {x : Res α} {l : α → List (Bool × Word × Byte)}
    (h : Res.Spec False x fun v t => Accessed (l v) s t) :
    Res.Spec False (Machine.cycle x) fun v t => Accessed (l v) s t := cycle_spec h fun _ _ ht => ht

/-- A store ends with one write of its register. -/
theorem writeAt_accesses (r : StoreReg) (ea : Word) (s : State) :
    Res.Spec False (writeAt r ea s) fun _ t => Accessed [(true, ea, r.value s)] s t :=
  lastCycle_spec (busWrite_accessed ea (r.value s) s) fun _ _ h => h

theorem rmwWrite_accesses (op : RmwOp) (ea : Word) (v : Byte) (s : State) :
    Res.Spec False (rmwWrite op ea v s) fun _ t =>
      t.bus.map BusAccess.line = (true, ea, (op.apply v s.p).1) :: s.bus.map BusAccess.line :=
  (busWrite_accessed ea _ s).bind fun _ _ h => .ok h.2

/-- A read-modify-write ends with a read, a write of the byte read and a write of the result. -/
theorem rmwAt_accesses (op : RmwOp) (ea : Word) (s : State) :
    Res.Spec False (rmwAt op ea s) fun _ t => ∃ old, t.bus.map BusAccess.line =
      (true, ea, (op.apply old s.p).1) :: (true, ea, old) :: (false, ea, old) :: s.bus.map BusAccess.line := by
  refine (busRead_accessed ea s).cycle.bind fun old u hu => ?_
  refine (busWrite_accessed ea old u).cycle.bind fun _ v hv => ?_
  replace hv := hu.trans hv
  refine lastCycle_spec (rmwWrite_accesses op ea old v) fun _ w hw => ⟨old, ?_⟩
  exact hw.trans (by rw [hv.1, hv.2]; rfl)

/-! ### The instructions -/

/-- A read-modify-write leaves every other byte, in RAM or in a device window. -/
theorem rmwMem.byteAt_of_ne {v : Byte} {m : List Host.Cell} (h : rmwMem op ea v s m) (hb : b ≠ ea) :
    { s with mem := m }.byteAt b = s.byteAt b := by
  obtain ⟨hram, hram' | ⟨rfl, -⟩⟩ := h
  · rw [hram hram']
    exact (byteAt_write_of_ne (s := { s with mem := Memory.write s.mem ea.toNat v }) _ hb).trans
      (byteAt_write_of_ne v hb)
  · rfl

/-- What a store that answers leaves, and what it put on the bus after its operand's ticks. -/
theorem exec_write_accesses (hop : operationOf i.mnemonic = .write r) (h : exec i s = .next t) :
    ∃ ea u m, storeEa i.mode i.operand s = some (.ok ea u) ∧ Wrote s ea (r.value s) m ∧
      Ended { s.advanced i with mem := m } t ∧
      t.bus.map BusAccess.line = (true, ea, r.value s) :: u.bus.map BusAccess.line := by
  have hp := exec_post h
  simp only [ExecPost, hop] at hp
  obtain ⟨ea, m, ⟨_, u, he, rfl⟩, hmem, ht⟩ := hp
  obtain ⟨_, _, hu⟩ := storeEa_ticked he
  have hreg : r.value u = r.value s := by cases r <;> simp [StoreReg.value, hu.a, hu.x, hu.y]
  rw [exec_write hop, writeForm, he] at h
  exact ⟨ea, u, m, he, hmem, ht, hreg ▸ ((writeAt_accesses r ea u).outcome h).2⟩

/-- What a read-modify-write on memory that answers leaves, and what it put on the bus after its operand's ticks. -/
theorem exec_rmw_accesses (hop : operationOf i.mnemonic = .rmw op) (hm : i.mode ≠ .acc) (h : exec i s = .next t) :
    ∃ ea u v m, storeEa i.mode i.operand s = some (.ok ea u) ∧ rmwMem op ea v s m ∧
      Ended { s.advanced i with mem := m, p := (op.apply v s.p).2 } t ∧
      ∃ old, t.bus.map BusAccess.line =
        (true, ea, (op.apply old s.p).1) :: (true, ea, old) :: (false, ea, old) :: u.bus.map BusAccess.line := by
  have hp := exec_post h
  simp only [ExecPost, hop, if_neg hm] at hp
  obtain ⟨ea, v, m, ⟨_, u, he, rfl⟩, hmem, ht⟩ := hp
  obtain ⟨_, _, hu⟩ := storeEa_ticked he
  obtain ⟨-, -, hform⟩ := mode_of_rmw (s := s) hop hm
  rw [exec_rmw hop, hform, he] at h
  have hbus := (rmwAt_accesses op ea u).outcome h
  rw [hu.p] at hbus
  exact ⟨ea, u, v, m, he, hmem, ht, hbus⟩

/-- Settles O30: both classes write at the address of their operand form alone, and the ticks around it change neither
storage nor registers. -/
theorem storesChangeOneByte : Obligations.StoresChangeOneByte := by
  unfold Obligations.StoresChangeOneByte
  rintro i s t h (hclass | ⟨hclass, hm⟩)
  · obtain ⟨r, hop, hreg⟩ := operation_of_write hclass s
    obtain ⟨ea, u, m, he, hmem, ht, hbus⟩ := exec_write_accesses hop h
    have hother : i.mnemonic.instrClass ≠ .readModifyWrite := fun hc => by cases hclass.symm.trans hc
    exact ⟨⟨ea, u, he, fun a ha => (ht.byteAt a).trans (hmem.byteAt_of_ne ha), fun _ => ⟨_, hreg, hbus⟩,
      fun hc => absurd hc hother⟩,
      ht.a, ht.x, ht.y, ht.sp, ht.inISR, ht.pc, fun _ => ht.p⟩
  · obtain ⟨op, hop⟩ := operation_of_rmw hclass
    obtain ⟨ea, u, v, m, he, hmem, ht, old, hbus⟩ := exec_rmw_accesses hop hm h
    have hother : i.mnemonic.instrClass ≠ .write := fun hc => by cases hclass.symm.trans hc
    exact ⟨⟨ea, u, he, fun a ha => (ht.byteAt a).trans (hmem.byteAt_of_ne ha), fun hc => absurd hc hother,
      fun _ => ⟨old, _, rmwResult_of_operation hop old s.p, hbus⟩⟩,
      ht.a, ht.x, ht.y, ht.sp, ht.inISR, ht.pc, fun hc => absurd hc hother⟩

end Sys2Proof.Machine
end

section
/-! The loads, stores and register transfers (42_load_store_transfer.md), and a store or read-modify-write that meets
read-only memory (70_reset_and_hazards.md R456, R458). -/

namespace Sys2Proof.Machine

variable {s t : State} {i : Instr} {ea : Word} {n : Nat} {rows : List OpcodeRow}

/-- N and Z in the spec's terms: bit 7, and whether the byte is zero (42_load_store_transfer.md R230). -/
theorem setNZ_eq (v : Byte) (p : Flags) : setNZ v p = { p with n := v.getLsbD 7, z := decide (v = 0) } := by
  rw [setNZ, BitVec.msb_eq_getLsbD_last]
  rfl

/-! ### Loads and stores that complete -/

/-- Settles O33: a load is the READ operation that puts its byte into one register and into N and Z. -/
theorem loadsComplete : Obligations.LoadsComplete := by
  unfold Obligations.LoadsComplete
  intro i s hs v p
  have hp : p = setNZ v s.p := (setNZ_eq v s.p).symm
  rw [hp]
  refine ⟨fun hmn => ?lda, fun hmn => ?ldx, fun hmn => ?ldy⟩
  case lda => exact complete_read (op := .lda) (congrArg operationOf hmn) hs rfl ⟨rfl, rfl, rfl⟩
  case ldx => exact complete_read (op := .ldx) (congrArg operationOf hmn) hs rfl ⟨rfl, rfl, rfl⟩
  case ldy => exact complete_read (op := .ldy) (congrArg operationOf hmn) hs rfl ⟨rfl, rfl, rfl⟩

/-- Settles O42: a store is the WRITE operation of its register. -/
theorem storesComplete : Obligations.StoresComplete := by
  unfold Obligations.StoresComplete
  intro i s ea hs hea hram
  refine ⟨fun hmn => ?sta, fun hmn => ?stx, fun hmn => ?sty⟩
  case sta => exact complete_write (sr := .a) (congrArg operationOf hmn) hs hea hram
  case stx => exact complete_write (sr := .x) (congrArg operationOf hmn) hs hea hram
  case sty => exact complete_write (sr := .y) (congrArg operationOf hmn) hs hea hram

/-! ### Stores that meet read-only memory -/

theorem Ticked.readOnly (hT : Ticked n s t) (h : s.ReadOnly ea) : t.ReadOnly ea := by
  rwa [State.ReadOnly, hT.kindAt]

theorem storeEa_isSome {mode : Mode} {opnd : Word} (hea : s.effectiveAddress mode opnd = some ea) :
    (storeEa mode opnd s).isSome := by
  cases mode with
  | zp | zpx | zpy | abs | abx | aby | izx | izy => rfl
  | imp | acc | imm | rel | ind => cases hea

/-- The accumulator has no address. -/
theorem mode_ne_acc (hea : s.effectiveAddress i.mode i.operand = some ea) : i.mode ≠ .acc := fun h => by
  rw [h] at hea
  cases hea

/-- With an effective address, these classes touch the instruction's bytes and the addresses of its data. -/
theorem touched_of_stores (hclass : i.mnemonic.instrClass = .write ∨ i.mnemonic.instrClass = .readModifyWrite)
    (hea : s.effectiveAddress i.mode i.operand = some ea) :
    s.touched i = s.fetchAddresses (instrSize i) ++ s.dataAddresses i.mode i.operand := by
  rcases hclass with h | h <;> simp [State.touched, h, mode_ne_acc hea]

/-- Over stored memory the operand's ticks answer the effective address, and change nothing but PC. -/
theorem storeEa_stored (hclass : i.mnemonic.instrClass = .write ∨ i.mnemonic.instrClass = .readModifyWrite)
    (hs : s.TouchesStored i) (hea : s.effectiveAddress i.mode i.operand = some ea) :
    ∃ n u, storeEa i.mode i.operand s = some (.ok ea u) ∧ Ticked n (s.advanced i) u := by
  have htouched := touched_of_stores hclass hea
  have hfetch : s.CanFetch (1 + i.mode.operandBytes) :=
    canFetch_of_mem (l := s.dataAddresses i.mode i.operand) fun a ha => .inl (hs a (htouched ▸ ha))
  have hdata : ∀ a ∈ s.dataAddresses i.mode i.operand, s.Stored a := fun a ha =>
    hs a (htouched ▸ List.mem_append_right _ ha)
  obtain ⟨e, he⟩ := Option.isSome_iff_exists.mp (storeEa_isSome hea)
  have hspec := storeEa_spec (g := True) he (fun _ => hfetch) fun _ => .inr hdata
  obtain ⟨ea', u, rfl⟩ := hspec.2 trivial
  obtain ⟨hT, haddr⟩ := hspec.1 ea' u rfl
  obtain rfl : ea' = ea := Option.some.inj ((haddr hdata).symm.trans hea)
  exact ⟨_, u, he, hT⟩

/-- A store to read-only memory stops with the register it stores (70_reset_and_hazards.md R456). -/
theorem exec_write_readOnly {r : StoreReg} (hop : operationOf i.mnemonic = .write r) (hs : s.TouchesStored i)
    (hea : s.effectiveAddress i.mode i.operand = some ea) (hro : s.ReadOnly ea) :
    exec i s = .fault (.readOnlyWrite ea (r.value s)) := by
  obtain ⟨n, u, he, hT⟩ := storeEa_stored (.inl (instrClass_of_write hop)) hs hea
  have hreg : r.value u = r.value s := by cases r <;> simp [StoreReg.value, hT.a, hT.x, hT.y, State.advanced]
  have hwrite : writeAt r ea u = .fault (.readOnlyWrite ea (r.value s)) u := by
    rw [writeAt, hreg, busWrite_readOnly _ (hT.readOnly hro)]
    rfl
  rw [exec_write hop, writeForm, he]
  exact congrArg Res.outcome hwrite

/-- A read-modify-write on ROM stops at its first write, with the byte it has read (70_reset_and_hazards.md R456). -/
theorem exec_rmw_rom {op : RmwOp} (hop : operationOf i.mnemonic = .rmw op) (hs : s.TouchesStored i)
    (hea : s.effectiveAddress i.mode i.operand = some ea) (hrom : s.kindAt ea = some .rom) :
    exec i s = .fault (.readOnlyWrite ea (s.byteAt ea)) := by
  obtain ⟨n, u, he, hT⟩ := storeEa_stored (.inr (instrClass_of_rmw hop)) hs hea
  obtain ⟨-, -, hform⟩ := mode_of_rmw (s := s) hop (mode_ne_acc hea)
  rw [exec_rmw hop, hform, he]
  refine (cycleRead_spec hT fun _ => .inl (.inr hrom)).outcome_bind fun v w ⟨hTw, hv⟩ => ?_
  obtain rfl : v = s.byteAt ea := hv (.inr hrom)
  rw [busWrite_readOnly _ (hTw.readOnly (.inl hrom))]
  rfl

/-- Settles O43: the operand's ticks complete, and the first write at the effective address stops. -/
theorem storesToRomStop : Obligations.StoresToRomStop := by
  unfold Obligations.StoresToRomStop
  intro i s ea hs hea hrom
  refine ⟨fun hmn => ?sta, fun hmn => ?stx, fun hmn => ?sty, fun hclass => ?rmw⟩
  case sta => exact exec_write_readOnly (r := .a) (congrArg operationOf hmn) hs hea (.inl hrom)
  case stx => exact exec_write_readOnly (r := .x) (congrArg operationOf hmn) hs hea (.inl hrom)
  case sty => exact exec_write_readOnly (r := .y) (congrArg operationOf hmn) hs hea (.inl hrom)
  case rmw =>
    obtain ⟨op, hop⟩ := operation_of_rmw hclass
    exact exec_rmw_rom hop hs hea hrom

/-! ### Transfers -/

/-- The rows of the opcode map decode to their pairs. -/
theorem opcodesAre_of_subset (h : rows ⊆ opcodeMap) : OpcodesAre rows :=
  fun _ _ _ hr => decodeOpcode_of_mem (h hr)

/-- Settles O47: a transfer is the IMPLIED operation that moves its byte, and each but TXS sets N and Z from it. -/
theorem transfersComplete : Obligations.TransfersComplete := by
  unfold Obligations.TransfersComplete
  refine ⟨opcodesAre_of_subset (by decide), ?_⟩
  intro s nz next
  refine ⟨?ticks, fun h0 h1 => ?complete⟩
  case ticks => rintro i (rfl | rfl | rfl | rfl | rfl | rfl) <;> rfl
  case complete =>
    have hnz : nz = fun v => setNZ v s.p := funext fun v => (setNZ_eq v s.p).symm
    rw [hnz]
    exact ⟨complete_implied (op := .tax) rfl h0 h1, complete_implied (op := .tay) rfl h0 h1,
      complete_implied (op := .txa) rfl h0 h1, complete_implied (op := .tya) rfl h0 h1,
      complete_implied (op := .tsx) rfl h0 h1, complete_implied (op := .txs) rfl h0 h1⟩

end Sys2Proof.Machine
end

section
/-! Binary and decimal addition and subtraction and compares in the terms of the spec: signed ranges, and the
decimal functions digit by digit (43_arithmetic_logic.md R260 to R263, R267). -/

namespace Sys2Proof.Machine

/-! ### Binary arithmetic -/

/-- A and flags after a binary addition; the sum overflows when both operands have the sign it has not. -/
theorem adcBinaryFlags_eq (a b : Byte) (p : Flags) :
    let sum := a.toNat + b.toNat + p.c.toNat
    let r := BitVec.ofNat 8 sum
    adcBinaryFlags a b p = (r, { p with
      c := decide (255 < sum)
      v := decide (a.getLsbD 7 = b.getLsbD 7 ∧ r.getLsbD 7 ≠ a.getLsbD 7)
      n := r.getLsbD 7
      z := decide (r = 0) }) := by
  intro sum r
  have hv : (adcBinary a b p.c).2.2 = decide (a.getLsbD 7 = b.getLsbD 7 ∧ r.getLsbD 7 ≠ a.getLsbD 7) := by
    rw [Bool.eq_iff_iff]
    simp [adcBinary, BitVec.msb_eq_getLsbD_last, sum, r]
  rw [adcBinaryFlags, setNZ_eq, hv]
  rfl

/-- The overflow of a sum is that of the signed numbers (43_arithmetic_logic.md R260). -/
theorem adcBinary_overflow (a b : Byte) (c : Bool) :
    (adcBinary a b c).2.2 = decide (a.toInt + b.toInt + c.toNat < -128 ∨ 127 < a.toInt + b.toInt + c.toNat) := by
  have ha := a.isLt
  have hb := b.isLt
  have hc : c.toNat ≤ 1 := c.toNat_le
  rw [Bool.eq_iff_iff]
  simp only [adcBinary, BitVec.msb_eq_decide, BitVec.toInt_eq_toNat_cond, BitVec.toNat_ofNat, Bool.and_eq_true,
    beq_iff_eq, bne_iff_ne, ne_eq, decide_eq_decide, decide_eq_true_eq]
  by_cases hna : 128 ≤ a.toNat <;> by_cases hnb : 128 ≤ b.toNat <;> omega

/-- The binary difference is the sum with the complement (43_arithmetic_logic.md R263). -/
theorem complement_sum (a b : Byte) (c : Bool) :
    BitVec.ofNat 8 (a.toNat + (~~~b).toNat + c.toNat) = a - b - BitVec.ofNat 8 (1 - c.toNat) := by
  have hb := b.isLt
  apply BitVec.eq_of_toNat_eq
  cases c <;> simp [BitVec.toNat_sub, BitVec.toNat_not] <;> omega

/-- The sum with the complement carries when no borrow occurs. -/
theorem complement_carry (a b : Byte) (c : Bool) :
    255 < a.toNat + (~~~b).toNat + c.toNat ↔ b.toNat + (1 - c.toNat) ≤ a.toNat := by
  have hb := b.isLt
  have hc : c.toNat ≤ 1 := c.toNat_le
  rw [BitVec.toNat_not]
  omega

theorem toInt_complement (b : Byte) : (~~~b).toInt = -b.toInt - 1 := by
  have hb := b.isLt
  simp only [BitVec.toInt_eq_toNat_cond, BitVec.toNat_not]
  omega

theorem complement_overflow (a b : Byte) (c : Bool) :
    (adcBinary a (~~~b) c).2.2 = decide (a.toInt - b.toInt - ((1 - c.toNat : Nat) : Int) < -128 ∨
      127 < a.toInt - b.toInt - ((1 - c.toNat : Nat) : Int)) := by
  have hc : c.toNat ≤ 1 := c.toNat_le
  have hsum : a.toInt + (~~~b).toInt + c.toNat = a.toInt - b.toInt - ((1 - c.toNat : Nat) : Int) := by
    rw [toInt_complement]
    omega
  rw [adcBinary_overflow, hsum]

/-- A and flags after a binary subtraction. -/
theorem sbcBinaryFlags_eq (a b : Byte) (p : Flags) :
    let borrow := 1 - p.c.toNat
    let r := a - b - BitVec.ofNat 8 borrow
    sbcBinaryFlags a b p = (r, { p with
      c := decide (b.toNat + borrow ≤ a.toNat)
      v := decide (a.toInt - b.toInt - borrow < -128 ∨ 127 < a.toInt - b.toInt - borrow)
      n := r.getLsbD 7
      z := decide (r = 0) }) := by
  intro borrow r
  have hr : (adcBinary a (~~~b) p.c).1 = r := complement_sum a b p.c
  have hc : (adcBinary a (~~~b) p.c).2.1 = decide (b.toNat + borrow ≤ a.toNat) :=
    decide_eq_decide.mpr (complement_carry a b p.c)
  rw [sbcBinaryFlags, adcBinaryFlags, setNZ_eq, complement_overflow, hr, hc]

/-! ### Compares -/

theorem compareFlags_eq (r m : Byte) (p : Flags) :
    compareFlags r m p = { p with c := decide (m.toNat ≤ r.toNat), z := decide (r = m), n := (r - m).getLsbD 7 } := by
  rw [compareFlags, BitVec.msb_eq_getLsbD_last]
  rfl

/-! ### Decimal digits -/

/-- A digit of a sum, adjusted (43_arithmetic_logic.md R261). -/
def adjustUp (d : Nat) : Nat := (if 10 ≤ d then d + 6 else d) % 16

/-- A digit of a difference, adjusted. -/
def adjustDown (d : Int) : Int := (if d < 0 then d - 6 else d) % 16

/-- A digit as a signed number. -/
def signedDigit (d : Nat) : Int := if d < 8 then d else (d : Int) - 16

/-- The sum of the low digits. -/
def lowSum (a b : Byte) (c : Bool) : Nat := a.toNat % 16 + b.toNat % 16 + c.toNat

/-- The carry out of the low digits. -/
def lowCarry (a b : Byte) (c : Bool) : Nat := (decide (10 ≤ lowSum a b c)).toNat

/-- The sum of the high digits. -/
def highSum (a b : Byte) (c : Bool) : Nat := a.toNat / 16 + b.toNat / 16 + lowCarry a b c

/-- The sum of the high digits as signed numbers. -/
def signedHighSum (a b : Byte) (c : Bool) : Int :=
  signedDigit (a.toNat / 16) + signedDigit (b.toNat / 16) + lowCarry a b c

/-- The difference of the low digits. -/
def lowDiff (a b : Byte) (c : Bool) : Int := (a.toNat % 16 : Nat) - (b.toNat % 16 : Nat) - ((1 - c.toNat : Nat) : Int)

/-- The borrow out of the low digits. -/
def lowBorrow (a b : Byte) (c : Bool) : Int := ((decide (lowDiff a b c < 0)).toNat : Int)

/-- The difference of the high digits. -/
def highDiff (a b : Byte) (c : Bool) : Int := (a.toNat / 16 : Nat) - (b.toNat / 16 : Nat) - lowBorrow a b c

theorem adjustUp_lt (d : Nat) : adjustUp d < 16 := Nat.mod_lt _ (by decide)

theorem adjustDown_range (d : Int) : 0 ≤ adjustDown d ∧ adjustDown d < 16 :=
  ⟨Int.emod_nonneg _ (by decide), Int.emod_lt_of_pos _ (by decide)⟩

theorem lowSum_le (a b : Byte) (c : Bool) : lowSum a b c ≤ 31 := by
  have hc : c.toNat ≤ 1 := c.toNat_le
  rw [lowSum]
  omega

theorem highSum_le (a b : Byte) (c : Bool) : highSum a b c ≤ 31 := by
  have ha := a.isLt
  have hb := b.isLt
  have hcarry : lowCarry a b c ≤ 1 := Bool.toNat_le _
  rw [highSum]
  omega

theorem highNibble_toNat (a : Byte) : (a &&& 0xF0#8).toNat = 16 * (a.toNat / 16) := by
  have h : a >>> 4 <<< 4 = a &&& 0xF0#8 := BitVec.shiftLeft_ushiftRight (n := 4)
  have ha := a.isLt
  rw [← h, BitVec.toNat_shiftLeft, BitVec.toNat_ushiftRight, Nat.shiftRight_eq_div_pow, Nat.shiftLeft_eq]
  omega

theorem sext8_highNibble (a : Byte) : sext8 (a &&& 0xF0#8) = 16 * signedDigit (a.toNat / 16) := by
  rw [sext8, signedDigit, highNibble_toNat]
  split <;> split <;> omega

/-- The low digits of a sum, the carry standing above the adjusted digit. -/
theorem lowSum_adjusted (a b : Byte) (c : Bool) :
    (if lowSum a b c ≥ 10 then (lowSum a b c + 6) % 16 + 16 else lowSum a b c) =
      16 * lowCarry a b c + adjustUp (lowSum a b c) := by
  have h := lowSum_le a b c
  rw [lowCarry, adjustUp]
  by_cases h10 : 10 ≤ lowSum a b c
  · simp [h10]; omega
  · simp [h10]; omega

/-- The low digits of a difference, the borrow standing above the adjusted digit. -/
theorem lowDiff_adjusted (a b : Byte) (c : Bool) :
    (if lowDiff a b c < 0 then (lowDiff a b c - 6) % 16 - 16 else lowDiff a b c) =
      adjustDown (lowDiff a b c) - 16 * lowBorrow a b c := by
  have h : lowDiff a b c < 16 := by rw [lowDiff]; omega
  rw [lowBorrow, adjustDown]
  by_cases h0 : lowDiff a b c < 0
  · simp [h0]
  · simp [h0]; omega

/-! ### The high digits -/

section HighDigit

variable {h l : Nat}

theorem ofNat_adjusted (hh : h ≤ 31) (hl : l < 16) :
    BitVec.ofNat 8 (if 16 * h + l ≥ 0xA0 then 16 * h + l + 0x60 else 16 * h + l) =
      BitVec.ofNat 8 (16 * adjustUp h + l) := by
  apply BitVec.eq_of_toNat_eq
  rw [BitVec.toNat_ofNat, BitVec.toNat_ofNat, adjustUp]
  split <;> split <;> omega

theorem carry_adjusted (hl : l < 16) :
    (if 16 * h + l ≥ 0xA0 then 16 * h + l + 0x60 else 16 * h + l) ≥ 0x100 ↔ 10 ≤ h := by
  split <;> omega

theorem msb_ofNat_digits (hl : l < 16) : (BitVec.ofNat 8 (16 * h + l)).msb = decide (8 ≤ h % 16) := by
  rw [BitVec.msb_eq_decide, BitVec.toNat_ofNat, decide_eq_decide]
  omega

end HighDigit

theorem ofInt_adjusted {h l : Int} (hl : 0 ≤ l ∧ l < 16) :
    BitVec.ofInt 8 (if 16 * h + l < 0 then 16 * h + l - 0x60 else 16 * h + l) =
      BitVec.ofInt 8 (16 * adjustDown h + l) := by
  apply BitVec.eq_of_toNat_eq
  rw [BitVec.toNat_ofInt, BitVec.toNat_ofInt, adjustDown]
  split <;> split <;> omega

/-! ### The decimal functions -/

section Decimal

variable {a b : Byte} {p : Flags}

/-- Decimal addition by its two sums, before the high digit is adjusted: of numbers and of signed numbers. -/
theorem adcDecimalFlags_of_sums {al s : Nat} {ss : Int}
    (hal : (if lowSum a b p.c ≥ 10 then (lowSum a b p.c + 6) % 16 + 16 else lowSum a b p.c) = al)
    (hs : (a &&& 0xF0#8).toNat + (b &&& 0xF0#8).toNat + al = s)
    (hss : sext8 (a &&& 0xF0#8) + sext8 (b &&& 0xF0#8) + (al : Int) = ss) :
    adcDecimalFlags a b p = (BitVec.ofNat 8 (if s ≥ 0xA0 then s + 0x60 else s),
      { p with
        c := decide ((if s ≥ 0xA0 then s + 0x60 else s) ≥ 0x100)
        z := decide ((a.toNat + b.toNat + p.c.toNat) % 256 = 0)
        n := (BitVec.ofNat 8 s).msb
        v := decide (ss < -128 ∨ ss > 127) }) := by
  subst hal hs hss
  rfl

/-- Decimal subtraction by its difference, before the high digit is adjusted. -/
theorem sbcDecimalFlags_of_diff {d s : Int}
    (hd : ((a.toNat % 16 : Nat) : Int) - (b.toNat % 16 : Nat) + (p.c.toNat : Int) - 1 = d)
    (hs : ((a &&& 0xF0#8).toNat : Int) - ((b &&& 0xF0#8).toNat : Int) +
      (if d < 0 then (d - 6) % 16 - 16 else d) = s) :
    sbcDecimalFlags a b p = (BitVec.ofInt 8 (if s < 0 then s - 0x60 else s), (sbcBinaryFlags a b p).2) := by
  subst hd hs
  rfl

end Decimal

/-- Decimal addition digit by digit (43_arithmetic_logic.md R261). -/
theorem adcDecimalFlags_eq (a b : Byte) (p : Flags) :
    adcDecimalFlags a b p = (BitVec.ofNat 8 (16 * adjustUp (highSum a b p.c) + adjustUp (lowSum a b p.c)),
      { p with
        c := decide (10 ≤ highSum a b p.c)
        z := decide ((a.toNat + b.toNat + p.c.toNat) % 256 = 0)
        n := decide (8 ≤ highSum a b p.c % 16)
        v := decide (signedHighSum a b p.c < -8 ∨ 7 < signedHighSum a b p.c) }) := by
  have hlow := adjustUp_lt (lowSum a b p.c)
  have hhigh := highSum_le a b p.c
  have hs : (a &&& 0xF0#8).toNat + (b &&& 0xF0#8).toNat + (16 * lowCarry a b p.c + adjustUp (lowSum a b p.c)) =
      16 * highSum a b p.c + adjustUp (lowSum a b p.c) := by
    rw [highNibble_toNat, highNibble_toNat, highSum]
    omega
  have hss : sext8 (a &&& 0xF0#8) + sext8 (b &&& 0xF0#8) +
      ((16 * lowCarry a b p.c + adjustUp (lowSum a b p.c) : Nat) : Int) =
        16 * signedHighSum a b p.c + adjustUp (lowSum a b p.c) := by
    rw [sext8_highNibble, sext8_highNibble, signedHighSum]
    omega
  have hv : 16 * signedHighSum a b p.c + adjustUp (lowSum a b p.c) < -128 ∨
      16 * signedHighSum a b p.c + adjustUp (lowSum a b p.c) > 127 ↔
        signedHighSum a b p.c < -8 ∨ 7 < signedHighSum a b p.c := by omega
  rw [adcDecimalFlags_of_sums (lowSum_adjusted a b p.c) hs hss, ofNat_adjusted hhigh hlow,
    decide_eq_decide.mpr (carry_adjusted hlow), msb_ofNat_digits hlow, decide_eq_decide.mpr hv]

/-- Decimal subtraction digit by digit, its flags those of the binary difference (43_arithmetic_logic.md R261). -/
theorem sbcDecimalFlags_eq (a b : Byte) (p : Flags) :
    sbcDecimalFlags a b p =
      (BitVec.ofInt 8 (16 * adjustDown (highDiff a b p.c) + adjustDown (lowDiff a b p.c)),
        (sbcBinaryFlags a b p).2) := by
  have hd : ((a.toNat % 16 : Nat) : Int) - (b.toNat % 16 : Nat) + (p.c.toNat : Int) - 1 = lowDiff a b p.c := by
    have hc : p.c.toNat ≤ 1 := p.c.toNat_le
    rw [lowDiff]
    omega
  have hs : ((a &&& 0xF0#8).toNat : Int) - ((b &&& 0xF0#8).toNat : Int) +
      (if lowDiff a b p.c < 0 then (lowDiff a b p.c - 6) % 16 - 16 else lowDiff a b p.c) =
        16 * highDiff a b p.c + adjustDown (lowDiff a b p.c) := by
    rw [lowDiff_adjusted, highNibble_toNat, highNibble_toNat, highDiff]
    omega
  rw [sbcDecimalFlags_of_diff hd hs, ofInt_adjusted (adjustDown_range _)]

/-! ### Decimal numbers -/

/-- A byte by its digits. -/
theorem bcd_of_digits {v : Byte} {h l : Nat} (hv : v.toNat = 16 * h + l) (hh : h ≤ 9) (hl : l ≤ 9) :
    bcdValid v ∧ bcdValue v = 10 * h + l := by
  rw [bcdValid, bcdValue, hv]
  omega

/-- A digit of a decimal sum, adjusted: the carry is its ten. -/
theorem adjustUp_decimal {d : Nat} (h : d ≤ 19) : adjustUp d ≤ 9 ∧ d = 10 * (decide (10 ≤ d)).toNat + adjustUp d := by
  rw [adjustUp]
  by_cases h10 : 10 ≤ d <;> simp [h10] <;> omega

/-- A digit of a decimal difference, adjusted: the borrow is its ten. -/
theorem adjustDown_decimal {d : Int} (h : -10 ≤ d ∧ d ≤ 9) :
    0 ≤ adjustDown d ∧ adjustDown d ≤ 9 ∧ d = adjustDown d - 10 * ((decide (d < 0)).toNat : Int) := by
  rw [adjustDown]
  by_cases h0 : d < 0 <;> simp [h0] <;> omega

/-- The low digits of decimal numbers: the carry is worth ten. -/
theorem lowSum_decimal {a b : Byte} (c : Bool) (ha : bcdValid a) (hb : bcdValid b) :
    adjustUp (lowSum a b c) ≤ 9 ∧ lowSum a b c = 10 * lowCarry a b c + adjustUp (lowSum a b c) := by
  have hc : c.toNat ≤ 1 := c.toNat_le
  obtain ⟨-, ha⟩ := ha
  obtain ⟨-, hb⟩ := hb
  exact adjustUp_decimal (by rw [lowSum]; omega)

theorem highSum_decimal {a b : Byte} (c : Bool) (ha : bcdValid a) (hb : bcdValid b) :
    adjustUp (highSum a b c) ≤ 9 ∧
      highSum a b c = 10 * (decide (10 ≤ highSum a b c)).toNat + adjustUp (highSum a b c) := by
  have hcarry : lowCarry a b c ≤ 1 := Bool.toNat_le _
  obtain ⟨ha, -⟩ := ha
  obtain ⟨hb, -⟩ := hb
  exact adjustUp_decimal (by rw [highSum]; omega)

/-- On decimal digits ADC adds decimal numbers, C being the hundred (43_arithmetic_logic.md R261). -/
theorem adcDecimalFlags_decimal {a b : Byte} (p : Flags) (ha : bcdValid a) (hb : bcdValid b) :
    bcdValid (adcDecimalFlags a b p).1 ∧
      bcdValue (adcDecimalFlags a b p).1 = (bcdValue a + bcdValue b + p.c.toNat) % 100 ∧
      (adcDecimalFlags a b p).2.c = decide (100 ≤ bcdValue a + bcdValue b + p.c.toNat) := by
  obtain ⟨hl9, hl⟩ := lowSum_decimal p.c ha hb
  obtain ⟨hh9, hh⟩ := highSum_decimal p.c ha hb
  have hsum : bcdValue a + bcdValue b + p.c.toNat = 10 * highSum a b p.c + adjustUp (lowSum a b p.c) := by
    have hlow : lowSum a b p.c = a.toNat % 16 + b.toNat % 16 + p.c.toNat := rfl
    rw [bcdValue, bcdValue, highSum]
    omega
  have hcarry : 100 ≤ bcdValue a + bcdValue b + p.c.toNat ↔ 10 ≤ highSum a b p.c := by omega
  rw [adcDecimalFlags_eq]
  obtain ⟨hvalid, hvalue⟩ := bcd_of_digits (v := BitVec.ofNat 8 (16 * adjustUp (highSum a b p.c) +
    adjustUp (lowSum a b p.c))) (by rw [BitVec.toNat_ofNat]; omega) hh9 hl9
  exact ⟨hvalid, by rw [hvalue, hsum]; omega, (decide_eq_decide.mpr hcarry).symm⟩

theorem lowDiff_decimal {a b : Byte} (c : Bool) (ha : bcdValid a) (hb : bcdValid b) :
    0 ≤ adjustDown (lowDiff a b c) ∧ adjustDown (lowDiff a b c) ≤ 9 ∧
      lowDiff a b c = adjustDown (lowDiff a b c) - 10 * lowBorrow a b c := by
  obtain ⟨-, ha⟩ := ha
  obtain ⟨-, hb⟩ := hb
  exact adjustDown_decimal (by rw [lowDiff]; omega)

theorem highDiff_decimal {a b : Byte} (c : Bool) (ha : bcdValid a) (hb : bcdValid b) :
    0 ≤ adjustDown (highDiff a b c) ∧ adjustDown (highDiff a b c) ≤ 9 ∧
      highDiff a b c = adjustDown (highDiff a b c) - 10 * ((decide (highDiff a b c < 0)).toNat : Int) := by
  have hborrow : (decide (lowDiff a b c < 0)).toNat ≤ 1 := Bool.toNat_le _
  obtain ⟨ha, -⟩ := ha
  obtain ⟨hb, -⟩ := hb
  exact adjustDown_decimal (by rw [highDiff, lowBorrow]; omega)

/-- On decimal digits SBC subtracts decimal numbers, C saying that no borrow occurred (43_arithmetic_logic.md R261). -/
theorem sbcDecimalFlags_decimal {a b : Byte} (p : Flags) (ha : bcdValid a) (hb : bcdValid b) :
    bcdValid (sbcDecimalFlags a b p).1 ∧
      bcdValue (sbcDecimalFlags a b p).1 = (bcdValue a + 100 - bcdValue b - (1 - p.c.toNat)) % 100 ∧
      (sbcDecimalFlags a b p).2.c = decide (bcdValue b + (1 - p.c.toNat) ≤ bcdValue a) := by
  obtain ⟨hl0, hl9, hl⟩ := lowDiff_decimal p.c ha hb
  obtain ⟨hh0, hh9, hh⟩ := highDiff_decimal p.c ha hb
  have hdiff : (bcdValue a : Int) - bcdValue b - ((1 - p.c.toNat : Nat) : Int) =
      10 * highDiff a b p.c + adjustDown (lowDiff a b p.c) := by
    have hlow : lowDiff a b p.c = (a.toNat % 16 : Nat) - (b.toNat % 16 : Nat) - ((1 - p.c.toNat : Nat) : Int) := rfl
    rw [bcdValue, bcdValue, highDiff]
    omega
  have hborrow : b.toNat + (1 - p.c.toNat) ≤ a.toNat ↔ bcdValue b + (1 - p.c.toNat) ≤ bcdValue a := by
    obtain ⟨-, ha⟩ := ha
    obtain ⟨-, hb⟩ := hb
    rw [bcdValue, bcdValue]
    omega
  have hten : (decide (highDiff a b p.c < 0)).toNat ≤ 1 := Bool.toNat_le _
  rw [sbcDecimalFlags_eq, sbcBinaryFlags_eq]
  generalize adjustDown (highDiff a b p.c) = h at *
  generalize adjustDown (lowDiff a b p.c) = l at *
  obtain ⟨hvalid, hvalue⟩ := bcd_of_digits (v := BitVec.ofInt 8 (16 * h + l)) (h := h.toNat) (l := l.toNat)
    (by rw [BitVec.toNat_ofInt]; omega) (by omega) (by omega)
  exact ⟨hvalid, by rw [hvalue]; omega, decide_eq_decide.mpr hborrow⟩

/-- Settles O39: each digit of the two functions, and on decimal digits their carries and borrows as tens. -/
theorem decimalDigits : Obligations.DecimalDigits := by
  unfold Obligations.DecimalDigits
  intro a b p lo carry hi adjust signed top
  refine ⟨adcDecimalFlags_eq a b p, ?_, fun ha hb => ⟨adcDecimalFlags_decimal p ha hb, sbcDecimalFlags_decimal p ha hb⟩⟩
  rw [sbcDecimalFlags_eq, sbcBinaryFlags_eq]
  rfl

end Sys2Proof.Machine
end

section
/-! The instructions of 43_arithmetic_logic.md: arithmetic, logic, compares, the bit test, and the increments and
decrements of memory and of the index registers (R262 to R277). -/

namespace Sys2Proof.Machine

variable {s : State} {i : Instr} {op : ReadOp} {v : Byte} {binary decimal : Byte → Byte → Flags → Byte × Flags}

/-! ### Which function ADC and SBC use -/

theorem arithmetic_binary (h : s.p.d = false ∨ s.params.decimalMode = .binary) :
    arithmetic binary decimal v s = .ok () (s.setAFlags (binary s.a v s.p)) := by
  unfold arithmetic
  cases hd : s.p.d with
  | false => rfl
  | true => rw [h.resolve_left (by simp [hd])]; rfl

theorem arithmetic_nmosBcd (hd : s.p.d = true) (hm : s.params.decimalMode = .nmosBcd) :
    arithmetic binary decimal v s = .ok () (s.setAFlags (decimal s.a v s.p)) := by
  rw [arithmetic, hd, hm]
  rfl

theorem arithmetic_refuse (hd : s.p.d = true) (hm : s.params.decimalMode = .refuse) :
    arithmetic binary decimal v s = .refuse .decimalMode s := by
  rw [arithmetic, hd, hm]
  rfl

/-- A class READ instruction over stored memory is refused when its operation is, whatever the ticks before it. -/
theorem exec_read_refused {e : Refusal} (hop : operationOf i.mnemonic = .read op) (hs : s.TouchesStored i)
    (h : ∀ v t, t.p = s.p → t.params = s.params → op.apply v t = .refuse e t) : exec i s = .refused e := by
  rw [exec_read hop, readForm_eq]
  refine (readVal_spec hop fun _ => .inr hs).outcome_bind fun v t ⟨k, hT, _⟩ => ?_
  rw [h v t hT.p hT.params]
  rfl

/-! ### The instructions -/

/-- Settles O37: the operation comes after the operand's reads, which change neither D nor DECIMAL_MODE. -/
theorem decimalRefused : Obligations.DecimalRefused := by
  unfold Obligations.DecimalRefused
  intro i s hmn hs hd hm
  have hrefuse : ∀ binary decimal v (t : State), t.p = s.p → t.params = s.params →
      arithmetic binary decimal v t = .refuse .decimalMode t := fun _ _ _ t hp hparams =>
    arithmetic_refuse (by rw [hp, hd]) (by rw [hparams, hm])
  rcases hmn with hmn | hmn
  · exact exec_read_refused (op := .adc) (congrArg operationOf hmn) hs (hrefuse _ _)
  · exact exec_read_refused (op := .sbc) (congrArg operationOf hmn) hs (hrefuse _ _)

/-- Settles O34: each is the READ operation that puts its result into A and into N and Z. -/
theorem logicCompletes : Obligations.LogicCompletes := by
  unfold Obligations.LogicCompletes
  intro i s hs r hr
  rw [← setNZ_eq]
  rcases hr with ⟨hmn, rfl⟩ | ⟨hmn, rfl⟩ | ⟨hmn, rfl⟩
  · exact complete_read (op := .and) (congrArg operationOf hmn) hs rfl ⟨rfl, rfl, rfl⟩
  · exact complete_read (op := .ora) (congrArg operationOf hmn) hs rfl ⟨rfl, rfl, rfl⟩
  · exact complete_read (op := .eor) (congrArg operationOf hmn) hs rfl ⟨rfl, rfl, rfl⟩

/-- Settles O35: without decimal arithmetic ADC is the binary sum. -/
theorem adcCompletes : Obligations.AdcCompletes := by
  unfold Obligations.AdcCompletes
  intro i s hmn hs hbin v sum r
  have h := complete_read (op := .adc) (congrArg operationOf hmn) hs (arithmetic_binary (s := s.advanced i) hbin)
    ⟨rfl, rfl, rfl⟩
  rwa [adcBinaryFlags_eq] at h

/-- Settles O36: without decimal arithmetic SBC is the binary difference. -/
theorem sbcCompletes : Obligations.SbcCompletes := by
  unfold Obligations.SbcCompletes
  intro i s hmn hs hbin v borrow r
  have h := complete_read (op := .sbc) (congrArg operationOf hmn) hs (arithmetic_binary (s := s.advanced i) hbin)
    ⟨rfl, rfl, rfl⟩
  rwa [sbcBinaryFlags_eq] at h

/-- Settles O38: with D set and DECIMAL_MODE = nmos_bcd both use their decimal functions. -/
theorem decimalCompletes : Obligations.DecimalCompletes := by
  unfold Obligations.DecimalCompletes
  intro i s hs hd hm v
  refine ⟨fun hmn => ⟨?adc, rfl⟩, fun hmn => ?sbc⟩
  case adc =>
    exact complete_read (op := .adc) (congrArg operationOf hmn) hs (arithmetic_nmosBcd (s := s.advanced i) hd hm)
      ⟨rfl, rfl, rfl⟩
  case sbc =>
    exact complete_read (op := .sbc) (congrArg operationOf hmn) hs (arithmetic_nmosBcd (s := s.advanced i) hd hm)
      ⟨rfl, rfl, rfl⟩

/-- Settles O40: a compare is the READ operation that changes C, Z and N alone. -/
theorem comparesComplete : Obligations.ComparesComplete := by
  unfold Obligations.ComparesComplete
  intro i s hs r hr m
  rw [← compareFlags_eq]
  rcases hr with ⟨hmn, rfl⟩ | ⟨hmn, rfl⟩ | ⟨hmn, rfl⟩
  · exact complete_read (op := .cmp) (congrArg operationOf hmn) hs rfl ⟨rfl, rfl, rfl⟩
  · exact complete_read (op := .cpx) (congrArg operationOf hmn) hs rfl ⟨rfl, rfl, rfl⟩
  · exact complete_read (op := .cpy) (congrArg operationOf hmn) hs rfl ⟨rfl, rfl, rfl⟩

/-- Settles O41: BIT is the READ operation that changes N, V and Z alone. -/
theorem bitCompletes : Obligations.BitCompletes := by
  unfold Obligations.BitCompletes
  intro i s hmn hs m
  exact complete_read (op := .bit) (congrArg operationOf hmn) hs rfl ⟨rfl, rfl, rfl⟩

/-- Settles O44: both are READ_MODIFY_WRITE operations whose flags are N and Z of the new byte. -/
theorem incDecComplete : Obligations.IncDecComplete := by
  unfold Obligations.IncDecComplete
  intro i s ea hs hea hram r hr
  rw [← setNZ_eq]
  rcases hr with ⟨hmn, rfl⟩ | ⟨hmn, rfl⟩
  · exact complete_rmw (op := .inc) (congrArg operationOf hmn) hs hea hram
  · exact complete_rmw (op := .dec) (congrArg operationOf hmn) hs hea hram

/-- Settles O48: each is the IMPLIED operation that steps one index register and sets N and Z from it. -/
theorem indexStepsComplete : Obligations.IndexStepsComplete := by
  unfold Obligations.IndexStepsComplete
  refine ⟨opcodesAre_of_subset (by decide), ?_⟩
  intro s nz next
  refine ⟨?ticks, fun h0 h1 => ?complete⟩
  case ticks => rintro i (rfl | rfl | rfl | rfl) <;> rfl
  case complete =>
    have hnz : nz = fun v => setNZ v s.p := funext fun v => (setNZ_eq v s.p).symm
    rw [hnz]
    exact ⟨complete_implied (op := .inx) rfl h0 h1, complete_implied (op := .iny) rfl h0 h1,
      complete_implied (op := .dex) rfl h0 h1, complete_implied (op := .dey) rfl h0 h1⟩

end Sys2Proof.Machine
end

section
/-! The shifts and rotates (44_shift_rotate.md R300 to R304): their carry-out in numbers, and the four as
READ_MODIFY_WRITE operations on memory and on A. -/

namespace Sys2Proof.Machine

variable {mn : Mnemonic} {v r : Byte} {co : Bool} {p : Flags}

/-! ### The byte and the carry-out in numbers -/

theorem getLsbD_seven_eq (v : Byte) : v.getLsbD 7 = decide (128 ≤ v.toNat) :=
  (BitVec.msb_eq_getLsbD_last v).symm.trans (BitVec.msb_eq_decide v)

theorem getLsbD_zero_eq (v : Byte) : v.getLsbD 0 = decide (v.toNat % 2 = 1) := Nat.testBit_zero v.toNat

theorem aslByte_eq (v : Byte) : aslByte v = (BitVec.ofNat 8 (2 * v.toNat), decide (128 ≤ v.toNat)) :=
  Prod.ext (aslByte_fst v) (getLsbD_seven_eq v)

theorem lsrByte_eq (v : Byte) : lsrByte v = (BitVec.ofNat 8 (v.toNat / 2), decide (v.toNat % 2 = 1)) :=
  Prod.ext (lsrByte_fst v) (getLsbD_zero_eq v)

theorem rolByte_eq (v : Byte) (c : Bool) :
    rolByte v c = (BitVec.ofNat 8 (2 * v.toNat + c.toNat), decide (128 ≤ v.toNat)) :=
  Prod.ext (rolByte_fst v c) (getLsbD_seven_eq v)

theorem rorByte_eq (v : Byte) (c : Bool) :
    rorByte v c = (BitVec.ofNat 8 (v.toNat / 2 + 128 * c.toNat), decide (v.toNat % 2 = 1)) :=
  Prod.ext (rorByte_fst v c) (getLsbD_zero_eq v)

/-! ### The four as operations -/

theorem shiftFlags_eq (r : Byte) (co : Bool) (p : Flags) :
    shiftFlags (r, co) p = (r, { p with c := co, n := r.getLsbD 7, z := decide (r = 0) }) :=
  congrArg (Prod.mk r) (setNZ_eq r _)

/-- `shiftResult` is about the four shifts alone, and says which byte and which carry-out their operation gives. -/
theorem operation_of_shiftResult (h : shiftResult mn v p.c = some (r, co)) :
    ∃ op, operationOf mn = .rmw op ∧
      op.apply v p = (r, { p with c := co, n := r.getLsbD 7, z := decide (r = 0) }) := by
  rw [← shiftFlags_eq]
  cases mn <;> cases h
  case asl => exact ⟨.asl, rfl, congrArg (shiftFlags · p) (aslByte_eq v)⟩
  case lsr => exact ⟨.lsr, rfl, congrArg (shiftFlags · p) (lsrByte_eq v)⟩
  case rol => exact ⟨.rol, rfl, congrArg (shiftFlags · p) (rolByte_eq v p.c)⟩
  case ror => exact ⟨.ror, rfl, congrArg (shiftFlags · p) (rorByte_eq v p.c)⟩

/-! ### The instructions -/

/-- Settles O45: each is the READ_MODIFY_WRITE operation whose byte and carry-out `shiftResult` gives. -/
theorem memoryShiftsComplete : Obligations.MemoryShiftsComplete := by
  unfold Obligations.MemoryShiftsComplete
  intro i s ea r co hs hea hram hshift
  obtain ⟨op, hop, happly⟩ := operation_of_shiftResult hshift
  have h := complete_rmw hop hs hea hram
  rwa [happly] at h

/-- Settles O46: in mode ACC the same operation goes to A and the flags. -/
theorem accumulatorShiftsComplete : Obligations.AccumulatorShiftsComplete := by
  unfold Obligations.AccumulatorShiftsComplete
  intro i s r co hm hs hshift
  obtain ⟨op, hop, happly⟩ := operation_of_shiftResult hshift
  have h := complete_acc hop hm hs
  rwa [happly] at h

end Sys2Proof.Machine
end

section
/-! Control transfer (45_control_flow.md R320 to R332): the jumps, the subroutine call and return, and the branches over
stored memory. -/

namespace Sys2Proof.Machine

variable {s : State} {i : Instr} {w : Word} {d : Byte}

/-! ### Jumps -/

/-- The two masks of 41_addressing_modes.md R191 take the high byte of one word and the low byte of another. -/
theorem masks_eq_mkWord (w v : Word) : (w &&& 0xFF00) ||| (v &&& 0x00FF) = mkWord (hiByte w) (loByte v) := by
  refine BitVec.eq_of_getLsbD_eq fun i hi => ?_
  rw [mkWord_getLsbD, hiByte_getLsbD, loByte_getLsbD]
  interval_cases i <;> simp

/-- The second byte of the pointer lies in the page of the first (41_addressing_modes.md R191). -/
theorem indirectHiAddr_eq_masks (w : Word) : indirectHiAddr w = (w &&& 0xFF00) ||| ((w + 1) &&& 0x00FF) := by
  rw [masks_eq_mkWord, show loByte (w + 1) = loByte w + 1 from loByte_indexedAddr w 1]
  rfl

/-- A jump fetches three bytes, JSR the last of them after its pushes (41_addressing_modes.md R191 to R193). -/
theorem canFetch_of_jump (hs : s.TouchesStored i) (hi : i.mnemonic.instrClass = .jump) : s.CanFetch 3 :=
  canFetch_of_mem fun b hb => .inl (hs b (by simpa only [State.touched, hi] using hb))

theorem complete_jmpAbs (hs : s.TouchesStored (.jmpAbs w)) : Completes (.jmpAbs w) s { s with pc := w } :=
  completes_of_spec rfl (jmpAbs_spec w fun _ => canFetch_of_jump hs rfl) (fun _ hu => hu) (cycleCount_pos _ _) rfl rfl rfl

theorem complete_jmpInd (hs : s.TouchesStored (.jmpInd w)) :
    Completes (.jmpInd w) s { s with pc := mkWord (s.byteAt (indirectHiAddr w)) (s.byteAt w) } := by
  have hdata : ∀ b ∈ s.dataAddresses .ind w, s.Stored b := fun b hb => hs b (List.mem_append_right _ hb)
  simp only [State.dataAddresses, List.forall_mem_cons] at hdata
  obtain ⟨hlo, hhi, -⟩ := hdata
  refine completes_of_spec rfl (jmpInd_spec w fun _ => ⟨canFetch_of_jump hs rfl, .inl hlo, .inl hhi⟩) (fun u hu => ?_)
    (cycleCount_pos _ _) rfl rfl rfl
  obtain ⟨lo, hi, v, elo, ehi, hv, rfl⟩ := hu
  rw [elo hlo, ehi hhi] at hv
  exact ⟨v, hv, rfl⟩

/-- Settles O50: PC becomes the operand, or the word at the pointer, whose two masks are `indirectHiAddr`. -/
theorem jumpsComplete : Obligations.JumpsComplete := by
  unfold Obligations.JumpsComplete
  intro s w
  rw [← indirectHiAddr_eq_masks]
  exact ⟨complete_jmpAbs, complete_jmpInd⟩

/-! ### Subroutines -/

/-- Settles O51: both pushes reach RAM, and the last operand byte is read from the storage they leave. -/
theorem jsrCompletes : Obligations.JsrCompletes := by
  unfold Obligations.JsrCompletes
  intro s w hs hram hram' hroom mem
  have hoperand : ∀ b ∈ s.fetchAddresses 3, s.Stored b := fun b hb => hs b (List.mem_append_left _ hb)
  have hlast : s.Stored (s.pc + 2) := stored_of_fetchAddresses hoperand (j := 2) (by decide)
  refine completes_of_spec rfl (jsr_spec w fun _ => ⟨canFetch_of_jump hs rfl, .inl (.inl hram), .inl hram, .inl hram',
    hroom.canPush_two⟩) (fun u hu => ?_) (cycleCount_pos _ _) rfl rfl rfl
  obtain ⟨-, -, m1, m2, hi, v, ⟨hm1, -⟩, ⟨hm2, -⟩, ehi, hv, rfl⟩ := hu
  obtain rfl := hm1 hram
  obtain rfl := hm2 hram'
  rw [ehi hlast] at hv
  exact ⟨v, hv, rfl⟩

/-- Settles O52: the two bytes above SP are pulled, and the word they make is read and stepped over. -/
theorem rtsCompletes : Obligations.RtsCompletes := by
  unfold Obligations.RtsCompletes
  intro s hs hroom
  have hstack : ∀ b ∈ s.stackAddresses .rts, s.Stored b := fun b hb => hs b (List.mem_append_right _ hb)
  have hfetch : s.CanFetch 2 := canFetch_of_mem fun b hb => .inl (hs b hb)
  have hsp : s.sp + 1 + 1 = s.sp + 2 := by rw [BitVec.add_assoc]; rfl
  simp only [State.stackAddresses, State.stackWord, hsp, List.forall_mem_cons] at hstack
  obtain ⟨h0, h1, h2, hret, -⟩ := hstack
  obtain ⟨hp1, hp2⟩ := hroom.canPull_two
  refine completes_of_spec rfl (rts_spec fun _ => ⟨hfetch, .inl h0, .inl h1, .inl h2, hp1, hp2, fun lo hi elo ehi => ?_⟩)
    (fun u hu => ?_) (cycleCount_pos _ _) rfl rfl rfl
  · rw [elo h1, ehi h2]
    exact .inl hret
  · obtain ⟨-, -, lo, hi, v, elo, ehi, hv, rfl⟩ := hu
    rw [elo h1, ehi h2] at hv
    exact ⟨v, hv, rfl⟩

/-! ### Branches -/

/-- A branch whose condition holds exactly when `taken` does. -/
theorem complete_branch_of_iff {c : Cond} {taken : Prop} [Decidable taken] (hop : operationOf i.mnemonic = .branch c)
    (hd : loByte i.operand = d) (htaken : c.holds s.p = true ↔ taken) (hs : s.TouchesStored i) :
    Completes i s { s with pc := if taken then s.pc + 2 + d.signExtend 16 else s.pc + 2 } := by
  have h := complete_branch hop hs
  rwa [hd, if_congr htaken rfl rfl] at h

/-- Settles O53: each branch is REL with its own condition on one flag. -/
theorem branchesComplete : Obligations.BranchesComplete := by
  unfold Obligations.BranchesComplete
  intro s d base target go
  have hd : loByte (zextWord d) = d := loByte_zextWord d
  have hclear : ∀ b : Bool, (!b) = true ↔ b = false := fun b => by simp
  refine ⟨?bcc, ?bcs, ?beq, ?bne, ?bmi, ?bpl, ?bvc, ?bvs⟩
  case bcc => exact complete_branch_of_iff rfl hd (hclear s.p.c)
  case bcs => exact complete_branch_of_iff rfl hd .rfl
  case beq => exact complete_branch_of_iff rfl hd .rfl
  case bne => exact complete_branch_of_iff rfl hd (hclear s.p.z)
  case bmi => exact complete_branch_of_iff rfl hd .rfl
  case bpl => exact complete_branch_of_iff rfl hd (hclear s.p.n)
  case bvc => exact complete_branch_of_iff rfl hd (hclear s.p.v)
  case bvs => exact complete_branch_of_iff rfl hd .rfl

end Sys2Proof.Machine
end

section
/-! Flags, stack and system (46_stack_flags_system.md R350 to R365): the flag instructions, pushes and pulls over a
stored stack, BRK and RTI, and HLT. -/

namespace Sys2Proof.Machine

variable {s : State} {i : Instr} {mn : Mnemonic} {a : Word} {b1 b2 b3 : Byte} {m : List Host.Cell}

/-! ### Flags -/

/-- Settles O49: each is the IMPLIED operation of its flag, and NOP the one that does nothing. -/
theorem flagInstructionsComplete : Obligations.FlagInstructionsComplete := by
  unfold Obligations.FlagInstructionsComplete
  refine ⟨opcodesAre_of_subset (by decide), ?_⟩
  intro s next
  refine ⟨?ticks, fun h0 h1 => ?complete⟩
  case ticks => rintro i (rfl | rfl | rfl | rfl | rfl | rfl | rfl | rfl) <;> rfl
  case complete =>
    exact ⟨complete_implied (op := .clc) rfl h0 h1, complete_implied (op := .sec) rfl h0 h1,
      complete_implied (op := .cli) rfl h0 h1, complete_implied (op := .sei) rfl h0 h1,
      complete_implied (op := .cld) rfl h0 h1, complete_implied (op := .sed) rfl h0 h1,
      complete_implied (op := .clv) rfl h0 h1, complete_implied (op := .nop) rfl h0 h1⟩

/-! ### Pushes and pulls -/

/-- Bit 5 of the packed flags is set already (10_state.md R27). -/
theorem packBreak_eq (p : Flags) : packBreak p = pack p ||| 0x30 := by
  have hbit5 : pack p ||| 0x20 = pack p := by rw [← pack_unpack, unpack_pack]
  calc
    packBreak p = (pack p ||| 0x20) ||| 0x10 := by rw [hbit5]; rfl
    _ = pack p ||| 0x30 := by rw [BitVec.or_assoc]; rfl

/-- Over stored memory a stack instruction makes its two reads at PC and reaches every slot it reads or writes. -/
theorem touchesStored_of_stack (hs : s.TouchesStored i) (hmn : i.mnemonic = mn)
    (hi : mn.instrClass = .stack) : s.CanFetch 2 ∧ ∀ a ∈ s.stackAddresses mn, s.Stored a := by
  have htouched : s.touched i = s.fetchAddresses 2 ++ s.stackAddresses mn := by simp only [State.touched, hmn, hi]
  exact ⟨canFetch_of_mem fun a ha => .inl (hs a (htouched ▸ ha)),
    fun a ha => hs a (htouched ▸ List.mem_append_right _ ha)⟩

/-- The byte `f` makes of A and the flags reaches RAM at the old SP (46_stack_flags_system.md R350, R352). -/
theorem complete_push (f : Byte → Flags → Byte)
    (he : exec i s = ((stackHead s).bind fun _ s => lastCycle (push (f s.a s.p) s)).outcome)
    (hk : s.cycleCount i = 3) (hfetch : s.CanFetch 2) (hram : s.InRam (stackAddr s.sp)) (hroom : s.RoomToPush 1) :
    Completes i s { s with
      pc := s.pc + 1, sp := s.sp - 1, mem := Memory.write s.mem (stackAddr s.sp).toNat (f s.a s.p) } := by
  refine completes_of_spec he (pushInstr_spec (fun s => f s.a s.p) (fun h => by rw [h.a, h.p]) (fun _ _ => rfl)
    fun _ => ⟨hfetch, .inl hram, hroom.canPush_first (by decide) (by decide)⟩) (fun u hu => ?_) (cycleCount_pos _ _)
    rfl rfl rfl
  obtain ⟨-, m, w, ⟨hm, -⟩, hw, rfl⟩ := hu
  obtain rfl := hm hram
  exact ⟨w, hk ▸ hw, rfl⟩

/-- Settles O54: PHA pushes A, PHP the packed flags with B set. -/
theorem pushesComplete : Obligations.PushesComplete := by
  unfold Obligations.PushesComplete
  intro s h0 h1 hram hroom
  rw [← packBreak_eq]
  exact ⟨complete_push (fun a _ => a) rfl rfl (canFetch_two h0 h1) hram hroom,
    complete_push (fun _ p => packBreak p) rfl rfl (canFetch_two h0 h1) hram hroom⟩

/-- The byte above SP updates A by `fa` and the flags by `fp` (46_stack_flags_system.md R351, R353). -/
theorem complete_pull (fa : Byte → Byte → Byte) (fp : Byte → Flags → Flags)
    (he : exec i s = ((stackHead s).bind fun _ s => (cycle (stackReadInc s)).bind fun _ s =>
      lastCycle ((stackRead s).bind fun v s => .ok () { s with a := fa v s.a, p := fp v s.p })).outcome)
    (hk : s.cycleCount i = 4) (hs : s.TouchesStored .pla) (hroom : s.RoomToPull 1) :
    Completes i s { s with
      pc := s.pc + 1, sp := s.sp + 1, a := fa (s.byteAt (stackAddr (s.sp + 1))) s.a
      p := fp (s.byteAt (stackAddr (s.sp + 1))) s.p } := by
  obtain ⟨hfetch, hstack⟩ := touchesStored_of_stack (mn := .pla) hs rfl rfl
  simp only [State.stackAddresses, List.forall_mem_cons] at hstack
  obtain ⟨h0, h1, -⟩ := hstack
  refine completes_of_spec he (pullInstr_spec (fun v s => { s with a := fa v s.a, p := fp v s.p }) (by intros; rfl)
    (fun _ _ => ⟨rfl, rfl, rfl, rfl, rfl⟩) fun _ => ⟨hfetch, .inl h0, .inl h1, hroom.canPull_first (by decide)⟩)
    (fun u hu => ?_) (cycleCount_pos _ _) rfl rfl rfl
  obtain ⟨-, v, w, ev, hw, rfl⟩ := hu
  obtain rfl := ev h1
  exact ⟨w, hk ▸ hw, rfl⟩

/-- Settles O55: PLA loads A with N and Z, PLP the flags but B. -/
theorem pullsComplete : Obligations.PullsComplete := by
  unfold Obligations.PullsComplete
  intro s hs hroom v
  rw [← setNZ_eq]
  exact ⟨complete_pull (fun v _ => v) setNZ rfl rfl hs hroom,
    complete_pull (fun _ a => a) pulledFlags rfl rfl hs hroom⟩

/-! ### Exceptions -/

/-- An address outside page 1 is no slot of the stack (10_state.md R25). -/
theorem ne_stackAddr (h : hiByte a ≠ stackPage) (sp : Byte) : a ≠ stackAddr sp := by
  rintro rfl
  exact h (hiByte_mkWord stackPage sp)

/-- Three pushes leave every byte outside the stack page. -/
theorem Pushed3.byteAt_of_hiByte_ne (h : Pushed3 s b1 b2 b3 m) (ha : hiByte a ≠ stackPage) :
    { s with mem := m }.byteAt a = s.byteAt a := by
  obtain ⟨m1, m2, hw1, hw2, hw3⟩ := h
  exact (hw3.byteAt_of_ne (ne_stackAddr ha _)).trans
    ((hw2.byteAt_of_ne (ne_stackAddr ha _)).trans (hw1.byteAt_of_ne (ne_stackAddr ha _)))

/-- Three pushes into a stack in RAM are three writes. -/
theorem Pushed3.mem_eq (h : Pushed3 s b1 b2 b3 m) (hram : s.StackInRam) :
    m = Memory.write (Memory.write (Memory.write s.mem (stackAddr s.sp).toNat b1) (stackAddr (s.sp - 1)).toNat b2)
      (stackAddr (s.sp - 2)).toNat b3 := by
  obtain ⟨m1, m2, ⟨hm1, -⟩, ⟨hm2, -⟩, ⟨hm3, -⟩⟩ := h
  rw [hm3 (hram _), hm2 (hram _), hm1 (hram _)]

/-- Settles O56: three bytes go to the stack, and the pushes leave the vector, which lies outside the stack page. -/
theorem brkCompletes : Obligations.BrkCompletes := by
  unfold Obligations.BrkCompletes
  intro s hs hram hroom
  obtain ⟨hfetch, hstack⟩ := touchesStored_of_stack (mn := .brk) hs rfl rfl
  simp only [State.stackAddresses, List.forall_mem_cons] at hstack
  obtain ⟨-, -, -, hlo, hhi, -⟩ := hstack
  refine completes_of_spec rfl (brk_spec fun _ => ⟨hfetch, fun _ => .inl (hram _), hroom.canPush3, .inl hlo, .inl hhi⟩)
    (fun u hu => ?_) (cycleCount_pos _ _) rfl rfl rfl
  obtain ⟨-, m, lo, hi, w, hm, elo, ehi, hw, rfl⟩ := hu
  rw [elo hlo, ehi hhi, hm.byteAt_of_hiByte_ne (by decide), hm.byteAt_of_hiByte_ne (by decide), hm.mem_eq hram,
    packBreak_eq] at hw
  exact ⟨w, hw, rfl⟩

/-- Settles O57: the flags and the two bytes of PC are those above SP. -/
theorem rtiCompletes : Obligations.RtiCompletes := by
  unfold Obligations.RtiCompletes
  intro s hs hroom v
  obtain ⟨hfetch, hstack⟩ := touchesStored_of_stack (mn := .rti) hs rfl rfl
  simp only [State.stackAddresses, List.forall_mem_cons] at hstack
  obtain ⟨h0, h1, h2, h3, -⟩ := hstack
  have hread : ∀ k : Fin 4, s.Readable (stackAddr (s.sp + BitVec.ofNat 8 k)) := fun k => .inl (by
    fin_cases k
    · simpa using h0
    · exact h1
    · exact h2
    · exact h3)
  refine completes_of_spec rfl (rti_spec fun _ => ⟨hfetch, hread, hroom.canPull3⟩) (fun u hu => ?_)
    (cycleCount_pos _ _) rfl rfl rfl
  obtain ⟨-, b, lo, hi, w, eb, elo, ehi, hw, rfl⟩ := hu
  rw [eb h1, elo h2, ehi h3] at hw
  exact ⟨w, hw, rfl⟩

/-! ### HLT -/

/-- Settles O58: the one tick fetches the opcode and halts. -/
theorem hltCompletes : Obligations.HltCompletes := by
  unfold Obligations.HltCompletes
  intro s h0
  exact ⟨completes_of_spec rfl (hlt_spec fun _ => .inl h0) (fun _ hu => hu) (cycleCount_pos _ _) rfl rfl rfl, rfl⟩

end Sys2Proof.Machine
end

section
/-! Interrupts (60_exceptions.md R404 to R411): what a boundary does, where a hardware interrupt entry completes and
where it stops, and who writes the in-ISR marker. -/

namespace Sys2Proof.Machine

variable {s t r : State} {i : Instr} {v : VectorId} {a : Word} {b : Byte} {n : Nat}

/-! ### Sampling -/

/-- A line is asserted when some source asserts it (60_exceptions.md R402). -/
theorem nmiAsserted_iff {sources : List Source} : nmiAsserted sources = true ↔ ∃ d ∈ sources, d.nmi = true :=
  List.any_eq_true

theorem nmiAsserted_eq_false {sources : List Source} : nmiAsserted sources = false ↔ ∀ d ∈ sources, d.nmi = false :=
  List.any_eq_false.trans (by simp only [Bool.not_eq_true])

theorem irqAsserted_iff {sources : List Source} : irqAsserted sources = true ↔ ∃ d ∈ sources, d.irq = true :=
  List.any_eq_true

theorem irqAsserted_eq_false {sources : List Source} : irqAsserted sources = false ↔ ∀ d ∈ sources, d.irq = false :=
  List.any_eq_false.trans (by simp only [Bool.not_eq_true])

/-- An NMI is taken whatever I is (60_exceptions.md R404). -/
theorem interruptTaken_nmi (hisr : s.inISR = false) (hnmi : ∃ d ∈ s.sources, d.nmi = true) :
    interruptTaken s = some .nmi := by
  simp [interruptTaken, hisr, nmiAsserted_iff.mpr hnmi]

/-- An IRQ is taken with I clear and no NMI (60_exceptions.md R405). -/
theorem interruptTaken_irq (hisr : s.inISR = false) (hnmi : ∀ d ∈ s.sources, d.nmi = false)
    (hirq : ∃ d ∈ s.sources, d.irq = true) (hi : s.p.i = false) : interruptTaken s = some .irq := by
  simp [interruptTaken, hisr, nmiAsserted_eq_false.mpr hnmi, irqAsserted_iff.mpr hirq, hi]

/-- Nothing is taken in a service routine (60_exceptions.md R407), nor with nothing to take. -/
theorem interruptTaken_none (h : s.inISR = true ∨
    ((∀ d ∈ s.sources, d.nmi = false) ∧ (s.p.i = true ∨ ∀ d ∈ s.sources, d.irq = false))) :
    interruptTaken s = none := by
  rcases h with hisr | ⟨hnmi, hi | hirq⟩
  · simp [interruptTaken, hisr]
  · simp [interruptTaken, nmiAsserted_eq_false.mpr hnmi, hi]
  · simp [interruptTaken, nmiAsserted_eq_false.mpr hnmi, irqAsserted_eq_false.mpr hirq]

/-- Settles O9: the lines and the two masks decide which interrupt is taken, and the step is its entry or the fetch. -/
theorem interruptSampling : Obligations.InterruptSampling := by
  unfold Obligations.InterruptSampling
  intro s hs
  refine ⟨fun hisr hnmi => step_service hs (interruptTaken_nmi hisr hnmi),
    fun hisr hnmi hirq hi => step_service hs (interruptTaken_irq hisr hnmi hirq hi), fun hnone => ?fetch⟩
  case fetch =>
    have hstep : step s = execFetched (fetchDecode { s with hookArmed := false }) :=
      step_fetch hs (interruptTaken_none hnone)
    exact ⟨fun i t h => by rw [hstep, h]; rfl, fun f t h => by rw [hstep, h]; rfl, fun e t h => by rw [hstep, h]; rfl⟩

/-! ### Entry -/

/-- An interrupt taken is an NMI or an IRQ. -/
theorem interruptTaken_some (h : interruptTaken s = some v) : v = .nmi ∨ v = .irq := by
  unfold interruptTaken at h
  split at h
  · cases h
  split at h
  · exact .inl (Option.some.inj h).symm
  split at h
  · exact .inr (Option.some.inj h).symm
  · cases h

theorem serviceFits_iff : serviceFits s = true ↔ s.params.intEntryDummy ≤ 11 := by
  rw [serviceFits, decide_eq_true_iff, queueCapacity]
  omega

theorem serviceInterrupt_overflow (h : 11 < s.params.intEntryDummy) :
    serviceInterrupt v s = .fault .queueOverflow s := by
  rw [serviceInterrupt, if_neg fun hfit => Nat.not_lt.mpr (serviceFits_iff.mp hfit) h]

/-- The ticks of an entry that fits, before its first push, change nothing but the count (60_exceptions.md R408). -/
theorem serviceInterrupt_of_takeException {o : Host.Outcome State Fault Refusal} (hfit : s.params.intEntryDummy ≤ 11)
    (hpc : s.params.intEntryDummy = 0 ∨ s.Stored s.pc)
    (h : ∀ u, Ticked (1 + s.params.intEntryDummy) s u → (takeException v false u).outcome = o) :
    (serviceInterrupt v s).outcome = o := by
  rw [serviceInterrupt, if_pos (serviceFits_iff.mpr hfit)]
  have hdummies := dummyCycles_spec (g := True) s.params.intEntryDummy (Ticked.refl s).count fun hpos _ =>
    .inl (hpc.resolve_left hpos.ne')
  exact hdummies.outcome_bind fun _ u hu => h u hu

/-- An entry stops where its first push does. -/
theorem takeException_push_fault {f : Fault} (hT : Ticked n s t)
    (h : ∀ u : State, u.kindAt (stackAddr s.sp) = s.kindAt (stackAddr s.sp) →
      busWrite (stackAddr s.sp) (hiByte s.pc) u = .fault f u) :
    (takeException v false t).outcome = .fault f := by
  rw [takeException, push, hT.sp, hT.pc, h t (hT.kindAt _)]
  rfl

theorem busWrite_noRegion (h : s.kindAt a = none) : busWrite a b s = .fault (.noRegion a (.write b)) s :=
  busWrite_unclaimed b (Option.map_eq_none_iff.mp h)

/-- Settles O10: the entry is the queue check, ticks that change nothing, and the exception, which completes or stops at a
push. -/
theorem hardwareInterruptEntry : Obligations.HardwareInterruptEntry := by
  unfold Obligations.HardwareInterruptEntry
  intro s v hs hint
  have hvector : v = .nmi ∨ v = .irq := interruptTaken_some hint
  rw [step_service hs hint]
  refine ⟨?vector, fun hlong => ?overflow, fun hfit hpc => ⟨fun hram hb hsp => ?bounds, fun hro => ?readOnly,
    fun hnone => ?noRegion, fun hram hlo hhi hroom => ?completes⟩⟩
  case vector => exact hvector.imp (fun h => ⟨h, by rw [h]; rfl⟩) fun h => ⟨h, by rw [h]; rfl⟩
  case overflow => rw [serviceInterrupt_overflow hlong]; rfl
  case bounds =>
    exact serviceInterrupt_of_takeException hfit hpc fun u hu => takeException_stops v false hu hb hram hsp
  case readOnly =>
    exact serviceInterrupt_of_takeException hfit hpc fun u hu => takeException_push_fault hu fun w hw =>
      busWrite_readOnly _ (by rwa [State.ReadOnly, hw])
  case noRegion =>
    exact serviceInterrupt_of_takeException hfit hpc fun u hu => takeException_push_fault hu fun w hw =>
      busWrite_noRegion (hw.trans hnone)
  case completes =>
    obtain ⟨hpage, hpage'⟩ : hiByte v.addr ≠ stackPage ∧ hiByte (v.addr + 1) ≠ stackPage := by
      rcases hvector with rfl | rfl <;> decide
    obtain ⟨t, ht, -, m, lo, hi, w, hm, elo, ehi, hw, rfl⟩ := (serviceInterrupt_spec v fun _ : True =>
      ⟨serviceFits_iff.mpr hfit, fun hpos => .inl (hpc.resolve_left hpos.ne'), fun _ => .inl (hram _), hroom.canPush3,
        .inl hlo, .inl hhi⟩).completes trivial
    rw [elo hlo, ehi hhi, hm.byteAt_of_hiByte_ne hpage, hm.byteAt_of_hiByte_ne hpage', hm.mem_eq hram] at hw
    exact ⟨_, ht, hw.finish (by omega) rfl rfl rfl⟩

/-! ### The in-ISR marker -/

theorem readOp_inISR {op : ReadOp} (h : op.apply b s = .ok () r) : r.inISR = s.inISR := by
  cases op
  case adc | sbc =>
    simp only [ReadOp.apply, arithmetic] at h
    split at h
    · split at h <;> cases h <;> rfl
    · cases h; rfl
  all_goals cases h; rfl

theorem impliedOp_inISR (op : ImpliedOp) (s : State) : (op.apply s).inISR = s.inISR := by cases op <;> rfl

/-- Of the operations only RTI's writes the marker. -/
theorem exec_inISR (h : exec i s = .next t) :
    t.inISR = (if operationOf i.mnemonic = .rti then false else s.inISR) := by
  have hp := exec_post h
  unfold ExecPost at hp
  split at hp
  next op hop => obtain ⟨b, r, hr, ht⟩ := hp; rw [hop]; exact ht.inISR.trans (readOp_inISR (s := s.advanced i) hr)
  next r hop => obtain ⟨ea, m, -, -, ht⟩ := hp; rw [hop]; exact ht.inISR
  next op hop =>
    rw [hop]
    split at hp
    · exact hp.inISR
    · obtain ⟨ea, b, m, -, -, ht⟩ := hp
      exact ht.inISR
  next op hop => rw [hop]; exact hp.inISR.trans (impliedOp_inISR op _)
  next c hop => obtain ⟨pc, ht⟩ := hp; rw [hop]; exact ht.inISR
  next hop => obtain ⟨pc, ht⟩ := hp; rw [hop]; exact ht.inISR
  next hop => obtain ⟨pc, m1, m2, -, -, ht⟩ := hp; rw [hop]; exact ht.inISR
  next hop => obtain ⟨pc, ht⟩ := hp; rw [hop]; exact ht.inISR
  next hop => obtain ⟨m, -, ht⟩ := hp; rw [hop]; exact ht.inISR
  next hop => obtain ⟨m, -, ht⟩ := hp; rw [hop]; exact ht.inISR
  next hop => obtain ⟨b, ht⟩ := hp; rw [hop]; exact ht.inISR
  next hop => obtain ⟨b, ht⟩ := hp; rw [hop]; exact ht.inISR
  next hop => obtain ⟨pc, m, -, ht⟩ := hp; rw [hop]; exact ht.inISR
  next hop => obtain ⟨b, pc, ht⟩ := hp; rw [hop]; exact ht.inISR
  next hop => rw [hop]; exact hp.inISR

theorem operationOf_eq_rti_iff : operationOf i.mnemonic = .rti ↔ i = .rti := by
  constructor
  · intro h
    cases i <;> first | rfl | cases h
  · rintro rfl
    rfl

/-- Settles O25: the operation of RTI is the one that writes the marker, and RTI the one instruction that has it. -/
theorem inServiceMarkerWriters : Obligations.InServiceMarkerWriters := by
  unfold Obligations.InServiceMarkerWriters
  intro i s t h
  rw [exec_inISR h]
  exact if_congr operationOf_eq_rti_iff rfl rfl

end Sys2Proof.Machine
end

section
/-! What the host does to the machine: power-on and `reset()` over a stored vector, and the setters
(70_reset_and_hazards.md R450, R451, R467, 10_state.md R41). -/

namespace Sys2Proof.Machine

variable {s : State}

/-- The two reads of a stored reset vector, low byte first (20_memory.md R73). -/
theorem loadResetVector_stored (hlo : s.Stored 0xFFFC) (hhi : s.Stored 0xFFFD) :
    loadResetVector s = .ok () { s with
      pc := mkWord (s.byteAt 0xFFFD) (s.byteAt 0xFFFC)
      bus := .read 0xFFFD (s.byteAt 0xFFFD) :: .read 0xFFFC (s.byteAt 0xFFFC) :: s.bus } := by
  have hread : busRead VectorId.reset.addr s = .ok (s.byteAt 0xFFFC) (s.record (.read 0xFFFC (s.byteAt 0xFFFC))) :=
    busRead_stored hlo
  have hread' (access : BusAccess) : busRead (VectorId.reset.addr + 1) (s.record access) =
      .ok (s.byteAt 0xFFFD) ((s.record access).record (.read 0xFFFD (s.byteAt 0xFFFD))) :=
    busRead_stored (s := s.record access) hhi
  rw [loadResetVector, readWord, hread, Res.ok_bind, hread']
  rfl

/-- Without a region at the vector the first read stops (20_memory.md R68). -/
theorem loadResetVector_noRegion (h : s.kindAt 0xFFFC = none) : loadResetVector s = .fault (.noRegion 0xFFFC .read) s := by
  have hread : busRead VectorId.reset.addr s = .fault (.noRegion 0xFFFC .read) s :=
    busRead_unclaimed (Option.map_eq_none_iff.mp h)
  rw [loadResetVector, readWord, hread]
  rfl

/-- The instruction table registers, so power-on is the read of the vector (70_reset_and_hazards.md R450). -/
theorem powerOn_eq {l : Launch} (h : hltOpcodeOk l.params.hltOpcode = true) : powerOn l = loadResetVector l.state := by
  rw [powerOn, registerAll_instructionSet h]

/-- Settles O18: the table registers, and the reads of the vector complete or stop at its first byte. -/
theorem powerOnSeedsPc : Obligations.PowerOnSeedsPc := by
  unfold Obligations.PowerOnSeedsPc
  intro l hhlt
  rw [powerOn_eq hhlt]
  exact ⟨loadResetVector_stored, loadResetVector_noRegion, rfl, rfl, rfl, rfl, rfl, rfl, rfl, rfl, rfl, rfl, rfl, rfl, rfl,
    rfl, rfl, rfl, rfl⟩

/-- A setter at a boundary (10_state.md R41). -/
theorem hostPoke_boundary (f : State → State) (h : s.queue = []) : hostPoke f s = .next (f s) := by simp [hostPoke, h]

/-- A setter in the middle of an instruction (70_reset_and_hazards.md R467). -/
theorem hostPoke_midInstruction (f : State → State) (h : s.queue ≠ []) : hostPoke f s = .refused .hostMidInstruction := by
  simp [hostPoke, h]

/-- Settles O19: `reset()` is the clearing and the reads of the vector, and each setter is `hostPoke` of its register. -/
theorem hostResetRestarts : Obligations.HostResetRestarts := by
  unfold Obligations.HostResetRestarts
  refine ⟨fun s hlo hhi => loadResetVector_stored (s := resetCore s) hlo hhi,
    fun s v w p => ⟨fun hq => ?boundary, fun hq => ?midInstruction, rfl⟩⟩
  case boundary =>
    exact ⟨hostPoke_boundary _ hq, hostPoke_boundary _ hq, hostPoke_boundary _ hq, hostPoke_boundary _ hq,
      hostPoke_boundary _ hq, hostPoke_boundary _ hq⟩
  case midInstruction =>
    simp only [List.forall_mem_cons]
    exact ⟨hostPoke_midInstruction _ hq, hostPoke_midInstruction _ hq, hostPoke_midInstruction _ hq,
      hostPoke_midInstruction _ hq, hostPoke_midInstruction _ hq, hostPoke_midInstruction _ hq, List.forall_mem_nil _⟩

end Sys2Proof.Machine
end

section
/-! What an instruction does to the bus over stored memory (41_addressing_modes.md R181 to R193, 40_execution_engine.md
R142): `BusTicks` composes along a sequence, each tick with its one access; and what no instruction touches
(70_reset_and_hazards.md R470). -/

namespace Sys2Proof.Machine

variable {α β : Type} {l k : List (Bool × Word)} {x : Bool × Word} {s t u r : State} {i : Instr}

/-! ### One access -/

/-- `u` is `s` after an operation with the one access `x`, its tick not counted yet. -/
def OneAccess (x : Bool × Word) (s u : State) : Prop :=
  u.bus.map BusAccess.place = x :: s.bus.map BusAccess.place ∧ u.cycles = s.cycles

/-- `u` is `s` after an operation without an access. -/
def NoAccess (s u : State) : Prop := u.bus = s.bus ∧ u.cycles = s.cycles

/-- A fault answers nothing. -/
theorem Res.Spec.fault {f : Fault} {P : α → State → Prop} : Res.Spec False (.fault f s) P :=
  ⟨fun _ _ e => (by cases e), False.elim⟩

/-- What follows an access in its tick makes no other. -/
theorem oneAccess_bind {o : Res α} {f : α → State → Res β} (h : Res.Spec False o fun _ u => OneAccess x s u)
    (hf : ∀ v u, Res.Spec False (f v u) fun _ w => NoAccess u w) :
    Res.Spec False (o.bind f) fun _ w => OneAccess x s w :=
  h.bind fun v u hu => (hf v u).mono fun _ w hw => ⟨by rw [hw.1]; exact hu.1, hw.2.trans hu.2⟩

theorem busRead_oneAccess (a : Word) (s : State) : Res.Spec False (busRead a s) fun _ u => OneAccess (false, a) s u :=
  (busRead_spec False.elim).mono fun v u h => by
    obtain ⟨⟨access, hline, rfl⟩, -⟩ := h
    exact ⟨by simp [BusAccess.place, hline], rfl⟩

theorem busWrite_oneAccess (a : Word) (v : Byte) (s : State) :
    Res.Spec False (busWrite a v s) fun _ u => OneAccess (true, a) s u :=
  (busWrite_spec False.elim).mono fun _ u h => by
    obtain ⟨⟨access, hline, hu⟩, -⟩ := h
    rw [OneAccess, hu]
    exact ⟨by simp [BusAccess.place, hline], rfl⟩

theorem decSp_noAccess (s : State) : Res.Spec False (decSp s) fun _ u => NoAccess s u := by
  unfold decSp
  split
  · split
    · exact .fault
    · exact .ok ⟨rfl, rfl⟩
  · exact .ok ⟨rfl, rfl⟩

theorem incSp_noAccess (s : State) : Res.Spec False (incSp s) fun _ u => NoAccess s u := by
  unfold incSp
  split
  · split
    · exact .fault
    · exact .ok ⟨rfl, rfl⟩
  · exact .ok ⟨rfl, rfl⟩

theorem Operated.bus {stop : Bool} (h : Operated stop s r) : r.bus = s.bus := (congrArg (fun u => u.bus) h).trans rfl

theorem readOp_noAccess (op : ReadOp) (v : Byte) (s : State) :
    Res.Spec False (op.apply v s) fun _ u => NoAccess s u :=
  ⟨fun _ _ h => ⟨(readOp_operated h).bus, (readOp_operated h).cycles⟩, False.elim⟩

theorem impliedOp_noAccess (op : ImpliedOp) (s : State) : NoAccess s (op.apply s) :=
  ⟨(impliedOp_operated op s).bus, (impliedOp_operated op s).cycles⟩

theorem fetchByte_oneAccess (s : State) : Res.Spec False (fetchByte s) fun _ u => OneAccess (false, s.pc) s u :=
  oneAccess_bind (busRead_oneAccess s.pc s) fun _ _ => .ok ⟨rfl, rfl⟩

theorem push_oneAccess (v : Byte) (s : State) :
    Res.Spec False (push v s) fun _ u => OneAccess (true, stackAddr s.sp) s u :=
  oneAccess_bind (busWrite_oneAccess _ v s) fun _ u => decSp_noAccess u

theorem stackRead_oneAccess (s : State) : Res.Spec False (stackRead s) fun _ u => OneAccess (false, stackAddr s.sp) s u :=
  busRead_oneAccess _ s

theorem stackReadInc_oneAccess (s : State) :
    Res.Spec False (stackReadInc s) fun _ u => OneAccess (false, stackAddr s.sp) s u :=
  oneAccess_bind (stackRead_oneAccess s) fun _ u => (incSp_noAccess u).bind fun _ _ hw => .ok hw

theorem pullStatusByte_oneAccess (s : State) :
    Res.Spec False (pullStatusByte s) fun _ u => OneAccess (false, stackAddr s.sp) s u :=
  oneAccess_bind (stackRead_oneAccess s) fun b u => incSp_noAccess { u with p := returnedFlags b }

/-! ### Ticks with one access each -/

/-- From `s` to `t` the machine made the accesses `l`, oldest first, one in each tick. -/
def BusTicks (l : List (Bool × Word)) (s t : State) : Prop :=
  t.bus.map BusAccess.place = l.reverse ++ s.bus.map BusAccess.place ∧ t.cycles = s.cycles + l.length

theorem BusTicks.trans (h : BusTicks l s t) (h' : BusTicks k t u) : BusTicks (l ++ k) s u :=
  ⟨by rw [h'.1, h.1, List.reverse_append, List.append_assoc], by rw [h'.2, h.2, List.length_append, Nat.add_assoc]⟩

/-- One tick in which more of the instruction follows. -/
theorem cycle_busTicks {o : Res α} (h : Res.Spec False o fun _ u => OneAccess x s u) :
    Res.Spec False (cycle o) fun _ u => BusTicks [x] s u :=
  cycle_spec h fun _ _ hu => ⟨hu.1, congrArg (· + 1) hu.2⟩

/-- The last tick. -/
theorem lastCycle_busTicks {o : Res α} (h : Res.Spec False o fun _ u => OneAccess x s u) :
    Res.Spec False (lastCycle o) fun _ u => BusTicks [x] s u :=
  lastCycle_spec h fun _ _ hu => ⟨hu.1, congrArg (· + 1) hu.2⟩

/-- Two parts of a sequence, the second from the states `P` that the first can leave. -/
theorem busTicks_bind {o : Res α} {f : α → State → Res β} {P : α → State → Prop} {q : List (Bool × Word)}
    (hP : Res.Spec False o P) (h : Res.Spec False o fun _ u => BusTicks l s u)
    (hf : ∀ v u, P v u → Res.Spec False (f v u) fun _ w => BusTicks k u w) (hq : q = l ++ k := by rfl) :
    Res.Spec False (o.bind f) fun _ w => BusTicks q s w := by
  subst hq
  have hboth : Res.Spec False o fun v u => P v u ∧ BusTicks l s u := ⟨fun v u e => ⟨hP.1 v u e, h.1 v u e⟩, False.elim⟩
  exact hboth.bind fun v u ⟨hv, hu⟩ => (hf v u hv).mono fun _ _ hw => hu.trans hw

/-- Two parts of a sequence, the second not dependent on the first. -/
theorem busTicks_then {o : Res α} {f : α → State → Res β} {q : List (Bool × Word)}
    (h : Res.Spec False o fun _ u => BusTicks l s u) (hf : ∀ v u, Res.Spec False (f v u) fun _ w => BusTicks k u w)
    (hq : q = l ++ k := by rfl) : Res.Spec False (o.bind f) fun _ w => BusTicks q s w :=
  busTicks_bind (P := fun _ _ => True) ⟨fun _ _ _ => trivial, False.elim⟩ h (fun v u _ => hf v u) hq

/-- A part without ticks at the end. -/
theorem busTicks_map {o : Res α} {f : α → State → β} (h : Res.Spec False o fun _ u => BusTicks l s u) :
    Res.Spec False (o.bind fun v u => .ok (f v u) u) fun _ w => BusTicks l s w :=
  h.bind fun _ _ hu => .ok hu

theorem cycleRead_busTicks (a : Word) (s : State) :
    Res.Spec False (cycle (busRead a s)) fun _ u => BusTicks [(false, a)] s u :=
  cycle_busTicks (busRead_oneAccess a s)

/-! ### Fetches -/

theorem fetchAddresses_of_pc (h : u.pc = s.pc) (n : Nat) : u.fetchAddresses n = s.fetchAddresses n := by
  simp only [State.fetchAddresses, h]

/-- The addresses after the first are those from the next PC. -/
theorem fetchAddresses_succ (s : State) (n : Nat) :
    s.fetchAddresses (n + 1) = s.pc :: { s with pc := s.pc + 1 }.fetchAddresses n := by
  have hnext (j : Nat) : s.pc + BitVec.ofNat 16 (j + 1) = s.pc + 1 + BitVec.ofNat 16 j := by
    rw [BitVec.add_assoc, Nat.add_comm j 1, BitVec.ofNat_add]
    rfl
  simp only [State.fetchAddresses, List.range_succ_eq_map, List.map_cons, List.map_map]
  exact congrArg₂ _ (BitVec.add_zero s.pc) (List.map_congr_left fun j _ => hnext j)

theorem cycleFetch_pc (s : State) : Res.Spec False (cycle (fetchByte s)) fun _ u => u.pc = s.pc + 1 :=
  cycle_spec (fetchByte_spec (Ticked.refl s) False.elim) fun _ _ hu => hu.1.pc

theorem cycleFetch_busTicks (s : State) :
    Res.Spec False (cycle (fetchByte s)) fun _ u => BusTicks [(false, s.pc)] s u :=
  cycle_busTicks (fetchByte_oneAccess s)

theorem fetchCycles_busTicks (n : Nat) (s : State) :
    Res.Spec False (fetchCycles n s) fun _ u => BusTicks (readsOf (s.fetchAddresses n)) s u := by
  induction n generalizing s with
  | zero => exact .ok ⟨rfl, rfl⟩
  | succ n ih =>
    refine busTicks_bind (cycleFetch_pc s) (cycleFetch_busTicks s) (fun _ u hu => ?_)
      (congrArg readsOf (fetchAddresses_succ s n))
    rw [← fetchAddresses_of_pc hu n]
    exact ih u

/-- The fetch ticks change PC alone. -/
theorem fetchCycles_ticked (n : Nat) (s : State) :
    Res.Spec False (fetchCycles n s) fun _ u => Ticked n { s with pc := s.pc + BitVec.ofNat 16 n } u := by
  simpa using fetchCycles_spec (g := False) n (Ticked.refl s) fun _ _ => False.elim

/-! ### Effective addresses -/

theorem readPointer_busTicks (p : Byte) (s : State) :
    Res.Spec False (readPointer p s) fun _ u => BusTicks (readsOf [zpAddr p, zpAddr (p + 1)]) s u :=
  busTicks_then (cycleRead_busTicks (zpAddr p) s) fun _ u => busTicks_map (cycleRead_busTicks (zpAddr (p + 1)) u)

theorem eaZpIdx_busTicks (j : Index) (z : Byte) (s : State) :
    Res.Spec False (eaZpIdx j z s) fun _ u => BusTicks (readsOf (s.fetchAddresses 2 ++ [zpAddr z])) s u :=
  busTicks_then (fetchCycles_busTicks 2 s) fun _ u => busTicks_map (cycleRead_busTicks (zpAddr z) u)

theorem eaAbsIdx_busTicks (j : Index) (w : Word) (s : State) :
    Res.Spec False (eaAbsIdx j w s) fun _ u =>
      BusTicks (readsOf (s.fetchAddresses 3 ++ [unfixedAddr w (j.value s)])) s u :=
  busTicks_bind (fetchCycles_ticked 3 s) (fetchCycles_busTicks 3 s) fun _ u hu => by
    have hidx : j.value u = j.value s := by rw [Index.value_ticked hu]; cases j <;> rfl
    rw [hidx]
    exact busTicks_map (cycleRead_busTicks _ u)

theorem eaIzx_busTicks (z : Byte) (s : State) :
    Res.Spec False (eaIzx z s) fun _ u =>
      BusTicks (readsOf (s.fetchAddresses 2 ++ [zpAddr z, zpAddr (z + s.x), zpAddr (z + s.x + 1)])) s u := by
  refine busTicks_bind (k := readsOf [zpAddr z, zpAddr (z + s.x), zpAddr (z + s.x + 1)]) (fetchCycles_ticked 2 s)
    (fetchCycles_busTicks 2 s) fun _ u hu => ?_
  refine busTicks_bind (cycleRead_spec hu False.elim) (cycleRead_busTicks (zpAddr z) u) fun _ w hw => ?_
  rw [hw.1.x]
  exact readPointer_busTicks (z + s.x) w

theorem baseIzy_busTicks (z : Byte) (s : State) :
    Res.Spec False (baseIzy z s) fun _ u =>
      BusTicks (readsOf (s.fetchAddresses 2 ++ [zpAddr z, zpAddr (z + 1)])) s u :=
  busTicks_then (fetchCycles_busTicks 2 s) fun _ u => readPointer_busTicks z u

theorem eaIzy_busTicks {z : Byte} (hlo : s.Stored (zpAddr z)) (hhi : s.Stored (zpAddr (z + 1))) :
    Res.Spec False (eaIzy z s) fun _ u => BusTicks (readsOf (s.fetchAddresses 2 ++
      [zpAddr z, zpAddr (z + 1), unfixedAddr (s.pointerAt z) s.y])) s u :=
  busTicks_bind (baseIzy_spec z False.elim) (baseIzy_busTicks z s) fun base u hu => by
    rw [hu.1.y, hu.2 hlo hhi]
    exact busTicks_map (cycleRead_busTicks _ u)

theorem readsOf_append (as bs : List Word) : readsOf (as ++ bs) = readsOf as ++ readsOf bs := List.map_append

section Stores

variable {mode : Mode} {opnd : Word} {e : Res Word}

/-- Up to the effective address: the instruction's bytes, then every data address but the last
(41_addressing_modes.md R184 to R189). -/
theorem storeEa_busTicks (he : storeEa mode opnd s = some e) (hd : ∀ a ∈ s.dataAddresses mode opnd, s.Stored a) :
    Res.Spec False e fun _ u => BusTicks
      (readsOf (s.fetchAddresses (1 + mode.operandBytes) ++ (s.dataAddresses mode opnd).dropLast)) s u := by
  cases mode <;> cases he
  case zp => exact busTicks_map (fetchCycles_busTicks 2 s)
  case zpx => exact eaZpIdx_busTicks .x _ s
  case zpy => exact eaZpIdx_busTicks .y _ s
  case abs => exact busTicks_map (fetchCycles_busTicks 3 s)
  case abx => exact eaAbsIdx_busTicks .x _ s
  case aby => exact eaAbsIdx_busTicks .y _ s
  case izx => exact eaIzx_busTicks _ s
  case izy =>
    simp only [State.dataAddresses, List.forall_mem_cons] at hd
    obtain ⟨hlo, hhi, -⟩ := hd
    exact eaIzy_busTicks hlo hhi

/-- The last data address is the effective one. -/
theorem dataAddresses_of_storeEa (he : storeEa mode opnd s = some e) :
    (s.dataAddresses mode opnd).dropLast ++ (s.effectiveAddress mode opnd).toList = s.dataAddresses mode opnd := by
  cases mode <;> first | rfl | cases he

/-- A sequence that goes on with a read at the effective address. -/
theorem storeEa_read_busTicks {f : Word → State → Res Unit} (he : storeEa mode opnd s = some e)
    (hd : ∀ a ∈ s.dataAddresses mode opnd, s.Stored a)
    (hf : ∀ ea u, s.effectiveAddress mode opnd = some ea → Res.Spec False (f ea u) fun _ w =>
      BusTicks ((false, ea) :: k) u w) :
    Res.Spec False (e.bind f) fun _ w => BusTicks
      (readsOf (s.fetchAddresses (1 + mode.operandBytes) ++ s.dataAddresses mode opnd) ++ k) s w := by
  refine busTicks_bind (k := readsOf (s.effectiveAddress mode opnd).toList ++ k)
    (storeEa_spec he False.elim False.elim) (storeEa_busTicks he hd) (fun ea u hu => ?_) ?_
  · rw [hu.2 hd]
    exact hf ea u (hu.2 hd)
  · rw [← List.append_assoc, ← readsOf_append, List.append_assoc (s.fetchAddresses _), dataAddresses_of_storeEa he]

end Stores

/-! ### The classes READ, WRITE and READ_MODIFY_WRITE -/

theorem readAt_busTicks (op : ReadOp) (ea : Word) (s : State) :
    Res.Spec False (readAt op ea s) fun _ u => BusTicks [(false, ea)] s u :=
  lastCycle_busTicks (oneAccess_bind (busRead_oneAccess ea s) fun v u => readOp_noAccess op v u)

/-- One read, or two across a page (41_addressing_modes.md R187, R189). -/
theorem readIndexed_busTicks (op : ReadOp) (base : Word) (idx : Byte) (s : State) :
    Res.Spec False (readIndexed op base idx s) fun _ u => BusTicks
      (readsOf (if !pageCrossed base idx then [unfixedAddr base idx] else [unfixedAddr base idx, indexedAddr base idx]))
      s u := by
  unfold readIndexed
  cases pageCrossed base idx with
  | true => exact busTicks_then (cycleRead_busTicks _ s) fun _ u => readAt_busTicks op _ u
  | false => exact readAt_busTicks op _ s

/-- An indexed read after others: both data addresses, or all but the last. -/
theorem readsOf_indexed (f d : List Word) (a b : Word) (c : Bool) :
    readsOf (f ++ if c then (d ++ [a, b]).dropLast else d ++ [a, b]) =
      readsOf (f ++ d) ++ readsOf (if c then [a] else [a, b]) := by
  cases c <;> simp [readsOf]

theorem readForm_busTicks (op : ReadOp) {mode : Mode} {opnd : Word} (hd : ∀ a ∈ s.dataAddresses mode opnd, s.Stored a) :
    Res.Spec False (readForm op mode opnd s) fun _ u => BusTicks
      (readsOf (s.fetchAddresses (1 + mode.operandBytes) ++
        if s.readEndsUnfixed mode opnd then (s.dataAddresses mode opnd).dropLast else s.dataAddresses mode opnd)) s u := by
  cases mode with
  | imp | acc | rel | ind => exact .fault
  | imm =>
    refine busTicks_bind (fetchCycles_ticked 1 s) (fetchCycles_busTicks 1 s) (fun _ u hu => lastCycle_busTicks ?_) rfl
    have hfetch := fetchByte_oneAccess u
    rw [hu.pc] at hfetch
    exact oneAccess_bind hfetch fun _ w => readOp_noAccess op _ w
  | zp | zpx | zpy | abs | izx => exact storeEa_read_busTicks (k := []) rfl hd fun ea u _ => readAt_busTicks op ea u
  | abx =>
    refine busTicks_bind (fetchCycles_ticked 3 s) (fetchCycles_busTicks 3 s) (fun _ u hu => ?_)
      (readsOf_indexed (s.fetchAddresses 3) [] _ _ _)
    rw [Index.value_ticked hu]
    exact readIndexed_busTicks op opnd s.x u
  | aby =>
    refine busTicks_bind (fetchCycles_ticked 3 s) (fetchCycles_busTicks 3 s) (fun _ u hu => ?_)
      (readsOf_indexed (s.fetchAddresses 3) [] _ _ _)
    rw [Index.value_ticked hu]
    exact readIndexed_busTicks op opnd s.y u
  | izy =>
    simp only [State.dataAddresses, List.forall_mem_cons] at hd
    obtain ⟨hlo, hhi, -⟩ := hd
    refine busTicks_bind (baseIzy_spec _ False.elim) (baseIzy_busTicks _ s) (fun base u hu => ?_)
      (readsOf_indexed (s.fetchAddresses 2) [_, _] _ _ _)
    rw [hu.1.y, hu.2 hlo hhi]
    exact readIndexed_busTicks op _ s.y u

theorem writeForm_busTicks (sr : StoreReg) {mode : Mode} {opnd : Word}
    (hd : ∀ a ∈ s.dataAddresses mode opnd, s.Stored a) :
    Res.Spec False (writeForm sr mode opnd s) fun _ u => BusTicks
      (readsOf (s.fetchAddresses (1 + mode.operandBytes) ++ (s.dataAddresses mode opnd).dropLast) ++
        writesOf (s.effectiveAddress mode opnd).toList) s u := by
  unfold writeForm
  split
  next e he =>
    refine busTicks_bind (storeEa_spec he False.elim False.elim) (storeEa_busTicks he hd) fun ea u hu => ?_
    rw [hu.2 hd]
    exact lastCycle_busTicks (busWrite_oneAccess ea _ u)
  next => exact .fault

theorem rmwAt_busTicks (op : RmwOp) (ea : Word) (s : State) :
    Res.Spec False (rmwAt op ea s) fun _ u => BusTicks [(false, ea), (true, ea), (true, ea)] s u :=
  busTicks_then (k := [(true, ea), (true, ea)]) (cycleRead_busTicks ea s) fun v u =>
    busTicks_then (cycle_busTicks (busWrite_oneAccess ea v u)) fun _ w =>
      lastCycle_busTicks (oneAccess_bind (busWrite_oneAccess ea _ w) fun _ _ => .ok ⟨rfl, rfl⟩)

/-- Mode ACC and class IMPLIED: the opcode, then a discarded read at PC in the last tick. -/
theorem discardedRead_busTicks {f : State → State} (hf : ∀ u, NoAccess u (f u)) :
    Res.Spec False ((fetchCycles 1 s).bind fun _ s => lastCycle ((busRead s.pc s).bind fun _ s => .ok () (f s))) fun _ u =>
      BusTicks (readsOf (s.fetchAddresses 2)) s u := by
  refine busTicks_bind (fetchCycles_ticked 1 s) (fetchCycles_busTicks 1 s) (fun _ u hu => lastCycle_busTicks ?_) rfl
  rw [hu.pc]
  exact oneAccess_bind (busRead_oneAccess _ u) fun _ w => .ok (hf w)

theorem rmwForm_busTicks (op : RmwOp) {mode : Mode} {opnd : Word} (hd : ∀ a ∈ s.dataAddresses mode opnd, s.Stored a) :
    Res.Spec False (rmwForm op mode opnd s) fun _ u => BusTicks
      (if mode = .acc then readsOf (s.fetchAddresses 2)
        else readsOf (s.fetchAddresses (1 + mode.operandBytes) ++ s.dataAddresses mode opnd) ++
          writesOf ((s.effectiveAddress mode opnd).toList ++ (s.effectiveAddress mode opnd).toList)) s u := by
  unfold rmwForm
  split
  next => exact discardedRead_busTicks (f := fun s => s.setAFlags (op.apply s.a s.p)) fun _ => ⟨rfl, rfl⟩
  next hm =>
    rw [if_neg hm]
    split
    next e he =>
      refine storeEa_read_busTicks he hd fun ea u hea => ?_
      rw [hea]
      exact rmwAt_busTicks op ea u
    next => exact .fault

/-! ### Branches and jumps -/

theorem branchLand_busTicks (a target : Word) (s : State) :
    Res.Spec False (lastCycle (branchLand a target s)) fun _ u => BusTicks [(false, a)] s u :=
  lastCycle_busTicks (oneAccess_bind (busRead_oneAccess a s) fun _ _ => .ok ⟨rfl, rfl⟩)

/-- The tick that fetches the operand byte of a branch leaves PC after the instruction. -/
theorem branchOperand_ticked (hu : Ticked 1 { s with pc := s.pc + 1#16 } u) :
    Res.Spec False (cycle (fetchByte u)) fun _ w => Ticked 2 { s with pc := s.pc + 2 } w :=
  cycle_spec (fetchByte_spec hu False.elim) fun _ w hw => by
    have hpc : s.pc + 1#16 + 1 = s.pc + 2 := by rw [BitVec.add_assoc]; rfl
    have := hw.1.count
    simpa only [hpc] using this

theorem branchRel_busTicks (c : Cond) (d : Byte) (s : State) :
    Res.Spec False (branchRel c d s) fun _ u =>
      BusTicks (readsOf (s.fetchAddresses 2 ++ s.branchAddresses (c.holds s.p) d)) s u := by
  refine busTicks_bind (k := (false, s.pc + 1) :: readsOf (s.branchAddresses (c.holds s.p) d)) (fetchCycles_ticked 1 s)
    (fetchCycles_busTicks 1 s) (fun _ u hu => ?_) rfl
  have hpc : u.pc = s.pc + 1 := hu.pc
  rw [show s.p = u.p from hu.p.symm, ← hpc]
  cases c.holds u.p with
  | false => exact lastCycle_busTicks (fetchByte_oneAccess u)
  | true =>
    refine busTicks_bind (branchOperand_ticked hu) (cycleFetch_busTicks u) fun _ w hw => ?_
    rw [State.branchAddresses, if_pos rfl, show s.pc + 2 = w.pc from hw.pc.symm]
    dsimp only
    split
    next =>
      exact branchLand_busTicks _ _ w
    next =>
      refine busTicks_bind (cycleRead_spec (Ticked.refl w) False.elim) (cycleRead_busTicks _ w) fun _ x hx => ?_
      rw [show w.pc = x.pc from hx.1.pc.symm]
      exact branchLand_busTicks _ _ x

theorem jmpAbs_busTicks (w : Word) (s : State) :
    Res.Spec False ((fetchCycles 2 s).bind fun _ s =>
      lastCycle ((busRead s.pc s).bind fun _ s => .ok () { s with pc := w })) fun _ u =>
      BusTicks (readsOf (s.fetchAddresses 3)) s u := by
  refine busTicks_bind (fetchCycles_ticked 2 s) (fetchCycles_busTicks 2 s) (fun _ u hu => lastCycle_busTicks ?_) rfl
  rw [hu.pc]
  exact oneAccess_bind (busRead_oneAccess _ u) fun _ _ => .ok ⟨rfl, rfl⟩

theorem jmpInd_busTicks (w : Word) (s : State) :
    Res.Spec False ((fetchCycles 3 s).bind fun _ s => (cycle (busRead w s)).bind fun tlo s =>
      lastCycle ((busRead (indirectHiAddr w) s).bind fun thi s => .ok () { s with pc := mkWord thi tlo })) fun _ u =>
      BusTicks (readsOf (s.fetchAddresses 3 ++ [w, indirectHiAddr w])) s u :=
  busTicks_then (k := readsOf [w, indirectHiAddr w]) (fetchCycles_busTicks 3 s) fun _ u =>
    busTicks_then (cycleRead_busTicks w u) fun _ x =>
      lastCycle_busTicks (oneAccess_bind (busRead_oneAccess _ x) fun _ _ => .ok ⟨rfl, rfl⟩)

/-! ### The stack -/

theorem stackHead_busTicks (s : State) :
    Res.Spec False (stackHead s) fun _ u => BusTicks (readsOf (s.fetchAddresses 2)) s u := by
  refine busTicks_bind (fetchCycles_ticked 1 s) (fetchCycles_busTicks 1 s) (fun _ u hu => ?_) rfl
  rw [hu.pc]
  exact busTicks_map (cycleRead_busTicks _ u)

/-- A stack instruction: the two reads at PC, which leave SP, then the accesses `k`. -/
theorem stackInstr_busTicks {f : State → Res Unit}
    (hf : ∀ u, u.sp = s.sp → Res.Spec False (f u) fun _ w => BusTicks k u w) :
    Res.Spec False ((stackHead s).bind fun _ s => f s) fun _ w => BusTicks (readsOf (s.fetchAddresses 2) ++ k) s w :=
  busTicks_bind (stackHead_spec False.elim) (stackHead_busTicks s) fun _ u hu => hf u hu.sp

theorem cyclePush_busTicks (v : Byte) (s : State) :
    Res.Spec False (cycle (push v s)) fun _ u => BusTicks [(true, stackAddr s.sp)] s u :=
  cycle_busTicks (push_oneAccess v s)

theorem cyclePush_sp_pc (v : Byte) (s : State) :
    Res.Spec False (cycle (push v s)) fun _ u => u.sp = s.sp - 1 ∧ u.pc = s.pc :=
  (cyclePush_spec (Ticked.refl s) False.elim).mono fun _ _ ⟨_, _, _, hu⟩ => ⟨hu.sp, hu.pc⟩

theorem cyclePull_busTicks (s : State) :
    Res.Spec False (cycle (stackReadInc s)) fun _ u => BusTicks [(false, stackAddr s.sp)] s u :=
  cycle_busTicks (stackReadInc_oneAccess s)

theorem cyclePull_sp (s : State) : Res.Spec False (cycle (stackReadInc s)) fun _ u => u.sp = s.sp + 1 :=
  (cyclePull_spec (Ticked.refl s) False.elim).mono fun _ _ ⟨_, hu, _⟩ => hu.sp

theorem cyclePullStatus_sp (s : State) : Res.Spec False (cycle (pullStatusByte s)) fun _ u => u.sp = s.sp + 1 := by
  refine cycle_spec (P := fun _ u => u.sp = s.sp + 1) ?_ fun _ _ hu => hu
  refine (stackRead_spec (Ticked.refl s) False.elim).bind fun b u hu => ?_
  have hflags := hu.1.update fun x => { x with p := returnedFlags b }
  exact (incSp_spec hflags False.elim).mono fun _ _ hw => hw.2.sp

/-- The last tick of a pull. -/
theorem lastPull_busTicks (f : Byte → State → State) (hf : ∀ v u, NoAccess u (f v u)) (s : State) :
    Res.Spec False (lastCycle ((stackRead s).bind fun v s => .ok () (f v s))) fun _ u =>
      BusTicks [(false, stackAddr s.sp)] s u :=
  lastCycle_busTicks (oneAccess_bind (stackRead_oneAccess s) fun v u => .ok (hf v u))

theorem sp_add_two (sp : Byte) : sp + 1 + 1 = sp + 2 := by rw [BitVec.add_assoc]; rfl

theorem sp_add_three (sp : Byte) : sp + 2 + 1 = sp + 3 := by rw [BitVec.add_assoc]; rfl

theorem sp_sub_two (sp : Byte) : sp - 1 - 1 = sp - 2 := by rw [BitVec.sub_sub]; rfl

theorem pullInstr_busTicks (f : Byte → State → State) (hf : ∀ v u, NoAccess u (f v u)) (s : State) :
    Res.Spec False ((stackHead s).bind fun _ s => (cycle (stackReadInc s)).bind fun _ s =>
      lastCycle ((stackRead s).bind fun v s => .ok () (f v s))) fun _ u =>
      BusTicks (readsOf (s.fetchAddresses 2) ++ readsOf [stackAddr s.sp, stackAddr (s.sp + 1)]) s u :=
  stackInstr_busTicks fun u hu => by
    rw [← hu]
    refine busTicks_bind (cyclePull_sp u) (cyclePull_busTicks u) fun _ w hw => ?_
    rw [← hw]
    exact lastPull_busTicks f hf w

theorem jsr_busTicks (w : Word) (s : State) :
    Res.Spec False ((fetchCycles 2 s).bind fun _ s => (cycle (stackRead s)).bind fun _ s =>
      (cycle (push (hiByte s.pc) s)).bind fun _ s => (cycle (push (loByte s.pc) s)).bind fun _ s =>
      lastCycle ((busRead s.pc s).bind fun hi s => .ok () { s with pc := mkWord hi (loByte w) })) fun _ u =>
      BusTicks (readsOf (s.fetchAddresses 2 ++ [stackAddr s.sp]) ++
        writesOf [stackAddr s.sp, stackAddr (s.sp - 1)] ++ readsOf [s.pc + 2]) s u := by
  refine busTicks_bind (k := [(false, stackAddr s.sp), (true, stackAddr s.sp), (true, stackAddr (s.sp - 1)),
    (false, s.pc + 2)]) (fetchCycles_ticked 2 s) (fetchCycles_busTicks 2 s) (fun _ u hu => ?_) rfl
  rw [show s.sp = u.sp from hu.sp.symm, show s.pc + 2 = u.pc from hu.pc.symm]
  refine busTicks_bind (k := [(true, stackAddr u.sp), (true, stackAddr (u.sp - 1)), (false, u.pc)])
    (cycleRead_spec (Ticked.refl u) False.elim) (cycleRead_busTicks (stackAddr u.sp) u) fun _ x ⟨hx, _⟩ => ?_
  rw [← hx.sp, ← hx.pc]
  refine busTicks_bind (k := [(true, stackAddr (x.sp - 1)), (false, x.pc)]) (cyclePush_sp_pc _ x)
    (cyclePush_busTicks _ x) fun _ y ⟨hsp, hpc⟩ => ?_
  rw [← hsp, ← hpc]
  refine busTicks_bind (cyclePush_sp_pc _ y) (cyclePush_busTicks _ y) fun _ z ⟨_, hpc⟩ => ?_
  rw [← hpc]
  exact lastCycle_busTicks (oneAccess_bind (busRead_oneAccess _ z) fun _ _ => .ok ⟨rfl, rfl⟩)

/-- RTS reads the word it returns to, which over a stored stack is the one above SP. -/
theorem rts_busTicks (hlo : s.Stored (stackAddr (s.sp + 1))) (hhi : s.Stored (stackAddr (s.sp + 2))) :
    Res.Spec False ((stackHead s).bind fun _ s => (cycle (stackReadInc s)).bind fun _ s =>
      (cycle (stackReadInc s)).bind fun lo s => (cycle (stackRead s)).bind fun hi s =>
      lastCycle ((busRead (mkWord hi lo) s).bind fun _ s => .ok () { s with pc := mkWord hi lo + 1 })) fun _ u =>
      BusTicks (readsOf (s.fetchAddresses 2) ++ readsOf (s.stackAddresses .rts)) s u := by
  simp only [State.stackAddresses, State.stackWord, ← sp_add_two] at hhi ⊢
  refine busTicks_bind (stackHead_spec False.elim) (stackHead_busTicks s) fun _ u hu => ?_
  have hpull := cyclePull_busTicks u
  rw [hu.sp] at hpull
  refine busTicks_bind (k := readsOf [stackAddr (s.sp + 1), stackAddr (s.sp + 1 + 1),
    mkWord (s.byteAt (stackAddr (s.sp + 1 + 1))) (s.byteAt (stackAddr (s.sp + 1)))]) (cyclePull_spec hu False.elim) hpull
    fun _ v ⟨_, hv, _⟩ => ?_
  have hpull := cyclePull_busTicks v
  rw [hv.sp] at hpull
  refine busTicks_bind (k := readsOf [stackAddr (s.sp + 1 + 1),
    mkWord (s.byteAt (stackAddr (s.sp + 1 + 1))) (s.byteAt (stackAddr (s.sp + 1)))]) (cyclePull_spec hv False.elim) hpull
    fun lo w ⟨_, hw, elo⟩ => ?_
  rw [stackRead, hw.sp]
  refine busTicks_bind (cycleRead_spec hw False.elim) (cycleRead_busTicks _ w) fun hi x ⟨_, ehi⟩ => ?_
  have elo : lo = s.byteAt (stackAddr (s.sp + 1)) := elo hlo
  have ehi : hi = s.byteAt (stackAddr (s.sp + 1 + 1)) := ehi hhi
  rw [← elo, ← ehi]
  exact lastCycle_busTicks (oneAccess_bind (busRead_oneAccess _ x) fun _ _ => .ok ⟨rfl, rfl⟩)

/-- Three pushes, then the two bytes of the vector. -/
theorem takeException_busTicks (v : VectorId) (soft : Bool) (s : State) :
    Res.Spec False (takeException v soft s) fun _ u =>
      BusTicks (writesOf [stackAddr s.sp, stackAddr (s.sp - 1), stackAddr (s.sp - 2)] ++
        readsOf [v.addr, v.addr + 1]) s u := by
  refine busTicks_bind (k := [(true, stackAddr (s.sp - 1)), (true, stackAddr (s.sp - 2)), (false, v.addr),
    (false, v.addr + 1)]) (cyclePush_sp_pc _ s) (cyclePush_busTicks _ s) fun _ u hu => ?_
  rw [← sp_sub_two, ← hu.1]
  refine busTicks_bind (k := [(true, stackAddr (u.sp - 1)), (false, v.addr), (false, v.addr + 1)])
    (cyclePush_sp_pc _ u) (cyclePush_busTicks _ u) fun _ w hw => ?_
  rw [← hw.1]
  refine busTicks_then (k := [(false, v.addr), (false, v.addr + 1)])
    (cycle_busTicks (oneAccess_bind (push_oneAccess _ w) fun _ _ => .ok ⟨rfl, rfl⟩)) fun _ x => ?_
  refine busTicks_then (cycle_busTicks (oneAccess_bind (busRead_oneAccess _ x) fun _ _ => .ok ⟨rfl, rfl⟩)) fun _ y => ?_
  exact lastCycle_busTicks (oneAccess_bind (busRead_oneAccess _ y) fun _ _ => .ok ⟨rfl, rfl⟩)

/-- BRK skips the byte after its opcode, and takes the exception. -/
theorem brk_busTicks (s : State) :
    Res.Spec False ((fetchCycles 2 s).bind fun _ s => takeException .irq true s) fun _ u =>
      BusTicks (readsOf (s.fetchAddresses 2) ++ (writesOf [stackAddr s.sp, stackAddr (s.sp - 1), stackAddr (s.sp - 2)] ++
        readsOf [vectorIrq, vectorIrq + 1])) s u := by
  refine busTicks_bind (fetchCycles_ticked 2 s) (fetchCycles_busTicks 2 s) (fun _ u hu => ?_) rfl
  rw [show s.sp = u.sp from hu.sp.symm]
  exact takeException_busTicks .irq true u

theorem returnFromException_busTicks (s : State) :
    Res.Spec False (returnFromException s) fun _ u => BusTicks (readsOf (s.stackAddresses .rti)) s u := by
  refine busTicks_bind (k := readsOf [stackAddr (s.sp + 1), stackAddr (s.sp + 2), stackAddr (s.sp + 3)])
    (cyclePull_sp s) (cyclePull_busTicks s) fun _ u hu => ?_
  rw [← sp_add_three, ← sp_add_two, ← hu]
  refine busTicks_bind (k := readsOf [stackAddr (u.sp + 1), stackAddr (u.sp + 1 + 1)])
    (cyclePullStatus_sp u) (cycle_busTicks (pullStatusByte_oneAccess u)) fun _ w hw => ?_
  rw [← hw]
  refine busTicks_bind (cyclePull_sp w) (cyclePull_busTicks w) fun lo x hx => ?_
  rw [← hx]
  exact lastPull_busTicks (fun hi s => { s with pc := mkWord hi lo, inISR := false }) (fun _ _ => ⟨rfl, rfl⟩) x

theorem hlt_busTicks (s : State) :
    Res.Spec False (lastCycle ((fetchByte s).bind fun _ s => .ok () { s with halted := true })) fun _ u =>
      BusTicks (readsOf (s.fetchAddresses 1)) s u := by
  rw [fetchAddresses_succ]
  exact lastCycle_busTicks (oneAccess_bind (fetchByte_oneAccess s) fun _ _ => .ok ⟨rfl, rfl⟩)

/-! ### Every instruction -/

/-- The data of a READ, WRITE or READ_MODIFY_WRITE instruction are among the addresses it touches. -/
theorem dataAddresses_stored (hs : s.TouchesStored i) (h : i.mnemonic.instrClass = .read ∨
    i.mnemonic.instrClass = .write ∨ i.mnemonic.instrClass = .readModifyWrite) :
    ∀ a ∈ s.dataAddresses i.mode i.operand, s.Stored a := fun a ha => hs a (by
  rcases h with h | h | h <;> simp only [State.touched, h] <;> exact List.mem_append_right _ ha)

theorem stackAddresses_stored (hs : s.TouchesStored i) (h : i.mnemonic.instrClass = .stack) :
    ∀ a ∈ s.stackAddresses i.mnemonic, s.Stored a := (touchesStored_of_stack hs rfl h).2

theorem instrClass_of_branch {mn : Mnemonic} {c : Cond} (h : operationOf mn = .branch c) : mn.instrClass = .branch := by
  cases mn <;> first | rfl | cases h

theorem instrClass_of_implied {mn : Mnemonic} {op : ImpliedOp} (h : operationOf mn = .implied op) :
    mn.instrClass = .implied := by
  cases mn <;> first | rfl | cases h

/-- The predicate of a branch is the condition of its operation (45_control_flow.md R325 to R332). -/
theorem branchPredicate_eq {mn : Mnemonic} {c : Cond} (h : operationOf mn = .branch c) (p : Flags) :
    branchPredicate mn p = c.holds p := by
  cases mn <;> cases h <;> simp [branchPredicate, Cond.holds]

theorem branch_busSequence {c : Cond} (hop : operationOf i.mnemonic = .branch c) (s : State) :
    s.busSequence i = readsOf (s.fetchAddresses 2 ++ s.branchAddresses (c.holds s.p) (loByte i.operand)) := by
  simp only [State.busSequence, instrClass_of_branch hop, branchPredicate_eq hop]

theorem implied_busSequence {op : ImpliedOp} (hop : operationOf i.mnemonic = .implied op) (s : State) :
    s.busSequence i = readsOf (s.fetchAddresses 2) := by
  have hne : i ≠ .hlt := by rintro rfl; cases hop
  simp only [State.busSequence, instrClass_of_implied hop, if_neg hne]

/-- An instruction that answers has made the accesses of its sequence, whichever operation it has. -/
theorem exec_busTicks (hs : s.TouchesStored i) (h : exec i s = .next t) : BusTicks (s.busSequence i) s t := by
  cases hop : operationOf i.mnemonic with
  | read op =>
    have hclass := instrClass_of_read hop
    rw [exec_read hop] at h
    simp only [State.busSequence, hclass, instrSize]
    exact (readForm_busTicks op (dataAddresses_stored hs (.inl hclass))).outcome h
  | write sr =>
    have hclass := instrClass_of_write hop
    rw [exec_write hop] at h
    simp only [State.busSequence, hclass, instrSize]
    exact (writeForm_busTicks sr (dataAddresses_stored hs (.inr (.inl hclass)))).outcome h
  | rmw op =>
    have hclass := instrClass_of_rmw hop
    rw [exec_rmw hop] at h
    simp only [State.busSequence, hclass, instrSize]
    exact (rmwForm_busTicks op (dataAddresses_stored hs (.inr (.inr hclass)))).outcome h
  | branch c =>
    rw [exec_branch hop] at h
    rw [branch_busSequence hop]
    exact (branchRel_busTicks c _ s).outcome h
  | implied op =>
    rw [exec_implied hop] at h
    rw [implied_busSequence hop]
    exact (discardedRead_busTicks (impliedOp_noAccess op)).outcome h
  | jmp =>
    cases i <;> first | (cases hop; done) | skip
    case jmpAbs w => exact (jmpAbs_busTicks w s).outcome h
    case jmpInd w => exact (jmpInd_busTicks w s).outcome h
  | jsr =>
    obtain ⟨w, rfl⟩ : ∃ w, i = .jsr w := by cases i <;> first | (cases hop; done) | exact ⟨_, rfl⟩
    exact (jsr_busTicks w s).outcome h
  | rts =>
    obtain rfl : i = .rts := by cases i <;> first | (cases hop; done) | rfl
    have hstack := stackAddresses_stored hs rfl
    simp only [State.stackAddresses, Instr.mnemonic, List.forall_mem_cons] at hstack
    obtain ⟨-, hlo, hhi, -⟩ := hstack
    exact (rts_busTicks hlo hhi).outcome h
  | pha =>
    obtain rfl : i = .pha := by cases i <;> first | (cases hop; done) | rfl
    exact (stackInstr_busTicks fun u hu => lastCycle_busTicks (hu ▸ push_oneAccess u.a u)).outcome h
  | php =>
    obtain rfl : i = .php := by cases i <;> first | (cases hop; done) | rfl
    exact (stackInstr_busTicks fun u hu => lastCycle_busTicks (hu ▸ push_oneAccess (packBreak u.p) u)).outcome h
  | pla =>
    obtain rfl : i = .pla := by cases i <;> first | (cases hop; done) | rfl
    exact (pullInstr_busTicks (fun v s => s.setA v) (fun _ _ => ⟨rfl, rfl⟩) s).outcome h
  | plp =>
    obtain rfl : i = .plp := by cases i <;> first | (cases hop; done) | rfl
    exact (pullInstr_busTicks (fun b s => { s with p := pulledFlags b s.p }) (fun _ _ => ⟨rfl, rfl⟩) s).outcome h
  | brk =>
    obtain rfl : i = .brk := by cases i <;> first | (cases hop; done) | rfl
    exact (brk_busTicks s).outcome h
  | rti =>
    obtain rfl : i = .rti := by cases i <;> first | (cases hop; done) | rfl
    refine (stackInstr_busTicks (k := readsOf (s.stackAddresses .rti)) fun u hu => ?_).outcome h
    simp only [State.stackAddresses, ← hu]
    exact returnFromException_busTicks u
  | hlt =>
    obtain rfl : i = .hlt := by cases i <;> first | (cases hop; done) | rfl
    exact (hlt_busTicks s).outcome h

/-! ### What no instruction touches (70_reset_and_hazards.md R470) -/

theorem Ended.fixture (h : Ended r t) : SameFixture r t := ⟨h.queue, h.fault, h.hookArmed, h.regions, h.params⟩

theorem Operated.fixture {stop : Bool} (h : Operated stop s r) : SameFixture s r := by
  rw [Operated] at h
  rw [h]
  exact ⟨rfl, rfl, rfl, rfl, rfl⟩

theorem SameFixture.trans (h : SameFixture s r) (h' : SameFixture r t) : SameFixture s t := by
  obtain ⟨hqueue, hfault, hhook, hregions, hparams⟩ := h
  obtain ⟨hqueue', hfault', hhook', hregions', hparams'⟩ := h'
  exact ⟨hqueue'.trans hqueue, hfault'.trans hfault, hhook'.trans hhook, hregions'.trans hregions, hparams'.trans hparams⟩

theorem operationOf_eq_hlt_iff : operationOf i.mnemonic = .hlt ↔ i = .hlt :=
  ⟨fun h => eq_hlt_of_mnemonic (operationOf_eq_hlt h), fun h => by rw [h]; rfl⟩

/-- Settles O28: an instruction is a change of registers, flags and storage and its ticks, each with its one access. -/
theorem instructionFrame : Obligations.InstructionFrame := by
  unfold Obligations.InstructionFrame
  intro i s t h
  obtain ⟨r, ht, hr⟩ := exec_operated h
  obtain ⟨hlt, hle⟩ := ht.cycles
  rw [hr.cycles] at hlt hle
  refine ⟨hr.fixture.trans ht.fixture, hlt, hle, ht.tmp, ?halted, fun hs => exec_busTicks hs h⟩
  case halted =>
    rw [ht.halted, hr.halted, Bool.or_comm s.halted]
    simp only [operationOf_eq_hlt_iff]

end Sys2Proof.Machine
end
